-- ==== Sys2Proof/Word.lean ====
section
/-!
DEFINITION. The word types of the Sadrel 3216: what the manual treats as bits, and the model's time.
-/

namespace Sys2Proof

/-- A byte of a frame body or of the configuration image, an 8-bit level reading, a LEVEL value (R3, R190, R191). -/
abbrev Byte := BitVec 8

/-- A station number or destination as a frame carries it: 6 bits (R68). 0 names none, 63 as a destination means all. -/
abbrev Station := BitVec 6

/-- A point number as a frame carries it: 10 bits (R1). -/
abbrev PointField := BitVec 10

/-- A change count, 0 to 15 and wrapping (R9). -/
abbrev Count := BitVec 4

/-- A refresh class, 0 to 3 (R4). -/
abbrev RefreshClass := BitVec 2

/-- A diagnostic counter, 0 to 65535 (R175). -/
abbrev Counter := BitVec 16

/-- A time or a duration in microseconds, on the clock of the model (log 2). -/
abbrev Time := Nat

end Sys2Proof
end

