-- ==== Sys2Proof/Config.lean ====
section
/-!
DEFINITION. What is fixed for every Sadrel 3216 (00_scope.md section 5, "Shared numbers"), and the one value the manual
leaves open.
-/

namespace Sys2Proof.Config

/-- One millisecond on the model's clock. -/
def millisecond : Time := 1000

/-- One second on the model's clock. -/
def second : Time := 1000000

/-- The Point Table holds up to 64 entries (R5). -/
def maxPoints : Nat := 64

/-- At most 32 entries are OWNED (R5). -/
def maxOwned : Nat := 32

/-- A publication frame carries at most 6 records (R50). -/
def maxRecords : Nat := 6

/-- The solicit list holds at most 16 entries (R107). -/
def maxSolicits : Nat := 16

/-- A SOLICIT frame lists at most 8 points (R111). -/
def maxSolicited : Nat := 8

/-- A solicit entry that reaches 4 attempts leaves the list (R113). -/
def maxAttempts : Nat := 4

/-- A SENT or COVERED entry waits 250 ms (R112, R116). -/
def solicitWait : Time := 250 * millisecond

/-- A backoff mark lasts 5 s (R113, R114). -/
def backoff : Time := 5 * second

/-- The roster holds at most 24 entries (R125). -/
def maxPeers : Nat := 24

/-- The period assumed before a peer's first valid presence frame (R132). -/
def assumedPeriod : Time := 2000 * millisecond

/-- Boot-flagged presence frames after entering RUNNING (R123). -/
def bootFrames : Nat := 3

/-- The consecutive transmit failure that silences the station is the sixth (R82). -/
def failuresBeforeSilence : Nat := 6

/-- The quarantine length after restart and after a completed probe, in seconds (R81, R84). -/
def firstQuarantine : Nat := 2

/-- The longest quarantine, in seconds (R84). -/
def longestQuarantine : Nat := 16

/-- An override list holds at most 4 entries (R145). -/
def maxOverrides : Nat := 4

/-- The reply queue holds at most 4 entries (R160). -/
def maxReplies : Nat := 4

/-- The recent-command table holds at most 8 entries (R162). -/
def maxRecent : Nat := 8

/-- A recent-command entry is removed at the age of 2 s (R162). -/
def recentLife : Time := 2 * second

/-- A pending restart ends at the latest 100 ms after acceptance (R166). -/
def restartBound : Time := 100 * millisecond

/-- A RESET low shorter than 10 µs is not an assertion (R176). -/
def resetHold : Time := 10

/-- The hysteresis of a BINARY point on a level pin (R28). -/
def hysteresis : Nat := 4

/-- The join window is at least 1000 ms (R185). -/
def shortestJoin : Time := 1000 * millisecond

/-- The longest body of a frame (R68). -/
def maxBody : Nat := 24

/-- The receive assembly buffer holds up to 29 characters: header, length byte, the longest body and the CRC (R75, R68). -/
def maxChars : Nat := 29

/-- The destination that means all stations (00_scope.md section 3). -/
def everyone : Station := 63

/-- FREE VALUE (log 19). R171 reports the time since a peer was last heard "in units of 100 ms" and does not say how a time
that is no whole number of units is rounded. For such a time, in microseconds, this says whether the unit count is rounded
up. Nothing in the model constrains it. -/
opaque peerAgeRoundsUp : Time → Bool

/-- FREE VALUE (log 29). A binding whose source is no mirrored point does not use its fallback, and its fallback bits may hold 3, which is no
code (R181, section 11.2). For such a binding of the given pin this is the code that the binding is held with. Nothing in the model
constrains it, and no evaluation comes to it (R142). -/
opaque unusedFallback : Nat → Fin 3

end Sys2Proof.Config
end

