-- ==== Sys2Proof/Syntax.lean ====
section
/-!
DEFINITION. The commands of the Sadrel 3216: one constructor of `Instr` for each row of spec/opcode_table.json, with the
operands the event of that row brings. A command that is not a timer's expiry carries `elapsed`, the time in microseconds since
the command before it (log 2); an expiry takes place at the time its timer holds (log 3).
-/

namespace Sys2Proof

/-- The four ways a configuration load fails (R180). -/
inductive LoadFailure
  | noAnswer
  | signature
  | length
  | imageCrc
  deriving DecidableEq, Repr

/-- The two classes of a request: COMMAND (class 0) and QUERY (class 5) (R158). -/
inductive RequestClass
  | command
  | query
  deriving DecidableEq, Repr

/-- The ten bits of a character as sampled at the middle of each bit time, recessive reading 1 (R63, R64): bit 0 is the start bit,
bits 1 to 8 the data bits, bit 9 the stop bit. -/
abbrev CharBits := BitVec 10

/-- A change of the line from recessive to dominant (R64, R65): the time since the command before it, and the samples of the character
begun at the change; a start bit that samples recessive makes it a glitch (log 30). -/
structure DominantChange where
  elapsed : Time
  bits : CharBits
  deriving DecidableEq, Repr

/-- What the pins show at the fill of the Point Table (R24): the digital level of IO0 to IO15 (bit i is IOi) and the 8-bit
conversion of IO0 to IO7. -/
structure PinInputs where
  digital : BitVec 16
  analog : Vector Byte 8
  deriving DecidableEq, Repr

/-- The commands of the block, in the order of spec/opcode_table.json. -/
inductive Instr
  /-- POWER_RESTART (R176). The supply rises through the threshold (`supplyAbove`) or falls below it, with RESET at the
  given level. -/
  | powerRestart (elapsed : Time) (supplyAbove resetHigh : Bool)
  /-- PIN_RESTART (R176). RESET goes low and has been held low for `held` microseconds. -/
  | pinRestart (elapsed : Time) (held : Time)
  /-- RESET_RELEASE (R176). RESET goes high. -/
  | resetRelease (elapsed : Time)
  /-- LOAD_COMPLETE (R179, R181 to R183). `memory` is what the memory answered from address 0; `straps` and `pins` are the
  levels read at the end of the load and at the fill. -/
  | loadComplete (elapsed : Time) (memory : List Byte) (straps : Station) (pins : PinInputs)
  /-- LOAD_FAILED (R180, R182, R183). -/
  | loadFailed (elapsed : Time) (failure : LoadFailure) (straps : Station)
  /-- JOIN_WINDOW_EXPIRY (R185). -/
  | joinWindowExpiry
  /-- LINE_IDLE_EVENT (R65). -/
  | lineIdleEvent (elapsed : Time)
  /-- TRANSMISSION_COMPLETE (R72). -/
  | transmissionComplete (elapsed : Time)
  /-- CONTENTION_LOST (R70). -/
  | contentionLost (elapsed : Time)
  /-- TRANSMIT_FAILURE (R71). -/
  | transmitFailure (elapsed : Time)
  /-- FRAME_DISCARDED (R75). The samples of the characters begun in the frame since the last one that the receive assembly took. -/
  | frameDiscarded (elapsed : Time) (samples : List CharBits)
  /-- DUPLICATE_DETECTION (R77, R186). A good frame whose sender is this station's own number. -/
  | duplicateDetection (elapsed : Time)
  /-- URGENT_PUBLISH (R88). -/
  | urgentPublish (elapsed : Time) (sender : Station) (body : List Byte)
  /-- ROUTINE_PUBLISH (R88). -/
  | routinePublish (elapsed : Time) (sender : Station) (body : List Byte)
  /-- SOLICIT (R115). -/
  | solicit (elapsed : Time) (sender : Station) (body : List Byte)
  /-- PRESENCE (R129). -/
  | presence (elapsed : Time) (sender : Station) (body : List Byte)
  /-- REPLY (R78). -/
  | reply (elapsed : Time) (sender dest : Station) (body : List Byte)
  /-- FORCE (R146). `rest` is the body after its kind byte: tag, output index, value, lease when well formed. -/
  | force (elapsed : Time) (sender dest : Station) (rest : List Byte)
  /-- RELEASE (R147). `rest`: tag, output index. -/
  | release (elapsed : Time) (sender dest : Station) (rest : List Byte)
  /-- RESTART (R166). `rest`: tag. -/
  | restart (elapsed : Time) (sender dest : Station) (rest : List Byte)
  /-- CLEAR_COUNTERS (R168). `rest`: tag. -/
  | clearCounters (elapsed : Time) (sender dest : Station) (rest : List Byte)
  /-- STATUS (R169). `rest`: tag. -/
  | status (elapsed : Time) (sender dest : Station) (rest : List Byte)
  /-- POINT_GROUP (R170). `rest`: tag, group, start index, count. -/
  | pointGroup (elapsed : Time) (sender dest : Station) (rest : List Byte)
  /-- PEER (R171). `rest`: tag, station number. -/
  | peer (elapsed : Time) (sender dest : Station) (rest : List Byte)
  /-- OUTPUT (R171, R157). `rest`: tag, output index. -/
  | output (elapsed : Time) (sender dest : Station) (rest : List Byte)
  /-- COUNTERS (R172). `rest`: tag, page. -/
  | counters (elapsed : Time) (sender dest : Station) (rest : List Byte)
  /-- UNKNOWN_REQUEST_KIND (R161). The whole body, its kind byte (if it has one) first. -/
  | unknownRequestKind (elapsed : Time) (cls : RequestClass) (sender dest : Station) (body : List Byte)
  /-- STUCK_LINE_EPISODE (R86). -/
  | stuckLineEpisode (elapsed : Time)
  /-- TRANSMIT_GUARD_TRIP (R87). -/
  | transmitGuardTrip (elapsed : Time)
  /-- DEBOUNCED_TRANSITION (R26). The pin's new debounced level. -/
  | debouncedTransition (elapsed : Time) (pin : Fin 16) (level : Bool)
  /-- LEVEL_READING (R27). -/
  | levelReading (elapsed : Time) (pin : Fin 16) (reading : Byte)
  /-- REFRESH_TIMER_EXPIRY (R47). -/
  | refreshTimerExpiry (point : Nat)
  /-- STALENESS_DEADLINE_EXPIRY (R101). -/
  | stalenessDeadlineExpiry (point : Nat)
  /-- OVERDUE_TIMER_EXPIRY (R21). -/
  | overdueTimerExpiry (point : Nat)
  /-- SOLICIT_DEADLINE_EXPIRY (R113). -/
  | solicitDeadlineExpiry (point : Nat)
  /-- BACKOFF_MARK_EXPIRY (R114). -/
  | backoffMarkExpiry (point : Nat)
  /-- PRESENCE_TIMER_EXPIRY (R121). -/
  | presenceTimerExpiry
  /-- SILENT_DEADLINE_EXPIRY (R132). -/
  | silentDeadlineExpiry (station : Station)
  /-- LOST_DEADLINE_EXPIRY (R133). -/
  | lostDeadlineExpiry (station : Station)
  /-- LEASE_EXPIRY (R148). -/
  | leaseExpiry (pin : Fin 16) (origin : Station)
  /-- QUARANTINE_TIMER_EXPIRY (R83). -/
  | quarantineTimerExpiry
  /-- RECENT_COMMAND_EXPIRY (R162). -/
  | recentCommandExpiry (sender : Station) (tag : Byte)
  /-- RESTART_BOUND_EXPIRY (R166). -/
  | restartBoundExpiry
  /-- DIGITAL_INPUT_SAMPLE (R25). The level of every pin; bit i is IOi. -/
  | digitalInputSample (elapsed : Time) (levels : BitVec 16)
  /-- DOMINANT_LEVEL_SEEN (R65, R64). -/
  | dominantLevelSeen (change : DominantChange)
  deriving DecidableEq, Repr

end Sys2Proof
end

