-- ==== Sys2Proof/WellFormed.lean ====
section
/-!
DEFINITION. Well-formed commands: the operands the manual says an event can bring. The meanings are total: they give a
command outside these ranges what the rules say of it (a frame that fails a receive check is discarded, R75).
-/

namespace Sys2Proof

/-- A station number names a station: 1 to 62 (R68; 00_scope.md section 3). -/
def stationOk (p : Station) : Bool := p != 0 && p != Config.everyone

/-- A body fits a frame: at most 24 bytes (R68). -/
def bodyOk (body : List Byte) : Bool := body.length ≤ Config.maxBody

/-- A request body after its kind byte fits a frame. -/
def restOk (rest : List Byte) : Bool := rest.length < Config.maxBody

/-- A point number of the Point Table: 1 to 1023 (R1). -/
def pointOk (n : Nat) : Bool := 1 ≤ n && n ≤ 1023

/-- A pin that can be read as a level: IO0 to IO7 (R22). -/
def levelPinOk (pin : Fin 16) : Bool := pin.val < 8

/-- The well-formedness of a command. -/
def Instr.wellFormed : Instr → Bool
  | .powerRestart _ _ _ => true
  | .pinRestart _ held => Config.resetHold ≤ held
  | .resetRelease _ => true
  | .loadComplete _ _ _ _ => true
  | .loadFailed _ _ _ => true
  | .joinWindowExpiry => true
  | .lineIdleEvent _ => true
  | .transmissionComplete _ => true
  | .contentionLost _ => true
  | .transmitFailure _ => true
  | .frameDiscarded _ _ => true
  | .duplicateDetection _ => true
  | .urgentPublish _ sender body => stationOk sender && bodyOk body
  | .routinePublish _ sender body => stationOk sender && bodyOk body
  | .solicit _ sender body => stationOk sender && bodyOk body
  | .presence _ sender body => stationOk sender && bodyOk body
  | .reply _ sender _ body => stationOk sender && bodyOk body
  | .force _ sender _ rest => stationOk sender && restOk rest
  | .release _ sender _ rest => stationOk sender && restOk rest
  | .restart _ sender _ rest => stationOk sender && restOk rest
  | .clearCounters _ sender _ rest => stationOk sender && restOk rest
  | .status _ sender _ rest => stationOk sender && restOk rest
  | .pointGroup _ sender _ rest => stationOk sender && restOk rest
  | .peer _ sender _ rest => stationOk sender && restOk rest
  | .output _ sender _ rest => stationOk sender && restOk rest
  | .counters _ sender _ rest => stationOk sender && restOk rest
  | .unknownRequestKind _ _ sender _ body => stationOk sender && bodyOk body
  | .stuckLineEpisode _ => true
  | .transmitGuardTrip _ => true
  | .debouncedTransition _ _ _ => true
  | .levelReading _ pin _ => levelPinOk pin
  | .refreshTimerExpiry point => pointOk point
  | .stalenessDeadlineExpiry point => pointOk point
  | .overdueTimerExpiry point => pointOk point
  | .solicitDeadlineExpiry point => pointOk point
  | .backoffMarkExpiry point => pointOk point
  | .presenceTimerExpiry => true
  | .silentDeadlineExpiry station => stationOk station
  | .lostDeadlineExpiry station => stationOk station
  | .leaseExpiry _ origin => stationOk origin
  | .quarantineTimerExpiry => true
  | .recentCommandExpiry sender _ => stationOk sender
  | .restartBoundExpiry => true
  | .digitalInputSample _ _ => true
  | .dominantLevelSeen _ => true

end Sys2Proof
end

