-- ==== Sys2Proof/Decode.lean ====
section
/-!
DEFINITION. The decoder over spec/opcode_table.json. The table gives no row any bits ("fields" is empty in all 45 rows), so no
word spells a command (log 8). The layouts of frames and of the configuration image are in Machine/Operands.lean.
-/

namespace Sys2Proof

/-- The command that a word spells by the table's bits: none, for no row has bits. -/
def decodeTableWord (_nbits _w : Nat) : Option Instr := none

end Sys2Proof
end

