-- ==== Sys2Proof/Machine/State.lean ====
section
/-!
DEFINITION. The state of the Sadrel 3216 as plain data, block by block (00_scope.md section 2.1), and the state after reset.
A timer or deadline is `some t` while it runs and expires at the clock time t, and `none` while it is stopped or absent.
-/

namespace Sys2Proof.Machine

/-! ## Points and the Point Table (chapter 1) -/

/-- The kind of a point (R3). -/
inductive Kind
  | binary
  | level
  deriving DecidableEq, Repr

/-- Where an owned point takes its value: one of IO0 to IO15, or the station's own fault summary (R7). -/
inductive Source
  | pin (i : Fin 16)
  | status
  deriving DecidableEq, Repr

/-- The scheduler state of an owned entry (R11). -/
inductive Sched
  | quiet
  | routine
  | urgent
  | yielded
  deriving DecidableEq, Repr

/-- The fields of an OWNED entry: configuration (R7), value (R8, R9), compare base and carried value (R10), scheduler state and
marks (R11, R40), refresh timer (R46). -/
structure Owned where
  source : Source
  refreshClass : RefreshClass
  deadband : Option Byte
  threshold : Option Byte
  current : Byte
  count : Count
  compareBase : Option Byte
  carried : Option Byte
  sched : Sched
  inFlight : Bool
  dirty : Bool
  refreshTimer : Option Time
  deriving DecidableEq, Repr

/-- The state of a MIRRORED entry (R13). -/
inductive MirrorState
  | unknown
  | fresh
  | stale
  deriving DecidableEq, Repr

/-- The fields of a MIRRORED entry (R13), the expiry of its backoff mark (R20) and its overdue timer (R21). -/
structure Mirrored where
  state : MirrorState
  value : Option Byte
  count : Option Count
  source : Option Station
  deadline : Option Time
  old : Bool
  backoff : Option Time
  overdue : Bool
  overdueTimer : Option Time
  deriving DecidableEq, Repr

/-- The role of an entry, with the fields of the role. -/
inductive Role
  | owned (o : Owned)
  | mirrored (m : Mirrored)
  deriving DecidableEq, Repr

/-- An entry of the Point Table (R5). -/
structure Point where
  number : Nat
  kind : Kind
  role : Role
  deriving DecidableEq, Repr

/-! ## Pins (chapter 2) -/

/-- The mode of a pin (R22). -/
inductive PinMode
  | unused
  | inDigital
  | inLevel
  | out
  | hand
  deriving DecidableEq, Repr

/-- A pin once the table is filled: mode and settings (R22), and what the Input Sampler keeps for it (R25, R27, R38).
`debounce` is in milliseconds; `target` is used in HAND mode. -/
structure Pin where
  mode : PinMode
  debounce : Nat
  pullUp : Bool
  target : Fin 16
  level : Option Bool
  candidate : Option Time
  reading : Option Byte
  deriving DecidableEq, Repr

/-! ## Frames (chapters 4 and 11) -/

/-- The seven assigned frame classes (00_scope.md section 6). -/
inductive FrameClass
  | command
  | urgentPublish
  | reply
  | solicit
  | presence
  | query
  | routinePublish
  deriving DecidableEq, Repr

/-- One record of a publication frame (R51, section 11.1.1). -/
structure Record where
  point : PointField
  kind : Kind
  refreshClass : RefreshClass
  count : Count
  value : Byte
  deriving DecidableEq, Repr

/-- The causes of a restart (R176). -/
inductive Cause
  | power
  | pin
  | remote
  | guard
  deriving DecidableEq, Repr

/-- The content of a presence frame (R122, section 11.1.2). -/
structure PresenceContent where
  periodCode : BitVec 5
  boot : Bool
  probing : Bool
  cause : Cause
  incarnation : Byte
  faults : Byte
  deriving DecidableEq, Repr

/-- The reply codes (section 11.1.4). -/
inductive ReplyCode
  | data
  | accepted
  | replaced
  | released
  | notHeld
  | full
  | denied
  | noOutput
  | noRoom
  | badRequest
  deriving DecidableEq, Repr

/-- An entry of the reply queue (R173). -/
structure Reply where
  dest : Station
  tag : Byte
  code : ReplyCode
  data : List Byte
  restartMark : Bool
  deriving DecidableEq, Repr

/-- What a frame of this station carries, fixed at its assembly (R51, R111, R122, R173). -/
inductive TxContent
  | publication (urgent : Bool) (records : List Record)
  | reply (r : Reply)
  | solicit (points : List Nat)
  | presence (p : PresenceContent)
  deriving DecidableEq, Repr

/-- A frame of this station on the line (R70). -/
structure TxFrame where
  sender : Station
  content : TxContent
  deriving DecidableEq, Repr

/-! ## The line and failure accounting (chapter 4) -/

/-- The line state (R65); not tracked in STARTING (R67). -/
inductive LineState
  | notTracked
  | idle
  | busy
  | stuck
  deriving DecidableEq, Repr

/-- A character taken by the receiver: its data bits, and whether its stop bit samples recessive (R64). -/
structure LineChar where
  data : Byte
  stopRecessive : Bool
  deriving DecidableEq, Repr

/-- The receive assembly (R67, R75): empty; a frame in assembly, with the characters that the receive assembly buffer holds of it, the
first one first; or the line ignored until the next line-idle event. -/
inductive Assembly
  | empty
  | assembling (chars : List LineChar)
  | ignoring
  deriving DecidableEq, Repr

/-- The line bit rate (R63). -/
inductive LineRate
  | kbit50
  | kbit100
  | kbit200
  deriving DecidableEq, Repr

/-- The line mode of failure accounting (R81). -/
inductive LineMode
  | active
  | silenced
  | probing
  deriving DecidableEq, Repr

/-! ## Solicitation (chapter 6) -/

/-- The state of a solicit entry with the fields that the state has (R107): the in-flight mark of a WAITING entry, the deadline
of a SENT or COVERED one. -/
inductive SolicitState
  | waiting (inFlight : Bool)
  | sent (deadline : Time)
  | covered (deadline : Time)
  deriving DecidableEq, Repr

/-- An entry of the solicit list (R107). -/
structure Solicit where
  point : Nat
  state : SolicitState
  attempts : Nat
  deriving DecidableEq, Repr

/-! ## The Peer Roster (chapter 7) -/

/-- The state of a roster entry (R125). -/
inductive PeerState
  | present
  | silent
  | lost
  deriving DecidableEq, Repr

/-- What a peer last advertised (R125, R129); its four fields appear together at the first valid presence frame. -/
structure PeerContent where
  periodCode : BitVec 5
  incarnation : Byte
  cause : Cause
  faults : Byte
  deriving DecidableEq, Repr

/-- An entry of the roster (R125) with its supervision deadlines (R132). -/
structure Peer where
  station : Station
  state : PeerState
  lastHeard : Time
  content : Option PeerContent
  bootSeen : Bool
  sourcesPoints : Bool
  holdsOverrides : Bool
  silentAt : Option Time
  lostAt : Option Time
  deriving DecidableEq, Repr

/-! ## Outputs (chapter 8) -/

/-- The fallback of a binding (R139). -/
inductive Fallback
  | hold
  | off
  | on
  deriving DecidableEq, Repr

/-- The binding of an OUT pin (R139). Source 0 is the null point. -/
structure Binding where
  source : Nat
  threshold : Byte
  invert : Bool
  fallback : Fallback
  overridable : Bool
  deriving DecidableEq, Repr

/-- An override entry (R145). Origin 0 is the local hand switch; the lease is the time of its expiry. -/
structure Override where
  origin : Station
  value : Bool
  lease : Option Time
  deriving DecidableEq, Repr

/-- What the Output Unit holds for an OUT pin (R140); the override list is newest first. -/
structure Output where
  pin : Fin 16
  binding : Binding
  driven : Bool
  held : Bool
  overrides : List Override
  deriving DecidableEq, Repr

/-! ## Requests and replies (chapter 9) -/

/-- The four commands (R161). -/
inductive CommandKind
  | force
  | release
  | restart
  | clearCounters
  deriving DecidableEq, Repr

/-- An entry of the recent-command table (R162); its age is counted from `written`. -/
structure Recent where
  sender : Station
  tag : Byte
  kind : CommandKind
  outcome : ReplyCode
  written : Time
  deriving DecidableEq, Repr

/-- The twelve diagnostic counters in their fixed order (R175). -/
structure Counters where
  framesReceived : Counter
  receiveErrors : Counter
  framesSent : Counter
  transmitFailures : Counter
  contentionLosses : Counter
  requestsDropped : Counter
  solicitsUnanswered : Counter
  missedChanges : Counter
  conflicts : Counter
  rosterOverflows : Counter
  overrideDiscards : Counter
  stuckLineEpisodes : Counter
  deriving DecidableEq, Repr

/-! ## Start-up, configuration and restart (chapter 10) -/

/-- The station state (R178). -/
inductive StationState
  | starting
  | unconfigured
  | halted
  | joining
  | running
  deriving DecidableEq, Repr

/-- The retained record (R177). -/
structure Retained where
  incarnation : Byte
  cause : Cause
  guardCount : BitVec 4
  deriving DecidableEq, Repr

/-- The configuration error codes 0 to 15 (R180, R181). -/
inductive ConfigError
  | none
  | noAnswer
  | signature
  | length
  | imageCrc
  | fieldRange
  | pointNumber
  | duplicatePoint
  | tooManyPoints
  | levelPin
  | sourcePin
  | noThreshold
  | bindingPin
  | handTarget
  | bindingSource
  | statusPoints
  deriving DecidableEq, Repr

/-- The header fields of the valid image in force (section 10.4). -/
structure Header where
  rate : LineRate
  periodCode : BitVec 5
  remoteRestart : Bool
  deriving DecidableEq, Repr

/-- The fault summary: eight conditions, each holding or clear (R188). -/
structure FaultSummary where
  config : Bool
  duplicate : Bool
  silenced : Bool
  conflict : Bool
  source : Bool
  peerLost : Bool
  line : Bool
  overflow : Bool
  deriving DecidableEq, Repr

/-! ## The whole station -/

/-- The state of the station. `clock` and `pending` are the model's own fields (logs 1 and 2). -/
structure State where
  station : StationState
  retained : Retained
  supplyAbove : Bool
  resetHigh : Bool
  loading : Bool
  straps : Option Station
  number : Option Station
  error : ConfigError
  header : Option Header
  faults : FaultSummary
  joinTimer : Option Time
  points : List Point
  pins : List Pin
  urgent : List Nat
  routine : List Nat
  line : LineState
  assembly : Assembly
  inFlight : Option TxFrame
  lineRate : Option LineRate
  mode : LineMode
  failures : Nat
  quarantineLength : Nat
  quarantineTimer : Option Time
  solicits : List Solicit
  roster : List Peer
  presenceTimer : Option Time
  presencePending : Bool
  bootCount : Nat
  outputs : List Output
  replies : List Reply
  recent : List Recent
  counters : Counters
  pendingRestart : Option Time
  clock : Time
  pending : List Instr
  deriving DecidableEq, Repr

/-- No command of this block stops the machine with a fault: an error is a counter, a condition of the fault summary, the
state HALTED or a restart (R175, R188, R186, R87). The type has no constructor, so nobody raises one (safe). -/
inductive Fault
  deriving DecidableEq, Repr

/-- What a step can refuse. -/
inductive Refusal
  /-- Raised by an arm of `exec` whose command has no meaning yet; every command has one, so no arm raises it (safe). -/
  | notModelled (mnemonic : String)
  deriving DecidableEq, Repr

/-- All twelve counters at 0 (R175). -/
def Counters.zero : Counters :=
  { framesReceived := 0, receiveErrors := 0, framesSent := 0, transmitFailures := 0, contentionLosses := 0,
    requestsDropped := 0, solicitsUnanswered := 0, missedChanges := 0, conflicts := 0, rosterOverflows := 0,
    overrideDiscards := 0, stuckLineEpisodes := 0 }

/-- The fault summary after every restart: CONFIG alone (R188). -/
def FaultSummary.afterRestart : FaultSummary :=
  { config := true, duplicate := false, silenced := false, conflict := false, source := false, peerLost := false,
    line := false, overflow := false }

/-- The machine right after reset: a POWER restart has been made (R176, R177), every block holds its after-restart state
(R6, R38, R62, R67, R81, R108, R121, R126, R140, R159, R188), the supply is above the threshold and RESET is high, so the
configuration load has begun (logs 6 and 7). -/
def State.reset : State :=
  { station := .starting
    retained := { incarnation := 0, cause := .power, guardCount := 0 }
    supplyAbove := true
    resetHigh := true
    loading := true
    straps := none
    number := none
    error := .none
    header := none
    faults := FaultSummary.afterRestart
    joinTimer := none
    points := []
    pins := []
    urgent := []
    routine := []
    line := .notTracked
    assembly := .empty
    inFlight := none
    lineRate := none
    mode := .active
    failures := 0
    quarantineLength := Config.firstQuarantine
    quarantineTimer := none
    solicits := []
    roster := []
    presenceTimer := none
    presencePending := false
    bootCount := 0
    outputs := []
    replies := []
    recent := []
    counters := Counters.zero
    pendingRestart := none
    clock := 0
    pending := [] }

end Sys2Proof.Machine
end

