-- ==== Sys2Proof/Machine/Operands.lean ====
section
/-!
DEFINITION. The layouts of chapter 11: frames, bodies, requests, replies and the configuration image, read from bytes and written
to bytes. Everything here is a pure function of bytes.
-/

namespace Sys2Proof.Machine

/-! ## Bytes and bits -/

/-- The number whose high byte is sent first (R190). -/
def be16 (hi lo : Byte) : Nat := 256 * hi.toNat + lo.toNat

/-- A number below 65536 as two bytes, the high byte first (R190). -/
def be16Bytes (n : Nat) : List Byte := [BitVec.ofNat 8 (n / 256), BitVec.ofNat 8 n]

/-- A flag as a byte of which only bit i can be set. -/
def bitAt (i : Nat) (b : Bool) : Byte := if b then BitVec.twoPow 8 i else 0

/-- Byte i of a byte string, 0 past its end. -/
def byteAt (bytes : List Byte) (i : Nat) : Byte := bytes[i]?.getD 0

/-- Bits lo to lo + w - 1 of a byte as a number. -/
def bitsOf (b : Byte) (lo w : Nat) : Nat := b.toNat / 2 ^ lo % 2 ^ w

/-- One bit into the CRC register of R69, generator x^16 + x^12 + x^5 + 1. -/
def crcShift (crc : BitVec 16) : BitVec 16 :=
  if crc.msb then (crc <<< 1) ^^^ 0x1021#16 else crc <<< 1

/-- One byte into the CRC register, most significant bit first (R69). -/
def crcByte (crc : BitVec 16) (b : Byte) : BitVec 16 :=
  Nat.repeat crcShift 8 (crc ^^^ (b.setWidth 16 <<< 8))

/-- The CRC of a byte string: the register starts at all ones and is sent as it stands (R69). -/
def crc16 (bytes : List Byte) : BitVec 16 := bytes.foldl crcByte 0xFFFF#16

/-- The two CRC bytes, high byte first (R69). -/
def crcBytes (bytes : List Byte) : List Byte := be16Bytes (crc16 bytes).toNat

/-! ## Characters (R64) -/

/-- The ten bits sent for a byte: a dominant start bit, the data bits with the least significant first, a recessive stop bit
(R63, R64). -/
def sendChar (b : Byte) : CharBits := 1#1 ++ b ++ 0#1

/-- The character that ten samples make; none where the start bit samples recessive, which is a glitch (R64). -/
def sampleChar (bits : CharBits) : Option LineChar :=
  if bits.getLsbD 0 then none else some { data := bits.extractLsb' 1 8, stopRecessive := bits.getLsbD 9 }

/-- The characters that the receive assembly buffer holds (R75). -/
def Assembly.chars : Assembly → List LineChar
  | .empty => []
  | .assembling chars => chars
  | .ignoring => []

/-- A frame is in assembly. -/
def Assembly.inProgress : Assembly → Bool
  | .empty => false
  | .assembling _ => true
  | .ignoring => false

/-- The receive assembly takes a character: the first one begins the assembly of a frame, and the buffer holds up to 29 (R75); an ignored
line stays ignored. -/
def Assembly.takeChar (c : LineChar) : Assembly → Assembly
  | .empty => .assembling [c]
  | .assembling chars => .assembling ((chars ++ [c]).take Config.maxChars)
  | .ignoring => .ignoring

/-- The levels of ten bit times, first bit first; `true` is recessive. -/
def charLevels (bits : CharBits) : List Bool := (List.range 10).map bits.getLsbD

/-! ## Frames (R68, R190) -/

/-- The class code (00_scope.md section 6). -/
def FrameClass.code : FrameClass → BitVec 4
  | .command => 0
  | .urgentPublish => 1
  | .reply => 2
  | .solicit => 3
  | .presence => 4
  | .query => 5
  | .routinePublish => 6

/-- The broadcast classes, whose frames must carry destination 63 (R75). -/
def FrameClass.broadcast : FrameClass → Bool
  | .urgentPublish | .solicit | .presence | .routinePublish => true
  | .command | .reply | .query => false

/-- The first two bytes of a frame: class, sender and destination, each most significant bit first on the line, and bit 0 of a
byte first (R190). -/
def headerBytes (cls : BitVec 4) (sender dest : Station) : List Byte :=
  let w : BitVec 16 := cls ++ sender ++ dest
  [(w.extractLsb' 8 8).reverse, (w.extractLsb' 0 8).reverse]

/-- Class, sender and destination from the first two bytes of a frame (R190). -/
def parseHeader (b0 b1 : Byte) : BitVec 4 × Station × Station :=
  let w : BitVec 16 := b0.reverse ++ b1.reverse
  (w.extractLsb' 12 4, w.extractLsb' 6 6, w.extractLsb' 0 6)

/-- All bytes of a frame: header, length, body and CRC (R68, R69). -/
def frameBytes (cls : BitVec 4) (sender dest : Station) (body : List Byte) : List Byte :=
  let covered := headerBytes cls sender dest ++ [BitVec.ofNat 8 body.length] ++ body
  covered ++ crcBytes covered

/-- The receive checks of R75 that characters alone decide. -/
inductive ReceiveCheck
  | framing
  | sender
  | frameClass
  | destination
  | lengthRange
  | overLength
  | short
  | crc
  deriving DecidableEq, Repr

/-- The classes that R75 requires to carry destination 63, by code. -/
def broadcastCode (cls : BitVec 4) : Bool := cls == 1 || cls == 3 || cls == 4 || cls == 6

/-- Every check of R75 that the characters of one frame fail. -/
def failedChecks (chars : List LineChar) : List ReceiveCheck :=
  let bytes := chars.map LineChar.data
  let header := parseHeader (byteAt bytes 0) (byteAt bytes 1)
  let need := 5 + (byteAt bytes 2).toNat
  let hasHeader := 2 ≤ bytes.length
  let hasLength := 3 ≤ bytes.length
  (if chars.all LineChar.stopRecessive then [] else [.framing])
  ++ (if hasHeader && (header.2.1 == 0 || header.2.1 == Config.everyone) then [.sender] else [])
  ++ (if hasHeader && decide (7 ≤ header.1.toNat) then [.frameClass] else [])
  ++ (if hasHeader && broadcastCode header.1 && header.2.2 != Config.everyone then [.destination] else [])
  ++ (if hasLength && decide (Config.maxBody < (byteAt bytes 2).toNat) then [.lengthRange] else [])
  ++ (if hasLength && decide (need < bytes.length) then [.overLength] else [])
  ++ (if !hasLength || decide (bytes.length < need) then [.short] else [])
  ++ (if hasLength && decide (need ≤ bytes.length)
        && (bytes.drop (need - 2)).take 2 != crcBytes (bytes.take (need - 2)) then [.crc] else [])

/-- A frame whose header fields and body length pass the checks of R75 that they decide. -/
def headerGood (cls : FrameClass) (sender dest : Station) (body : List Byte) : Bool :=
  sender != 0 && sender != Config.everyone && (!cls.broadcast || dest == Config.everyone)
    && decide (body.length ≤ Config.maxBody)

/-! ## Publication and solicitation bodies (section 11.1.1) -/

/-- The kind bit (section 11.1.1). -/
def Kind.bit : Kind → Bool
  | .binary => false
  | .level => true

/-- The kind a kind bit names. -/
def kindOfBit (b : Bool) : Kind := if b then .level else .binary

/-- The four bytes of a record. -/
def Record.bytes (r : Record) : List Byte :=
  be16Bytes r.point.toNat
    ++ [bitAt 7 r.kind.bit ||| (r.refreshClass.setWidth 8 <<< 5) ||| r.count.setWidth 8, r.value]

/-- A record from its four bytes; the bits that no field uses are disregarded. -/
def parseRecord (b0 b1 b2 b3 : Byte) : Record :=
  { point := BitVec.ofNat 10 (be16 b0 b1)
    kind := kindOfBit (b2.getLsbD 7)
    refreshClass := b2.extractLsb' 5 2
    count := b2.extractLsb' 0 4
    value := b3 }

/-- The records of a string of whole records. -/
def recordsOf : List Byte → List Record
  | b0 :: b1 :: b2 :: b3 :: rest => parseRecord b0 b1 b2 b3 :: recordsOf rest
  | _ => []

/-- A publication body is valid when it holds 1 to 6 records of 4 bytes (R88). -/
def publicationOk (body : List Byte) : Bool :=
  body.length % 4 == 0 && 4 ≤ body.length && body.length ≤ 24

/-- The points of a SOLICIT body, each in the low 10 bits of two bytes. -/
def solicitedOf : List Byte → List Nat
  | b0 :: b1 :: rest => (be16 b0 b1 % 1024) :: solicitedOf rest
  | _ => []

/-- A SOLICIT body is valid when it lists 1 to 8 points of 2 bytes (R115). -/
def solicitOk (body : List Byte) : Bool :=
  body.length % 2 == 0 && 2 ≤ body.length && body.length ≤ 16

/-! ## Presence bodies (section 11.1.2) -/

/-- The code of a restart cause. -/
def Cause.code : Cause → Byte
  | .power => 0
  | .pin => 1
  | .remote => 2
  | .guard => 3

/-- The restart cause in bits 1–0 of a byte. -/
def causeOf (b : Byte) : Cause :=
  match bitsOf b 0 2 with
  | 0 => .power
  | 1 => .pin
  | 2 => .remote
  | _ => .guard

/-- The four bytes of a presence body. -/
def PresenceContent.bytes (p : PresenceContent) : List Byte :=
  [p.periodCode.setWidth 8 ||| bitAt 6 p.probing ||| bitAt 7 p.boot, p.cause.code, p.incarnation, p.faults]

/-- A presence body: valid when it has 4 bytes and a period code of 1 to 20 (R129). -/
def parsePresence : List Byte → Option PresenceContent
  | [b0, b1, b2, b3] =>
    if 1 ≤ bitsOf b0 0 5 && bitsOf b0 0 5 ≤ 20 then
      some { periodCode := b0.extractLsb' 0 5, boot := b0.getLsbD 7, probing := b0.getLsbD 6, cause := causeOf b1,
             incarnation := b2, faults := b3 }
    else none
  | _ => none

/-! ## Requests (R161, section 11.1.3) -/

/-- A command with its fields in range (R161). -/
inductive Command
  | force (pin : Fin 16) (value : Bool) (lease : Byte)
  | release (pin : Fin 16)
  | restart
  | clearCounters
  deriving DecidableEq, Repr

/-- A query with its fields in range (R161). -/
inductive Query
  | status
  | pointGroup (group : Nat) (start : Fin 16) (count : Nat)
  | peer (station : Station)
  | output (pin : Fin 16)
  | counters (page : Bool)
  deriving DecidableEq, Repr

/-- The kind of a command. -/
def Command.kind : Command → CommandKind
  | .force _ _ _ => .force
  | .release _ => .release
  | .restart => .restart
  | .clearCounters => .clearCounters

/-- An output index in range: 0 to 15, judged on the whole byte (R161). -/
def pinField (b : Byte) : Option (Fin 16) := if h : b.toNat < 16 then some ⟨b.toNat, h⟩ else none

/-- A FORCE body after kind and tag: output index, value 0 or 1, lease. -/
def parseForce : List Byte → Option Command
  | [pin, value, lease] =>
    if value.toNat ≤ 1 then (pinField pin).map fun p => .force p (value == 1) lease else none
  | _ => none

/-- A RELEASE body after kind and tag. -/
def parseRelease : List Byte → Option Command
  | [pin] => (pinField pin).map .release
  | _ => none

/-- A body after kind and tag that must be empty. -/
def parseBare {α : Type} (a : α) : List Byte → Option α
  | [] => some a
  | _ => none

/-- A COMMAND body after its tag, judged against its kind (R161). -/
def parseCommand (kind : Byte) (fields : List Byte) : Option Command :=
  if kind = 1 then parseForce fields
  else if kind = 2 then parseRelease fields
  else if kind = 3 then parseBare .restart fields
  else if kind = 4 then parseBare .clearCounters fields
  else none

/-- A POINT GROUP body after kind and tag: group 0 to 63, start index 0 to 15, count 1 to 7. -/
def parsePointGroup : List Byte → Option Query
  | [group, start, count] =>
    if group.toNat ≤ 63 && 1 ≤ count.toNat && count.toNat ≤ 7 then
      (pinField start).map fun i => .pointGroup group.toNat i count.toNat
    else none
  | _ => none

/-- A PEER body after kind and tag: station number 1 to 62. -/
def parsePeer : List Byte → Option Query
  | [station] =>
    if 1 ≤ station.toNat && station.toNat ≤ 62 then some (.peer (station.setWidth 6)) else none
  | _ => none

/-- An OUTPUT body after kind and tag. -/
def parseOutput : List Byte → Option Query
  | [pin] => (pinField pin).map .output
  | _ => none

/-- A COUNTERS body after kind and tag: page 0 or 1. -/
def parseCounters : List Byte → Option Query
  | [page] => if page.toNat ≤ 1 then some (.counters (page == 1)) else none
  | _ => none

/-- A QUERY body after its tag, judged against its kind (R161). -/
def parseQuery (kind : Byte) (fields : List Byte) : Option Query :=
  if kind = 1 then parseBare .status fields
  else if kind = 2 then parsePointGroup fields
  else if kind = 3 then parsePeer fields
  else if kind = 4 then parseOutput fields
  else if kind = 5 then parseCounters fields
  else none

/-- The tag of a request body, 0 when the body is too short to hold one (R161). -/
def tagOf (body : List Byte) : Byte := byteAt body 1

/-- A COMMAND body (R161). -/
def commandOf : List Byte → Option Command
  | kind :: _ :: fields => parseCommand kind fields
  | _ => none

/-- A QUERY body (R161). -/
def queryOf : List Byte → Option Query
  | kind :: _ :: fields => parseQuery kind fields
  | _ => none

/-- A body that begins with the STATUS kind (R159). -/
def beginsWithStatus : List Byte → Bool
  | kind :: _ => kind == 1
  | [] => false

/-! ## Replies (section 11.1.4) -/

/-- The reply codes. -/
def ReplyCode.code : ReplyCode → Byte
  | .data => 0
  | .accepted => 1
  | .replaced => 2
  | .released => 3
  | .notHeld => 4
  | .full => 5
  | .denied => 6
  | .noOutput => 7
  | .noRoom => 8
  | .badRequest => 9

/-- The body of a REPLY frame: tag, code, data. -/
def Reply.body (r : Reply) : List Byte := r.tag :: r.code.code :: r.data

/-- The station state codes of a STATUS reply. -/
def StationState.code : StationState → Byte
  | .starting => 0
  | .unconfigured => 1
  | .halted => 2
  | .joining => 3
  | .running => 4

/-- The line mode codes of a STATUS reply. -/
def LineMode.code : LineMode → Byte
  | .active => 0
  | .silenced => 1
  | .probing => 2

/-- The configuration error codes (R180, R181). -/
def ConfigError.code : ConfigError → Byte
  | .none => 0
  | .noAnswer => 1
  | .signature => 2
  | .length => 3
  | .imageCrc => 4
  | .fieldRange => 5
  | .pointNumber => 6
  | .duplicatePoint => 7
  | .tooManyPoints => 8
  | .levelPin => 9
  | .sourcePin => 10
  | .noThreshold => 11
  | .bindingPin => 12
  | .handTarget => 13
  | .bindingSource => 14
  | .statusPoints => 15

/-- The error code of a failed load (R180). -/
def loadErrorOf : LoadFailure → ConfigError
  | .noAnswer => .noAnswer
  | .signature => .signature
  | .length => .length
  | .imageCrc => .imageCrc

/-- The fault summary as a byte, one bit per condition (section 11.1.2). -/
def FaultSummary.byte (f : FaultSummary) : Byte :=
  bitAt 0 f.config ||| bitAt 1 f.duplicate ||| bitAt 2 f.silenced ||| bitAt 3 f.conflict ||| bitAt 4 f.source
    ||| bitAt 5 f.peerLost ||| bitAt 6 f.line ||| bitAt 7 f.overflow

/-- Some condition holds (R8, R189). -/
def FaultSummary.any (f : FaultSummary) : Bool :=
  f.config || f.duplicate || f.silenced || f.conflict || f.source || f.peerLost || f.line || f.overflow

/-- The state code of an owned slot in a POINT GROUP record. -/
def Sched.code : Sched → Byte
  | .quiet => 0
  | .routine => 1
  | .urgent => 2
  | .yielded => 3

/-- The state code of a mirrored slot in a POINT GROUP record. -/
def MirrorState.code : MirrorState → Byte
  | .unknown => 0
  | .fresh => 1
  | .stale => 2

/-- One record of a POINT GROUP reply: the slot of `index`, held by the given entry or not held (R170). -/
def slotBytes (index : Nat) : Option Point → List Byte
  | none => [BitVec.ofNat 8 index, 0, 0]
  | some p =>
    match p.role with
    | .owned o =>
      [BitVec.ofNat 8 index ||| bitAt 4 true ||| (o.sched.code <<< 6),
       o.count.setWidth 8 ||| bitAt 4 true ||| bitAt 5 true, o.current]
    | .mirrored m =>
      [BitVec.ofNat 8 index ||| bitAt 4 true ||| bitAt 5 true ||| (m.state.code <<< 6),
       (m.count.getD 0).setWidth 8 ||| bitAt 4 m.count.isSome ||| bitAt 5 m.value.isSome ||| bitAt 6 m.old,
       m.value.getD 0]

/-- The state code of a roster entry in a PEER reply. -/
def PeerState.code : PeerState → Byte
  | .present => 0
  | .silent => 1
  | .lost => 2

/-- The time since a peer was last heard in units of 100 ms, saturating at 255 (R171). The rounding of a time that is no whole
number of units is the free value `Config.peerAgeRoundsUp` (log 19). -/
def ageUnits (elapsed : Time) : Nat :=
  let unit := 100 * Config.millisecond
  min 255 (elapsed / unit + if elapsed % unit != 0 && Config.peerAgeRoundsUp elapsed then 1 else 0)

/-- The data of a PEER reply (R171). -/
def peerBytes (now : Time) (station : Station) : Option Peer → List Byte
  | none => [station.setWidth 8, 0]
  | some p =>
    [station.setWidth 8,
     bitAt 0 true ||| bitAt 1 p.bootSeen ||| bitAt 2 p.sourcesPoints ||| bitAt 3 p.holdsOverrides
       ||| bitAt 4 p.content.isSome ||| (p.state.code <<< 5),
     BitVec.ofNat 8 (ageUnits (now - p.lastHeard))]
    ++ match p.content with
       | none => [0, 0, 0, 0]
       | some c => [c.periodCode.setWidth 8, c.incarnation, c.cause.code, c.faults]

/-- The seconds left of a lease, rounded up, from 1 to 255 (R145). -/
def leaseSeconds (now expiry : Time) : Nat :=
  max 1 (min 255 ((expiry - now + (Config.second - 1)) / Config.second))

/-- One override entry of an OUTPUT reply. -/
def overrideBytes (now : Time) (e : Override) : List Byte :=
  [e.origin.setWidth 8 ||| bitAt 6 e.value ||| bitAt 7 e.lease.isSome,
   match e.lease with
   | none => 0
   | some t => BitVec.ofNat 8 (leaseSeconds now t)]

/-- The source condition of an output (R157). -/
inductive SourceCondition
  | null
  | owned
  | fresh
  | stale
  | unknown
  deriving DecidableEq, Repr

/-- The codes of the source condition. -/
def SourceCondition.code : SourceCondition → Byte
  | .null => 0
  | .owned => 1
  | .fresh => 2
  | .stale => 3
  | .unknown => 4

/-- The data of an OUTPUT reply (R157). -/
def outputBytes (now : Time) (cond : SourceCondition) (o : Output) : List Byte :=
  [BitVec.ofNat 8 o.pin.val,
   bitAt 0 o.driven ||| (cond.code <<< 1) ||| (BitVec.ofNat 8 o.overrides.length <<< 4)]
  ++ o.overrides.flatMap (overrideBytes now)

/-- The counters in the order of R175. -/
def Counters.list (c : Counters) : List Counter :=
  [c.framesReceived, c.receiveErrors, c.framesSent, c.transmitFailures, c.contentionLosses, c.requestsDropped,
   c.solicitsUnanswered, c.missedChanges, c.conflicts, c.rosterOverflows, c.overrideDiscards, c.stuckLineEpisodes]

/-- The data of a COUNTERS reply: the page and its six counters (R172). -/
def counterBytes (page : Bool) (c : Counters) : List Byte :=
  bitAt 0 page ::
    (((c.list.drop (if page then 6 else 0)).take 6).flatMap fun x => be16Bytes x.toNat)

/-! ## Frames of this station -/

/-- The class of a frame of this station (R49, R111, R121, R173). -/
def TxContent.cls : TxContent → FrameClass
  | .publication true _ => .urgentPublish
  | .publication false _ => .routinePublish
  | .reply _ => .reply
  | .solicit _ => .solicit
  | .presence _ => .presence

/-- The destination of a frame of this station: the requester for a REPLY, else 63. -/
def TxContent.dest : TxContent → Station
  | .reply r => r.dest
  | .publication _ _ | .solicit _ | .presence _ => Config.everyone

/-- The body of a frame of this station. -/
def TxContent.body : TxContent → List Byte
  | .publication _ records => records.flatMap Record.bytes
  | .reply r => r.body
  | .solicit points => points.flatMap be16Bytes
  | .presence p => p.bytes

/-- The bytes of a frame of this station on the line, CRC included (R68, R69, R190). -/
def TxFrame.bytes (f : TxFrame) : List Byte :=
  frameBytes f.content.cls.code f.sender f.content.dest f.content.body

/-- The levels a frame of this station sends, one for each bit time: its characters back to back (R64). -/
def TxFrame.levels (f : TxFrame) : List Bool := (f.bytes.map sendChar).flatMap charLevels

/-! ## The configuration image (R191) -/

/-- A pin entry of the image. -/
structure ImagePin where
  mode : Nat
  debounce : Nat
  pullUp : Bool
  target : Nat
  deriving DecidableEq, Repr

/-- A point entry of the image. -/
structure ImagePoint where
  number : Nat
  mirrored : Bool
  level : Bool
  thresholdPresent : Bool
  source : Nat
  refreshClass : Nat
  deadband : Nat
  threshold : Byte
  deriving DecidableEq, Repr

/-- A binding entry of the image. -/
structure ImageBinding where
  pin : Nat
  source : Nat
  threshold : Byte
  invert : Bool
  overridable : Bool
  fallback : Nat
  deriving DecidableEq, Repr

/-- A configuration image as read, before validation. -/
structure Image where
  number : Nat
  rate : Nat
  periodCode : Nat
  remoteRestart : Bool
  pointCount : Nat
  pins : List ImagePin
  points : List ImagePoint
  bindings : List ImageBinding
  deriving DecidableEq, Repr

/-- The pin entry that begins at byte i. -/
def imagePin (b : List Byte) (i : Nat) : ImagePin :=
  { mode := bitsOf (byteAt b i) 0 3
    debounce := bitsOf (byteAt b i) 3 2
    pullUp := (byteAt b i).getLsbD 5
    target := (byteAt b (i + 1)).toNat }

/-- The point entry that begins at byte i. -/
def imagePoint (b : List Byte) (i : Nat) : ImagePoint :=
  { number := be16 (byteAt b i) (byteAt b (i + 1))
    mirrored := (byteAt b (i + 2)).getLsbD 7
    level := (byteAt b (i + 2)).getLsbD 6
    thresholdPresent := (byteAt b (i + 2)).getLsbD 5
    source := bitsOf (byteAt b (i + 2)) 0 5
    refreshClass := (byteAt b (i + 3)).toNat
    deadband := (byteAt b (i + 4)).toNat
    threshold := byteAt b (i + 5) }

/-- The binding entry that begins at byte i. -/
def imageBinding (b : List Byte) (i : Nat) : ImageBinding :=
  { pin := (byteAt b i).toNat
    source := be16 (byteAt b (i + 1)) (byteAt b (i + 2))
    threshold := byteAt b (i + 3)
    invert := (byteAt b (i + 4)).getLsbD 0
    overridable := (byteAt b (i + 4)).getLsbD 1
    fallback := bitsOf (byteAt b (i + 4)) 2 2 }

/-- The image in a byte string of the right length (R191). -/
def parseImage (b : List Byte) : Image :=
  let p := (byteAt b 8).toNat
  { number := (byteAt b 4).toNat
    rate := (byteAt b 5).toNat
    periodCode := (byteAt b 6).toNat
    remoteRestart := (byteAt b 7).getLsbD 0
    pointCount := p
    pins := (List.range 16).map fun i => imagePin b (10 + 2 * i)
    points := (List.range p).map fun i => imagePoint b (42 + 6 * i)
    bindings := (List.range (byteAt b 9).toNat).map fun i => imageBinding b (42 + 6 * p + 5 * i) }

/-- How a load that reads the given bytes ends, by the checks of R180 and R191 in the order the station meets them; `none` when
the load completes. Bytes after the image are not read; a byte the memory does not answer is NO-ANSWER. -/
def loadFailureOf (mem : List Byte) : Option LoadFailure :=
  let len := be16 (byteAt mem 2) (byteAt mem 3)
  if mem.length < 2 then some .noAnswer
  else if mem.take 2 != [0xA5, 0x3C] then some .signature
  else if mem.length < 4 then some .noAnswer
  else if len < 50 || 508 < len then some .length
  else if mem.length < 10 then some .noAnswer
  else if len != 44 + 6 * (byteAt mem 8).toNat + 5 * (byteAt mem 9).toNat then some .length
  else if mem.length < len then some .noAnswer
  else if (mem.drop (len - 2)).take 2 != crcBytes (mem.take (len - 2)) then some .imageCrc
  else none

/-! ## Validation (R181) -/

/-- The mode a pin entry names; codes above 4 have no meaning. -/
def pinModeOf : Nat → PinMode
  | 1 => .inDigital
  | 2 => .inLevel
  | 3 => .out
  | 4 => .hand
  | _ => .unused

/-- The mode of the pin of index i of the image, UNUSED for an index that is no pin. -/
def Image.mode (im : Image) (i : Nat) : PinMode :=
  match im.pins[i]? with
  | none => .unused
  | some p => pinModeOf p.mode

/-- The owned point entries. -/
def Image.owned (im : Image) : List ImagePoint := im.points.filter fun p => !p.mirrored

/-- A point entry takes its value from a pin. -/
def ImagePoint.fromPin (p : ImagePoint) : Bool := decide (p.source < 16)

/-- A binding uses its fallback when its source is a mirrored point (R139, R142). DESIGN CHOICE: where the image holds no such point, or
holds it more than once, it is the mirrored entries that decide (log 29). -/
def Image.usesFallback (im : Image) (b : ImageBinding) : Bool :=
  b.source != 0 && im.points.any fun p => p.mirrored && p.number == b.source

/-- Check 5, FIELD-RANGE, on the fields that are used. -/
def Image.fieldRangeBad (im : Image) : Bool :=
  decide (2 < im.rate) || im.periodCode == 0 || decide (20 < im.periodCode) || decide (62 < im.number)
  || im.pointCount == 0
  || im.pins.any (fun p => decide (4 < p.mode))
  || im.owned.any (fun p => decide (16 < p.source) || decide (3 < p.refreshClass)
        || (p.level && p.fromPin && decide (31 < p.deadband)))
  || im.bindings.any (fun b => im.usesFallback b && b.fallback == 3)

/-- Check 6, POINT-NUMBER. -/
def Image.pointNumberBad (im : Image) : Bool :=
  im.points.any fun p => p.number == 0 || decide (1023 < p.number)

/-- Check 7, DUPLICATE-POINT. -/
def Image.duplicatePointBad (im : Image) : Bool := !decide (im.points.map ImagePoint.number).Nodup

/-- Check 8, TOO-MANY-POINTS. -/
def Image.tooManyPointsBad (im : Image) : Bool :=
  decide (Config.maxOwned < im.owned.length) || decide (Config.maxPoints < im.pointCount)

/-- Check 9, LEVEL-PIN. -/
def Image.levelPinBad (im : Image) : Bool :=
  (List.range 16).any fun i => decide (8 ≤ i) && im.mode i == .inLevel

/-- Check 10, SOURCE-PIN. -/
def Image.sourcePinBad (im : Image) : Bool :=
  im.owned.any fun p => p.fromPin
    && !(im.mode p.source == .inLevel || (im.mode p.source == .inDigital && !p.level))

/-- Check 11, NO-THRESHOLD. -/
def Image.noThresholdBad (im : Image) : Bool :=
  im.owned.any fun p => p.fromPin && !p.level && im.mode p.source == .inLevel && !p.thresholdPresent

/-- Check 12, BINDING-PIN. -/
def Image.bindingPinBad (im : Image) : Bool :=
  im.bindings.any (fun b => im.mode b.pin != .out) || !decide (im.bindings.map ImageBinding.pin).Nodup

/-- Check 13, HAND-TARGET. -/
def Image.handTargetBad (im : Image) : Bool :=
  im.pins.any fun p => pinModeOf p.mode == .hand && im.mode p.target != .out

/-- Check 14, BINDING-SOURCE. -/
def Image.bindingSourceBad (im : Image) : Bool :=
  im.bindings.any fun b => b.source != 0 && !(im.points.any fun p => p.number == b.source)

/-- Check 15, STATUS-POINTS. -/
def Image.statusPointsBad (im : Image) : Bool :=
  decide (1 < (im.owned.filter fun p => p.source == 16).length)

/-- Validation: the first check that fails gives the error, NONE when every check passes (R181). -/
def Image.validate (im : Image) : ConfigError :=
  if im.fieldRangeBad then .fieldRange
  else if im.pointNumberBad then .pointNumber
  else if im.duplicatePointBad then .duplicatePoint
  else if im.tooManyPointsBad then .tooManyPoints
  else if im.levelPinBad then .levelPin
  else if im.sourcePinBad then .sourcePin
  else if im.noThresholdBad then .noThreshold
  else if im.bindingPinBad then .bindingPin
  else if im.handTargetBad then .handTarget
  else if im.bindingSourceBad then .bindingSource
  else if im.statusPointsBad then .statusPoints
  else .none

end Sys2Proof.Machine
end

