-- ==== Sys2Proof/Machine/Ops.lean ====
section
/-!
DEFINITION. The named operations over the state that several blocks use: the clock, the counters, the Point Table, the
Publication Queue, the evaluation of outputs, the pins, and the restart. The fault summary is in Flags.lean; the operations of a
single block are in the file of that block.
-/

namespace Sys2Proof.Machine

/-! ## The clock (log 2) -/

/-- Time passes. In HALTED every timer stops where it stands (R187), so the clock on which all are measured stands still. -/
def State.advance (elapsed : Time) (s : State) : State :=
  { s with clock := if s.station = .halted then s.clock else s.clock + elapsed }

/-- Time passes up to the moment a timer holds, unless that moment has passed (log 3). -/
def State.advanceTo (due : Time) (s : State) : State := { s with clock := max s.clock due }

/-- The states in which the Line Unit assembles, checks and dispatches frames (R67). -/
def StationState.dispatches : StationState → Bool
  | .unconfigured | .joining | .running => true
  | .starting | .halted => false

/-- The states in which the pins are sampled and the tables of points and peers are live (R38, R89, R126). -/
def StationState.live : StationState → Bool
  | .joining | .running => true
  | .starting | .unconfigured | .halted => false

/-! ## Diagnostic counters (R175) -/

/-- The names of the twelve counters. -/
inductive CounterId
  | framesReceived
  | receiveErrors
  | framesSent
  | transmitFailures
  | contentionLosses
  | requestsDropped
  | solicitsUnanswered
  | missedChanges
  | conflicts
  | rosterOverflows
  | overrideDiscards
  | stuckLineEpisodes
  deriving DecidableEq, Repr

/-- An increase by 1 that leaves a counter at 65535 there. -/
def saturatingStep (c : Counter) : Counter := if c = 0xFFFF#16 then c else c + 1

/-- One counter increases by 1, saturating (R175). -/
def Counters.bump (c : Counters) : CounterId → Counters
  | .framesReceived => { c with framesReceived := saturatingStep c.framesReceived }
  | .receiveErrors => { c with receiveErrors := saturatingStep c.receiveErrors }
  | .framesSent => { c with framesSent := saturatingStep c.framesSent }
  | .transmitFailures => { c with transmitFailures := saturatingStep c.transmitFailures }
  | .contentionLosses => { c with contentionLosses := saturatingStep c.contentionLosses }
  | .requestsDropped => { c with requestsDropped := saturatingStep c.requestsDropped }
  | .solicitsUnanswered => { c with solicitsUnanswered := saturatingStep c.solicitsUnanswered }
  | .missedChanges => { c with missedChanges := saturatingStep c.missedChanges }
  | .conflicts => { c with conflicts := saturatingStep c.conflicts }
  | .rosterOverflows => { c with rosterOverflows := saturatingStep c.rosterOverflows }
  | .overrideDiscards => { c with overrideDiscards := saturatingStep c.overrideDiscards }
  | .stuckLineEpisodes => { c with stuckLineEpisodes := saturatingStep c.stuckLineEpisodes }

/-- One counter of the station increases by 1. -/
def State.bump (k : CounterId) (s : State) : State := { s with counters := s.counters.bump k }

/-! ## The Point Table (R5) -/

/-- The entry of a point number, if the point is held (R2, R5). -/
def findPoint (n : Nat) (points : List Point) : Option Point := points.find? fun p => p.number == n

/-- The fields of the entry if it is OWNED. -/
def Point.owned? (p : Point) : Option Owned :=
  match p.role with
  | .owned o => some o
  | .mirrored _ => none

/-- The fields of the entry if it is MIRRORED. -/
def Point.mirrored? (p : Point) : Option Mirrored :=
  match p.role with
  | .owned _ => none
  | .mirrored m => some m

/-- The OWNED entry of a point number. -/
def State.ownedAt (n : Nat) (s : State) : Option Owned := (findPoint n s.points).bind Point.owned?

/-- The MIRRORED entry of a point number. -/
def State.mirroredAt (n : Nat) (s : State) : Option Mirrored := (findPoint n s.points).bind Point.mirrored?

/-- The entry with its OWNED fields changed. -/
def Point.mapOwned (f : Owned → Owned) (p : Point) : Point :=
  match p.role with
  | .owned o => { p with role := .owned (f o) }
  | .mirrored _ => p

/-- The entry with its MIRRORED fields changed. -/
def Point.mapMirrored (f : Mirrored → Mirrored) (p : Point) : Point :=
  match p.role with
  | .owned _ => p
  | .mirrored m => { p with role := .mirrored (f m) }

/-- The fields of the OWNED entry of a point number change. -/
def State.updateOwned (n : Nat) (f : Owned → Owned) (s : State) : State :=
  { s with points := s.points.map fun p => if p.number = n then p.mapOwned f else p }

/-- The fields of the MIRRORED entry of a point number change. -/
def State.updateMirrored (n : Nat) (f : Mirrored → Mirrored) (s : State) : State :=
  { s with points := s.points.map fun p => if p.number = n then p.mapMirrored f else p }

/-- The numbers of the points owned from a source, in Point Table order. -/
def ownedFrom (src : Source) (points : List Point) : List Nat :=
  (points.filter fun p => match p.owned? with
    | some o => o.source == src
    | none => false).map Point.number

/-- Some mirrored entry names the station as its learned source (R18, R99). -/
def namesSource (p : Station) (points : List Point) : Bool :=
  points.any fun q => match q.mirrored? with
    | some m => m.source == some p
    | none => false

/-- The numbers of the points a station sources, in Point Table order (R5, R102, R103). -/
def sourcedFrom (p : Station) (points : List Point) : List Nat :=
  (points.filter fun q => match q.mirrored? with
    | some m => m.source == some p
    | none => false).map Point.number

/-- The interval of a refresh class (R4). -/
def refreshInterval (c : RefreshClass) : Time :=
  match c.toNat with
  | 0 => 100 * Config.millisecond
  | 1 => 500 * Config.millisecond
  | 2 => 2 * Config.second
  | _ => 10 * Config.second

/-- The staleness limit of a refresh class: three intervals (R4). -/
def stalenessLimit (c : RefreshClass) : Time := 3 * refreshInterval c

/-- A value brought into the range of a kind: a BINARY value other than 0 or 1 is stored as 1 (R3). -/
def Kind.store (k : Kind) (v : Byte) : Byte :=
  match k with
  | .binary => if v = 0 then 0 else 1
  | .level => v

/-- A LEVEL point sourced from a pin: the points with a compare base and a carried value (R10). -/
def isLevelFromPin (k : Kind) (o : Owned) : Bool :=
  match k, o.source with
  | .level, .pin _ => true
  | _, _ => false

/-- A BINARY point sourced from a pin: the points whose count steps at each transition (R29). -/
def isBinaryFromPin (k : Kind) (o : Owned) : Bool :=
  match k, o.source with
  | .binary, .pin _ => true
  | _, _ => false

/-- The own presence period (R121); 0 while no image is in force, where nothing uses it (log 31). -/
def State.period (s : State) : Time :=
  match s.header with
  | some h => h.periodCode.toNat * (100 * Config.millisecond)
  | none => 0

/-- The length of the join window and of the overdue timers: twice the own period, at least 1000 ms (R185, R21). -/
def State.joinLength (s : State) : Time := max Config.shortestJoin (2 * s.period)

/-! ## The Publication Queue (R39 to R41) -/

/-- The queue from head to tail: the urgent band before the routine band (R39). -/
def State.queue (s : State) : List Nat := s.urgent ++ s.routine

/-- A list without the given number. -/
def without (n : Nat) (l : List Nat) : List Nat := l.filter fun m => m != n

/-- A point joins the tail of the urgent band (R41). -/
def State.joinUrgent (n : Nat) (s : State) : State :=
  { s.updateOwned n (fun o => { o with sched := .urgent }) with urgent := s.urgent ++ [n] }

/-- A point joins the tail of the routine band (R41). -/
def State.joinRoutine (n : Nat) (s : State) : State :=
  { s.updateOwned n (fun o => { o with sched := .routine }) with routine := s.routine ++ [n] }

/-- A point leaves its place in the routine band and joins the tail of the urgent band, keeping its marks (R41). -/
def State.promote (n : Nat) (s : State) : State :=
  { s.updateOwned n (fun o => { o with sched := .urgent }) with
    urgent := s.urgent ++ [n], routine := without n s.routine }

/-- A point leaves the queue from wherever it stands, with its marks, and takes the given scheduler state (R41, R56). -/
def State.leaveQueue (n : Nat) (sched : Sched) (s : State) : State :=
  { s.updateOwned n (fun o => { o with sched := sched, inFlight := false, dirty := false }) with
    urgent := without n s.urgent, routine := without n s.routine }

/-- The count step that goes with a change event for a LEVEL or STATUS-sourced point (R32); the count of a BINARY point
sourced from a pin has stepped at the transition (R29). -/
def State.stepWithEvent (n : Nat) (s : State) : State :=
  { s with points := s.points.map fun p =>
      if p.number = n then
        p.mapOwned fun o => if isBinaryFromPin p.kind o then o else { o with count := o.count + 1 }
      else p }

/-- The dirty mark is set (R43). -/
def State.setDirty (n : Nat) (s : State) : State := s.updateOwned n fun o => { o with dirty := true }

/-- A change event for an owned point, by its scheduler state and marks (R43), with the count step of R32. -/
def State.changeEvent (n : Nat) (s : State) : State :=
  match s.ownedAt n with
  | none => s
  | some o =>
    match o.sched, o.inFlight, o.dirty with
    | .quiet, _, _ => (s.joinUrgent n).stepWithEvent n
    | .routine, false, _ => (s.promote n).stepWithEvent n
    | .routine, true, _ => ((s.promote n).setDirty n).stepWithEvent n
    | .urgent, true, false => (s.setDirty n).stepWithEvent n
    | .urgent, true, true => s
    | .urgent, false, _ => s
    | .yielded, _, _ => s

/-- A solicitation or conflict claim for an owned point (R44, R45). -/
def State.claim (n : Nat) (s : State) : State :=
  match s.ownedAt n with
  | none => s
  | some o =>
    match o.sched, o.inFlight with
    | .quiet, _ => s.joinUrgent n
    | .routine, false => s.promote n
    | .routine, true => s
    | .urgent, _ => s
    | .yielded, _ => s

/-- A yield: the point leaves the queue, becomes YIELDED and its refresh timer stops (R12, R56). -/
def State.yieldPoint (n : Nat) (s : State) : State :=
  (s.leaveQueue n .yielded).updateOwned n fun o => { o with refreshTimer := none }

/-! ## Evaluation of outputs (R141 to R144) -/

/-- The level a value gives before invert: a BINARY 1, or a LEVEL value at or above the threshold, is ON (R141). -/
def valueLevel (k : Kind) (threshold value : Byte) : Bool :=
  match k with
  | .binary => value == 1
  | .level => decide (threshold ≤ value)

/-- The level of an entry before invert; none for a mirrored point that is UNKNOWN or STALE (R141). -/
def Point.level (threshold : Byte) (p : Point) : Option Bool :=
  match p.role with
  | .owned o => some (valueLevel p.kind threshold o.current)
  | .mirrored m =>
    match m.state with
    | .fresh => m.value.map (valueLevel p.kind threshold)
    | .unknown => none
    | .stale => none

/-- The source-derived level of a binding, invert applied; OFF without invert for the null point (R141). -/
def Binding.level (b : Binding) (points : List Point) : Option Bool :=
  if b.source = 0 then some false
  else ((findPoint b.source points).bind (Point.level b.threshold)).map fun l => l != b.invert

/-- The level of a fallback, given the held level (R142). -/
def Fallback.level (held : Bool) : Fallback → Bool
  | .hold => held
  | .off => false
  | .on => true

/-- One evaluation of one output: override, source-derived level, or fallback (R142), and the held level (R143). -/
def Output.evaluate (points : List Point) (o : Output) : Output :=
  match o.overrides with
  | e :: _ => { o with driven := e.value }
  | [] =>
    match o.binding.level points with
    | some l => { o with driven := l, held := l }
    | none => { o with driven := o.binding.fallback.level o.held }

/-- The outputs that a test picks are evaluated again; only in RUNNING (R144). -/
def State.evaluateWhere (pick : Output → Bool) (s : State) : State :=
  if s.station = .running then
    { s with outputs := s.outputs.map fun o => if pick o then o.evaluate s.points else o }
  else s

/-- The outputs whose source is the point are evaluated again (R144). -/
def State.evaluateSource (n : Nat) (s : State) : State := s.evaluateWhere fun o => o.binding.source == n

/-- The output of a pin is evaluated again (R144). -/
def State.evaluatePin (i : Fin 16) (s : State) : State := s.evaluateWhere fun o => o.pin == i

/-- The output of a pin in OUT mode. -/
def State.outputAt (i : Fin 16) (s : State) : Option Output := s.outputs.find? fun o => o.pin == i

/-- The override list of an output changes. -/
def State.updateOverrides (i : Fin 16) (f : List Override → List Override) (s : State) : State :=
  { s with outputs := s.outputs.map fun o => if o.pin = i then { o with overrides := f o.overrides } else o }

/-- Some override list holds an entry with the origin (R152). -/
def holdsOverride (p : Station) (outputs : List Output) : Bool :=
  outputs.any fun o => o.overrides.any fun e => e.origin == p

/-! ## Pins (R23, R37) -/

/-- What a pin is electrically. -/
inductive PinState
  | input (pullUp : Bool)
  | driven (high : Bool)
  deriving DecidableEq, Repr

/-- The mode of a pin once the table is filled. -/
def State.pinMode (i : Fin 16) (s : State) : PinMode :=
  match s.pins[i.val]? with
  | some p => p.mode
  | none => .unused

/-- The electrical state of a pin by station state (R23, R37): an OUT pin is driven low in JOINING and at its evaluated level in
RUNNING, an input has its configured pull-up in both, and every pin is an input without pull-up otherwise. -/
def State.pinState (i : Fin 16) (s : State) : PinState :=
  if s.station.live then
    match s.pins[i.val]? with
    | none => .input false
    | some p =>
      match p.mode with
      | .unused => .input false
      | .inDigital | .inLevel | .hand => .input p.pullUp
      | .out =>
        match s.station, s.outputAt i with
        | .running, some o => .driven o.driven
        | _, _ => .driven false
  else .input false

/-- The driver may assert the line: only while a frame of this station is in flight (R66, R70). -/
def State.driverEngaged (s : State) : Bool := s.inFlight.isSome

/-! ## Restart (R176, R177) -/

/-- The incarnation after a restart other than POWER: increased by 1, 255 going to 1 (R177). -/
def nextIncarnation (i : Byte) : Byte := if i = 255 then 1 else i + 1

/-- The guard restart count after a GUARD restart: increased by 1, saturating at 15 (R177). -/
def nextGuardCount (g : BitVec 4) : BitVec 4 := if g = 15 then g else g + 1

/-- The retained record after a restart of the given cause (R177). -/
def Retained.afterRestart (r : Retained) : Cause → Retained
  | .power => { incarnation := 0, cause := .power, guardCount := 0 }
  | .pin => { r with incarnation := nextIncarnation r.incarnation, cause := .pin }
  | .remote => { r with incarnation := nextIncarnation r.incarnation, cause := .remote }
  | .guard => { incarnation := nextIncarnation r.incarnation, cause := .guard, guardCount := nextGuardCount r.guardCount }

/-- A restart: the retained record is written for the cause, every block takes its after-restart state, and the station is
STARTING; the load begins at once when the supply is above the threshold and RESET is high (R176). -/
def State.restart (cause : Cause) (s : State) : State :=
  { State.reset with
    retained := s.retained.afterRestart cause
    supplyAbove := s.supplyAbove
    resetHigh := s.resetHigh
    loading := s.supplyAbove && s.resetHigh
    clock := s.clock
    pending := s.pending }

end Sys2Proof.Machine
end

