-- ==== Sys2Proof/Machine/Flags.lean ====
section
/-!
DEFINITION. The fault summary (R188), the FAULT pin (R189) and the STATUS-sourced point that follows the summary (R8, R33).
-/

namespace Sys2Proof.Machine

/-- The names of the eight conditions (R188). -/
inductive Condition
  | config
  | duplicate
  | silenced
  | conflict
  | source
  | peerLost
  | line
  | overflow
  deriving DecidableEq, Repr

/-- A condition holds. -/
def FaultSummary.get (f : FaultSummary) : Condition → Bool
  | .config => f.config
  | .duplicate => f.duplicate
  | .silenced => f.silenced
  | .conflict => f.conflict
  | .source => f.source
  | .peerLost => f.peerLost
  | .line => f.line
  | .overflow => f.overflow

/-- One condition set or cleared. -/
def FaultSummary.put (f : FaultSummary) (c : Condition) (b : Bool) : FaultSummary :=
  match c with
  | .config => { f with config := b }
  | .duplicate => { f with duplicate := b }
  | .silenced => { f with silenced := b }
  | .conflict => { f with conflict := b }
  | .source => { f with source := b }
  | .peerLost => { f with peerLost := b }
  | .line => { f with line := b }
  | .overflow => { f with overflow := b }

/-- The FAULT pin is asserted while any condition holds, in every station state (R189). -/
def State.faultPin (s : State) : Bool := s.faults.any

/-- The value a STATUS-sourced point of a kind takes from the summary (R8, R33). -/
def statusValue (k : Kind) (f : FaultSummary) : Byte :=
  match k with
  | .binary => bitAt 0 f.any
  | .level => f.byte

/-- The current value of every STATUS-sourced point follows the summary. -/
def State.writeStatus (s : State) : State :=
  { s with points := s.points.map fun p => p.mapOwned fun o =>
      if o.source = .status then { o with current := statusValue p.kind s.faults } else o }

/-- One STATUS-sourced point takes a change of the summary: its outputs are evaluated (R144) and, in RUNNING, it raises one
change event (R33, R34). -/
def State.statusEvent (s : State) (n : Nat) : State :=
  let s := s.evaluateSource n
  if s.station = .running then s.changeEvent n else s

/-- The Input Sampler's handling of one change of the fault summary, in JOINING and RUNNING (R33, R34). -/
def State.statusChanged (s : State) : State :=
  if s.station.live then
    (ownedFrom .status s.points).foldl State.statusEvent s.writeStatus
  else s

/-- A condition is reported. Reported as it stands, it changes nothing; else it sets or clears, and the change is one event at
the Input Sampler (R188, R33). -/
def State.report (c : Condition) (b : Bool) (s : State) : State :=
  if s.faults.get c = b then s else State.statusChanged { s with faults := s.faults.put c b }

/-- An entry that holds the SOURCE condition: STALE, or with the overdue mark (R16, R21). -/
def Point.holdsSource (p : Point) : Bool :=
  match p.mirrored? with
  | some m => m.state == .stale || m.overdue
  | none => false

/-- SOURCE holds while any mirrored entry is STALE or carries the overdue mark (R16, R21, R188). -/
def State.judgeSource (s : State) : State := s.report .source (s.points.any Point.holdsSource)

/-- A roster entry that holds the PEER-LOST condition (R133). -/
def Peer.holdsPeerLost (p : Peer) : Bool := p.state == .lost && p.sourcesPoints

/-- PEER-LOST holds while a LOST entry carries "sources points" (R133, R188). -/
def State.judgePeerLost (s : State) : State := s.report .peerLost (s.roster.any Peer.holdsPeerLost)

end Sys2Proof.Machine
end

