-- ==== Sys2Proof/Machine/Overrides.lean ====
section
/-!
DEFINITION. The Output Unit's override lists (chapter 8): FORCE and RELEASE as applied to an output, HAND presses, removals, and
the "holds overrides" marks.
-/

namespace Sys2Proof.Machine

/-- The "holds overrides" mark of a station's roster entry is kept equal to whether an override list holds an entry with the
station as origin (R136, R152). -/
def State.keepHoldsMark (p : Station) (s : State) : State :=
  { s with roster := s.roster.map fun e =>
      if e.station = p then { e with holdsOverrides := holdsOverride p s.outputs } else e }

/-- A list holds an entry with the origin. -/
def hasOrigin (p : Station) (l : List Override) : Bool := l.any fun e => e.origin == p

/-- The entry of an origin leaves a list; the others close up (R145). -/
def dropOrigin (p : Station) (l : List Override) : List Override := l.filter fun e => e.origin != p

/-- The expiry a lease field gives at a moment: none for 0 (R146). -/
def leaseExpiry (now : Time) (lease : Byte) : Option Time :=
  if lease = 0 then none else some (now + lease.toNat * Config.second)

/-- An entry of an origin leaves an output's list, the output is evaluated and the origin's mark is kept (R147, R148, R152). -/
def State.removeOverride (i : Fin 16) (p : Station) (s : State) : State :=
  ((s.updateOverrides i (dropOrigin p)).evaluatePin i).keepHoldsMark p

/-- A FORCE from a station, applied to an output; the new state and the reply code (R146). -/
def State.applyForce (p : Station) (i : Fin 16) (value : Bool) (lease : Byte) (s : State) : State × ReplyCode :=
  match s.outputAt i with
  | none => (s, .noOutput)
  | some o =>
    let entry : Override := { origin := p, value := value, lease := leaseExpiry s.clock lease }
    let pushed := ((s.updateOverrides i fun l => entry :: dropOrigin p l).evaluatePin i).keepHoldsMark p
    if !o.binding.overridable then (s, .denied)
    else if hasOrigin p o.overrides then (pushed, .replaced)
    else if Config.maxOverrides ≤ o.overrides.length then (s, .full)
    else (pushed, .accepted)

/-- A RELEASE from a station, applied to an output; the new state and the reply code (R147). -/
def State.applyRelease (p : Station) (i : Fin 16) (s : State) : State × ReplyCode :=
  match s.outputAt i with
  | none => (s, .noOutput)
  | some o => if hasOrigin p o.overrides then (s.removeOverride i p, .released) else (s, .notHeld)

/-- A full list gives up its oldest entry: the discard is counted, OVERFLOW is set and the origin's mark is kept (R150). -/
def State.discardOldest (i : Fin 16) (s : State) : State :=
  match s.outputAt i with
  | none => s
  | some o =>
    match o.overrides.getLast? with
    | none => s
    | some e =>
      (((s.updateOverrides i List.dropLast).keepHoldsMark e.origin).bump .overrideDiscards).report .overflow true

/-- A HAND press on a target output toggles its local entry, origin 0 (R149). The local value is the opposite of the level driven
before the press. -/
def State.handPress (i : Fin 16) (s : State) : State :=
  match s.outputAt i with
  | none => s
  | some o =>
    if hasOrigin 0 o.overrides then (s.updateOverrides i (dropOrigin 0)).evaluatePin i
    else
      let s := if Config.maxOverrides ≤ o.overrides.length then s.discardOldest i else s
      let entry : Override := { origin := 0, value := !o.driven, lease := none }
      (s.updateOverrides i (entry :: ·)).evaluatePin i

/-- One output of a purge: the entry of the origin leaves its list, and the output is evaluated again (R151). -/
def State.purgeOutput (p : Station) (s : State) (i : Fin 16) : State :=
  (s.updateOverrides i (dropOrigin p)).evaluatePin i

/-- A purge: every entry with the origin leaves every list, the outputs whose list changed are evaluated from IO0 to IO15, and the
origin's mark is cleared (R151, R152). -/
def State.purge (p : Station) (s : State) : State :=
  (((s.outputs.filter fun o => hasOrigin p o.overrides).map Output.pin).foldl (State.purgeOutput p) s).keepHoldsMark p

end Sys2Proof.Machine
end

