-- ==== Sys2Proof/Machine/Solicitation.lean ====
section
/-!
DEFINITION. The Solicitation Unit (chapter 6): the solicit list, covers, satisfaction, and the outcomes of SOLICIT frames.
-/

namespace Sys2Proof.Machine

/-- The solicit list holds an entry for the point. -/
def hasSolicit (n : Nat) (l : List Solicit) : Bool := l.any fun e => e.point == n

/-- A new entry: WAITING with attempts 0 (R107). -/
def newSolicit (n : Nat) : Solicit := { point := n, state := .waiting false, attempts := 0 }

/-- A mirrored entry that may be given a solicit entry: UNKNOWN and without a backoff mark (R109, R114). -/
def Point.solicitable (p : Point) : Bool :=
  match p.mirrored? with
  | some m => m.state == .unknown && m.backoff.isNone
  | none => false

/-- The list with an entry for the point at its tail, if the point may have one, has none, and there is room (R109, R110). -/
def addSolicit (l : List Solicit) (p : Point) : List Solicit :=
  if p.solicitable && !hasSolicit p.number l && decide (l.length < Config.maxSolicits) then l ++ [newSolicit p.number] else l

/-- The list is filled from the points waiting for room, in Point Table order; only in RUNNING (R109, R110). -/
def State.fillSolicits (s : State) : State :=
  if s.station = .running then { s with solicits := s.points.foldl addSolicit s.solicits } else s

/-- A mirrored point has become UNKNOWN in RUNNING: it is given an entry if R109 allows one. -/
def State.solicitPoint (n : Nat) (s : State) : State :=
  if s.station = .running then
    match findPoint n s.points with
    | some p => { s with solicits := addSolicit s.solicits p }
    | none => s
  else s

/-- The entry of a point leaves the list (R113, R118). -/
def State.removeSolicit (n : Nat) (s : State) : State :=
  { s with solicits := s.solicits.filter fun e => e.point != n }

/-- An accepted record satisfies the entry of its point, and the list is filled (R118, R110). -/
def State.satisfy (n : Nat) (s : State) : State :=
  if hasSolicit n s.solicits then (s.removeSolicit n).fillSolicits else s

/-- One entry is covered: COVERED with a deadline 250 ms after the arrival, attempts unchanged (R116). -/
def Solicit.cover (now : Time) (e : Solicit) : Solicit := { e with state := .covered (now + Config.solicitWait) }

/-- The entry of a listed mirrored point is covered (R116). -/
def State.coverPoint (n : Nat) (s : State) : State :=
  { s with solicits := s.solicits.map fun e => if e.point = n then e.cover s.clock else e }

/-- One listed point of a SOLICIT frame, in RUNNING: covered if mirrored, claimed if owned, passed over if neither
(R115 to R117). In JOINING and UNCONFIGURED nothing follows (R108). -/
def State.takeSolicited (s : State) (n : Nat) : State :=
  if s.station = .running then
    match findPoint n s.points with
    | none => s
    | some p =>
      match p.role with
      | .owned _ => s.claim n
      | .mirrored _ => s.coverPoint n
  else s

/-- The body of a SOLICIT frame (R115). -/
def State.takeSolicit (body : List Byte) (s : State) : State :=
  if solicitOk body then (solicitedOf body).foldl State.takeSolicited s else s.bump .receiveErrors

/-- A WAITING entry without the in-flight mark: it makes a candidate (R111). -/
def Solicit.ready (e : Solicit) : Bool := e.state == .waiting false

/-- A WAITING entry carried by the frame on the line. -/
def Solicit.flying (e : Solicit) : Bool := e.state == .waiting true

/-- The points of the next SOLICIT frame: the WAITING entries in list order, up to 8 (R111). -/
def State.nextSolicited (s : State) : List Nat :=
  ((s.solicits.filter Solicit.ready).take Config.maxSolicited).map Solicit.point

/-- The outcome of a SOLICIT frame on its entries that still carry the in-flight mark (R112). -/
def State.solicitOutcome (complete : Bool) (s : State) : State :=
  { s with solicits := s.solicits.map fun e =>
      if e.flying then
        { e with state := if complete then .sent (s.clock + Config.solicitWait) else .waiting false }
      else e }

end Sys2Proof.Machine
end

