-- ==== Sys2Proof/Machine/Roster.lean ====
section
/-!
DEFINITION. The Peer Roster (chapter 7): frames heard, must-track creation, presence content, restart detection, supervision, and
what the loss or the restart of a peer does to the points it sources (R102, R103).
-/

namespace Sys2Proof.Machine

/-- The roster entry of a station (R125). -/
def State.peerAt (p : Station) (s : State) : Option Peer := s.roster.find? fun e => e.station == p

/-- The roster entry of a station changes. -/
def State.updatePeer (p : Station) (f : Peer → Peer) (s : State) : State :=
  { s with roster := s.roster.map fun e => if e.station = p then f e else e }

/-- The period used for supervision: the advertised one, 2000 ms while it is absent (R132). -/
def Peer.period (e : Peer) : Time :=
  match e.content with
  | some c => c.periodCode.toNat * (100 * Config.millisecond)
  | none => Config.assumedPeriod

/-- Both supervision deadlines measured from the time last heard: SILENT at twice the period, LOST at four times (R132). -/
def Peer.supervise (e : Peer) : Peer :=
  { e with silentAt := some (e.lastHeard + 2 * e.period), lostAt := some (e.lastHeard + 4 * e.period) }

/-- An entry at its creation (R125, R135). -/
def newPeer (p : Station) (now : Time) (sources : Bool) : Peer :=
  Peer.supervise
    { station := p, state := .present, lastHeard := now, content := none, bootSeen := false, sourcesPoints := sources,
      holdsOverrides := false, silentAt := none, lostAt := none }

/-- An entry that carries neither mark (R128). -/
def Peer.evictable (e : Peer) : Bool := !e.sourcesPoints && !e.holdsOverrides

/-- Of two entries, the one with the older time last heard; the first at a tie (log 17). -/
def olderHeard (best : Option Peer) (e : Peer) : Option Peer :=
  match best with
  | none => some e
  | some b => if e.lastHeard < b.lastHeard then some e else some b

/-- The evictable entry of a state with the oldest time last heard. -/
def oldestEvictable (st : PeerState) (l : List Peer) : Option Peer :=
  (l.filter fun e => e.state == st && e.evictable).foldl olderHeard none

/-- The entry a must-track creation evicts: a LOST one if there is an evictable one, else a SILENT one (R128). -/
def evictionChoice (l : List Peer) : Option Peer := (oldestEvictable .lost l).or (oldestEvictable .silent l)

/-- A must-track creation, and whether it succeeded (R128). -/
def State.mustTrack (p : Station) (s : State) : State × Bool :=
  let entry := newPeer p s.clock (namesSource p s.points)
  if s.roster.length < Config.maxPeers then ({ s with roster := s.roster ++ [entry] }, true)
  else
    match evictionChoice s.roster with
    | none => (s, false)
    | some v =>
      (State.judgePeerLost
        { s with roster := s.roster.map fun e => if e.station = v.station then entry else e }, true)

/-- The station has a roster entry, or is given one by a must-track creation asked for by the Mirror Receiver or the Request
Handler; a failure counts a roster overflow and sets OVERFLOW (R128). -/
def State.track (p : Station) (s : State) : State × Bool :=
  match s.peerAt p with
  | some _ => (s, true)
  | none =>
    match s.mustTrack p with
    | (s, true) => (s, true)
    | (s, false) => ((s.bump .rosterOverflows).report .overflow true, false)

/-- The "sources points" mark of a station's entry is kept equal to whether a mirrored entry names the station (R99, R135). -/
def State.keepSourcesMark (p : Station) (s : State) : State :=
  (s.updatePeer p fun e => { e with sourcesPoints := namesSource p s.points }).judgePeerLost

/-- An entry at a frame heard: time last heard, both deadlines, state PRESENT (R127, R134). -/
def Peer.hear (now : Time) (e : Peer) : Peer := Peer.supervise { e with lastHeard := now, state := .present }

/-- A frame heard from a station, in JOINING and RUNNING (R126, R127). -/
def State.heard (p : Station) (s : State) : State :=
  if s.station.live then
    match s.peerAt p with
    | some _ => (s.updatePeer p (Peer.hear s.clock)).judgePeerLost
    | none =>
      if s.roster.length < Config.maxPeers then
        { s with roster := s.roster ++ [newPeer p s.clock (namesSource p s.points)] }
      else if namesSource p s.points then (s.mustTrack p).1
      else s
  else s

/-! ## The loss and the restart of a source (R102, R103) -/

/-- A mirrored entry that loses its warrant: STALE, deadline absent, the rest kept (R16). -/
def Mirrored.goStale (m : Mirrored) : Mirrored := { m with state := .stale, deadline := none }

/-- One point of a source that has become LOST: STALE if it was FRESH (R102). -/
def State.sourceLost (s : State) (n : Nat) : State :=
  match s.mirroredAt n with
  | none => s
  | some m =>
    match m.state with
    | .fresh => ((s.updateMirrored n Mirrored.goStale).judgeSource).evaluateSource n
    | .stale => s
    | .unknown => s

/-- A mirrored entry whose source has restarted: UNKNOWN, the value kept with the old mark, count and deadline absent (R14). -/
def Mirrored.goUnknown (m : Mirrored) : Mirrored :=
  { m with state := .unknown, count := none, deadline := none, old := true }

/-- A point that has become UNKNOWN starts its overdue timer in RUNNING; a running timer is kept (R21). -/
def Mirrored.startOverdue (running : Bool) (due : Time) (m : Mirrored) : Mirrored :=
  if running && m.overdueTimer.isNone then { m with overdueTimer := some due } else m

/-- One point of a source whose restart is detected: UNKNOWN; from FRESH or STALE its outputs are evaluated, it is solicited and
its overdue timer starts, the last two in RUNNING only (R103). -/
def State.sourceRestarted (s : State) (n : Nat) : State :=
  match s.mirroredAt n with
  | none => s
  | some m =>
    match m.state with
    | .unknown => s.updateMirrored n Mirrored.goUnknown
    | .fresh | .stale =>
      let running := s.station == .running
      let due := s.clock + s.joinLength
      ((((s.updateMirrored n fun m => m.goUnknown.startOverdue running due).judgeSource).evaluateSource n).solicitPoint n)

/-- A detected restart of a station: its points, in Point Table order, then its overrides (R131, R103, R151). -/
def State.peerRestarted (p : Station) (s : State) : State :=
  ((sourcedFrom p s.points).foldl State.sourceRestarted s).purge p

/-- The loss of a station: its points, in Point Table order, then its overrides (R133, R102, R151). -/
def State.peerLost (p : Station) (s : State) : State :=
  ((sourcedFrom p s.points).foldl State.sourceLost s).purge p

/-! ## Presence frames (R129, R130) -/

/-- The decision whether a peer has restarted since the last presence frame taken from it (R130). -/
def restartDetected (e : Peer) (p : PresenceContent) : Bool :=
  match e.content with
  | none => false
  | some c => c.incarnation != p.incarnation || (p.boot && !e.bootSeen)

/-- Steps 2 to 4 of R129: period and deadlines, content, boot-seen mark. -/
def Peer.takeContent (p : PresenceContent) (e : Peer) : Peer :=
  Peer.supervise
    { e with
      content := some { periodCode := p.periodCode, incarnation := p.incarnation, cause := p.cause, faults := p.faults }
      bootSeen := p.boot }

/-- The content of a valid presence frame, applied to the sender's entry if there is one (R129). -/
def State.applyPresence (sender : Station) (p : PresenceContent) (s : State) : State :=
  match s.peerAt sender with
  | none => s
  | some e =>
    let s := if restartDetected e p then s.peerRestarted sender else s
    s.updatePeer sender (Peer.takeContent p)

/-- The body of a presence frame, in JOINING and RUNNING; not judged in UNCONFIGURED (R129, R126, R184). -/
def State.takePresence (sender : Station) (body : List Byte) (s : State) : State :=
  if s.station.live then
    match parsePresence body with
    | none => s.bump .receiveErrors
    | some p => s.applyPresence sender p
  else s

/-! ## This station's presence frames (R121 to R124) -/

/-- The content of this station's next presence frame (R122, R123). Without an image, where none is sent, the period code is 0 (log 31). -/
def State.presenceContent (s : State) : PresenceContent :=
  { periodCode := match s.header with
      | some h => h.periodCode
      | none => 0
    boot := decide (s.bootCount < Config.bootFrames)
    probing := s.mode == .probing
    cause := s.retained.cause
    incarnation := s.retained.incarnation
    faults := s.faults.byte }

/-- The outcomes of a frame of this station (R70 to R72). -/
inductive TxOutcome
  | complete
  | lost
  | failed
  deriving DecidableEq, Repr

/-- The outcome of a presence frame on the pending mark and the boot count (R123, R124). -/
def State.presenceOutcome (out : TxOutcome) (s : State) : State :=
  match out with
  | .complete => { s with presencePending := false, bootCount := min Config.bootFrames (s.bootCount + 1) }
  | .lost => s
  | .failed => { s with presencePending := false }

end Sys2Proof.Machine
end

