-- ==== Sys2Proof/Machine/Mirror.lean ====
section
/-!
DEFINITION. The Mirror Receiver (chapter 5): the judgement of each record of a publication frame (R90).
-/

namespace Sys2Proof.Machine

/-- The distance from a stored change count to a carried one, upwards modulo 16 (R19). -/
def countDistance (stored carried : Count) : Nat := (carried - stored).toNat

/-- Step 1 of R100: a distance of 2 to 15 counts a missed change; an absent count takes no distance (R19). -/
def State.countMissed (stored : Option Count) (carried : Count) (s : State) : State :=
  match stored with
  | none => s
  | some c => if 2 ≤ countDistance c carried then s.bump .missedChanges else s

/-- Steps 2 to 4 of R100 on the entry: value, count, staleness deadline, FRESH, marks cleared, overdue timer stopped (R15). -/
def Mirrored.accept (k : Kind) (now : Time) (r : Record) (m : Mirrored) : Mirrored :=
  { m with
    state := .fresh
    value := some (k.store r.value)
    count := some r.count
    deadline := some (now + stalenessLimit r.refreshClass)
    old := false
    backoff := none
    overdue := false
    overdueTimer := none }

/-- A record is accepted for a mirrored point (R100). The learned source has been set before. -/
def State.acceptRecord (n : Nat) (k : Kind) (m : Mirrored) (r : Record) (s : State) : State :=
  ((((s.countMissed m.count r.count).updateMirrored n (Mirrored.accept k s.clock r)).judgeSource).satisfy n).evaluateSource n

/-- The learned source of a point is set to a station, and the Peer Roster is asked to track it (R97). -/
def State.learn (n : Nat) (p : Station) (s : State) : State :=
  (((s.updateMirrored n fun m => { m with source := some p }).track p).1).keepSourcesMark p

/-- The learned source of a point is switched: the new source is tracked, then the marks of both are kept (R98, R99). -/
def State.switchSource (n : Nat) (p old : Station) (s : State) : State := (s.learn n p).keepSourcesMark old

/-- What R98 decides for a record from a station that is not the learned source. -/
inductive SwitchRuling
  | switchCounted
  | switchUncounted
  | refused
  deriving DecidableEq, Repr

/-- The table of R98: the roster state of the learned source (none if untracked), and whether the sender's number is lower. -/
def switchRuling (sourceState : Option PeerState) (lower : Bool) : SwitchRuling :=
  match sourceState, lower with
  | some .present, true => .switchCounted
  | some .silent, true => .switchCounted
  | some .present, false => .refused
  | some .silent, false => .refused
  | some .lost, _ => .switchUncounted
  | none, true => .switchCounted
  | none, false => .switchUncounted

/-- A record for an OWNED point that is not YIELDED: an ownership conflict (R92 to R94). DESIGN CHOICE: CONFLICT is reported, and the
STATUS-sourced point takes that change, before the point yields or is claimed (log 28). -/
def State.ownershipConflict (sender : Station) (n : Nat) (s : State) : State :=
  let s := (s.bump .conflicts).report .conflict true
  match s.number with
  | none => s
  | some own =>
    if sender < own then s.yieldPoint n
    else if s.station = .running then s.claim n
    else s

/-- A record of the right kind for a MIRRORED point (R97, R98, R100). -/
def State.mirroredRecord (sender : Station) (n : Nat) (k : Kind) (m : Mirrored) (r : Record) (s : State) : State :=
  match m.source with
  | none => (s.learn n sender).acceptRecord n k m r
  | some src =>
    if src = sender then s.acceptRecord n k m r
    else
      match switchRuling ((s.peerAt src).map Peer.state) (decide (sender < src)) with
      | .switchCounted => ((s.bump .conflicts).switchSource n sender src).acceptRecord n k m r
      | .switchUncounted => (s.switchSource n sender src).acceptRecord n k m r
      | .refused => s.bump .conflicts

/-- The judgement of one record (R90, R91, R95, R96). -/
def State.takeRecord (sender : Station) (s : State) (r : Record) : State :=
  let n := r.point.toNat
  match findPoint n s.points with
  | none => s
  | some p =>
    match p.role with
    | .owned o => if o.sched = .yielded then s else s.ownershipConflict sender n
    | .mirrored m => if r.kind = p.kind then s.mirroredRecord sender n p.kind m r else s.bump .conflicts

/-- The body of a publication frame (R88). The Point Table is empty in UNCONFIGURED, so every record is passed over (R89). -/
def State.takePublication (sender : Station) (body : List Byte) (s : State) : State :=
  if publicationOk body then (recordsOf body).foldl (State.takeRecord sender) s else s.bump .receiveErrors

end Sys2Proof.Machine
end

