-- ==== Sys2Proof/Machine/Handler.lean ====
section
/-!
DEFINITION. The Request Handler (chapter 9): the steps of taking a request (R158), the recent-command table, the reply queue, the
commands and the queries.
-/

namespace Sys2Proof.Machine

/-! ## The reply queue and the recent-command table -/

/-- A reply is queued (R173). -/
def State.queueReply (r : Reply) (s : State) : State := { s with replies := s.replies ++ [r] }

/-- A reply without data and without the restart mark. -/
def plainReply (dest : Station) (tag : Byte) (code : ReplyCode) : Reply :=
  { dest := dest, tag := tag, code := code, data := [], restartMark := false }

/-- A DATA reply. -/
def dataReply (dest : Station) (tag : Byte) (data : List Byte) : Reply :=
  { dest := dest, tag := tag, code := .data, data := data, restartMark := false }

/-- The recent-command entry of a sender and tag (R163). -/
def findRecent (p : Station) (tag : Byte) (l : List Recent) : Option Recent :=
  l.find? fun e => e.sender == p && e.tag == tag

/-- The table with a new entry; when it holds 8, the entry with the greatest age, the first written, is given up (R162). -/
def addRecent (e : Recent) (l : List Recent) : List Recent :=
  (if l.length < Config.maxRecent then l else l.drop 1) ++ [e]

/-- A command's outcome is recorded (R162). -/
def State.record (p : Station) (tag : Byte) (kind : CommandKind) (code : ReplyCode) (s : State) : State :=
  { s with recent := addRecent { sender := p, tag := tag, kind := kind, outcome := code, written := s.clock } s.recent }

/-- A command is answered with a code, without data, and its outcome is recorded (R162, R165). -/
def State.answer (p : Station) (tag : Byte) (kind : CommandKind) (code : ReplyCode) (s : State) : State :=
  (s.queueReply (plainReply p tag code)).record p tag kind code

/-- The reply to a repeated command (R163): the stored outcome, with the restart mark for an accepted RESTART. -/
def replayOf (p : Station) (tag : Byte) (e : Recent) : Reply :=
  { dest := p, tag := tag, code := e.outcome, data := [], restartMark := e.kind == .restart && e.outcome == .accepted }

/-! ## Commands (R164 to R168) -/

/-- Steps 5 and 6 of a FORCE: a roster entry for the sender, else NO-ROOM; then the Output Unit (R164, R165). -/
def State.force (p : Station) (tag : Byte) (i : Fin 16) (value : Bool) (lease : Byte) (s : State) : State :=
  match s.track p with
  | (s, false) => s.answer p tag .force .noRoom
  | (s, true) =>
    let r := s.applyForce p i value lease
    r.1.answer p tag .force r.2

/-- Step 6 of a RELEASE (R165, R147). -/
def State.release (p : Station) (tag : Byte) (i : Fin 16) (s : State) : State :=
  let r := s.applyRelease p i
  r.1.answer p tag .release r.2

/-- The image in force permits remote restart (R166). -/
def State.remoteRestartPermitted (s : State) : Bool :=
  match s.header with
  | some h => h.remoteRestart
  | none => false

/-- Step 6 of a RESTART: DENIED, or ACCEPTED with the restart mark and a pending restart; a restart already pending keeps its bound
(R166, R167). -/
def State.requestRestart (p : Station) (tag : Byte) (s : State) : State :=
  if s.remoteRestartPermitted then
    State.record p tag .restart .accepted
      { s.queueReply { plainReply p tag .accepted with restartMark := true } with
        pendingRestart := some (s.pendingRestart.getD (s.clock + Config.restartBound)) }
  else s.answer p tag .restart .denied

/-- Step 6 of a CLEAR COUNTERS: all twelve counters at 0, ACCEPTED (R168). -/
def State.clearCounters (p : Station) (tag : Byte) (s : State) : State :=
  State.answer p tag .clearCounters .accepted { s with counters := Counters.zero }

/-- Steps 5 and 6 of a command. -/
def State.performCommand (p : Station) (tag : Byte) (c : Command) (s : State) : State :=
  match c with
  | .force i value lease => s.force p tag i value lease
  | .release i => s.release p tag i
  | .restart => s.requestRestart p tag
  | .clearCounters => s.clearCounters p tag

/-! ## Queries (R169 to R172) -/

/-- The number of OWNED entries (R6). -/
def State.ownedCount (s : State) : Nat := (s.points.filter fun p => p.owned?.isSome).length

/-- The number of MIRRORED entries (R6). -/
def State.mirroredCount (s : State) : Nat := (s.points.filter fun p => p.mirrored?.isSome).length

/-- The data of a STATUS reply (R169). -/
def State.statusData (s : State) : List Byte :=
  [s.station.code, s.mode.code, s.retained.cause.code, s.retained.incarnation, s.retained.guardCount.setWidth 8, s.faults.byte,
   s.error.code, BitVec.ofNat 8 s.ownedCount, BitVec.ofNat 8 s.mirroredCount]

/-- The data of a POINT GROUP reply: the group, then n records for the indexes from the start, modulo 16 (R170). -/
def State.groupData (group : Nat) (start : Fin 16) (n : Nat) (s : State) : List Byte :=
  BitVec.ofNat 8 group ::
    (List.range n).flatMap fun k =>
      let i := (start.val + k) % 16
      slotBytes i (findPoint (16 * group + i) s.points)

/-- The source condition of an output (R157). -/
def State.sourceCondition (o : Output) (s : State) : SourceCondition :=
  if o.binding.source = 0 then .null
  else
    match (findPoint o.binding.source s.points).map Point.role with
    | some (.owned _) => .owned
    | some (.mirrored m) =>
      match m.state with
      | .fresh => .fresh
      | .stale => .stale
      | .unknown => .unknown
    | none => .unknown

/-- The reply to an OUTPUT query (R171, R157). -/
def State.outputReply (p : Station) (tag : Byte) (i : Fin 16) (s : State) : Reply :=
  match s.outputAt i with
  | none => plainReply p tag .noOutput
  | some o => dataReply p tag (outputBytes s.clock (s.sourceCondition o) o)

/-- Step 6 of a query: what it reads, captured at this moment, and nothing changed but the reply queue (section 9.4). -/
def State.queryReply (p : Station) (tag : Byte) (q : Query) (s : State) : Reply :=
  match q with
  | .status => dataReply p tag s.statusData
  | .pointGroup group start n => dataReply p tag (s.groupData group start n)
  | .peer station => dataReply p tag (peerBytes s.clock station (s.peerAt station))
  | .output i => s.outputReply p tag i
  | .counters page => dataReply p tag (counterBytes page s.counters)

/-! ## Taking a request (R158 to R163) -/

/-- Steps 3 to 6 of a command: body, recent-command table, roster, application. -/
def State.takeCommand (p : Station) (body : List Byte) (s : State) : State :=
  match commandOf body with
  | none => s.queueReply (plainReply p (tagOf body) .badRequest)
  | some c =>
    match findRecent p (tagOf body) s.recent with
    | some e => s.queueReply (replayOf p (tagOf body) e)
    | none => s.performCommand p (tagOf body) c

/-- Steps 3 and 6 of a query. -/
def State.takeQuery (p : Station) (body : List Byte) (s : State) : State :=
  match queryOf body with
  | none => s.queueReply (plainReply p (tagOf body) .badRequest)
  | some q => s.queueReply (s.queryReply p (tagOf body) q)

/-- Step 1: whether the station state takes the request (R159). -/
def takesRequest (st : StationState) (cls : RequestClass) (body : List Byte) : Bool :=
  match st, cls with
  | .running, _ => true
  | .unconfigured, .query => beginsWithStatus body
  | .unconfigured, .command => false
  | .starting, _ => false
  | .halted, _ => false
  | .joining, _ => false

/-- A request addressed to this station: steps 1 and 2, then the steps of its class (R158 to R160). -/
def State.takeRequest (cls : RequestClass) (p : Station) (body : List Byte) (s : State) : State :=
  if takesRequest s.station cls body && decide (s.replies.length < Config.maxReplies) then
    match cls with
    | .command => s.takeCommand p body
    | .query => s.takeQuery p body
  else s.bump .requestsDropped

/-- A request after the receive checks: to 63 it is dropped and counted, to another station ignored (R76). -/
def State.filterRequest (cls : RequestClass) (sender dest : Station) (body : List Byte) (s : State) : State :=
  if dest = Config.everyone then s.bump .requestsDropped
  else if s.number = some dest then s.takeRequest cls sender body
  else s

end Sys2Proof.Machine
end

