-- ==== Sys2Proof/Machine/Queue.lean ====
section
/-!
DEFINITION. The Publication Scheduler's frames (chapter 3): the candidate, assembly, the outcomes of a publication frame, the START
burst.
-/

namespace Sys2Proof.Machine

/-- The record of a queued point, filled from its entry as it stands (R51). -/
def Point.record (p : Point) : Option Record :=
  p.owned?.map fun o =>
    { point := BitVec.ofNat 10 p.number, kind := p.kind, refreshClass := o.refreshClass, count := o.count, value := o.current }

/-- The entries an assembly takes: up to six from the head of the queue, in queue order (R50). -/
def State.taken (s : State) : List Nat := s.queue.take Config.maxRecords

/-- The records of the frame an assembly makes, in the order of the entries taken (R50, R51). -/
def State.nextRecords (s : State) : List Record :=
  s.taken.filterMap fun n => (findPoint n s.points).bind Point.record

/-- An entry taken by an assembly: the in-flight mark, and the carried value of a LEVEL point sourced from a pin (R50, R51, R10). -/
def Owned.take (k : Kind) (o : Owned) : Owned :=
  { o with inFlight := true, carried := if isLevelFromPin k o then some o.current else o.carried }

/-- The entries taken receive the in-flight mark and keep their carried values (R50, R51). -/
def State.markTaken (s : State) : State :=
  { s with points := s.points.map fun p => if s.taken.contains p.number then p.mapOwned (Owned.take p.kind) else p }

/-- A point whose frame has completed: compare base, refresh timer (R52 steps 1 and 2, R46). -/
def Owned.completed (k : Kind) (now : Time) (o : Owned) : Owned :=
  { o with
    compareBase := if isLevelFromPin k o then o.carried else o.compareBase
    refreshTimer := some (now + refreshInterval o.refreshClass) }

/-- Steps 1 and 2 of R52 on the entry of a point. -/
def State.complete12 (n : Nat) (s : State) : State :=
  { s with points := s.points.map fun p => if p.number = n then p.mapOwned (Owned.completed p.kind s.clock) else p }

/-- A dirty point leaves its place and joins the tail of the urgent band, both marks cleared (R52 step 3). -/
def State.requeueDirty (n : Nat) (s : State) : State := (s.leaveQueue n .quiet).joinUrgent n

/-- Transmission complete for one point of the frame, if it still carries the in-flight mark (R52, R56). -/
def State.pointCompleted (s : State) (n : Nat) : State :=
  match s.ownedAt n with
  | none => s
  | some o =>
    if o.inFlight then
      if o.dirty then (s.complete12 n).requeueDirty n else (s.complete12 n).leaveQueue n .quiet
    else s

/-- Contention lost or transmit failure for one point of the frame: both marks cleared, place and band kept (R53). -/
def State.pointNotSent (s : State) (n : Nat) : State := s.updateOwned n fun o => { o with inFlight := false, dirty := false }

/-- The points of a publication frame in record order. -/
def recordPoints (records : List Record) : List Nat := records.map fun r => r.point.toNat

/-- The outcome of a publication frame (R52, R53). -/
def State.publicationOutcome (records : List Record) (complete : Bool) (s : State) : State :=
  (recordPoints records).foldl (if complete then State.pointCompleted else State.pointNotSent) s

/-- The numbers of the owned points that are not YIELDED, in Point Table order. -/
def startPoints (points : List Point) : List Nat :=
  (points.filter fun p => match p.owned? with
    | some o => o.sched != .yielded
    | none => false).map Point.number

/-- The START burst: every owned point that is not YIELDED joins the urgent tail in Point Table order (R58). -/
def State.startBurst (s : State) : State := (startPoints s.points).foldl (fun s n => s.joinUrgent n) s

/-- At the entry to HALTED every in-flight and dirty mark is cleared; entries, order and bands are kept (R61). -/
def State.clearMarks (s : State) : State :=
  { s with points := s.points.map (Point.mapOwned fun o => { o with inFlight := false, dirty := false }) }

end Sys2Proof.Machine
end

