-- ==== Sys2Proof/Machine/Station.lean ====
section
/-!
DEFINITION. The Start-up Unit (chapter 10): the fill of the tables from a valid image, leaving STARTING, entry to RUNNING, entry to
HALTED.
-/

namespace Sys2Proof.Machine

/-! ## The fill (R6, R22, R24, R139) -/

/-- The debounce time of a code, in milliseconds (section 11.2). -/
def debounceOf (code : Nat) : Nat :=
  match code with
  | 0 => 0
  | 1 => 5
  | 2 => 20
  | _ => 50

/-- The conversion of a level pin at the fill; 0 for IO8 to IO15, which no valid image makes a level pin (R181, log 31). -/
def analogReading (inputs : PinInputs) (i : Nat) : Byte := inputs.analog[i]?.getD 0

/-- A pin at the fill: its mode and settings, the level read as debounced level, the conversion as latest reading (R22, R24). The target is used
in HAND mode only, where it is 0 to 15 (R181); elsewhere it is the byte modulo 16 (log 31). -/
def fillPin (inputs : PinInputs) (i : Nat) (p : ImagePin) : Pin :=
  let mode := pinModeOf p.mode
  { mode := mode
    debounce := debounceOf p.debounce
    pullUp := p.pullUp
    target := Fin.ofNat 16 p.target
    level := match mode with
      | .inDigital | .hand => some (inputs.digital.getLsbD i)
      | .unused | .inLevel | .out => none
    candidate := none
    reading := match mode with
      | .inLevel => some (analogReading inputs i)
      | .unused | .inDigital | .out | .hand => none }

/-- The sixteen pins at the fill. -/
def fillPins (im : Image) (inputs : PinInputs) : List Pin := im.pins.zipIdx.map fun (p, i) => fillPin inputs i p

/-- The source an owned point entry names; 16 is STATUS (section 11.2). -/
def sourceOf (code : Nat) : Source := if code < 16 then .pin (Fin.ofNat 16 code) else .status

/-- The current value of an owned point at the fill (R8, R24). -/
def fillValue (im : Image) (inputs : PinInputs) (faults : FaultSummary) (p : ImagePoint) : Byte :=
  if p.fromPin then
    if p.level then analogReading inputs p.source
    else if im.mode p.source == .inLevel then bitAt 0 (decide (p.threshold ≤ analogReading inputs p.source))
    else bitAt 0 (inputs.digital.getLsbD p.source)
  else if p.level then faults.byte
  else bitAt 0 faults.any

/-- An OWNED entry at the fill (R7 to R11, section 1.7). -/
def fillOwned (im : Image) (inputs : PinInputs) (faults : FaultSummary) (p : ImagePoint) : Owned :=
  { source := sourceOf p.source
    refreshClass := BitVec.ofNat 2 p.refreshClass
    deadband := if p.level && p.fromPin then some (BitVec.ofNat 8 p.deadband) else none
    threshold := if !p.level && p.fromPin && im.mode p.source == .inLevel then some p.threshold else none
    current := fillValue im inputs faults p
    count := 0
    compareBase := none
    carried := none
    sched := .quiet
    inFlight := false
    dirty := false
    refreshTimer := none }

/-- A MIRRORED entry at the fill: UNKNOWN, every other field absent or clear (R13, section 1.7). -/
def fillMirrored : Mirrored :=
  { state := .unknown, value := none, count := none, source := none, deadline := none, old := false, backoff := none,
    overdue := false, overdueTimer := none }

/-- An entry of the Point Table at the fill (R6). -/
def fillPoint (im : Image) (inputs : PinInputs) (faults : FaultSummary) (p : ImagePoint) : Point :=
  { number := p.number
    kind := kindOfBit p.level
    role := if p.mirrored then .mirrored fillMirrored else .owned (fillOwned im inputs faults p) }

/-- The fallback of a code (section 11.2). -/
def fallbackOfCode : Fin 3 → Fallback
  | 0 => .hold
  | 1 => .off
  | 2 => .on

/-- The fallback of the bits of a binding of a pin. Bits that are no code stand only in a binding that does not use them, and its fallback is
the free value `Config.unusedFallback` (log 29). -/
def fallbackOf (pin bits : Nat) : Fallback :=
  fallbackOfCode (if h : bits < 3 then ⟨bits, h⟩ else Config.unusedFallback pin)

/-- The binding of an OUT pin: its entry, or the null point with invert no, fallback OFF, overridable no (R139, R181). DESIGN CHOICE: R181
gives a pin without an entry no threshold, and it is 0 here; no evaluation of the null point uses it (R139, log 31). -/
def fillBinding (im : Image) (i : Nat) : Binding :=
  match im.bindings.find? fun b => b.pin == i with
  | some b =>
    { source := b.source, threshold := b.threshold, invert := b.invert, fallback := fallbackOf i b.fallback,
      overridable := b.overridable }
  | none => { source := 0, threshold := 0, invert := false, fallback := .off, overridable := false }

/-- The outputs at the fill: one for each pin in OUT mode, driven and held OFF, the list empty (R140, R143, R145). -/
def fillOutputs (im : Image) : List Output :=
  ((List.finRange 16).filter fun i => im.mode i.val == .out).map fun i =>
    { pin := i, binding := fillBinding im i.val, driven := false, held := false, overrides := [] }

/-- The line rate of a code (section 11.2). -/
def rateOf (code : Nat) : LineRate :=
  match code with
  | 0 => .kbit50
  | 1 => .kbit100
  | _ => .kbit200

/-- The header fields of a valid image. -/
def fillHeader (im : Image) : Header :=
  { rate := rateOf im.rate, periodCode := BitVec.ofNat 5 im.periodCode, remoteRestart := im.remoteRestart }

/-! ## The station number (R182) and leaving STARTING (R183) -/

/-- A usable station number: 1 to 62. -/
def usableNumber (p : Station) : Option Station := if p = 0 ∨ p = Config.everyone then none else some p

/-- The number chosen with a valid image: the header number, or the straps when it is 0 (R182). -/
def chooseNumber (im : Image) (straps : Station) : Option Station :=
  if im.number = 0 then usableNumber straps else some (BitVec.ofNat 6 im.number)

/-- Leaving STARTING: the load has ended, the Line Unit takes up the line as BUSY and ignores it until the first line-idle event
(R67, R183). -/
def State.leaveStarting (straps : Station) (number : Option Station) (rate : LineRate) (next : StationState) (s : State) : State :=
  { s with
    station := next, loading := false, straps := some straps, number := number, lineRate := some rate, line := .busy,
    assembly := if next = .halted then .empty else .ignoring }

/-- The end of a load that gives no usable image: the error code is recorded, the straps give the number, and UNCONFIGURED or HALTED
is entered at 50 kbit/s with CONFIG holding (R180 to R183). -/
def State.noImage (error : ConfigError) (straps : Station) (s : State) : State :=
  let number := usableNumber straps
  State.leaveStarting straps number .kbit50 (if number.isSome then .unconfigured else .halted) { s with error := error }

/-- The tables are filled from a valid image (R6, R24, R139). -/
def State.fill (im : Image) (inputs : PinInputs) (s : State) : State :=
  { s with
    points := im.points.map (fillPoint im inputs s.faults)
    pins := fillPins im inputs
    outputs := fillOutputs im
    header := some (fillHeader im)
    error := .none }

/-- The end of a load with a valid image: the number is chosen, the tables are filled, and JOINING (CONFIG cleared, the join window
started) or HALTED (CONFIG holding) is entered (R182, R183, R185). -/
def State.validImage (im : Image) (straps : Station) (inputs : PinInputs) (s : State) : State :=
  let rate := rateOf im.rate
  match chooseNumber im straps with
  | none => (s.fill im inputs).leaveStarting straps none rate .halted
  | some p =>
    let s := State.fill im inputs { s with faults := s.faults.put .config false }
    { s.leaveStarting straps (some p) rate .joining with joinTimer := some (s.clock + s.joinLength) }

/-- The end of a configuration load that has read the given bytes (R179 to R183). -/
def State.endLoad (memory : List Byte) (straps : Station) (inputs : PinInputs) (s : State) : State :=
  match loadFailureOf memory with
  | some f => s.noImage (loadErrorOf f) straps
  | none =>
    let im := parseImage memory
    match im.validate with
    | .none => s.validImage im straps inputs
    | e => s.noImage e straps

/-! ## Entry to RUNNING (R185) -/

/-- The overdue timers of the UNKNOWN mirrored points start (R21). -/
def State.startOverdueTimers (s : State) : State :=
  { s with points := s.points.map (Point.mapMirrored fun m =>
      if m.state = .unknown then { m with overdueTimer := some (s.clock + s.joinLength) } else m) }

/-- The entry to RUNNING: each block takes up its part (R185, R58, R109, R21, R121, R123, R144). -/
def State.enterRunning (s : State) : State :=
  let s := State.startBurst { s with station := .running, joinTimer := none }
  let s := s.startOverdueTimers.fillSolicits
  State.evaluateWhere (fun _ => true)
    { s with presencePending := true, presenceTimer := some (s.clock + s.period), bootCount := 0 }

/-! ## Entry to HALTED (R187) -/

/-- A WAITING entry loses its in-flight mark (R108). -/
def Solicit.unmark (e : Solicit) : Solicit :=
  match e.state with
  | .waiting _ => { e with state := .waiting false }
  | .sent _ => e
  | .covered _ => e

/-- The entry to HALTED on a duplicate detection: the frame of this station is abandoned and the receive assembly emptied (R67), marks
of items in flight, debounce candidates and the presence pending mark are cleared (R61, R108, R38, R121), the pending restart is
cancelled (R167), DUPLICATE is set (R186), and everything else keeps what it held (R187). The Point Table is frozen, so no
STATUS-sourced point takes the change (R6, R189). -/
def State.enterHalted (s : State) : State :=
  { s.clearMarks with
    station := .halted
    faults := s.faults.put .duplicate true
    joinTimer := none
    pins := s.pins.map fun p => { p with candidate := none }
    assembly := .empty
    inFlight := none
    solicits := s.solicits.map Solicit.unmark
    presencePending := false
    pendingRestart := none }

end Sys2Proof.Machine
end

