-- ==== Sys2Proof/Machine/LineUnit.lean ====
section
/-!
DEFINITION. The Line Unit, the Transmit Selector and failure accounting (chapter 4): the arrival of a frame, the choice at a
line-idle event, the outcomes of a frame of this station, the line modes.
-/

namespace Sys2Proof.Machine

/-! ## Reception (R75 to R78) -/

/-- The characters by which a frame that ends as discarded is judged: those in the receive assembly buffer and those that come with its
end. While a frame of this station is on the line the frame that ends is the one before it, and the buffer holds nothing of it
(R75). -/
def State.frameChars (samples : List CharBits) (s : State) : List LineChar :=
  (if s.inFlight.isSome then [] else s.assembly.chars) ++ samples.filterMap sampleChar

/-- There is a frame to judge: one that has characters; one in the receive assembly, which this station's own start bit begins even if
nothing of it is read back (R70, R71); or, brought without a sample, such a frame that has left the assembly. Glitches alone are no frame
(R64; log 13). -/
def State.frameBegun (samples : List CharBits) (s : State) : Bool :=
  !(s.frameChars samples).isEmpty || samples.isEmpty || (s.inFlight.isNone && s.assembly.inProgress)

/-- What is on the line is assembled, and a frame of it is checked and dispatched: in the states that receive (R67), while the line is
not STUCK (R86), and unless the line is ignored up to the next line-idle event, as before the first one (R67) and after a discarded
frame (R75). -/
def State.assembles (s : State) : Bool := s.station.dispatches && s.line != .stuck && s.assembly != .ignoring

/-- A frame has ended: the assembly is empty, unless it already holds the frame of this station that began at the same line-idle
event (R75). -/
def State.endAssembly (s : State) : State := { s with assembly := if s.inFlight.isSome then s.assembly else .empty }

/-- A received frame is discarded: one receive error, and the line is ignored until the next line-idle event (R75). -/
def State.discardFrame (s : State) : State :=
  State.bump .receiveErrors
    { s with assembly :=
        if s.inFlight.isSome then s.assembly else if s.line = .busy then .ignoring else .empty }

/-- The block of a good frame's class takes it (R76, R78). -/
def State.dispatchFrame (cls : FrameClass) (sender dest : Station) (body : List Byte) (s : State) : State :=
  match cls with
  | .urgentPublish => s.takePublication sender body
  | .routinePublish => s.takePublication sender body
  | .solicit => s.takeSolicit body
  | .presence => s.takePresence sender body
  | .reply => s
  | .command => s.filterRequest .command sender dest body
  | .query => s.filterRequest .query sender dest body

/-- The arrival of a good frame: it is counted (R75); with this station's own number it is a duplicate detection and nothing more
(R77, R186); else the Peer Roster hears it and the block of its class takes it (R78). -/
def State.goodFrame (cls : FrameClass) (sender dest : Station) (body : List Byte) (s : State) : State :=
  let s := s.endAssembly.bump .framesReceived
  if s.number = some sender then s.enterHalted
  else (s.heard sender).dispatchFrame cls sender dest body

/-- A frame heard to its end, where frames are assembled: discarded when its header fails a check of R75, else good. -/
def State.arrive (cls : FrameClass) (sender dest : Station) (body : List Byte) (s : State) : State :=
  if s.assembles then
    if headerGood cls sender dest body then s.goodFrame cls sender dest body else s.discardFrame
  else s

/-- The class of a request frame. -/
def frameOfRequest : RequestClass → FrameClass
  | .command => .command
  | .query => .query

/-! ## The Transmit Selector (R79, R80) -/

/-- The publication candidate's class follows the head of the queue (R49). -/
def State.publicationCandidate (s : State) : Option FrameClass :=
  if !s.urgent.isEmpty then some .urgentPublish else if !s.routine.isEmpty then some .routinePublish else none

/-- The candidates of RUNNING in ACTIVE, the lowest class first (R79). -/
def State.lowestCandidate (s : State) : Option FrameClass :=
  if s.publicationCandidate = some .urgentPublish then some .urgentPublish
  else if !s.replies.isEmpty then some .reply
  else if s.solicits.any Solicit.ready then some .solicit
  else if s.presencePending then some .presence
  else s.publicationCandidate

/-- The choice at a line-idle event, by station state and line mode (R79, R80). -/
def State.choice (s : State) : Option FrameClass :=
  match s.station, s.mode with
  | .running, .active => s.lowestCandidate
  | .running, .probing => if s.presencePending then some .presence else none
  | .running, .silenced => none
  | .unconfigured, _ => if s.replies.isEmpty then none else some .reply
  | .starting, _ => none
  | .halted, _ => none
  | .joining, _ => none

/-- A frame is on the line: this station's start bit makes the line BUSY, and the assembly of what is read back begins (R65, R70).
A station that transmits has a number (R182); without one the sender would be 0 (log 31). -/
def State.startFrame (content : TxContent) (s : State) : State :=
  { s with inFlight := some { sender := s.number.getD 0, content := content }, line := .busy, assembly := .assembling [] }

/-- The WAITING entries taken receive the in-flight mark (R111). -/
def State.markSolicited (s : State) : State :=
  { s with solicits := s.solicits.map fun e =>
      if e.ready && s.nextSolicited.contains e.point then { e with state := .waiting true } else e }

/-- The owner of the chosen candidate assembles its frame, and the Line Unit starts sending it (R50, R111, R122, R173, R70). -/
def State.transmit (s : State) : State :=
  match s.choice with
  | some .urgentPublish => s.markTaken.startFrame (.publication true s.nextRecords)
  | some .routinePublish => s.markTaken.startFrame (.publication false s.nextRecords)
  | some .reply =>
    match s.replies.head? with
    | some r => s.startFrame (.reply r)
    | none => s
  | some .solicit => s.markSolicited.startFrame (.solicit s.nextSolicited)
  | some .presence => s.startFrame (.presence s.presenceContent)
  | some .command => s
  | some .query => s
  | none => s

/-- The line-idle event: the line is IDLE with nothing in assembly; at the end of a stuck-line episode LINE clears (R65, R86); then the
selector chooses (R66, log 15). -/
def State.lineIdle (s : State) : State :=
  State.transmit (State.report .line false { s with line := .idle, assembly := .empty })

/-! ## Failure accounting (R81 to R84) -/

/-- The line mode becomes SILENCED: the count is 0, the quarantine timer starts with the given length in seconds, and SILENCED holds
(R82, R84). -/
def State.enterSilenced (length : Nat) (s : State) : State :=
  State.report .silenced true
    { s with
      mode := .silenced, failures := 0, quarantineLength := length
      quarantineTimer := some (s.clock + length * Config.second) }

/-- The line mode returns to ACTIVE: count 0, quarantine length 2 s, SILENCED clear (R84). -/
def State.enterActive (s : State) : State :=
  State.report .silenced false { s with mode := .active, failures := 0, quarantineLength := Config.firstQuarantine }

/-- A quarantine length doubled, at most 16 s (R84). -/
def doubledQuarantine (length : Nat) : Nat := min Config.longestQuarantine (2 * length)

/-- Failure accounting takes the outcome of a frame, in RUNNING (R82, R84); elsewhere it does not act (R81). -/
def State.account (out : TxOutcome) (s : State) : State :=
  if s.station = .running then
    match s.mode, out with
    | .active, .complete => { s with failures := 0 }
    | .active, .lost => s
    | .active, .failed =>
      if s.failures + 1 < Config.failuresBeforeSilence then { s with failures := s.failures + 1 }
      else s.enterSilenced s.quarantineLength
    | .probing, .complete => s.enterActive
    | .probing, .lost => { s with failures := 0 }
    | .probing, .failed => s.enterSilenced (doubledQuarantine s.quarantineLength)
    | .silenced, _ => s
  else s

/-! ## Outcomes of a frame of this station (R70 to R73) -/

/-- The reply at the head leaves the queue; an ACCEPTED answer to a RESTART ends the pending restart with the REMOTE restart
(R173, R166). -/
def State.replyComplete (r : Reply) (s : State) : State :=
  let s : State := { s with replies := s.replies.tail }
  if r.restartMark && s.pendingRestart.isSome then s.restart .remote else s

/-- The owner of a frame takes its outcome (R73). -/
def State.ownerOutcome (content : TxContent) (out : TxOutcome) (s : State) : State :=
  match content with
  | .publication _ records => s.publicationOutcome records (out == .complete)
  | .solicit _ => s.solicitOutcome (out == .complete)
  | .presence _ => s.presenceOutcome out
  | .reply r =>
    match out with
    | .complete => s.replyComplete r
    | .lost => s
    | .failed => s

/-- The counter of an outcome (R70 to R72). -/
def TxOutcome.counter : TxOutcome → CounterId
  | .complete => .framesSent
  | .lost => .contentionLosses
  | .failed => .transmitFailures

/-- The end of the frame of this station on the line: the driver is released, the outcome is counted, failure accounting and then the
owner take it (R70 to R73, log 14). A completed frame is not received (R72), so it leaves the assembly; after a loss or a failure the
assembly keeps the characters read back, and the station goes on receiving (R70, R71). DESIGN CHOICE: a frame that another station starts
before the next line-idle event is received (R66), though R75 has assembly start after one (log 27). -/
def State.endFrame (out : TxOutcome) (s : State) : State :=
  match s.inFlight with
  | none => s
  | some f =>
    let s : State :=
      { s with inFlight := none, assembly := if out == .complete && s.assembly.inProgress then .empty else s.assembly }
    ((s.bump out.counter).account out).ownerOutcome f.content out

/-! ## Stuck line and guard (R86, R87) -/

/-- The start of a stuck-line episode: the line is STUCK, a frame in assembly is discarded and counted, the episode is counted, LINE
holds. In HALTED the line and the condition follow, and no counter moves (R86, R67). -/
def State.stuckLine (s : State) : State :=
  let stuck : State := { s with line := .stuck, assembly := if s.assembly = .empty then .empty else .ignoring }
  if s.station = .halted then stuck.report .line true
  else
    let s := if s.assembly.inProgress then stuck.bump .receiveErrors else stuck
    (s.bump .stuckLineEpisodes).report .line true

end Sys2Proof.Machine
end

