-- ==== Sys2Proof/Machine/Frames.lean ====
section
/-!
DEFINITION. The commands that are frames heard, other than requests (R78). A broadcast frame carries destination 63 (R75).
-/

namespace Sys2Proof.Machine

/-- URGENT_PUBLISH (R88): a good frame of class 1 arrives. -/
def execUrgentPublish (elapsed : Time) (sender : Station) (body : List Byte) (s : State) : Host.Outcome State Fault Refusal :=
  .next ((s.advance elapsed).arrive .urgentPublish sender Config.everyone body)

/-- ROUTINE_PUBLISH (R88): a good frame of class 6 arrives. -/
def execRoutinePublish (elapsed : Time) (sender : Station) (body : List Byte) (s : State) : Host.Outcome State Fault Refusal :=
  .next ((s.advance elapsed).arrive .routinePublish sender Config.everyone body)

/-- SOLICIT (R115): a good frame of class 3 arrives. -/
def execSolicit (elapsed : Time) (sender : Station) (body : List Byte) (s : State) : Host.Outcome State Fault Refusal :=
  .next ((s.advance elapsed).arrive .solicit sender Config.everyone body)

/-- PRESENCE (R129): a good frame of class 4 arrives. -/
def execPresence (elapsed : Time) (sender : Station) (body : List Byte) (s : State) : Host.Outcome State Fault Refusal :=
  .next ((s.advance elapsed).arrive .presence sender Config.everyone body)

/-- REPLY (R76, R78): a good frame of class 2 arrives and is taken for its sender only. -/
def execReply (elapsed : Time) (sender dest : Station) (body : List Byte) (s : State) : Host.Outcome State Fault Refusal :=
  .next ((s.advance elapsed).arrive .reply sender dest body)

end Sys2Proof.Machine
end

