-- ==== Sys2Proof/Machine/Line.lean ====
section
/-!
DEFINITION. The commands of the line (chapter 4).
-/

namespace Sys2Proof.Machine

/-- LINE_IDLE_EVENT (R65, R66, R79, R86): in every state that tracks the line (R67), and while no frame of this station is on it (R70). -/
def execLineIdleEvent (elapsed : Time) (s : State) : Host.Outcome State Fault Refusal :=
  let s := s.advance elapsed
  .next (if s.station = .starting ∨ s.inFlight.isSome then s else s.lineIdle)

/-- TRANSMISSION_COMPLETE (R72): the frame of this station on the line, if there is one, has been sent. -/
def execTransmissionComplete (elapsed : Time) (s : State) : Host.Outcome State Fault Refusal :=
  .next ((s.advance elapsed).endFrame .complete)

/-- CONTENTION_LOST (R70): the frame of this station on the line, if there is one, has lost the line. -/
def execContentionLost (elapsed : Time) (s : State) : Host.Outcome State Fault Refusal :=
  .next ((s.advance elapsed).endFrame .lost)

/-- TRANSMIT_FAILURE (R71): the frame of this station on the line, if there is one, has failed. -/
def execTransmitFailure (elapsed : Time) (s : State) : Host.Outcome State Fault Refusal :=
  .next ((s.advance elapsed).endFrame .failed)

/-- FRAME_DISCARDED (R75): the characters of the frame, those in the receive assembly buffer and those taken from the samples (R64), if
they fail some check, count one receive error, however many they fail, where frames are assembled. A frame of this station's own start bit
of which nothing is read back has none and fails as short (R70, R71). Where there is no frame, and where its characters fail no check, none
is discarded. -/
def execFrameDiscarded (elapsed : Time) (samples : List CharBits) (s : State) : Host.Outcome State Fault Refusal :=
  let s := s.advance elapsed
  .next (if s.assembles && s.frameBegun samples && !(failedChecks (s.frameChars samples)).isEmpty then s.discardFrame else s)

/-- DUPLICATE_DETECTION (R77, R186): the good frame is counted (R75, R175), and HALTED is entered with DUPLICATE. Where no frame is
assembled none arrives. -/
def execDuplicateDetection (elapsed : Time) (s : State) : Host.Outcome State Fault Refusal :=
  let s := s.advance elapsed
  .next (if s.assembles then (s.bump .framesReceived).enterHalted else s)

/-- STUCK_LINE_EPISODE (R86): begins on a tracked line that is not STUCK already (R67). -/
def execStuckLineEpisode (elapsed : Time) (s : State) : Host.Outcome State Fault Refusal :=
  let s := s.advance elapsed
  .next (if s.line = .idle ∨ s.line = .busy then s.stuckLine else s)

/-- TRANSMIT_GUARD_TRIP (R87): a GUARD restart; a HALTED station cannot trip its guard (R178). -/
def execTransmitGuardTrip (elapsed : Time) (s : State) : Host.Outcome State Fault Refusal :=
  let s := s.advance elapsed
  .next (if s.station = .halted then s else s.restart .guard)

/-- DOMINANT_LEVEL_SEEN (R65): an IDLE line becomes BUSY. A start bit that samples dominant begins a character (R64), which the receive
assembly takes unless the line is ignored (R75); a glitch begins none. In HALTED nothing is assembled (R67). -/
def execDominantLevelSeen (change : DominantChange) (s : State) : Host.Outcome State Fault Refusal :=
  let s := s.advance change.elapsed
  .next (if s.line = .idle ∨ s.line = .busy then
      { s with
        line := .busy
        assembly :=
          match sampleChar change.bits with
          | some c => if s.station.dispatches then s.assembly.takeChar c else s.assembly
          | none => s.assembly }
    else s)

/-- QUARANTINE_TIMER_EXPIRY (R83): the mode becomes PROBING, and a presence frame is held pending. -/
def execQuarantineTimerExpiry (s : State) : Host.Outcome State Fault Refusal :=
  .next (match s.station, s.mode, s.quarantineTimer with
    | .running, .silenced, some due =>
      { s.advanceTo due with mode := .probing, quarantineTimer := none, presencePending := true }
    | _, _, _ => s)

end Sys2Proof.Machine
end

