-- ==== Sys2Proof/Machine/Requests.lean ====
section
/-!
DEFINITION. The commands that are requests from service stations (chapter 9). Each is a good frame of class 0 or 5 whose body begins
with the kind code of section 11.1.3; `rest` is the body after it.
-/

namespace Sys2Proof.Machine

/-- FORCE (R146, R164, R165): a COMMAND frame of kind 1 arrives (R158 to R163). -/
def execForce (elapsed : Time) (sender dest : Station) (rest : List Byte) (s : State) : Host.Outcome State Fault Refusal :=
  .next ((s.advance elapsed).arrive .command sender dest (1 :: rest))

/-- RELEASE (R147, R165): a COMMAND frame of kind 2 arrives (R158 to R163). -/
def execRelease (elapsed : Time) (sender dest : Station) (rest : List Byte) (s : State) : Host.Outcome State Fault Refusal :=
  .next ((s.advance elapsed).arrive .command sender dest (2 :: rest))

/-- RESTART (R166, R167): a COMMAND frame of kind 3 arrives (R158 to R163). -/
def execRestart (elapsed : Time) (sender dest : Station) (rest : List Byte) (s : State) : Host.Outcome State Fault Refusal :=
  .next ((s.advance elapsed).arrive .command sender dest (3 :: rest))

/-- CLEAR_COUNTERS (R168): a COMMAND frame of kind 4 arrives (R158 to R163). -/
def execClearCounters (elapsed : Time) (sender dest : Station) (rest : List Byte) (s : State) : Host.Outcome State Fault Refusal :=
  .next ((s.advance elapsed).arrive .command sender dest (4 :: rest))

/-- STATUS (R169): a QUERY frame of kind 1 arrives (R158 to R163). -/
def execStatus (elapsed : Time) (sender dest : Station) (rest : List Byte) (s : State) : Host.Outcome State Fault Refusal :=
  .next ((s.advance elapsed).arrive .query sender dest (1 :: rest))

/-- POINT_GROUP (R170): a QUERY frame of kind 2 arrives (R158 to R163). -/
def execPointGroup (elapsed : Time) (sender dest : Station) (rest : List Byte) (s : State) : Host.Outcome State Fault Refusal :=
  .next ((s.advance elapsed).arrive .query sender dest (2 :: rest))

/-- PEER (R171): a QUERY frame of kind 3 arrives (R158 to R163). -/
def execPeer (elapsed : Time) (sender dest : Station) (rest : List Byte) (s : State) : Host.Outcome State Fault Refusal :=
  .next ((s.advance elapsed).arrive .query sender dest (3 :: rest))

/-- OUTPUT (R157, R171): a QUERY frame of kind 4 arrives (R158 to R163). -/
def execOutput (elapsed : Time) (sender dest : Station) (rest : List Byte) (s : State) : Host.Outcome State Fault Refusal :=
  .next ((s.advance elapsed).arrive .query sender dest (4 :: rest))

/-- COUNTERS (R172): a QUERY frame of kind 5 arrives (R158 to R163). -/
def execCounters (elapsed : Time) (sender dest : Station) (rest : List Byte) (s : State) : Host.Outcome State Fault Refusal :=
  .next ((s.advance elapsed).arrive .query sender dest (5 :: rest))

/-- UNKNOWN_REQUEST_KIND (R161): a request frame arrives with the given whole body. -/
def execUnknownRequestKind (elapsed : Time) (cls : RequestClass) (sender dest : Station) (body : List Byte) (s : State) :
    Host.Outcome State Fault Refusal :=
  .next ((s.advance elapsed).arrive (frameOfRequest cls) sender dest body)

end Sys2Proof.Machine
end

