-- ==== Sys2Proof/Machine/Sampling.lean ====
section
/-!
DEFINITION. The Input Sampler (chapter 2): debounced transitions, level readings, change events, and the commands that bring them.
-/

namespace Sys2Proof.Machine

/-- The fields of a pin change. -/
def State.updatePin (i : Fin 16) (f : Pin → Pin) (s : State) : State := { s with pins := s.pins.modify i.val f }

/-- The current value of an owned point is written (R8). -/
def State.writeCurrent (n : Nat) (v : Byte) (s : State) : State := s.updateOwned n fun o => { o with current := v }

/-- The current value of an owned point has been written: the outputs it feeds are evaluated (R144), and a change event is raised if
there is one and the station is RUNNING (R34). -/
def State.valueWritten (n : Nat) (event : Bool) (s : State) : State :=
  let s := s.evaluateSource n
  if event && s.station == .running then s.changeEvent n else s

/-- A transition of a BINARY point sourced from a pin: value, count step, change event (R29). -/
def State.binaryTransition (n : Nat) (level : Bool) (s : State) : State :=
  (s.updateOwned n fun o => { o with current := bitAt 0 level, count := o.count + 1 }).valueWritten n true

/-- A debounced transition of a pin to a level, handed on by the pin's mode (R26, R36): the owned points of an IN-DIGITAL pin take
the level in Point Table order (log 18); a rise of a HAND pin is a press, handed on in RUNNING. -/
def State.pinTransition (i : Fin 16) (level : Bool) (s : State) : State :=
  let s := s.updatePin i fun p => { p with level := some level, candidate := none }
  match s.pins[i.val]? with
  | none => s
  | some p =>
    match p.mode with
    | .inDigital => (ownedFrom (.pin i) s.points).foldl (fun s n => s.binaryTransition n level) s
    | .hand => if level && s.station == .running then s.handPress p.target else s
    | .unused => s
    | .inLevel => s
    | .out => s

/-- A pin that is sampled as a digital input (R25). -/
def Pin.digital (p : Pin) : Bool := p.mode == .inDigital || p.mode == .hand

/-- The 1 ms sample of one pin (R25). -/
def State.samplePin (levels : BitVec 16) (s : State) (i : Fin 16) : State :=
  let sample := levels.getLsbD i.val
  match s.pins[i.val]? with
  | none => s
  | some p =>
    if !p.digital then s
    else if p.level = some sample then s.updatePin i fun p => { p with candidate := none }
    else if p.debounce = 0 then s.pinTransition i sample
    else
      match p.candidate with
      | none => s.updatePin i fun p => { p with candidate := some s.clock }
      | some since =>
        if p.debounce * Config.millisecond ≤ s.clock - since then s.pinTransition i sample else s

/-- The threshold of R28 with its hysteresis of 4: the value after a reading. A value of 1 returns to 0 below T − 4, for T from 1 to 4
at a reading of 0, and never for T equal to 0. -/
def thresholdValue (threshold : Byte) (current : Byte) (reading : Byte) : Bool :=
  let t := threshold.toNat
  let r := reading.toNat
  if current = 0 then decide (t ≤ r) else decide (t = 0 ∨ max 1 (t - Config.hysteresis) ≤ r)

/-- The comparison reference of a LEVEL point (R30): the carried value in flight; else the compare base; else the carried value. -/
def Owned.reference (o : Owned) : Option Byte := if o.inFlight then o.carried else o.compareBase.or o.carried

/-- A reading that differs from the reference by more than the deadband, in either direction (R31). -/
def Owned.outsideDeadband (o : Owned) (reading : Byte) : Bool :=
  match o.reference, o.deadband with
  | some ref, some band =>
    decide (band.toNat < (reading.toNat - ref.toNat) + (ref.toNat - reading.toNat))
  | _, _ => false

/-- A reading handed to one owned point of the pin (R27): a LEVEL point takes it as its value and is tested for a change event (R31); a
BINARY point takes it through its threshold (R28, R29). -/
def State.pointReading (reading : Byte) (s : State) (n : Nat) : State :=
  match findPoint n s.points with
  | none => s
  | some p =>
    match p.role, p.kind with
    | .mirrored _, _ => s
    | .owned o, .level => (s.writeCurrent n reading).valueWritten n (o.outsideDeadband reading)
    | .owned o, .binary =>
      match o.threshold with
      | none => s
      | some t =>
        let v := thresholdValue t o.current reading
        if o.current = bitAt 0 v then s else s.binaryTransition n v

/-- A level reading of a pin in IN-LEVEL mode (R27). -/
def State.pinReading (i : Fin 16) (reading : Byte) (s : State) : State :=
  if s.pinMode i = .inLevel then
    (ownedFrom (.pin i) s.points).foldl (State.pointReading reading) (s.updatePin i fun p => { p with reading := some reading })
  else s

/-- DEBOUNCED_TRANSITION (R26): the debounced level of a sampled pin becomes another one, in JOINING and RUNNING (R38). -/
def execDebouncedTransition (elapsed : Time) (pin : Fin 16) (level : Bool) (s : State) : Host.Outcome State Fault Refusal :=
  let s := s.advance elapsed
  .next (match s.pins[pin.val]? with
    | some p => if s.station.live && p.digital && p.level != some level then s.pinTransition pin level else s
    | none => s)

/-- LEVEL_READING (R27): a pin is converted, in JOINING and RUNNING (R38). -/
def execLevelReading (elapsed : Time) (pin : Fin 16) (reading : Byte) (s : State) : Host.Outcome State Fault Refusal :=
  let s := s.advance elapsed
  .next (if s.station.live then s.pinReading pin reading else s)

/-- DIGITAL_INPUT_SAMPLE (R25): every IN-DIGITAL and HAND pin is sampled, from IO0 to IO15 (log 18), in JOINING and RUNNING (R38). -/
def execDigitalInputSample (elapsed : Time) (levels : BitVec 16) (s : State) : Host.Outcome State Fault Refusal :=
  let s := s.advance elapsed
  .next (if s.station.live then (List.finRange 16).foldl (State.samplePin levels) s else s)

end Sys2Proof.Machine
end

