-- ==== Sys2Proof/Machine/StartUp.lean ====
section
/-!
DEFINITION. The commands of restart, load and state (chapter 10).
-/

namespace Sys2Proof.Machine

/-- POWER_RESTART (R176, R177): the supply crosses the threshold, with RESET at the given level; a POWER restart is made, and the load
begins when the supply is above the threshold and RESET is high. -/
def execPowerRestart (elapsed : Time) (supplyAbove resetHigh : Bool) (s : State) :
    Host.Outcome State Fault Refusal :=
  .next (State.restart .power { s.advance elapsed with supplyAbove := supplyAbove, resetHigh := resetHigh })

/-- PIN_RESTART (R176): RESET, high before, has been held low for at least 10 µs; a shorter low is not an assertion, and a RESET that
was low already begins nothing. -/
def execPinRestart (elapsed held : Time) (s : State) : Host.Outcome State Fault Refusal :=
  let s := s.advance elapsed
  .next (if s.resetHigh && decide (Config.resetHold ≤ held) then State.restart .pin { s with resetHigh := false } else s)

/-- RESET_RELEASE (R176, R179): RESET goes high; the load begins if the supply is above the threshold. -/
def execResetRelease (elapsed : Time) (s : State) : Host.Outcome State Fault Refusal :=
  let s := s.advance elapsed
  .next (if s.resetHigh then s
    else { s with resetHigh := true, loading := s.loading || (s.station == .starting && s.supplyAbove) })

/-- LOAD_COMPLETE (R179, R181 to R183): the load, if one is in progress, ends with the given bytes read. Bytes that fail a check of
R180 make it a failed load. -/
def execLoadComplete (elapsed : Time) (memory : List Byte) (straps : Station) (inputs : PinInputs) (s : State) :
    Host.Outcome State Fault Refusal :=
  let s := s.advance elapsed
  .next (if s.loading then s.endLoad memory straps inputs else s)

/-- LOAD_FAILED (R180, R182, R183): the load, if one is in progress, fails in the given way. -/
def execLoadFailed (elapsed : Time) (failure : LoadFailure) (straps : Station) (s : State) :
    Host.Outcome State Fault Refusal :=
  let s := s.advance elapsed
  .next (if s.loading then s.noImage (loadErrorOf failure) straps else s)

/-- JOIN_WINDOW_EXPIRY (R185): the join window, if it runs, ends at its time and RUNNING is entered. -/
def execJoinWindowExpiry (s : State) : Host.Outcome State Fault Refusal :=
  .next (match s.station, s.joinTimer with
    | .joining, some due => (s.advanceTo due).enterRunning
    | _, _ => s)

end Sys2Proof.Machine
end

