-- ==== Sys2Proof/Machine/Timers.lean ====
section
/-!
DEFINITION. The commands that are expiries of timers. Each takes place at the time its timer holds, in the states in which the timer
runs; where the timer does not run, no expiry occurs and nothing changes (log 3).
-/

namespace Sys2Proof.Machine

/-- REFRESH_TIMER_EXPIRY (R47): a QUIET point joins the routine tail; a ROUTINE or URGENT point stays. The timer stays stopped (R46). -/
def execRefreshTimerExpiry (point : Nat) (s : State) : Host.Outcome State Fault Refusal :=
  .next (match s.station, s.ownedAt point with
    | .running, some o =>
      match o.refreshTimer with
      | none => s
      | some due =>
        let s := (s.advanceTo due).updateOwned point fun o => { o with refreshTimer := none }
        if o.sched = .quiet then s.joinRoutine point else s
    | _, _ => s)

/-- STALENESS_DEADLINE_EXPIRY (R101, R16): a FRESH point becomes STALE, SOURCE holds and its outputs are evaluated. -/
def execStalenessDeadlineExpiry (point : Nat) (s : State) : Host.Outcome State Fault Refusal :=
  .next (if s.station.live then
      match s.mirroredAt point with
      | none => s
      | some m =>
        match m.state, m.deadline with
        | .fresh, some due =>
          (((s.advanceTo due).updateMirrored point Mirrored.goStale).judgeSource).evaluateSource point
        | _, _ => s
    else s)

/-- OVERDUE_TIMER_EXPIRY (R21): the overdue mark is set, and SOURCE holds. -/
def execOverdueTimerExpiry (point : Nat) (s : State) : Host.Outcome State Fault Refusal :=
  .next (match s.station, s.mirroredAt point with
    | .running, some m =>
      match m.overdueTimer with
      | none => s
      | some due =>
        ((s.advanceTo due).updateMirrored point fun m => { m with overdue := true, overdueTimer := none }).judgeSource
    | _, _ => s)

/-- The deadline of a SENT or COVERED entry (R107). -/
def Solicit.deadline (e : Solicit) : Option Time :=
  match e.state with
  | .waiting _ => none
  | .sent t => some t
  | .covered t => some t

/-- The expiry of an entry's deadline: at 1 to 3 attempts the entry is WAITING again in its place; at the fourth it is removed, the
counter steps, the point receives a backoff mark, and the list is filled (R113, R110). -/
def State.solicitExpired (e : Solicit) (s : State) : State :=
  if e.attempts + 1 < Config.maxAttempts then
    { s with solicits := s.solicits.map fun x =>
        if x.point = e.point then { x with attempts := e.attempts + 1, state := .waiting false } else x }
  else
    (((s.removeSolicit e.point).bump .solicitsUnanswered).updateMirrored e.point fun m =>
      { m with backoff := some (s.clock + Config.backoff) }).fillSolicits

/-- SOLICIT_DEADLINE_EXPIRY (R113). -/
def execSolicitDeadlineExpiry (point : Nat) (s : State) : Host.Outcome State Fault Refusal :=
  .next (match s.station, s.solicits.find? fun e => e.point == point with
    | .running, some e =>
      match e.deadline with
      | some due => (s.advanceTo due).solicitExpired e
      | none => s
    | _, _ => s)

/-- BACKOFF_MARK_EXPIRY (R114): the mark is cleared, and the list is filled (R110). -/
def execBackoffMarkExpiry (point : Nat) (s : State) : Host.Outcome State Fault Refusal :=
  .next (match s.station, s.mirroredAt point with
    | .running, some m =>
      match m.backoff with
      | none => s
      | some due => ((s.advanceTo due).updateMirrored point fun m => { m with backoff := none }).fillSolicits
    | _, _ => s)

/-- PRESENCE_TIMER_EXPIRY (R121): the pending mark is set, and the timer starts again at once with the own period. -/
def execPresenceTimerExpiry (s : State) : Host.Outcome State Fault Refusal :=
  .next (match s.station, s.presenceTimer with
    | .running, some due =>
      let s := s.advanceTo due
      { s with presencePending := true, presenceTimer := some (s.clock + s.period) }
    | _, _ => s)

/-- SILENT_DEADLINE_EXPIRY (R132): a PRESENT entry becomes SILENT. -/
def execSilentDeadlineExpiry (station : Station) (s : State) : Host.Outcome State Fault Refusal :=
  .next (if s.station.live then
      match s.peerAt station with
      | none => s
      | some e =>
        match e.state, e.silentAt with
        | .present, some due => (s.advanceTo due).updatePeer station fun e => { e with state := .silent, silentAt := none }
        | _, _ => s
    else s)

/-- LOST_DEADLINE_EXPIRY (R132, R133): a SILENT entry becomes LOST; its points and its overrides follow, and PEER-LOST is judged. -/
def execLostDeadlineExpiry (station : Station) (s : State) : Host.Outcome State Fault Refusal :=
  .next (if s.station.live then
      match s.peerAt station with
      | none => s
      | some e =>
        match e.state, e.lostAt with
        | .silent, some due =>
          (((s.advanceTo due).updatePeer station fun e => { e with state := .lost, lostAt := none }).peerLost
            station).judgePeerLost
        | _, _ => s
    else s)

/-- LEASE_EXPIRY (R148): the entry is removed from its list, the output is evaluated and the origin's mark is kept. -/
def execLeaseExpiry (pin : Fin 16) (origin : Station) (s : State) : Host.Outcome State Fault Refusal :=
  .next (match s.station, (s.outputAt pin).bind fun o => o.overrides.find? fun e => e.origin == origin with
    | .running, some e =>
      match e.lease with
      | some due => (s.advanceTo due).removeOverride pin origin
      | none => s
    | _, _ => s)

/-- RECENT_COMMAND_EXPIRY (R162): an entry of the recent-command table reaches the age of 2 s and is removed. -/
def execRecentCommandExpiry (sender : Station) (tag : Byte) (s : State) : Host.Outcome State Fault Refusal :=
  .next (match s.station, findRecent sender tag s.recent with
    | .running, some e =>
      { s.advanceTo (e.written + Config.recentLife) with
        recent := s.recent.filter fun x => !(x.sender == sender && x.tag == tag) }
    | _, _ => s)

/-- RESTART_BOUND_EXPIRY (R166): a pending restart ends with a REMOTE restart. -/
def execRestartBoundExpiry (s : State) : Host.Outcome State Fault Refusal :=
  .next (match s.station, s.pendingRestart with
    | .running, some due => (s.advanceTo due).restart .remote
    | _, _ => s)

end Sys2Proof.Machine
end

