-- ==== Sys2Proof/Machine/Dispatch.lean ====
section
/-! DEFINITION. One arm per command of spec/opcode_table.json, each one call of its meaning. -/

namespace Sys2Proof.Machine

def exec (i : Instr) (s : State) : Host.Outcome State Fault Refusal :=
  match i with
  | .powerRestart elapsed supplyAbove resetHigh => Sys2Proof.Machine.execPowerRestart elapsed supplyAbove resetHigh s
  | .pinRestart elapsed held => Sys2Proof.Machine.execPinRestart elapsed held s
  | .resetRelease elapsed => Sys2Proof.Machine.execResetRelease elapsed s
  | .loadComplete elapsed memory straps pins => Sys2Proof.Machine.execLoadComplete elapsed memory straps pins s
  | .loadFailed elapsed failure straps => Sys2Proof.Machine.execLoadFailed elapsed failure straps s
  | .joinWindowExpiry => Sys2Proof.Machine.execJoinWindowExpiry s
  | .lineIdleEvent elapsed => Sys2Proof.Machine.execLineIdleEvent elapsed s
  | .transmissionComplete elapsed => Sys2Proof.Machine.execTransmissionComplete elapsed s
  | .contentionLost elapsed => Sys2Proof.Machine.execContentionLost elapsed s
  | .transmitFailure elapsed => Sys2Proof.Machine.execTransmitFailure elapsed s
  | .frameDiscarded elapsed samples => Sys2Proof.Machine.execFrameDiscarded elapsed samples s
  | .duplicateDetection elapsed => Sys2Proof.Machine.execDuplicateDetection elapsed s
  | .urgentPublish elapsed sender body => Sys2Proof.Machine.execUrgentPublish elapsed sender body s
  | .routinePublish elapsed sender body => Sys2Proof.Machine.execRoutinePublish elapsed sender body s
  | .solicit elapsed sender body => Sys2Proof.Machine.execSolicit elapsed sender body s
  | .presence elapsed sender body => Sys2Proof.Machine.execPresence elapsed sender body s
  | .reply elapsed sender dest body => Sys2Proof.Machine.execReply elapsed sender dest body s
  | .force elapsed sender dest rest => Sys2Proof.Machine.execForce elapsed sender dest rest s
  | .release elapsed sender dest rest => Sys2Proof.Machine.execRelease elapsed sender dest rest s
  | .restart elapsed sender dest rest => Sys2Proof.Machine.execRestart elapsed sender dest rest s
  | .clearCounters elapsed sender dest rest => Sys2Proof.Machine.execClearCounters elapsed sender dest rest s
  | .status elapsed sender dest rest => Sys2Proof.Machine.execStatus elapsed sender dest rest s
  | .pointGroup elapsed sender dest rest => Sys2Proof.Machine.execPointGroup elapsed sender dest rest s
  | .peer elapsed sender dest rest => Sys2Proof.Machine.execPeer elapsed sender dest rest s
  | .output elapsed sender dest rest => Sys2Proof.Machine.execOutput elapsed sender dest rest s
  | .counters elapsed sender dest rest => Sys2Proof.Machine.execCounters elapsed sender dest rest s
  | .unknownRequestKind elapsed cls sender dest body => Sys2Proof.Machine.execUnknownRequestKind elapsed cls sender dest body s
  | .stuckLineEpisode elapsed => Sys2Proof.Machine.execStuckLineEpisode elapsed s
  | .transmitGuardTrip elapsed => Sys2Proof.Machine.execTransmitGuardTrip elapsed s
  | .debouncedTransition elapsed pin level => Sys2Proof.Machine.execDebouncedTransition elapsed pin level s
  | .levelReading elapsed pin reading => Sys2Proof.Machine.execLevelReading elapsed pin reading s
  | .refreshTimerExpiry point => Sys2Proof.Machine.execRefreshTimerExpiry point s
  | .stalenessDeadlineExpiry point => Sys2Proof.Machine.execStalenessDeadlineExpiry point s
  | .overdueTimerExpiry point => Sys2Proof.Machine.execOverdueTimerExpiry point s
  | .solicitDeadlineExpiry point => Sys2Proof.Machine.execSolicitDeadlineExpiry point s
  | .backoffMarkExpiry point => Sys2Proof.Machine.execBackoffMarkExpiry point s
  | .presenceTimerExpiry => Sys2Proof.Machine.execPresenceTimerExpiry s
  | .silentDeadlineExpiry station => Sys2Proof.Machine.execSilentDeadlineExpiry station s
  | .lostDeadlineExpiry station => Sys2Proof.Machine.execLostDeadlineExpiry station s
  | .leaseExpiry pin origin => Sys2Proof.Machine.execLeaseExpiry pin origin s
  | .quarantineTimerExpiry => Sys2Proof.Machine.execQuarantineTimerExpiry s
  | .recentCommandExpiry sender tag => Sys2Proof.Machine.execRecentCommandExpiry sender tag s
  | .restartBoundExpiry => Sys2Proof.Machine.execRestartBoundExpiry s
  | .digitalInputSample elapsed levels => Sys2Proof.Machine.execDigitalInputSample elapsed levels s
  | .dominantLevelSeen change => Sys2Proof.Machine.execDominantLevelSeen change s

end Sys2Proof.Machine
end

