-- ==== Sys2Proof/Safety.lean ====
section
/-!
DEFINITION. What counts as a lawful station: the laws the manual says hold of its tables and queues at every moment. Each is a
property of one state.
-/

namespace Sys2Proof.Safety

open Sys2Proof.Machine

/-! ## The Point Table (R5, R7, R10, R11, R13) -/

/-- An OWNED entry keeps the patterns of its fields: deadband, threshold, compare base and carried value stand only where kind and source
allow them (R7, R10), a mark in flight only on a queued point and a dirty mark only on an urgent one in flight (R11, R40), and a
YIELDED point has no running refresh timer (R12). -/
def OwnedLawful (k : Kind) (o : Owned) : Prop :=
  (isLevelFromPin k o = false → o.deadband = none ∧ o.compareBase = none ∧ o.carried = none)
  ∧ (isBinaryFromPin k o = false → o.threshold = none)
  ∧ (o.inFlight = true → o.sched = .routine ∨ o.sched = .urgent)
  ∧ (o.dirty = true → o.inFlight = true ∧ o.sched = .urgent)
  ∧ (o.sched = .yielded → o.refreshTimer = none)

/-- A MIRRORED entry shows one of the four patterns of R13. -/
def MirroredLawful (m : Mirrored) : Prop :=
  match m.state with
  | .unknown =>
    m.count = none ∧ m.deadline = none ∧ m.value.isSome = m.old ∧ m.source.isSome = m.old
  | .fresh =>
    m.value.isSome ∧ m.count.isSome ∧ m.source.isSome ∧ m.deadline.isSome
      ∧ m.old = false ∧ m.backoff = none ∧ m.overdue = false ∧ m.overdueTimer = none
  | .stale =>
    m.value.isSome ∧ m.count.isSome ∧ m.source.isSome ∧ m.deadline = none
      ∧ m.old = false ∧ m.backoff = none ∧ m.overdue = false ∧ m.overdueTimer = none

/-- The value a point shows is within the range of its kind (R3). -/
def InKind (k : Kind) (v : Byte) : Prop := k = .binary → v = 0 ∨ v = 1

/-- The Point Table: at most 64 entries, at most 32 OWNED, distinct numbers from 1 to 1023 (R5). -/
def TableLawful (s : State) : Prop :=
  s.points.length ≤ Config.maxPoints
  ∧ s.ownedCount ≤ Config.maxOwned
  ∧ (s.points.map Point.number).Nodup
  ∧ ∀ p ∈ s.points, 1 ≤ p.number ∧ p.number ≤ 1023

/-- Every OWNED entry keeps its patterns, and its current value is within the range of its kind (R3, R7, R11). -/
def OwnedTableLawful (s : State) : Prop :=
  ∀ p ∈ s.points, ∀ o, p.owned? = some o → OwnedLawful p.kind o ∧ InKind p.kind o.current

/-- Every MIRRORED entry shows a pattern of R13, and a value it holds is within the range of its kind (R3, R13). -/
def MirroredTableLawful (s : State) : Prop :=
  ∀ p ∈ s.points, ∀ m, p.mirrored? = some m → MirroredLawful m ∧ ∀ v, m.value = some v → InKind p.kind v

/-- In JOINING and RUNNING the STATUS-sourced point shows the fault summary as it stands (R8, R33). -/
def StatusLawful (s : State) : Prop :=
  s.station.live = true → ∀ p ∈ s.points, ∀ o, p.owned? = some o → o.source = .status →
    o.current = statusValue p.kind s.faults

/-! ## The Publication Queue (R39) -/

/-- The first law of the queue: an owned point is in the queue at most once, and in a band exactly when its scheduler state is that of
the band (R39, R40). -/
def QueueLawful (s : State) : Prop :=
  s.queue.Nodup
  ∧ (∀ n, n ∈ s.urgent ↔ ∃ o, s.ownedAt n = some o ∧ o.sched = .urgent)
  ∧ (∀ n, n ∈ s.routine ↔ ∃ o, s.ownedAt n = some o ∧ o.sched = .routine)

/-- A mark in flight stands only on a point named in the publication frame now on the line (R40). -/
def FlightLawful (s : State) : Prop :=
  ∀ n o, s.ownedAt n = some o → o.inFlight = true →
    ∃ f u records, s.inFlight = some f ∧ f.content = .publication u records ∧ n ∈ recordPoints records

/-! ## The solicit list (R107) -/

/-- The law of the solicit list: at most 16 entries, each for a distinct mirrored point whose state is UNKNOWN and that carries no backoff
mark, attempts 0 to 3 (R107, R114). -/
def SolicitsLawful (s : State) : Prop :=
  s.solicits.length ≤ Config.maxSolicits
  ∧ (s.solicits.map Solicit.point).Nodup
  ∧ ∀ e ∈ s.solicits, e.attempts < Config.maxAttempts
      ∧ ∃ m, s.mirroredAt e.point = some m ∧ m.state = .unknown ∧ m.backoff = none

/-! ## The roster (R125, R135, R136) and the sources of FRESH points (R18) -/

/-- The roster: at most 24 entries, distinct stations 1 to 62, never this station's own number (R125). -/
def RosterLawful (s : State) : Prop :=
  s.roster.length ≤ Config.maxPeers
  ∧ (s.roster.map Peer.station).Nodup
  ∧ ∀ e ∈ s.roster, stationOk e.station = true ∧ s.number ≠ some e.station

/-- The marks of every roster entry say what they should: "sources points" whether a mirrored entry names the station (R135), "holds
overrides" whether an override list holds an entry of the station (R136). -/
def MarksLawful (s : State) : Prop :=
  ∀ e ∈ s.roster, e.sourcesPoints = namesSource e.station s.points
    ∧ e.holdsOverrides = holdsOverride e.station s.outputs

/-- A FRESH point never has a learned source whose roster entry is LOST (R18). -/
def FreshLawful (s : State) : Prop :=
  ∀ p ∈ s.points, ∀ m, p.mirrored? = some m → m.state = .fresh →
    ∀ e ∈ s.roster, m.source = some e.station → e.state ≠ .lost

/-! ## Outputs (R142, R145, R152) -/

/-- An override list holds at most 4 entries, at most one per origin, and the local entry has no lease (R145). -/
def OverridesLawful (l : List Override) : Prop :=
  l.length ≤ Config.maxOverrides
  ∧ (l.map Override.origin).Nodup
  ∧ ∀ e ∈ l, e.origin = 0 → e.lease = none

/-- Every override list is lawful, and every remote origin has a roster entry (R145, R152). -/
def OutputsLawful (s : State) : Prop :=
  (s.outputs.map Output.pin).Nodup
  ∧ ∀ o ∈ s.outputs, OverridesLawful o.overrides
      ∧ ∀ e ∈ o.overrides, e.origin ≠ 0 → ∃ q ∈ s.roster, q.station = e.origin

/-- In RUNNING every output shows what an evaluation would give it now (R142 to R144). -/
def DrivenLawful (s : State) : Prop :=
  s.station = .running → ∀ o ∈ s.outputs, o.evaluate s.points = o

/-! ## The fault summary (R188) -/

/-- SOURCE and PEER-LOST hold exactly while what they report stands, SILENCED exactly while the line mode is not ACTIVE, LINE exactly
while the line is STUCK, and CONFIG in STARTING and UNCONFIGURED and not in JOINING and RUNNING (R188). HALTED is entered from STARTING
without a number, with CONFIG, or on a duplicate detection, with DUPLICATE, which holds nowhere else (R183, R186, R189). -/
def SummaryLawful (s : State) : Prop :=
  s.faults.source = s.points.any Point.holdsSource
  ∧ s.faults.peerLost = s.roster.any Peer.holdsPeerLost
  ∧ s.faults.silenced = (s.mode != .active)
  ∧ s.faults.line = (s.line == .stuck)
  ∧ (s.station = .starting ∨ s.station = .unconfigured → s.faults.config = true)
  ∧ (s.station.live = true → s.faults.config = false)
  ∧ (s.station = .halted → s.faults.config = true ∨ s.faults.duplicate = true)
  ∧ (s.faults.duplicate = true → s.station = .halted)

/-! ## Capacities and ranges -/

/-- The reply queue holds at most 4 entries with at most 22 data bytes (R173), the recent-command table at most 8 entries of distinct
sender and tag (R162), the outputs differ in their pins, and each override list holds at most 4 entries, so that an OUTPUT report fits a
reply (R139, R145, R157). -/
def HandlerLawful (s : State) : Prop :=
  s.replies.length ≤ Config.maxReplies
  ∧ (∀ r ∈ s.replies, r.data.length ≤ 22)
  ∧ s.recent.length ≤ Config.maxRecent
  ∧ (s.recent.map fun e => (e.sender, e.tag)).Nodup
  ∧ (s.outputs.map Output.pin).Nodup
  ∧ ∀ o ∈ s.outputs, o.overrides.length ≤ Config.maxOverrides

/-- The consecutive-failure count is 0 to 5, the quarantine length 2, 4, 8 or 16 s, the quarantine timer runs exactly in SILENCED
(R81), the boot count is 0 to 3 (R123). -/
def AccountingLawful (s : State) : Prop :=
  s.failures < Config.failuresBeforeSilence
  ∧ s.quarantineLength ∈ [2, 4, 8, 16]
  ∧ (s.quarantineTimer.isSome ↔ s.mode = .silenced)
  ∧ s.bootCount ≤ Config.bootFrames

/-! ## Station states (R6, R67, R80, R140, R159, R178) -/

/-- The station transmits only in UNCONFIGURED and RUNNING, in UNCONFIGURED only replies, in SILENCED nothing and in PROBING only
presence frames, and always under its own number (R67, R80). -/
def TransmitLawful (s : State) : Prop :=
  ∀ f, s.inFlight = some f →
    s.number = some f.sender
    ∧ match s.station, s.mode with
      | .unconfigured, _ => f.content.cls = .reply
      | .running, .active => True
      | .running, .probing => f.content.cls = .presence
      | .running, .silenced => False
      | .starting, _ => False
      | .halted, _ => False
      | .joining, _ => False

/-- In STARTING and UNCONFIGURED every table is empty; in every state but RUNNING and HALTED the queue, the solicit list, the override lists
and the recent-command table are empty and nothing is driven ON (R6, R62, R108, R126, R140, R159). -/
def StationLawful (s : State) : Prop :=
  (s.station = .starting ∨ s.station = .unconfigured →
    s.points = [] ∧ s.pins = [] ∧ s.outputs = [] ∧ s.roster = [])
  ∧ (s.station ≠ .running → s.station ≠ .halted →
    s.queue = [] ∧ s.solicits = [] ∧ s.recent = [] ∧ s.pendingRestart = none
      ∧ s.presencePending = false ∧ s.mode = .active
      ∧ ∀ o ∈ s.outputs, o.overrides = [] ∧ o.driven = false ∧ o.held = false)
  ∧ (s.station = .joining ∨ s.station = .running ∨ s.station = .unconfigured → s.number.isSome)
  ∧ (s.station = .joining ↔ s.joinTimer.isSome)
  ∧ (s.loading = true → s.station = .starting ∧ s.supplyAbove = true ∧ s.resetHigh = true)

/-- A frame of this station is on the line only while the line is tracked and not IDLE (R65, R70), and the line is tracked outside STARTING
(R67). -/
def LineLawful (s : State) : Prop :=
  (s.line = .notTracked ↔ s.station = .starting)
  ∧ (s.inFlight.isSome → s.line ≠ .idle)

/-- The receive assembly buffer holds at most 29 characters (R75). It is empty in the states that assemble nothing, and after a line-idle
event (R67, R75), and a frame is in assembly only on a BUSY line (R65, R86). -/
def AssemblyLawful (s : State) : Prop :=
  s.assembly.chars.length ≤ Config.maxChars
  ∧ (s.assembly ≠ .empty → s.station.dispatches = true ∧ s.line ≠ .idle)
  ∧ (s.assembly.inProgress = true → s.line = .busy)

/-- The head of the reply queue is the reply now on the line (R173). -/
def ReplyFlightLawful (s : State) : Prop :=
  ∀ f r, s.inFlight = some f → f.content = .reply r → s.replies.head? = some r

/-- In RUNNING an UNKNOWN mirrored point without a solicit entry and without a backoff mark waits because the list is full (R110). -/
def WaitingLawful (s : State) : Prop :=
  s.station = .running → ∀ p ∈ s.points, p.solicitable = true →
    hasSolicit p.number s.solicits = true ∨ s.solicits.length = Config.maxSolicits

/-- In STARTING the fault summary holds CONFIG alone (R188). -/
def StartingLawful (s : State) : Prop := s.station = .starting → s.faults = FaultSummary.afterRestart

/-! ## The laws in groups

A law that needs others to be kept stands with them: each group below is kept by every step on its own. -/

/-- The Publication Queue and the owned entries (R5, R11, R39, R40). -/
structure PublicationLawful (s : State) : Prop where
  station : StationLawful s
  table : TableLawful s
  owned : OwnedTableLawful s
  queue : QueueLawful s
  flight : FlightLawful s

/-- The mirrored entries and the solicit list (R13, R107, R110). -/
structure MirroringLawful (s : State) : Prop where
  station : StationLawful s
  transmit : TransmitLawful s
  numbers : (s.points.map Point.number).Nodup
  mirrored : MirroredTableLawful s
  solicits : SolicitsLawful s
  waiting : WaitingLawful s

/-- The learned sources and the roster (R18, R125). -/
structure SourcesLawful (s : State) : Prop where
  station : StationLawful s
  transmit : TransmitLawful s
  numbers : (s.points.map Point.number).Nodup
  roster : RosterLawful s
  fresh : FreshLawful s

/-- The override lists, their origins and the marks of the roster (R135, R136, R145, R152). -/
structure OriginsLawful (s : State) : Prop where
  station : StationLawful s
  transmit : TransmitLawful s
  numbers : (s.points.map Point.number).Nodup
  roster : RosterLawful s
  marks : MarksLawful s
  outputs : OutputsLawful s

/-- The fault summary and the STATUS-sourced point (R8, R188). -/
structure HealthLawful (s : State) : Prop where
  station : StationLawful s
  transmit : TransmitLawful s
  line : LineLawful s
  numbers : (s.points.map Point.number).Nodup
  starting : StartingLawful s
  summary : SummaryLawful s
  status : StatusLawful s

/-- The frame of this station on the line, and the receive assembly (R67, R70, R75, R80, R173). -/
structure LineUnitLawful (s : State) : Prop where
  station : StationLawful s
  transmit : TransmitLawful s
  line : LineLawful s
  assembly : AssemblyLawful s
  replyFlight : ReplyFlightLawful s

/-- All the laws together. -/
structure Lawful (s : State) : Prop where
  publication : PublicationLawful s
  mirroring : MirroringLawful s
  sources : SourcesLawful s
  origins : OriginsLawful s
  health : HealthLawful s
  lineUnit : LineUnitLawful s
  driven : DrivenLawful s
  handler : HandlerLawful s
  accounting : AccountingLawful s

/-! ## What stays as the configuration image gave it -/

/-- The configuration fields of an entry (R5, R7, R13). -/
def fixedPoint (p : Point) : Nat × Kind × Option (Source × RefreshClass × Option Byte × Option Byte) :=
  (p.number, p.kind, p.owned?.map fun o => (o.source, o.refreshClass, o.deadband, o.threshold))

/-- The mode and the settings of a pin (R22). -/
def fixedPin (p : Pin) : PinMode × Nat × Bool × Fin 16 := (p.mode, p.debounce, p.pullUp, p.target)

/-- The output of a pin and its binding (R139). -/
def fixedOutput (o : Output) : Fin 16 × Binding := (o.pin, o.binding)

/-! ## What the statements about commands assume -/

/-- The time on the clock after a command that comes `elapsed` after the one before it (log 2). -/
def after (elapsed : Time) (s : State) : Time := if s.station = .halted then s.clock else s.clock + elapsed

/-- Point n is an owned point of the given source. -/
def fedBy (src : Source) (s : State) (n : Nat) : Bool :=
  match s.ownedAt n with
  | some o => o.source == src
  | none => false

/-- A STATUS-sourced point in RUNNING after one change of the fault summary to `f`: its current value follows (R33), and the change event
moves, steps and marks it by its scheduler state and marks (R43, R32). -/
def tookSummary (k : Kind) (f : FaultSummary) (o : Owned) : Owned :=
  let o := { o with current := statusValue k f }
  match o.sched, o.inFlight, o.dirty with
  | .quiet, _, _ => { o with sched := .urgent, count := o.count + 1 }
  | .routine, flying, dirty => { o with sched := .urgent, count := o.count + 1, dirty := dirty || flying }
  | .urgent, true, false => { o with count := o.count + 1, dirty := true }
  | .urgent, true, true => o
  | .urgent, false, _ => o
  | .yielded, _, _ => o

/-- The station after one change of the fault summary to `f`, and the station as it stands where `f` is its summary. In RUNNING the
STATUS-sourced points take the change, the QUIET and ROUTINE ones of them join the urgent tail in Point Table order, all others keep their
places, and the outputs bound to a STATUS-sourced point are evaluated (R33, R43, R144). In JOINING their current values follow (R33, R34), and
elsewhere nothing does (R6). -/
def summaryTaken (f : FaultSummary) (s : State) : State :=
  if f = s.faults then s
  else match s.station with
    | .running =>
      let points := s.points.map fun p =>
        p.mapOwned fun o => if o.source = .status then tookSummary p.kind f o else o
      { s with
        faults := f, points := points
        urgent := s.urgent ++ s.points.filterMap fun p =>
          match p.role with
          | .owned o => if o.source = .status ∧ (o.sched = .quiet ∨ o.sched = .routine) then some p.number else none
          | .mirrored _ => none
        routine := s.routine.filter fun n =>
          match s.ownedAt n with
          | some o => !(o.source == .status && o.sched == .routine)
          | none => true
        outputs := s.outputs.map fun o => if fedBy .status s o.binding.source then o.evaluate points else o }
    | .joining =>
      { s with
        faults := f
        points := s.points.map fun p =>
          p.mapOwned fun o => if o.source = .status then { o with current := statusValue p.kind f } else o }
    | .starting => { s with faults := f }
    | .unconfigured => { s with faults := f }
    | .halted => { s with faults := f }

/-- From `s` to `t` every owned entry of another source stays as it was, and so do the places of all other points in both bands of the
queue. -/
structure OwnedStay (src : Source) (s t : State) : Prop where
  entries : ∀ k o, s.ownedAt k = some o → o.source ≠ src → t.ownedAt k = some o
  urgent : (t.urgent.filter fun n => !fedBy src s n) = s.urgent.filter fun n => !fedBy src s n
  routine : (t.routine.filter fun n => !fedBy src s n) = s.routine.filter fun n => !fedBy src s n

/-- Every output that the test does not pick stays as it was. -/
def OutputsStay (pick : Output → Prop) (s t : State) : Prop := ∀ o ∈ s.outputs, ¬ pick o → o ∈ t.outputs

/-- A frame on the line is assembled here: the station state receives (R67), the line is not STUCK (R86), and it is not ignored up to the
next line-idle event (R67, R75). -/
def Receives (s : State) : Prop := s.station.dispatches = true ∧ s.line ≠ .stuck ∧ s.assembly ≠ .ignoring

/-- A good frame from station p is dispatched here: frames are assembled, and p is another station's number (R67, R75, R77). -/
def Hears (s : State) (p : Station) : Prop := Receives s ∧ stationOk p = true ∧ s.number ≠ some p

/-- A good frame of p has been counted and heard, and the block of its class is to take it (R75, R78). -/
def heardFrom (elapsed : Time) (p : Station) (s : State) : State :=
  (((s.advance elapsed).endAssembly).bump .framesReceived).heard p

/-- A request of p to this station in RUNNING finds room for its reply (R158 to R160). -/
def Asked (s : State) (p own : Station) : Prop :=
  s.station = .running ∧ Receives s ∧ s.number = some own ∧ own ≠ Config.everyone ∧ stationOk p = true ∧ p ≠ own
    ∧ s.replies.length < Config.maxReplies

/-- What the outputs keep while they are only evaluated: their order, bindings and override lists. -/
def outputLists (s : State) : List (Fin 16 × Binding × List Override) := s.outputs.map fun o => (o.pin, o.binding, o.overrides)

/-- The same with every entry of one origin taken out of the lists, the others kept in their order (R151). -/
def purgedLists (p : Station) (s : State) : List (Fin 16 × Binding × List Override) :=
  s.outputs.map fun o => (o.pin, o.binding, o.overrides.filter fun x => decide (x.origin ≠ p))

/-! ## The tracking of a station (R97, R99, R106, R128) -/

/-- An entry that no eviction takes (R128). -/
def Kept (x : Peer) : Prop := x.sourcesPoints = true ∨ x.holdsOverrides = true

/-- The entry that gives up its place on a full roster: a LOST one before a SILENT one, and of those the one heard longest ago
(R128). -/
structure Evicted (l : List Peer) (v : Peer) : Prop where
  held : v ∈ l
  left : v.state ≠ .present
  unmarked : ¬ Kept v
  lostFirst : v.state = .silent → ∀ x ∈ l, x.state = .lost → Kept x
  oldest : ∀ x ∈ l, x.state = v.state → ¬ Kept x → v.lastHeard ≤ x.lastHeard

/-- A must-track creation finds the station in the roster, or a place for it (R128). -/
def Trackable (p : Station) (s : State) : Prop :=
  (∃ x ∈ s.roster, x.station = p) ∨ s.roster.length < 24 ∨ ∃ x ∈ s.roster, x.state ≠ .present ∧ ¬ Kept x

/-- The entry of a station at its creation (R125, R128), its deadlines by the assumed period of 2000 ms (R132). -/
def createdPeer (p : Station) (now : Time) (sources : Bool) : Peer :=
  { station := p, state := .present, lastHeard := now, content := none, bootSeen := false, sourcesPoints := sources
    holdsOverrides := false, silentAt := some (now + 4000000), lostAt := some (now + 8000000) }

/-- From `s` to `t` station p has become the learned source of a point in place of `old`: it is tracked, by its own entry, a new one or an
eviction judged on the roster of `s` (log 16), or else the overflow is counted, OVERFLOW is set and it stays untracked (R97, R106, R128);
both "sources points" marks say what they should (R99), and no other entry changes. -/
structure LearnedSource (p : Station) (old : Option Station) (s t : State) : Prop where
  known : ∀ x, s.peerAt p = some x → t.peerAt p = some { x with sourcesPoints := true }
  created : s.peerAt p = none → Trackable p s → t.peerAt p = some (createdPeer p s.clock true)
  tracked : Trackable p s →
    t.counters.rosterOverflows = s.counters.rosterOverflows ∧ t.faults.overflow = s.faults.overflow
  untracked : ¬ Trackable p s → t.peerAt p = none
    ∧ t.counters.rosterOverflows = saturatingStep s.counters.rosterOverflows ∧ t.faults.overflow = true
  oldMark : ∀ k x y, old = some k → s.peerAt k = some x → t.peerAt k = some y →
    y = { x with sourcesPoints := namesSource k t.points }
  others : s.peerAt p ≠ none ∨ s.roster.length < 24 ∨ ¬ Trackable p s →
    ∀ k, k ≠ p → old ≠ some k → t.peerAt k = s.peerAt k
  evicted : s.peerAt p = none → 24 ≤ s.roster.length → Trackable p s → ∃ v, Evicted s.roster v ∧ t.peerAt v.station = none
    ∧ ∀ k, k ≠ p → k ≠ v.station → old ≠ some k → t.peerAt k = s.peerAt k
  peerLost : t.faults.peerLost = t.roster.any fun x => x.state == .lost && x.sourcesPoints

/-! ## The acceptance of a record (R100) -/

/-- From `s` to `t` record r of the mirrored point n, whose entry q held the fields m, has been accepted with station p as learned source:
value, count, deadline, FRESH, the marks cleared and the overdue timer stopped (R100, R15); a count distance of 2 to 15 counts one missed
change (R19); the solicit entry leaves the list, which is filled in Point Table order in RUNNING (R118, R110); SOURCE is judged afresh (R16),
and the outputs bound to the point show it (R144). No other mirrored entry, no owned one but those of STATUS, no place in the queue but
theirs, no other output and no override list changes, and no other counter or condition but what a must-track creation or a switch brings. -/
structure TookRecord (n : Nat) (p : Station) (r : Record) (q : Point) (m : Mirrored) (s t : State) : Prop where
  entry : t.mirroredAt n = some
    { state := .fresh
      value := some (if q.kind = .binary ∧ r.value ≠ 0 then 1 else r.value)
      count := some r.count
      source := some p
      deadline := some (s.clock + 3 * refreshInterval r.refreshClass)
      old := false, backoff := none, overdue := false, overdueTimer := none }
  otherEntries : ∀ k, k ≠ n → t.mirroredAt k = s.mirroredAt k
  ownedEntries : (s.points.map Point.number).Nodup → OwnedStay .status s t
  missed : t.counters.missedChanges =
    match m.count with
    | some c => if 2 ≤ (r.count - c).toNat then saturatingStep s.counters.missedChanges else s.counters.missedChanges
    | none => s.counters.missedChanges
  counters : t.counters = { s.counters with
    missedChanges := t.counters.missedChanges, conflicts := t.counters.conflicts, rosterOverflows := t.counters.rosterOverflows }
  satisfied : ∀ x ∈ t.solicits, x.point ≠ n
  solicits : t.solicits =
    if ∃ x ∈ s.solicits, x.point = n then
      let others := s.solicits.filter fun x => decide (x.point ≠ n)
      if s.station = .running then t.points.foldl addSolicit others else others
    else s.solicits
  faults : t.faults = { s.faults with
    source := t.points.any Point.holdsSource, peerLost := t.faults.peerLost, overflow := t.faults.overflow }
  outputs : s.station = .running → ∀ o ∈ t.outputs, o.binding.source = n → o.evaluate t.points = o
  otherOutputs : (s.points.map Point.number).Nodup →
    OutputsStay (fun o => o.binding.source = n ∨ fedBy .status s o.binding.source = true) s t
  lists : outputLists t = outputLists s
  frame : t = { s with
    points := t.points, counters := t.counters, faults := t.faults, solicits := t.solicits, roster := t.roster
    urgent := t.urgent, routine := t.routine, outputs := t.outputs }

end Sys2Proof.Safety
end

