-- ==== Sys2Proof/Certificates/Slice0/Obligations.lean ====
section
/-!
DEFINITION. The statements about the Sadrel 3216, each a proposition. OBLIGATIONS.json gives for each its tier, its text and the rules
it rests on.
-/

open Sys2Proof Sys2Proof.Machine Sys2Proof.Safety

/-! ## The step and the state after reset -/

/-- A step runs the command at the front of the queue on the state with the queue's rest; on an empty queue the station idles. The queue
is the model's own (log 1). -/
def Obligations.StepRunsFront : Prop :=
  (∀ (c : Instr) (rest : List Instr) (s : State),
    step { s with pending := c :: rest } = exec c { s with pending := rest })
  ∧ ∀ s : State, s.pending = [] → step s = .next s

/-- The state after reset keeps every law of Safety.lean. -/
def Obligations.ResetIsLawful : Prop := Lawful State.reset

/-! ## Laws that every step keeps -/

/-- Every step keeps the contents that each station state allows (R178 and the tables of R6, R62, R108, R126, R140, R159, R185), and with
them the law of the frame on the line (R67, R80). -/
def Obligations.StepKeepsStations : Prop :=
  ∀ s t : State, StationLawful s → TransmitLawful s → step s = .next t → StationLawful t ∧ TransmitLawful t

/-- Every step keeps the laws of the Publication Queue and of the owned entries (R39, R40, with R5 and R11). -/
def Obligations.StepKeepsPublication : Prop :=
  ∀ s t : State, PublicationLawful s → step s = .next t → PublicationLawful t

/-- Every step keeps the patterns of the mirrored entries, the law of the solicit list, and leaves a point waiting for room only while the
list is full (R13, R107, R110). -/
def Obligations.StepKeepsMirroring : Prop :=
  ∀ s t : State, MirroringLawful s → step s = .next t → MirroringLawful t

/-- Every step keeps the law that a FRESH point never has a learned source whose roster entry is LOST, and the law of the roster
(R18, R125). -/
def Obligations.StepKeepsSources : Prop :=
  ∀ s t : State, SourcesLawful s → step s = .next t → SourcesLawful t

/-- Every step keeps the law of the override lists, a roster entry for every remote origin, and both marks of every roster entry
(R135, R136, R145, R152): "sources points" says that some mirrored entry names the station as its learned source, "holds overrides"
that some override list holds an entry of the station. -/
def Obligations.StepKeepsOrigins : Prop :=
  (∀ s t : State, OriginsLawful s → step s = .next t → OriginsLawful t)
  ∧ (∀ (p : Station) (points : List Point), namesSource p points = true ↔
      ∃ q ∈ points, ∃ m, q.role = .mirrored m ∧ m.source = some p)
  ∧ ∀ (p : Station) (outputs : List Output), holdsOverride p outputs = true ↔
      ∃ o ∈ outputs, ∃ x ∈ o.overrides, x.origin = p

/-- Every step keeps the fault summary equal to what the other blocks hold, and the STATUS-sourced point equal to the summary
(R8, R33, R188): a LEVEL point shows the sum of the conditions' bits, a BINARY one 1 exactly while some condition holds. SOURCE is held by
an entry that is STALE or overdue (R16, R21), PEER-LOST by a LOST one with "sources points" (R133). -/
def Obligations.StepKeepsHealth : Prop :=
  (∀ s t : State, HealthLawful s → step s = .next t → HealthLawful t)
  ∧ (∀ f : FaultSummary,
      statusValue .level f = BitVec.ofNat 8
        (f.config.toNat + 2 * f.duplicate.toNat + 4 * f.silenced.toNat + 8 * f.conflict.toNat + 16 * f.source.toNat
          + 32 * f.peerLost.toNat + 64 * f.line.toNat + 128 * f.overflow.toNat)
      ∧ statusValue .binary f =
        if f.config = true ∨ f.duplicate = true ∨ f.silenced = true ∨ f.conflict = true ∨ f.source = true
          ∨ f.peerLost = true ∨ f.line = true ∨ f.overflow = true then 1 else 0)
  ∧ (∀ p : Point, p.holdsSource = true ↔ ∃ m, p.role = .mirrored m ∧ (m.state = .stale ∨ m.overdue = true))
  ∧ ∀ x : Peer, x.holdsPeerLost = true ↔ x.state = .lost ∧ x.sourcesPoints = true

/-- Every step keeps the frame on the line one that the station state and the line mode allow, the reply on the line at the head of
the reply queue, and the receive assembly buffer within 29 characters and empty where nothing is assembled (R67, R75, R80, R173). -/
def Obligations.StepKeepsLineUnit : Prop :=
  ∀ s t : State, LineUnitLawful s → step s = .next t → LineUnitLawful t

/-- Every step leaves every output, in RUNNING, at the level that R142 chooses for it now (R144). The head of a non-empty override list gives
the driven level. With an empty list an owned point gives its current value, a FRESH one its value, by R141: a BINARY 1, or a LEVEL at or
above the threshold, is ON, and the invert is applied to it. A point that is UNKNOWN or STALE gives the fallback, HOLD, OFF or ON. The null
point gives OFF without invert. The held level follows a level that a point or the null point gives, and no other (R143). -/
def Obligations.StepKeepsOutputs : Prop :=
  (∀ s t : State, DrivenLawful s → step s = .next t → DrivenLawful t)
  ∧ ∀ (points : List Point) (o : Output),
    let chosen := o.evaluate points
    let shown (p : Point) (value : Byte) : Bool :=
      (match p.kind with
        | .binary => value == 1
        | .level => decide (o.binding.threshold.toNat ≤ value.toNat)) != o.binding.invert
    chosen = { o with driven := chosen.driven, held := chosen.held }
    ∧ (∀ x rest, o.overrides = x :: rest → chosen.driven = x.value ∧ chosen.held = o.held)
    ∧ (o.overrides = [] → o.binding.source = 0 → chosen.driven = false ∧ chosen.held = false)
    ∧ (o.overrides = [] → o.binding.source ≠ 0 → ∀ p, findPoint o.binding.source points = some p →
      (∀ w, p.role = .owned w → chosen.driven = shown p w.current ∧ chosen.held = shown p w.current)
      ∧ (∀ m v, p.role = .mirrored m → m.state = .fresh → m.value = some v →
        chosen.driven = shown p v ∧ chosen.held = shown p v)
      ∧ (∀ m, p.role = .mirrored m → m.state = .unknown ∨ m.state = .stale →
        chosen.held = o.held
        ∧ chosen.driven =
          match o.binding.fallback with
          | .hold => o.held
          | .off => false
          | .on => true))

/-- Every step keeps the capacities and ranges of the Request Handler, of failure accounting and of the boot count
(R81, R123, R162, R173). -/
def Obligations.StepKeepsCapacities : Prop :=
  ∀ s t : State, HandlerLawful s → AccountingLawful s → step s = .next t → HandlerLawful t ∧ AccountingLawful t

/-! ## Rules of the whole station -/

/-- A transmission starts at a line-idle event and at no other, and only a frame that the station state and the line mode allow (R66, R80). -/
def Obligations.TransmissionsStartAtIdle : Prop :=
  ∀ (c : Instr) (s t : State) (f : TxFrame), exec c s = .next t → s.inFlight = none → t.inFlight = some f →
    (∃ e, c = .lineIdleEvent e)
    ∧ t.line = .busy
    ∧ (s.station = .running ∧ s.mode = .active
      ∨ s.station = .running ∧ s.mode = .probing ∧ f.content.cls = .presence
      ∨ s.station = .unconfigured ∧ f.content.cls = .reply)

/-- The retained record is written at a restart, for its cause, and by no other event; a restart leaves every block in its after-restart
state (R176), the error code NONE (log 7). After a restart other than POWER the incarnation is not 0 (R177). Presence frames carry the
incarnation and the cause (R122), and STATUS replies all three fields (R169). -/
def Obligations.RetainedRecord : Prop :=
  (∀ (c : Instr) (s t : State), exec c s = .next t →
    t.retained = s.retained
    ∨ ∃ cause, t = { State.reset with
        retained := s.retained.afterRestart cause
        supplyAbove := t.supplyAbove, resetHigh := t.resetHigh, loading := t.loading, clock := t.clock, pending := t.pending })
  ∧ (∀ s : State, s.presenceContent.incarnation = s.retained.incarnation ∧ s.presenceContent.cause = s.retained.cause
    ∧ (s.statusData.drop 2).take 3 =
      [match s.retained.cause with
        | .power => 0
        | .pin => 1
        | .remote => 2
        | .guard => 3,
       s.retained.incarnation, s.retained.guardCount.setWidth 8])
  ∧ ∀ r : Retained,
    r.afterRestart .power = { incarnation := 0, cause := .power, guardCount := 0 }
    ∧ r.afterRestart .pin
      = { incarnation := if r.incarnation = 255 then 1 else r.incarnation + 1, cause := .pin, guardCount := r.guardCount }
    ∧ r.afterRestart .remote
      = { incarnation := if r.incarnation = 255 then 1 else r.incarnation + 1, cause := .remote, guardCount := r.guardCount }
    ∧ r.afterRestart .guard
      = { incarnation := if r.incarnation = 255 then 1 else r.incarnation + 1, cause := .guard
          guardCount := if r.guardCount = 15 then 15 else r.guardCount + 1 }
    ∧ ∀ cause, cause ≠ .power → (r.afterRestart cause).incarnation ≠ 0

/-- HALTED is left only by a POWER or PIN restart; every other command leaves all that the station holds as it stood, the line state and
the LINE condition apart (R187, R178). That the RESET level and the receive assembly may follow the pin and the line, that the clock
stands (log 5) and that a guard trip has no effect (log 21) are the model's reading. -/
def Obligations.HaltedIsFrozen : Prop :=
  ∀ (c : Instr) (s t : State), s.station = .halted → s.loading = false → s.inFlight = none → exec c s = .next t →
    (t.station = .starting ∧ ((∃ e up high, c = .powerRestart e up high) ∨ ∃ e held, c = .pinRestart e held))
    ∨ t = { s with
        line := t.line, assembly := t.assembly, resetHigh := t.resetHigh, faults := s.faults.put .line t.faults.line }

/-- Between the end of a load and the next restart, the entries of the Point Table, their order and their configuration fields, the pins'
settings, the bindings, the station number, the straps, the header fields, the line rate and the error code stay as they are
(R5, R22, R139, R182). -/
def Obligations.ConfigurationIsFixed : Prop :=
  ∀ (c : Instr) (s t : State), exec c s = .next t → s.station ≠ .starting → s.loading = false → t.station ≠ .starting →
    t.points.map fixedPoint = s.points.map fixedPoint
    ∧ t.pins.map fixedPin = s.pins.map fixedPin
    ∧ t.outputs.map fixedOutput = s.outputs.map fixedOutput
    ∧ t.number = s.number ∧ t.straps = s.straps ∧ t.header = s.header ∧ t.lineRate = s.lineRate ∧ t.error = s.error

/-- No counter falls but at a restart or a CLEAR COUNTERS: any command after which the station is not STARTING, and that is not a request
which can carry a CLEAR COUNTERS, leaves every counter, in the order of R175, at least where it was. A counter that counts increases by 1
and stops at 65535 (R175). -/
def Obligations.CountersNeverFall : Prop :=
  (∀ (c : Instr) (s t : State), exec c s = .next t → t.station ≠ .starting →
    (∀ e p d rest, c ≠ .clearCounters e p d rest) → (∀ e k p d body, c ≠ .unknownRequestKind e k p d body) →
    ∀ i, i < 12 → s.counters.list.getD i 0 ≤ t.counters.list.getD i 0)
  ∧ (∀ k : Counters, k.list =
      [k.framesReceived, k.receiveErrors, k.framesSent, k.transmitFailures, k.contentionLosses, k.requestsDropped,
       k.solicitsUnanswered, k.missedChanges, k.conflicts, k.rosterOverflows, k.overrideDiscards, k.stuckLineEpisodes])
  ∧ ∀ x : Counter, (saturatingStep x).toNat = min 65535 (x.toNat + 1)

/-- A YIELDED point stays YIELDED and out of the Publication Queue, with its compare base and a stopped refresh timer, until a restart
(R12). -/
def Obligations.YieldedStays : Prop :=
  ∀ (c : Instr) (s t : State) (n : Nat) (o : Owned), TableLawful s → OwnedTableLawful s → s.loading = false →
    s.ownedAt n = some o → o.sched = .yielded → n ∉ s.queue → exec c s = .next t → t.station ≠ .starting →
    n ∉ t.queue ∧ ∃ o', t.ownedAt n = some o' ∧ o'.sched = .yielded ∧ o'.compareBase = o.compareBase
      ∧ o'.refreshTimer = none

/-! ## Restarts, load and state (chapter 10) -/

/-- POWER_RESTART, TRANSMIT_GUARD_TRIP and RESTART_BOUND_EXPIRY: a restart of the cause, with the retained record of R177 and every block
in its after-restart state; the load begins when the supply is above the threshold and RESET is high (R176). A HALTED station cannot
trip its guard (R178; log 21). POWER_RESTART carries the two levels, a falling supply among them (log 22). The error code
after a restart is NONE (log 7). The bound expires at the time it holds (log 3). -/
def Obligations.RestartsOfOtherCauses : Prop :=
  (∀ (e : Time) (up high : Bool) (s : State),
    exec (.powerRestart e up high) s = .next { State.reset with
      supplyAbove := up, resetHigh := high, loading := up && high, clock := after e s, pending := s.pending })
  ∧ (∀ (e : Time) (s : State), s.station ≠ .halted →
    exec (.transmitGuardTrip e) s = .next { State.reset with
      retained :=
        { incarnation := if s.retained.incarnation = 255 then 1 else s.retained.incarnation + 1, cause := .guard
          guardCount := if s.retained.guardCount = 15 then 15 else s.retained.guardCount + 1 }
      supplyAbove := s.supplyAbove, resetHigh := s.resetHigh, loading := s.supplyAbove && s.resetHigh
      clock := s.clock + e, pending := s.pending })
  ∧ (∀ (e : Time) (s : State), s.station = .halted → exec (.transmitGuardTrip e) s = .next s)
  ∧ ∀ (s : State) (due : Time), s.station = .running → s.pendingRestart = some due →
    exec .restartBoundExpiry s = .next { State.reset with
      retained :=
        { incarnation := if s.retained.incarnation = 255 then 1 else s.retained.incarnation + 1, cause := .remote
          guardCount := s.retained.guardCount }
      supplyAbove := s.supplyAbove, resetHigh := s.resetHigh, loading := s.supplyAbove && s.resetHigh
      clock := max s.clock due, pending := s.pending }

/-- PIN_RESTART and RESET_RELEASE: RESET, high before and held low for at least 10 µs, makes a PIN restart whose load waits; a shorter low
is not an assertion, and a RESET already low begins nothing; at the release the load begins if the supply is above the threshold
(R176, R177; log 4). The PIN restart is made whatever the supply (log 22), and the error code after it is NONE (log 7). -/
def Obligations.ResetPin : Prop :=
  (∀ (e held : Time) (s : State), s.resetHigh = true → 10 ≤ held →
    exec (.pinRestart e held) s = .next { State.reset with
      retained :=
        { incarnation := if s.retained.incarnation = 255 then 1 else s.retained.incarnation + 1, cause := .pin
          guardCount := s.retained.guardCount }
      supplyAbove := s.supplyAbove, resetHigh := false, loading := false, clock := after e s, pending := s.pending })
  ∧ (∀ (e held : Time) (s : State), s.resetHigh = false ∨ held < 10 →
    exec (.pinRestart e held) s = .next { s with clock := after e s })
  ∧ (∀ (e : Time) (s : State), s.resetHigh = false →
    exec (.resetRelease e) s = .next { s with
      clock := after e s, resetHigh := true, loading := s.loading || (s.station == .starting && s.supplyAbove) })
  ∧ ∀ (e : Time) (s : State), s.resetHigh = true → exec (.resetRelease e) s = .next { s with clock := after e s }

/-- LOAD_COMPLETE of a valid image: with a usable number JOINING is entered with the entries, pins, outputs and header filled from the
image and the pins (R5 to R9, R13, R22, R24, R139, R140), CONFIG clear, the join window started; with none HALTED is entered, filled
alike, with the conditions as they stood (R182, R183, R185). The layout of the image is that of R191, each field by its bytes and bits (log
9: high byte first, bits without a field disregarded). A binding to a mirrored point has one of the three fallback codes of R191; any other
binding does not use its fallback, and bits that are no code leave it a free value (R142, R181; log 29). The threshold of an OUT pin without
a binding entry, 0, is the model's choice (log 31). -/
def Obligations.LoadCompleteValid : Prop :=
  (∀ (e : Time) (memory : List Byte) (straps : Station) (inputs : PinInputs) (s : State),
    s.loading = true → s.station = .starting → loadFailureOf memory = none → (parseImage memory).validate = .none →
    let im := parseImage memory
    ∃ t, exec (.loadComplete e memory straps inputs) s = .next t
      ∧ t = { s with
          clock := s.clock + e, station := t.station, loading := false, straps := some straps, number := t.number
          lineRate := t.lineRate, line := .busy, assembly := t.assembly, joinTimer := t.joinTimer, points := t.points
          pins := t.pins, outputs := t.outputs, header := t.header, error := .none, faults := t.faults }
      ∧ t.number = (if im.number = 0 then (if straps = 0 ∨ straps = 63 then none else some straps)
          else some (BitVec.ofNat 6 im.number))
      ∧ (t.number.isSome → t.station = .joining ∧ t.faults = { s.faults with config := false }
          ∧ t.assembly = .ignoring
          ∧ t.joinTimer = some (s.clock + e + max 1000000 (2 * (im.periodCode * 100000))))
      ∧ (t.number = none → t.station = .halted ∧ t.faults = s.faults ∧ t.assembly = .empty
          ∧ t.joinTimer = s.joinTimer)
      ∧ t.points.length = im.points.length
      ∧ (∀ (i : Nat) (q : Point) (p : ImagePoint), t.points[i]? = some q → im.points[i]? = some p →
          q.number = p.number ∧ q.kind = (if p.level then .level else .binary)
          ∧ (p.mirrored = true → q.role = .mirrored
              { state := .unknown, value := none, count := none, source := none, deadline := none, old := false
                backoff := none, overdue := false, overdueTimer := none })
          ∧ (p.mirrored = false → ∃ o : Owned, q.role = .owned o ∧ o.refreshClass.toNat = p.refreshClass ∧ o.count = 0
              ∧ o.compareBase = none ∧ o.carried = none ∧ o.sched = .quiet ∧ o.inFlight = false ∧ o.dirty = false
              ∧ o.refreshTimer = none
              ∧ o.deadband = (if p.level = true ∧ p.source < 16 then some (BitVec.ofNat 8 p.deadband) else none)
              ∧ o.threshold = (if p.level = false ∧ p.source < 16 ∧ im.mode p.source = .inLevel then some p.threshold else none)
              ∧ (p.source = 16 → o.source = .status ∧ o.current = statusValue q.kind t.faults)
              ∧ (∀ i : Fin 16, p.source = i.val → o.source = .pin i
                  ∧ (im.mode i.val = .inDigital → o.current = if inputs.digital.getLsbD i.val then 1 else 0)
                  ∧ (p.level = true → o.current = inputs.analog[i.val]?.getD 0)
                  ∧ (p.level = false → im.mode i.val = .inLevel →
                      o.current = if p.threshold ≤ inputs.analog[i.val]?.getD 0 then 1 else 0))))
      ∧ t.pins.length = 16
      ∧ (∀ (i : Nat) (p : Pin) (ip : ImagePin), t.pins[i]? = some p → im.pins[i]? = some ip →
          p.mode = im.mode i ∧ p.debounce = [0, 5, 20, 50].getD ip.debounce 0 ∧ p.pullUp = ip.pullUp ∧ p.candidate = none
          ∧ (p.mode = .hand → p.target.val = ip.target)
          ∧ (p.mode = .inDigital ∨ p.mode = .hand → p.level = some (inputs.digital.getLsbD i))
          ∧ (p.mode = .inLevel → p.reading = some (inputs.analog[i]?.getD 0)))
      ∧ t.outputs.map Output.pin = (List.finRange 16).filter (fun i => decide (im.mode i.val = .out))
      ∧ (∀ o ∈ t.outputs, o.driven = false ∧ o.held = false ∧ o.overrides = []
          ∧ (∀ b ∈ im.bindings, b.pin = o.pin.val →
              o.binding.source = b.source ∧ o.binding.threshold = b.threshold ∧ o.binding.invert = b.invert
              ∧ o.binding.overridable = b.overridable
              ∧ (b.fallback ≤ 2 → some o.binding.fallback = [Fallback.hold, .off, .on][b.fallback]?)
              ∧ ((∃ p ∈ im.points, p.mirrored = true ∧ p.number = b.source) → b.fallback ≤ 2))
          ∧ ((∀ b ∈ im.bindings, b.pin ≠ o.pin.val) →
              o.binding = { source := 0, threshold := 0, invert := false, fallback := .off, overridable := false }))
      ∧ (∃ rate, [LineRate.kbit50, .kbit100, .kbit200][im.rate]? = some rate ∧ t.lineRate = some rate
          ∧ t.header = some
            { rate := rate, periodCode := BitVec.ofNat 5 im.periodCode, remoteRestart := im.remoteRestart }))
  ∧ ∀ memory : List Byte,
    let im := parseImage memory
    let byte (i : Nat) : Byte := memory.getD i 0
    let num (i : Nat) : Nat := (byte i).toNat
    let two (i : Nat) : Nat := 256 * num i + num (i + 1)
    im.number = num 4 ∧ im.rate = num 5 ∧ im.periodCode = num 6 ∧ im.remoteRestart = (byte 7).getLsbD 0 ∧ im.pointCount = num 8
    ∧ im.pins = (List.range 16).map (fun i =>
        let a := 10 + 2 * i
        { mode := num a % 8, debounce := num a / 8 % 4, pullUp := (byte a).getLsbD 5, target := num (a + 1) })
    ∧ im.points = (List.range (num 8)).map (fun i =>
        let a := 42 + 6 * i
        { number := two a, mirrored := (byte (a + 2)).getLsbD 7, level := (byte (a + 2)).getLsbD 6
          thresholdPresent := (byte (a + 2)).getLsbD 5, source := num (a + 2) % 32, refreshClass := num (a + 3)
          deadband := num (a + 4), threshold := byte (a + 5) })
    ∧ im.bindings = (List.range (num 9)).map (fun i =>
        let a := 42 + 6 * num 8 + 5 * i
        { pin := num a, source := two (a + 1), threshold := byte (a + 3), invert := (byte (a + 4)).getLsbD 0
          overridable := (byte (a + 4)).getLsbD 1, fallback := num (a + 4) / 4 % 4 })

/-- LOAD_FAILED, and LOAD_COMPLETE of bytes that fail a check of R180 or an image that fails one of R181: the error code is recorded, the
straps give the number, and UNCONFIGURED or HALTED is entered at 50 kbit/s with every table as it was and CONFIG as it stood. Without a
load in progress neither command has an effect (log 4). A load fails exactly as the rows of R180 say, in the order of R191: signature,
length range, length against the counts, CRC, and NO-ANSWER at the first byte that is read and not answered. The image is refused by the
first of the eleven checks of R181 that it fails, each spelled out on the fields of R191, whose layout LoadCompleteValid spells (log 9);
fields that an entry does not use are disregarded, a fallback of 3 among them unless the binding's source is a mirrored point (R139, R142;
log 29 has the images that fail another check in that source), and a header number of 64 to 255 fails as 63 does (log 10). -/
def Obligations.LoadWithoutImage : Prop :=
  let ended (e : Time) (straps : Station) (error : ConfigError) (s : State) : State :=
    { s with
      clock := after e s, loading := false, straps := some straps, lineRate := some .kbit50, line := .busy, error := error
      number := if straps = 0 ∨ straps = 63 then none else some straps
      station := if straps = 0 ∨ straps = 63 then .halted else .unconfigured
      assembly := if straps = 0 ∨ straps = 63 then .empty else .ignoring }
  (∀ (e : Time) (straps : Station) (s : State), s.loading = true →
    exec (.loadFailed e .noAnswer straps) s = .next (ended e straps .noAnswer s)
    ∧ exec (.loadFailed e .signature straps) s = .next (ended e straps .signature s)
    ∧ exec (.loadFailed e .length straps) s = .next (ended e straps .length s)
    ∧ exec (.loadFailed e .imageCrc straps) s = .next (ended e straps .imageCrc s))
  ∧ (∀ (e : Time) (memory : List Byte) (straps : Station) (inputs : PinInputs) (f : LoadFailure) (s : State),
    s.loading = true → loadFailureOf memory = some f →
    exec (.loadComplete e memory straps inputs) s = exec (.loadFailed e f straps) s)
  ∧ (∀ (e : Time) (memory : List Byte) (straps : Station) (inputs : PinInputs) (s : State),
    s.loading = true → loadFailureOf memory = none → (parseImage memory).validate ≠ .none →
    exec (.loadComplete e memory straps inputs) s = .next (ended e straps (parseImage memory).validate s))
  ∧ (∀ (e : Time) (memory : List Byte) (straps : Station) (inputs : PinInputs) (f : LoadFailure) (s : State),
    s.loading = false →
    exec (.loadComplete e memory straps inputs) s = .next { s with clock := after e s }
    ∧ exec (.loadFailed e f straps) s = .next { s with clock := after e s })
  ∧ (∀ memory : List Byte,
    let n := memory.length
    let byte (i : Nat) : Byte := memory.getD i 0
    let length := 256 * (byte 2).toNat + (byte 3).toNat
    let crc := (crc16 (memory.take (length - 2))).toNat
    let signed : Prop := 2 ≤ n ∧ byte 0 = 0xA5 ∧ byte 1 = 0x3C
    let inRange : Prop := signed ∧ 4 ≤ n ∧ 50 ≤ length ∧ length ≤ 508
    let agrees : Prop := inRange ∧ 10 ≤ n ∧ length = 44 + 6 * (byte 8).toNat + 5 * (byte 9).toNat
    let crcGood : Prop := byte (length - 2) = BitVec.ofNat 8 (crc / 256) ∧ byte (length - 1) = BitVec.ofNat 8 crc
    (loadFailureOf memory = some .noAnswer ↔ n < 2 ∨ (signed ∧ n < 4) ∨ (inRange ∧ n < 10) ∨ (agrees ∧ n < length))
    ∧ (loadFailureOf memory = some .signature ↔ 2 ≤ n ∧ ¬ signed)
    ∧ (loadFailureOf memory = some .length ↔ (signed ∧ 4 ≤ n ∧ ¬ inRange) ∨ (inRange ∧ 10 ≤ n ∧ ¬ agrees))
    ∧ (loadFailureOf memory = some .imageCrc ↔ agrees ∧ length ≤ n ∧ ¬ crcGood)
    ∧ (loadFailureOf memory = none ↔ agrees ∧ length ≤ n ∧ crcGood))
  ∧ ∀ memory : List Byte,
    let im := parseImage memory
    let mode (i : Nat) : Option Nat := im.pins[i]?.map ImagePin.mode
    let owned := im.points.filter fun p => !p.mirrored
    let checks : List (ConfigError × Prop) :=
      [(.fieldRange,
        2 < im.rate ∨ im.periodCode < 1 ∨ 20 < im.periodCode ∨ 62 < im.number ∨ im.pointCount = 0
        ∨ (∃ p ∈ im.pins, 4 < p.mode)
        ∨ (∃ p ∈ owned, 16 < p.source ∨ 3 < p.refreshClass ∨ (p.level = true ∧ p.source < 16 ∧ 31 < p.deadband))
        ∨ ∃ b ∈ im.bindings, b.fallback = 3 ∧ b.source ≠ 0 ∧ ∃ p ∈ im.points, p.mirrored = true ∧ p.number = b.source),
       (.pointNumber, ∃ p ∈ im.points, p.number = 0 ∨ 1023 < p.number),
       (.duplicatePoint, ∃ i j : Nat, ∃ p q : ImagePoint,
        i < j ∧ im.points[i]? = some p ∧ im.points[j]? = some q ∧ p.number = q.number),
       (.tooManyPoints, 32 < owned.length ∨ 64 < im.pointCount),
       (.levelPin, ∃ i : Nat, 8 ≤ i ∧ i ≤ 15 ∧ mode i = some 2),
       (.sourcePin, ∃ p ∈ owned, p.source < 16 ∧
        ((p.level = true ∧ mode p.source ≠ some 2) ∨ (p.level = false ∧ mode p.source ≠ some 1 ∧ mode p.source ≠ some 2))),
       (.noThreshold, ∃ p ∈ owned, p.source < 16 ∧ p.level = false ∧ mode p.source = some 2 ∧ p.thresholdPresent = false),
       (.bindingPin, (∃ b ∈ im.bindings, mode b.pin ≠ some 3) ∨
        ∃ i j : Nat, ∃ b c : ImageBinding,
          i < j ∧ im.bindings[i]? = some b ∧ im.bindings[j]? = some c ∧ b.pin = c.pin),
       (.handTarget, ∃ p ∈ im.pins, p.mode = 4 ∧ mode p.target ≠ some 3),
       (.bindingSource, ∃ b ∈ im.bindings, b.source ≠ 0 ∧ ∀ p ∈ im.points, p.number ≠ b.source),
       (.statusPoints, 2 ≤ (owned.filter fun p => p.source == 16).length)]
    (∀ (k : Nat) (code : ConfigError) (bad : Prop), checks[k]? = some (code, bad) →
      (im.validate = code ↔ bad ∧ ∀ earlier ∈ checks.take k, ¬ earlier.2))
    ∧ (im.validate = .none ↔ ∀ check ∈ checks, ¬ check.2)

/-- JOIN_WINDOW_EXPIRY: RUNNING is entered. Every owned point that is not YIELDED stands in the urgent band in Point Table order, the first
16 UNKNOWN points have WAITING solicit entries in that order, the overdue timers of the UNKNOWN points run, a presence frame is pending
with the boot count 0 and the presence timer started, and every output is evaluated (R185, R58, R109, R21, R121, R123, R144).
The own period is the period code of the image in units of 100 ms (R121). The expiry takes place at the time the timer holds (log 3). -/
def Obligations.JoinWindowExpiry : Prop :=
  (∀ (s : State) (h : Header), s.header = some h → s.period = h.periodCode.toNat * 100000)
  ∧ ∀ (s : State) (due : Time), s.station = .joining → s.joinTimer = some due → (s.points.map Point.number).Nodup →
    s.solicits = [] →
    ∃ t, exec .joinWindowExpiry s = .next t
      ∧ t = { s with
          station := .running, joinTimer := none, clock := max s.clock due, points := t.points, urgent := t.urgent
          solicits := t.solicits, outputs := t.outputs, presencePending := true, presenceTimer := t.presenceTimer
          bootCount := 0 }
      ∧ t.presenceTimer = some (max s.clock due + s.period)
      ∧ t.points = s.points.map (fun p =>
          match p.role with
          | .owned o => if o.sched = .yielded then p else { p with role := .owned { o with sched := .urgent } }
          | .mirrored m =>
            if m.state = .unknown then
              { p with role := .mirrored { m with overdueTimer := some (max s.clock due + max 1000000 (2 * s.period)) } }
            else p)
      ∧ t.urgent = s.urgent ++ s.points.filterMap (fun p =>
          match p.role with
          | .owned o => if o.sched = .yielded then none else some p.number
          | .mirrored _ => none)
      ∧ t.solicits = ((s.points.filter Point.solicitable).take 16).map (fun p =>
          { point := p.number, state := .waiting false, attempts := 0 })
      ∧ t.outputs = s.outputs.map (Output.evaluate t.points)

/-! ## The line (chapter 4) -/

/-- LINE_IDLE_EVENT in RUNNING and ACTIVE with nothing in flight: the candidate of lowest class is assembled and its frame starts
(R79, R49, R50, R51, R111, R122, R173); with no candidate the line is IDLE. The event that ends a stuck-line episode clears LINE first, a
STATUS-sourced point takes that change of the summary, and the choice is made of what stands then (R86, R33; the order is log 15). -/
def Obligations.LineIdleChoice : Prop :=
  ∀ (e : Time) (before : State) (own : Station) (h : Header), before.station = .running → before.mode = .active →
    before.inFlight = none → (before.faults.line = true → (before.points.map Point.number).Nodup) →
    before.number = some own → before.header = some h →
    let s := summaryTaken { before.faults with line := false } before
    let taken := (s.urgent ++ s.routine).take 6
    let records : List Record := taken.filterMap fun n => (findPoint n s.points).bind fun p => p.owned?.map fun o =>
      { point := BitVec.ofNat 10 p.number, kind := p.kind, refreshClass := o.refreshClass, count := o.count, value := o.current }
    let marked := s.points.map fun p =>
      if p.number ∈ taken then
        p.mapOwned fun o => { o with
          inFlight := true, carried := if p.kind = .level ∧ o.source ≠ .status then some o.current else o.carried }
      else p
    let asked := ((s.solicits.filter fun x => x.state == .waiting false).take 8).map Solicit.point
    let sending (c : TxContent) : State :=
      { s with clock := s.clock + e, line := .busy, assembly := .assembling [], inFlight := some { sender := own, content := c } }
    (s.urgent ≠ [] →
      exec (.lineIdleEvent e) before = .next { sending (.publication true records) with points := marked })
    ∧ (s.urgent = [] → ∀ r rs, s.replies = r :: rs → exec (.lineIdleEvent e) before = .next (sending (.reply r)))
    ∧ (s.urgent = [] → s.replies = [] → (∃ x ∈ s.solicits, x.state = .waiting false) →
      exec (.lineIdleEvent e) before = .next { sending (.solicit asked) with
        solicits := s.solicits.map fun x =>
          if x.state = .waiting false ∧ x.point ∈ asked then { x with state := .waiting true } else x })
    ∧ (s.urgent = [] → s.replies = [] → (∀ x ∈ s.solicits, x.state ≠ .waiting false) → s.presencePending = true →
      exec (.lineIdleEvent e) before = .next (sending (.presence
        { periodCode := h.periodCode, boot := decide (s.bootCount < 3), probing := false, cause := s.retained.cause
          incarnation := s.retained.incarnation, faults := s.faults.byte })))
    ∧ (s.urgent = [] → s.replies = [] → (∀ x ∈ s.solicits, x.state ≠ .waiting false) → s.presencePending = false →
      s.routine ≠ [] →
      exec (.lineIdleEvent e) before = .next { sending (.publication false records) with points := marked })
    ∧ (s.urgent = [] → s.replies = [] → (∀ x ∈ s.solicits, x.state ≠ .waiting false) → s.presencePending = false →
      s.routine = [] →
      exec (.lineIdleEvent e) before = .next { s with clock := s.clock + e, line := .idle, assembly := .empty })

/-- LINE_IDLE_EVENT elsewhere: in PROBING only a pending presence frame starts, with the period code of the image and the probing flag (R122),
in UNCONFIGURED only the reply at the head, and in SILENCED, JOINING and HALTED nothing (R80). The event that ends a stuck-line episode
clears LINE first, and a STATUS-sourced point takes that change in JOINING and RUNNING (R86, R33; log 15). While a frame of this station is
on the line, and in STARTING, the event has no effect (R70, R67; log 4). The frame carries the station's number; the 0 for a station without
one, which never transmits (R182), is the model's (log 31). -/
def Obligations.LineIdleRestricted : Prop :=
  ∀ (e : Time) (before : State),
    let s := summaryTaken { before.faults with line := false } before
    let quiet : State := { s with clock := after e before, line := .idle, assembly := .empty }
    let sending (c : TxContent) : State :=
      { s with
        clock := after e before, line := .busy, assembly := .assembling []
        inFlight := some { sender := s.number.getD 0, content := c } }
    (s.station ≠ .starting → s.inFlight = none → (before.faults.line = true → (before.points.map Point.number).Nodup) →
      (s.station = .running → s.mode = .silenced → exec (.lineIdleEvent e) before = .next quiet)
      ∧ (s.station = .running → s.mode = .probing → s.presencePending = false → exec (.lineIdleEvent e) before = .next quiet)
      ∧ (s.station = .running → s.mode = .probing → s.presencePending = true → ∃ p : PresenceContent,
          exec (.lineIdleEvent e) before = .next (sending (.presence p))
          ∧ (∀ h, s.header = some h → p.periodCode = h.periodCode)
          ∧ p.probing = true ∧ p.boot = decide (s.bootCount < 3) ∧ p.incarnation = s.retained.incarnation
          ∧ p.cause = s.retained.cause ∧ p.faults = s.faults.byte)
      ∧ (s.station = .unconfigured → s.replies = [] → exec (.lineIdleEvent e) before = .next quiet)
      ∧ (s.station = .unconfigured → ∀ r rs, s.replies = r :: rs →
          exec (.lineIdleEvent e) before = .next (sending (.reply r)))
      ∧ (s.station = .joining ∨ s.station = .halted → exec (.lineIdleEvent e) before = .next quiet))
    ∧ (before.station = .starting ∨ before.inFlight.isSome →
      exec (.lineIdleEvent e) before = .next { before with clock := after e before })

/-- DOMINANT_LEVEL_SEEN, STUCK_LINE_EPISODE and the end of an episode at LINE_IDLE_EVENT: the line state, the LINE condition and the two
counters (R65, R86, R67). The episode changes no point and no place in the queue but those of a STATUS-sourced point, which takes the change
(R33); LineIdleChoice and LineIdleRestricted say what else its end brings. A start bit that samples dominant begins a character, which the
receive assembly buffer takes, on a line that is BUSY too (logs 27 and 30), up to 29 of them (R75; the time at which it takes one, and a
thirtieth, are log 12); a glitch takes no character (R64), and an ignored line stays ignored (R75). A level or an episode that cannot begin
changes nothing (log 4). -/
def Obligations.LineFollowsTheLevel : Prop :=
  (∀ (e : Time) (bits : CharBits) (s : State), s.line = .idle ∨ s.line = .busy → s.station.dispatches = true →
    bits.getLsbD 0 = false →
    let c : LineChar := { data := bits.extractLsb' 1 8, stopRecessive := bits.getLsbD 9 }
    let taken (chars : List LineChar) : State :=
      { s with clock := s.clock + e, line := .busy, assembly := .assembling chars }
    (s.assembly = .empty → exec (.dominantLevelSeen { elapsed := e, bits := bits }) s = .next (taken [c]))
    ∧ ∀ chars, s.assembly = .assembling chars →
      (chars.length < 29 → exec (.dominantLevelSeen { elapsed := e, bits := bits }) s = .next (taken (chars ++ [c])))
      ∧ (chars.length = 29 → exec (.dominantLevelSeen { elapsed := e, bits := bits }) s = .next (taken chars)))
  ∧ (∀ (e : Time) (bits : CharBits) (s : State), s.line = .idle ∨ s.line = .busy →
    bits.getLsbD 0 = true ∨ s.station.dispatches = false ∨ s.assembly = .ignoring →
    exec (.dominantLevelSeen { elapsed := e, bits := bits }) s = .next { s with clock := after e s, line := .busy })
  ∧ (∀ (e : Time) (bits : CharBits) (s : State), s.line = .stuck ∨ s.line = .notTracked →
    exec (.dominantLevelSeen { elapsed := e, bits := bits }) s = .next { s with clock := after e s })
  ∧ (∀ (e : Time) (s : State), s.line = .idle ∨ s.line = .busy → s.station ≠ .halted →
    ∃ t, exec (.stuckLineEpisode e) s = .next t
      ∧ t = { s with
          clock := s.clock + e, line := .stuck, assembly := t.assembly, counters := t.counters
          faults := { s.faults with line := true }
          points := t.points, urgent := t.urgent, routine := t.routine, outputs := t.outputs }
      ∧ outputLists t = outputLists s
      ∧ t.assembly = (if s.assembly = .empty then .empty else .ignoring)
      ∧ t.counters = { s.counters with
          stuckLineEpisodes := saturatingStep s.counters.stuckLineEpisodes
          receiveErrors :=
            match s.assembly with
            | .empty => s.counters.receiveErrors
            | .assembling _ => saturatingStep s.counters.receiveErrors
            | .ignoring => s.counters.receiveErrors }
      ∧ ((s.points.map Point.number).Nodup →
        t = summaryTaken { s.faults with line := true } { s with
          clock := s.clock + e, line := .stuck, assembly := t.assembly, counters := t.counters }))
  ∧ (∀ (e : Time) (s : State), s.line = .idle ∨ s.line = .busy → s.station = .halted →
    exec (.stuckLineEpisode e) s = .next { s with
      line := .stuck, assembly := if s.assembly = .empty then .empty else .ignoring
      faults := { s.faults with line := true } })
  ∧ (∀ (e : Time) (s : State), s.line = .stuck ∨ s.line = .notTracked →
    exec (.stuckLineEpisode e) s = .next { s with clock := after e s })
  ∧ ∀ (e : Time) (s : State), s.station ≠ .starting → s.inFlight = none →
    ∃ t, exec (.lineIdleEvent e) s = .next t ∧ t.faults = { s.faults with line := false }
      ∧ (t.inFlight = none → t.line = .idle ∧ t.assembly = .empty) ∧ (t.inFlight.isSome → t.line = .busy)

/-- FRAME_DISCARDED: characters that fail some check of R75 count one receive error and nothing of them reaches any block, where frames are
assembled (R67, R86). A frame in the assembly of which nothing has been read back, since the driver that sent it has failed, has no character
and is short (R70, R71); brought after the line-idle event it has no sample (log 13). Where nothing is assembled, where no check fails, and
where every start bit was a glitch (R64) and no frame is in assembly, the command has no effect. Each check
fails exactly as its row of R75 says, the class, the sender and the destination read from the first sixteen data bits in the order they
are sent (R190). The characters of the frame are those in the receive assembly buffer and then those that the command brings; while a frame
of this station is on the line the buffer holds nothing of the frame that ended before it (logs 12 and 13). -/
def Obligations.FrameDiscarded : Prop :=
  (∀ (e : Time) (samples : List CharBits) (s : State),
    let held : List LineChar := match s.assembly with
      | .empty => []
      | .assembling chars => chars
      | .ignoring => []
    let chars := (if s.inFlight.isSome then [] else held) ++ samples.filterMap sampleChar
    let begun : Prop := chars ≠ [] ∨ samples = [] ∨ (s.inFlight = none ∧ ∃ held, s.assembly = .assembling held)
    (Receives s → begun → failedChecks chars ≠ [] →
      exec (.frameDiscarded e samples) s = .next { s with
        clock := s.clock + e
        counters := { s.counters with receiveErrors := saturatingStep s.counters.receiveErrors }
        assembly := if s.inFlight.isSome then s.assembly else if s.line = .busy then .ignoring else .empty })
    ∧ (¬ Receives s ∨ ¬ begun ∨ failedChecks chars = [] →
      exec (.frameDiscarded e samples) s = .next { s with clock := after e s }))
  ∧ ∀ chars : List LineChar,
    let failed := failedChecks chars
    let n := chars.length
    let bytes := chars.map LineChar.data
    let byte (i : Nat) : Byte := bytes.getD i 0
    let sent : List Bool := (List.range 8).map (byte 0).getLsbD ++ (List.range 8).map (byte 1).getLsbD
    let number (bits : List Bool) : Nat := bits.foldl (fun k b => 2 * k + b.toNat) 0
    let cls := number (sent.take 4)
    let sender := number ((sent.drop 4).take 6)
    let dest := number (sent.drop 10)
    let length := (byte 2).toNat
    (.framing ∈ failed ↔ ∃ c ∈ chars, c.stopRecessive = false)
    ∧ (.sender ∈ failed ↔ 2 ≤ n ∧ (sender = 0 ∨ sender = 63))
    ∧ (.frameClass ∈ failed ↔ 2 ≤ n ∧ 7 ≤ cls)
    ∧ (.destination ∈ failed ↔ 2 ≤ n ∧ cls ∈ [1, 3, 4, 6] ∧ dest ≠ 63)
    ∧ (.lengthRange ∈ failed ↔ 3 ≤ n ∧ 24 < length)
    ∧ (.overLength ∈ failed ↔ 3 ≤ n ∧ 5 + length < n)
    ∧ (.short ∈ failed ↔ n < 3 ∨ n < 5 + length)
    ∧ (.crc ∈ failed ↔ 3 ≤ n ∧ 5 + length ≤ n ∧
        [byte (3 + length), byte (4 + length)] ≠
          [BitVec.ofNat 8 ((crc16 (bytes.take (3 + length))).toNat / 256), BitVec.ofNat 8 (crc16 (bytes.take (3 + length))).toNat])

/-- DUPLICATE_DETECTION: the frame is counted and HALTED is entered with DUPLICATE. The frame of this station is abandoned, marks in flight,
debounce candidates, the pending presence frame and a pending restart are cleared, and everything else keeps what it held
(R186, R187, R38, R61, R108, R121, R167). The Point Table is frozen first: no point of it, one sourced from STATUS included, takes the
condition DUPLICATE (log 25). Every good frame with this station's own number is one, whatever its class (R77; the frame commands
with that number, log 11). Where no frame is assembled none arrives (R67, R75, R86; logs 4 and 12). -/
def Obligations.DuplicateDetection : Prop :=
  (∀ (e : Time) (s : State), Receives s →
    exec (.duplicateDetection e) s = .next { s with
      clock := s.clock + e
      station := .halted
      counters := { s.counters with framesReceived := saturatingStep s.counters.framesReceived }
      faults := { s.faults with duplicate := true }
      points := s.points.map (Point.mapOwned fun o => { o with inFlight := false, dirty := false })
      pins := s.pins.map fun p => { p with candidate := none }
      solicits := s.solicits.map fun x =>
        { x with state := match x.state with
          | .waiting _ => .waiting false
          | .sent d => .sent d
          | .covered d => .covered d }
      joinTimer := none, assembly := .empty, inFlight := none, presencePending := false, pendingRestart := none })
  ∧ (∀ (e : Time) (s : State), ¬ Receives s →
    exec (.duplicateDetection e) s = .next { s with clock := after e s })
  ∧ ∀ (e : Time) (s : State) (own d : Station) (body : List Byte), s.number = some own →
    stationOk own = true → bodyOk body = true →
    exec (.urgentPublish e own body) s = exec (.duplicateDetection e) s
    ∧ exec (.routinePublish e own body) s = exec (.duplicateDetection e) s
    ∧ exec (.solicit e own body) s = exec (.duplicateDetection e) s
    ∧ exec (.presence e own body) s = exec (.duplicateDetection e) s
    ∧ exec (.reply e own d body) s = exec (.duplicateDetection e) s
    ∧ ∀ cls, exec (.unknownRequestKind e cls own d body) s = exec (.duplicateDetection e) s

/-! ## The outcomes of a frame of this station -/

/-- TRANSMISSION_COMPLETE of a publication frame: each point of the frame that still carries the in-flight mark takes its compare base and
starts its refresh timer; a dirty one moves to the tail of the urgent band in record order with both marks cleared, the others leave the
queue and become QUIET. Points without the mark, YIELDED ones among them, are passed by (R52, R46, R56, R72, R82). The completed frame leaves
the receive assembly buffer, which then takes the next frame (log 27). The refresh intervals of the classes 0 to 3 are 100 ms, 500 ms, 2 s
and 10 s (R4). -/
def Obligations.PublicationComplete : Prop :=
  (refreshInterval 0 = 100000 ∧ refreshInterval 1 = 500000 ∧ refreshInterval 2 = 2000000 ∧ refreshInterval 3 = 10000000)
  ∧ ∀ (e : Time) (s : State) (f : TxFrame) (u : Bool) (records : List Record), s.station = .running → s.mode = .active →
    s.inFlight = some f → f.content = .publication u records → (s.points.map Point.number).Nodup →
    (recordPoints records).Nodup →
    let flying (n : Nat) : Bool := match s.ownedAt n with
      | some o => o.inFlight
      | none => false
    let dirty (n : Nat) : Bool := match s.ownedAt n with
      | some o => o.inFlight && o.dirty
      | none => false
    let carried := (recordPoints records).filter flying
    exec (.transmissionComplete e) s = .next { s with
      clock := s.clock + e, inFlight := none, failures := 0
      assembly := if s.assembly = .ignoring then .ignoring else .empty
      counters := { s.counters with framesSent := saturatingStep s.counters.framesSent }
      points := s.points.map fun p =>
        if p.number ∈ carried then
          p.mapOwned fun o => { o with
            sched := if o.dirty then .urgent else .quiet
            inFlight := false, dirty := false
            compareBase := if p.kind = .level ∧ o.source ≠ .status then o.carried else o.compareBase
            refreshTimer := some (s.clock + e + refreshInterval o.refreshClass) }
        else p
      urgent := (s.urgent.filter fun n => decide (n ∉ carried)) ++ (recordPoints records).filter dirty
      routine := s.routine.filter fun n => decide (n ∉ carried) }

/-- CONTENTION_LOST and TRANSMIT_FAILURE: a publication frame clears both marks of its points and keeps their places, bands, compare bases,
timers and counts; a SOLICIT frame clears the in-flight marks; a presence frame stays pending after a loss and not after a failure; a reply
stays at the head (R53, R112, R124, R173). The outcome is counted (R70, R71), and the receive assembly buffer keeps what it took (log 12).
In ACTIVE a loss leaves failure accounting as it is, a failure below the sixth adds one, and the sixth silences the station: the owner's
handling is the same, and a STATUS-sourced point takes the change of the summary before it (R82, R33; log 14). In PROBING, where the frame
is the probe, a loss keeps it pending and a failure does not, and the mode, the count and the quarantine follow (R84). In UNCONFIGURED
failure accounting does not act on a STATUS reply (R81). -/
def Obligations.FrameNotSent : Prop :=
  ∀ (e : Time) (s : State) (f : TxFrame), s.inFlight = some f →
    let lost : State := { s with
      clock := s.clock + e, inFlight := none
      counters := { s.counters with contentionLosses := saturatingStep s.counters.contentionLosses } }
    let failed : State := { s with
      clock := s.clock + e, inFlight := none
      counters := { s.counters with transmitFailures := saturatingStep s.counters.transmitFailures } }
    let silenced (length : Nat) : State := { failed with
      mode := .silenced, failures := 0, quarantineLength := length, quarantineTimer := some (s.clock + e + length * 1000000)
      faults := { s.faults with silenced := true } }
    let unmarked (records : List Record) (t : State) : State := { t with
      points := t.points.map fun p =>
        if p.number ∈ recordPoints records then p.mapOwned (fun o => { o with inFlight := false, dirty := false }) else p }
    let waiting (t : State) : State := { t with
      solicits := t.solicits.map fun x => if x.state = .waiting true then { x with state := .waiting false } else x }
    (s.station = .running → s.mode = .active →
      (∀ u records, f.content = .publication u records → exec (.contentionLost e) s = .next (unmarked records lost))
      ∧ (∀ points, f.content = .solicit points → exec (.contentionLost e) s = .next (waiting lost))
      ∧ (∀ p, f.content = .presence p → exec (.contentionLost e) s = .next lost)
      ∧ ∀ r, f.content = .reply r → exec (.contentionLost e) s = .next lost)
    ∧ (s.station = .running → s.mode = .active → s.failures < 5 →
      let failed : State := { failed with failures := s.failures + 1 }
      (∀ u records, f.content = .publication u records → exec (.transmitFailure e) s = .next (unmarked records failed))
      ∧ (∀ points, f.content = .solicit points → exec (.transmitFailure e) s = .next (waiting failed))
      ∧ (∀ p, f.content = .presence p → exec (.transmitFailure e) s = .next { failed with presencePending := false })
      ∧ ∀ r, f.content = .reply r → exec (.transmitFailure e) s = .next failed)
    ∧ (s.station = .running → s.mode = .active → s.failures = 5 → s.faults.silenced = false → (s.points.map Point.number).Nodup →
        let u := summaryTaken { s.faults with silenced := true } s
        let failed : State := { silenced s.quarantineLength with
          points := u.points, urgent := u.urgent, routine := u.routine, outputs := u.outputs }
        (∀ u records, f.content = .publication u records → exec (.transmitFailure e) s = .next (unmarked records failed))
        ∧ (∀ points, f.content = .solicit points → exec (.transmitFailure e) s = .next (waiting failed))
        ∧ (∀ p, f.content = .presence p → exec (.transmitFailure e) s = .next { failed with presencePending := false })
        ∧ ∀ r, f.content = .reply r → exec (.transmitFailure e) s = .next failed)
    ∧ (s.station = .running → s.mode = .probing → s.faults.silenced = true → ∀ p, f.content = .presence p →
      exec (.contentionLost e) s = .next { lost with failures := 0 }
      ∧ exec (.transmitFailure e) s = .next
        { silenced (min 16 (2 * s.quarantineLength)) with presencePending := false })
    ∧ (s.station = .unconfigured → ∀ r, f.content = .reply r →
      exec (.contentionLost e) s = .next lost ∧ exec (.transmitFailure e) s = .next failed)

/-- TRANSMISSION_COMPLETE of the other frames: in ACTIVE the entries of a SOLICIT frame that carry the mark become SENT for 250 ms; a presence
frame clears its pending mark and adds one to the boot count up to 3; a reply leaves the head of the queue, and one with the restart mark
ends a pending restart with a REMOTE restart (R112, R123, R124, R173, R166), after which the error code is NONE (log 7). In PROBING the probe
does the same as any presence frame, the mode returns to ACTIVE, and a STATUS-sourced point takes the change of the summary (R84, R33). In
UNCONFIGURED a STATUS reply leaves the head of the queue and failure accounting does not act (R81). The completed frame leaves the receive
assembly buffer, which then takes the next frame (log 27). Without a frame on the line no outcome occurs (log 4). -/
def Obligations.FrameComplete : Prop :=
  (∀ (e : Time) (s : State) (f : TxFrame), s.inFlight = some f →
    let sent : State := { s with
      clock := s.clock + e, inFlight := none
      assembly := if s.assembly = .ignoring then .ignoring else .empty
      counters := { s.counters with framesSent := saturatingStep s.counters.framesSent } }
    (s.station = .running → s.mode = .active →
      let sent : State := { sent with failures := 0 }
      (∀ points, f.content = .solicit points →
        exec (.transmissionComplete e) s = .next { sent with
          solicits := s.solicits.map fun x =>
            if x.state = .waiting true then { x with state := .sent (s.clock + e + 250000) } else x })
      ∧ (∀ p, f.content = .presence p →
        exec (.transmissionComplete e) s = .next { sent with
          presencePending := false, bootCount := min 3 (s.bootCount + 1) })
      ∧ (∀ r, f.content = .reply r → r.restartMark = false ∨ s.pendingRestart = none →
        exec (.transmissionComplete e) s = .next { sent with replies := s.replies.tail })
      ∧ ∀ r due, f.content = .reply r → r.restartMark = true → s.pendingRestart = some due →
        exec (.transmissionComplete e) s = .next { State.reset with
          retained :=
            { incarnation := if s.retained.incarnation = 255 then 1 else s.retained.incarnation + 1, cause := .remote
              guardCount := s.retained.guardCount }
          supplyAbove := s.supplyAbove, resetHigh := s.resetHigh, loading := s.supplyAbove && s.resetHigh
          clock := s.clock + e, pending := s.pending })
    ∧ (s.station = .running → s.mode = .probing → s.faults.silenced = true → (s.points.map Point.number).Nodup →
      ∀ p, f.content = .presence p →
        let u := summaryTaken { s.faults with silenced := false } s
        exec (.transmissionComplete e) s = .next { sent with
          mode := .active, failures := 0, quarantineLength := 2, faults := { s.faults with silenced := false }
          presencePending := false, bootCount := min 3 (s.bootCount + 1)
          points := u.points, urgent := u.urgent, routine := u.routine, outputs := u.outputs })
    ∧ (s.station = .unconfigured → ∀ r, f.content = .reply r → r.restartMark = false ∨ s.pendingRestart = none →
      exec (.transmissionComplete e) s = .next { sent with replies := s.replies.tail }))
  ∧ ∀ (e : Time) (s : State), s.inFlight = none →
    exec (.transmissionComplete e) s = .next { s with clock := after e s }
    ∧ exec (.contentionLost e) s = .next { s with clock := after e s }
    ∧ exec (.transmitFailure e) s = .next { s with clock := after e s }

/-- Failure accounting: the outcome tables of ACTIVE (R82) and of PROBING (R84), for every frame but a reply that ends a pending restart. -/
def Obligations.FailureAccounting : Prop :=
  ∀ (e : Time) (s : State) (f : TxFrame), s.station = .running → s.inFlight = some f →
    (∀ r, f.content = .reply r → r.restartMark = true → s.pendingRestart = none) →
    ∃ complete lost failed : State,
      exec (.transmissionComplete e) s = .next complete
      ∧ exec (.contentionLost e) s = .next lost
      ∧ exec (.transmitFailure e) s = .next failed
      ∧ (s.mode = .active →
          (complete.mode = .active ∧ complete.failures = 0 ∧ complete.quarantineLength = s.quarantineLength)
          ∧ (lost.mode = .active ∧ lost.failures = s.failures ∧ lost.quarantineLength = s.quarantineLength)
          ∧ (s.failures < 5 → failed.mode = .active ∧ failed.failures = s.failures + 1
              ∧ failed.quarantineLength = s.quarantineLength)
          ∧ (s.failures = 5 → failed.mode = .silenced ∧ failed.failures = 0
              ∧ failed.quarantineLength = s.quarantineLength
              ∧ failed.quarantineTimer = some (s.clock + e + s.quarantineLength * 1000000)
              ∧ failed.faults = { s.faults with silenced := true }))
      ∧ (s.mode = .probing →
          (complete.mode = .active ∧ complete.failures = 0 ∧ complete.quarantineLength = 2
            ∧ complete.faults = { s.faults with silenced := false })
          ∧ (lost.mode = .probing ∧ lost.failures = 0 ∧ lost.quarantineLength = s.quarantineLength)
          ∧ (failed.mode = .silenced ∧ failed.failures = 0
            ∧ failed.quarantineLength = min 16 (2 * s.quarantineLength)
            ∧ failed.quarantineTimer = some (s.clock + e + min 16 (2 * s.quarantineLength) * 1000000)
            ∧ failed.faults = { s.faults with silenced := true }))

/-! ## The arrival of a frame (chapters 4 to 7) -/

/-- A frame heard, and the whole of what a REPLY does: it is counted, and in JOINING and RUNNING an entry of its sender becomes PRESENT with
the time last heard and both deadlines, or one is created while there is room; a full roster leaves a station that no mirrored entry names
untracked, and an untracked source takes the place of the evictable LOST entry heard longest ago, or else of such a SILENT one, or stays
untracked with nothing counted (R128). PEER-LOST is judged afresh at an entry heard and at an eviction, and the summary stays elsewhere
(R133, R188). Points, queue and outputs stay as they were but for what a STATUS-sourced point takes of that change (R33). In UNCONFIGURED no
roster is kept (R75, R76, R78, R126, R127, R132, R134). The period is the advertised one in units of 100 ms, 2000 ms while it is absent
(R132). A frame whose header fails R75 is discarded (log 11), and where none is assembled none is heard (R67, R75, R86; log 12). -/
def Obligations.FrameHeard : Prop :=
  (∀ x : Peer, (x.content = none → x.period = 2000000)
    ∧ ∀ c, x.content = some c → x.period = c.periodCode.toNat * 100000)
  ∧ (∀ st : StationState, (st.live = true ↔ st = .joining ∨ st = .running)
    ∧ (st.dispatches = true ↔ st = .unconfigured ∨ st = .joining ∨ st = .running))
  ∧ (∀ (p : Station) (body : List Byte),
    (stationOk p = true ↔ 1 ≤ p.toNat ∧ p.toNat ≤ 62) ∧ (bodyOk body = true ↔ body.length ≤ 24))
  ∧ ∀ (e : Time) (s : State) (p d : Station) (body : List Byte), bodyOk body = true →
    (Hears s p →
      exec (.reply e p d body) s = .next (heardFrom e p s)
      ∧ (heardFrom e p s).counters = { s.counters with framesReceived := saturatingStep s.counters.framesReceived }
      ∧ (heardFrom e p s).clock = s.clock + e
      ∧ (heardFrom e p s).assembly = (if s.inFlight.isSome then s.assembly else .empty)
      ∧ heardFrom e p s = { s with
          clock := (heardFrom e p s).clock, counters := (heardFrom e p s).counters, assembly := (heardFrom e p s).assembly
          roster := (heardFrom e p s).roster, faults := (heardFrom e p s).faults, points := (heardFrom e p s).points
          urgent := (heardFrom e p s).urgent, routine := (heardFrom e p s).routine, outputs := (heardFrom e p s).outputs }
      ∧ outputLists (heardFrom e p s) = outputLists s
      ∧ ((s.points.map Point.number).Nodup →
        heardFrom e p s = summaryTaken (heardFrom e p s).faults { s with
          clock := (heardFrom e p s).clock, counters := (heardFrom e p s).counters, assembly := (heardFrom e p s).assembly
          roster := (heardFrom e p s).roster })
      ∧ (s.station = .unconfigured → (heardFrom e p s).roster = s.roster ∧ (heardFrom e p s).faults = s.faults)
      ∧ (s.station.live = true → (∃ x ∈ s.roster, x.station = p) →
          (heardFrom e p s).roster = s.roster.map (fun x =>
            if x.station = p then
              { x with
                state := .present, lastHeard := s.clock + e, silentAt := some (s.clock + e + 2 * x.period)
                lostAt := some (s.clock + e + 4 * x.period) }
            else x)
          ∧ (heardFrom e p s).faults =
            { s.faults with peerLost := (heardFrom e p s).roster.any fun x => x.state == .lost && x.sourcesPoints })
      ∧ (s.station.live = true → (∀ x ∈ s.roster, x.station ≠ p) → s.roster.length < 24 →
          (heardFrom e p s).roster = s.roster ++ [createdPeer p (s.clock + e) (namesSource p s.points)]
          ∧ (heardFrom e p s).faults = s.faults)
      ∧ (s.station.live = true → (∀ x ∈ s.roster, x.station ≠ p) → 24 ≤ s.roster.length →
          namesSource p s.points = false → (heardFrom e p s).roster = s.roster ∧ (heardFrom e p s).faults = s.faults)
      ∧ (s.station.live = true → (∀ x ∈ s.roster, x.station ≠ p) → 24 ≤ s.roster.length →
          namesSource p s.points = true →
          ((∀ x ∈ s.roster, x.state = .present ∨ Kept x) →
            (heardFrom e p s).roster = s.roster ∧ (heardFrom e p s).faults = s.faults)
          ∧ ((∃ x ∈ s.roster, x.state ≠ .present ∧ ¬ Kept x) → ∃ v, Evicted s.roster v
            ∧ (heardFrom e p s).roster = (s.roster.map fun x =>
                if x.station = v.station then createdPeer p (s.clock + e) true else x)
            ∧ (heardFrom e p s).faults =
              { s.faults with peerLost := (heardFrom e p s).roster.any fun x => x.state == .lost && x.sourcesPoints })))
    ∧ (Receives s → stationOk p = false →
      exec (.reply e p d body) s = .next { s with
        clock := s.clock + e
        counters := { s.counters with receiveErrors := saturatingStep s.counters.receiveErrors }
        assembly := if s.inFlight.isSome then s.assembly else if s.line = .busy then .ignoring else .empty })
    ∧ (¬ Receives s → exec (.reply e p d body) s = .next { s with clock := after e s })

/-- URGENT_PUBLISH and ROUTINE_PUBLISH: a body of 1 to 6 whole records is taken record by record, in record order, and alike for both
classes; a body of any other length counts one receive error and no record of it is read (R88). A record is four bytes by section 11.1.1: the
point in the low ten bits of the first two, the kind in bit 7 of the third, the refresh class in bits 6 to 5, the count in bits 3 to 0, and
the value; the bits that no field uses are disregarded. -/
def Obligations.PublicationTaken : Prop :=
  (recordsOf [] = [] ∧ ∀ (b0 b1 b2 b3 : Byte) (rest : List Byte), recordsOf (b0 :: b1 :: b2 :: b3 :: rest) =
    { point := BitVec.ofNat 10 ((256 * b0.toNat + b1.toNat) % 1024)
      kind := if b2.getLsbD 7 then .level else .binary
      refreshClass := BitVec.ofNat 2 (b2.toNat / 32 % 4)
      count := BitVec.ofNat 4 (b2.toNat % 16)
      value := b3 } :: recordsOf rest)
  ∧ ∀ (e : Time) (s : State) (p : Station) (body : List Byte), Hears s p → bodyOk body = true →
    let h := heardFrom e p s
    (body.length ∈ [4, 8, 12, 16, 20, 24] →
      exec (.urgentPublish e p body) s = .next ((recordsOf body).foldl (State.takeRecord p) h)
      ∧ exec (.routinePublish e p body) s = .next ((recordsOf body).foldl (State.takeRecord p) h)
      ∧ 4 * (recordsOf body).length = body.length)
    ∧ (body.length ∉ [4, 8, 12, 16, 20, 24] →
      exec (.urgentPublish e p body) s = .next { h with
        counters := { h.counters with receiveErrors := saturatingStep h.counters.receiveErrors } }
      ∧ exec (.routinePublish e p body) s = .next { h with
        counters := { h.counters with receiveErrors := saturatingStep h.counters.receiveErrors } })

/-- A record for a point that is not held, or for a YIELDED one, is passed over and changes nothing; one of the wrong kind for a mirrored
point counts a conflict and changes nothing else, from the learned source too (R91, R95, R96). -/
def Obligations.RecordPassedOver : Prop :=
  ∀ (s : State) (p : Station) (r : Record),
    (findPoint r.point.toNat s.points = none → s.takeRecord p r = s)
    ∧ (∀ o, s.ownedAt r.point.toNat = some o → o.sched = .yielded → s.takeRecord p r = s)
    ∧ (∀ q m, findPoint r.point.toNat s.points = some q → q.role = .mirrored m → r.kind ≠ q.kind →
      s.takeRecord p r = { s with counters := { s.counters with conflicts := saturatingStep s.counters.conflicts } })

/-- A record of the right kind from the learned source, or for a point without one, is accepted: value, count, deadline, FRESH, the marks
cleared, the overdue timer stopped, the learned source set where it was absent; a count distance of 2 to 15 counts one missed change; the
solicit entry leaves the list, the outputs bound to the point show it, no other mirrored entry changes, SOURCE is judged afresh, and no
conflict is counted (R97, R100, R15, R19, R118, R144). From the learned source the roster stays as it is. For a point without one the
sender is tracked, by its own entry, a new one or an eviction, its entry then carrying "sources points"; where the roster has no place for
it the overflow is counted, OVERFLOW is set, and the point keeps the untracked sender as its learned source (R97, R106, R128, R135). -/
def Obligations.RecordAccepted : Prop :=
  ∀ (s : State) (p : Station) (r : Record) (q : Point) (m : Mirrored),
    let n := r.point.toNat
    let t := s.takeRecord p r
    findPoint n s.points = some q → q.role = .mirrored m → r.kind = q.kind → m.source = none ∨ m.source = some p →
    TookRecord n p r q m s t
    ∧ t.counters.conflicts = s.counters.conflicts
    ∧ (m.source = none → LearnedSource p none s t)
    ∧ (m.source = some p → t.roster = s.roster ∧ t.counters.rosterOverflows = s.counters.rosterOverflows
      ∧ t.faults.overflow = s.faults.overflow ∧ t.faults.peerLost = s.faults.peerLost)

/-- A record of the right kind from a station T that is not the learned source S is judged by the table of R98: switched and counted,
switched uncounted, or refused and counted, by the roster state of S and the order of the two numbers. A switch accepts the record with T as
learned source and does not set CONFLICT (R100, R19, R118): T is tracked, by a place of its own or an eviction made while the mark of S
still stands (log 16), or else the overflow is counted, OVERFLOW is set and T stays untracked (R128, R106), and both "sources points" marks
say what they should (R99). -/
def Obligations.SourceSwitch : Prop :=
  ∀ (s : State) (sender src : Station) (r : Record) (q : Point) (m : Mirrored),
    let n := r.point.toNat
    let t := s.takeRecord sender r
    let live := ∃ x, s.peerAt src = some x ∧ x.state ≠ .lost
    let lost := ∃ x, s.peerAt src = some x ∧ x.state = .lost
    let counted := saturatingStep s.counters.conflicts
    let switched := TookRecord n sender r q m s t ∧ LearnedSource sender (some src) s t
    findPoint n s.points = some q → q.role = .mirrored m → r.kind = q.kind → m.source = some src → src ≠ sender →
    (live → sender < src → switched ∧ t.counters.conflicts = counted)
    ∧ (live → src < sender → t = { s with counters := { s.counters with conflicts := counted } })
    ∧ (lost → switched ∧ t.counters.conflicts = s.counters.conflicts)
    ∧ (s.peerAt src = none → sender < src → switched ∧ t.counters.conflicts = counted)
    ∧ (s.peerAt src = none → src < sender → switched ∧ t.counters.conflicts = s.counters.conflicts)

/-- A record of either kind for an OWNED point that is not YIELDED is an ownership conflict: it is counted and sets CONFLICT. From a lower
number the point yields: YIELDED, out of the queue, marks cleared, timer stopped. From a higher number the point is kept: in RUNNING a QUIET
or waiting ROUTINE point ends URGENT, and a point sourced from a pin takes no count step and no dirty mark; in JOINING it stays as it is. The
record's content is stored nowhere (R92, R93, R94, R45, R48): of the point itself nothing else changes, every mirrored entry and every other
owned one stays, and a STATUS-sourced point takes CONFLICT (R33), before the yield or the claim (log 28). -/
def Obligations.OwnershipConflict : Prop :=
  ∀ (s : State) (own sender : Station) (r : Record) (o : Owned),
    let n := r.point.toNat
    let t := s.takeRecord sender r
    (s.points.map Point.number).Nodup → s.number = some own → s.ownedAt n = some o → o.sched ≠ .yielded →
    t.counters = { s.counters with conflicts := saturatingStep s.counters.conflicts }
    ∧ t.faults = { s.faults with conflict := true }
    ∧ t = { s with
        points := t.points, urgent := t.urgent, routine := t.routine, outputs := t.outputs
        counters := t.counters, faults := t.faults }
    ∧ outputLists t = outputLists s
    ∧ (sender < own → n ∉ t.queue ∧ ∃ o', t.ownedAt n = some o' ∧ o'.sched = .yielded ∧ o'.inFlight = false
        ∧ o'.dirty = false ∧ o'.refreshTimer = none ∧ o'.compareBase = o.compareBase
        ∧ ∀ i, o.source = .pin i → o' = { o with sched := .yielded, inFlight := false, dirty := false, refreshTimer := none })
    ∧ (∀ k o, k ≠ n → s.ownedAt k = some o → o.source ≠ .status → t.ownedAt k = some o)
    ∧ (∀ k, t.mirroredAt k = s.mirroredAt k)
    ∧ (let u := summaryTaken { s.faults with conflict := true } { s with counters := t.counters }
       let moved (f : Owned → Owned) : List Point := u.points.map fun q => if q.number = n then q.mapOwned f else q
       (sender < own → t = { u with
          points := moved fun o => { o with sched := .yielded, inFlight := false, dirty := false, refreshTimer := none }
          urgent := u.urgent.filter fun k => decide (k ≠ n), routine := u.routine.filter fun k => decide (k ≠ n) })
       ∧ (own < sender → s.station ≠ .running → t = u)
       ∧ (own < sender → s.station = .running → ∀ o', u.ownedAt n = some o' →
          (o'.sched = .quiet → t = { u with
            points := moved (fun o => { o with sched := .urgent }), urgent := u.urgent ++ [n] })
          ∧ (o'.sched = .routine → o'.inFlight = false → t = { u with
            points := moved (fun o => { o with sched := .urgent }), urgent := u.urgent ++ [n]
            routine := u.routine.filter fun k => decide (k ≠ n) })
          ∧ (o'.sched = .routine → o'.inFlight = true → t = u)
          ∧ (o'.sched = .urgent → t = u)))
    ∧ (own < sender → ∃ o', t.ownedAt n = some o' ∧ o'.refreshTimer = o.refreshTimer ∧ o'.compareBase = o.compareBase
        ∧ (s.station = .running → o.sched ≠ .routine ∨ o.inFlight = false → o'.sched = .urgent)
        ∧ (∀ i, o.source = .pin i → o'.count = o.count ∧ o'.dirty = o.dirty ∧ o'.current = o.current)
        ∧ (∀ i, o.source = .pin i → s.station = .running → o.sched = .routine → o.inFlight = true → o'.sched = .routine)
        ∧ (s.station = .joining → o'.sched = o.sched))

/-- SOLICIT: a body of 1 to 8 whole point numbers is taken point by point in its order, any other counts one receive error. In RUNNING a
listed mirrored point has its entry COVERED for 250 ms with the attempts kept; a listed owned point joins or is promoted to the urgent tail
when it waits there not already, with no count step; a number not held, 0 among them, is passed over. In JOINING and UNCONFIGURED nothing
follows (R115, R116, R117, R44, R108). A listed point stands in the low ten bits of two bytes, and the six bits that no field uses are
disregarded (section 11.1.1). -/
def Obligations.SolicitTaken : Prop :=
  (solicitedOf [] = [] ∧ ∀ (b0 b1 : Byte) (rest : List Byte),
    solicitedOf (b0 :: b1 :: rest) = (256 * b0.toNat + b1.toNat) % 1024 :: solicitedOf rest)
  ∧ (∀ (e : Time) (s : State) (p : Station) (body : List Byte), Hears s p → bodyOk body = true →
    let h := heardFrom e p s
    (body.length ∈ [2, 4, 6, 8, 10, 12, 14, 16] →
      exec (.solicit e p body) s = .next ((solicitedOf body).foldl State.takeSolicited h)
      ∧ 2 * (solicitedOf body).length = body.length)
    ∧ (body.length ∉ [2, 4, 6, 8, 10, 12, 14, 16] →
      exec (.solicit e p body) s = .next { h with
        counters := { h.counters with receiveErrors := saturatingStep h.counters.receiveErrors } }))
  ∧ ∀ (s : State) (n : Nat),
    (findPoint n s.points = none → s.takeSolicited n = s)
    ∧ (s.station ≠ .running → s.takeSolicited n = s)
    ∧ (s.station = .running → ∀ m, s.mirroredAt n = some m →
      s.takeSolicited n = { s with
        solicits := s.solicits.map fun x =>
          if x.point = n then { x with state := .covered (s.clock + 250000) } else x })
    ∧ (s.station = .running → ∀ o, s.ownedAt n = some o →
      let urgent := s.points.map fun p => if p.number = n then p.mapOwned (fun o => { o with sched := .urgent }) else p
      (o.sched = .quiet → s.takeSolicited n = { s with points := urgent, urgent := s.urgent ++ [n] })
      ∧ (o.sched = .routine → o.inFlight = false →
        s.takeSolicited n = { s with
          points := urgent, urgent := s.urgent ++ [n], routine := s.routine.filter fun k => decide (k ≠ n) })
      ∧ (o.sched = .routine → o.inFlight = true → s.takeSolicited n = s)
      ∧ (o.sched = .urgent ∨ o.sched = .yielded → s.takeSolicited n = s))

/-- PRESENCE: an invalid body counts one receive error; a valid one is applied to the sender's entry, if there is one: restart detection by the
table of R130, then period, deadlines, content and the boot-seen mark. A detected restart makes every mirrored point sourced from the sender
UNKNOWN with its value kept as old, and takes the sender's entries, and no others, out of every override list; of the summary only SOURCE may
change, and no owned entry but a STATUS-sourced one (R33); in RUNNING the points that were FRESH or STALE
start their overdue timers and are given solicit entries in Point Table order, where they may have one and there is room (R129, R130, R131,
R103, R21, R109, R110, R151). In UNCONFIGURED the body is not judged (R126, R184). A body is invalid exactly when its length is not 4 or its
period code, in bits 4 to 0 of the first byte, is 0 or 21 to 31 (R129); bit 5 of the first byte and bits 7 to 2 of the second, which no
field uses, are disregarded (section 11.1.2). -/
def Obligations.PresenceTaken : Prop :=
  (∀ body : List Byte, parsePresence body = none ↔
    body.length ≠ 4 ∨ (body.getD 0 0).toNat % 32 = 0 ∨ 21 ≤ (body.getD 0 0).toNat % 32)
  ∧ (∀ b0 b1 b2 b3 : Byte, 1 ≤ b0.toNat % 32 → b0.toNat % 32 ≤ 20 → parsePresence [b0, b1, b2, b3] = some
    { periodCode := BitVec.ofNat 5 (b0.toNat % 32)
      boot := b0.getLsbD 7
      probing := b0.getLsbD 6
      cause := if b1.toNat % 4 = 0 then .power else if b1.toNat % 4 = 1 then .pin else if b1.toNat % 4 = 2 then .remote else .guard
      incarnation := b2
      faults := b3 })
  ∧ ∀ (e : Time) (s : State) (p : Station) (body : List Byte), Hears s p → bodyOk body = true →
    let h := heardFrom e p s
    (s.station = .unconfigured → exec (.presence e p body) s = .next h)
    ∧ (s.station.live = true → parsePresence body = none →
      exec (.presence e p body) s = .next { h with
        counters := { h.counters with receiveErrors := saturatingStep h.counters.receiveErrors } })
    ∧ (s.station.live = true → ∀ c, parsePresence body = some c → h.peerAt p = none →
      exec (.presence e p body) s = .next h)
    ∧ (s.station.live = true → ∀ c x, parsePresence body = some c → h.peerAt p = some x →
      let period := c.periodCode.toNat * 100000
      let content : PeerContent :=
        { periodCode := c.periodCode, incarnation := c.incarnation, cause := c.cause, faults := c.faults }
      let restarted := ∃ k, x.content = some k
        ∧ (k.incarnation ≠ c.incarnation ∨ (c.boot = true ∧ x.bootSeen = false))
      (¬ restarted →
        exec (.presence e p body) s = .next { h with
          roster := h.roster.map fun y =>
            if y.station = p then
              { y with
                content := some content, bootSeen := c.boot, silentAt := some (y.lastHeard + 2 * period)
                lostAt := some (y.lastHeard + 4 * period) }
            else y })
      ∧ (restarted → (h.points.map Point.number).Nodup →
        ∃ t, exec (.presence e p body) s = .next t
          ∧ t = { h with
              points := t.points, urgent := t.urgent, routine := t.routine, solicits := t.solicits, outputs := t.outputs
              roster := t.roster, faults := t.faults }
          ∧ (∀ n m, h.mirroredAt n = some m → m.source = some p → t.mirroredAt n = some
              { m with
                state := .unknown, count := none, deadline := none, old := true
                overdueTimer :=
                  if s.station = .running ∧ m.state ≠ .unknown ∧ m.overdueTimer = none then
                    some (s.clock + e + max 1000000 (2 * s.period))
                  else m.overdueTimer })
          ∧ (∀ n m, h.mirroredAt n = some m → m.source ≠ some p → t.mirroredAt n = some m)
          ∧ t.solicits =
              (if s.station = .running then
                (t.points.filter fun q =>
                  match h.mirroredAt q.number with
                  | some m => m.source == some p && m.state != .unknown
                  | none => false).foldl addSolicit h.solicits
              else h.solicits)
          ∧ outputLists t = purgedLists p h
          ∧ t.faults = { h.faults with
              source :=
                if h.points.any fun q =>
                  match q.role with
                  | .owned _ => false
                  | .mirrored m => m.source == some p && m.state != .unknown
                then t.points.any Point.holdsSource else h.faults.source }
          ∧ OwnedStay .status h t
          ∧ ((h.outputs.map Output.pin).Nodup → OutputsStay (fun o => (∃ y ∈ o.overrides, y.origin = p)
              ∨ fedBy .status h o.binding.source = true ∨ ∃ m, h.mirroredAt o.binding.source = some m ∧ m.source = some p) h t)
          ∧ t.peerAt p = some
              { x with
                content := some content, bootSeen := c.boot, holdsOverrides := false
                silentAt := some (x.lastHeard + 2 * period), lostAt := some (x.lastHeard + 4 * period) }
          ∧ ∀ k, k ≠ p → t.peerAt k = h.peerAt k))

/-! ## Requests (chapters 8 and 9) -/

/-- FORCE with its fields in range, new to the recent-command table: the roster check of R164 comes first (an entry held, a must-track
creation in an evicted entry's place, or NO-ROOM with the overflow counted), then the table of R146 decides; the reply is queued and the
outcome recorded (R164, R165, R162, R173, R128). -/
def Obligations.Force : Prop :=
  ∀ (e : Time) (s : State) (p own : Station) (tag lease : Byte) (i : Fin 16) (v : Bool), Asked s p own →
    findRecent p tag s.recent = none →
    let h := heardFrom e p s
    let c : Instr := .force e p own [tag, BitVec.ofNat 8 i.val, if v then 1 else 0, lease]
    let answered (code : ReplyCode) (u : State) : State := { u with
      replies := s.replies ++ [{ dest := p, tag := tag, code := code, data := [], restartMark := false }]
      recent := (if s.recent.length < 8 then s.recent else s.recent.drop 1)
        ++ [{ sender := p, tag := tag, kind := .force, outcome := code, written := s.clock + e }] }
    let entry : Override :=
      { origin := p, value := v, lease := if lease = 0 then none else some (s.clock + e + lease.toNat * 1000000) }
    let pushed (u : State) : State := { u with
      outputs := u.outputs.map fun o =>
        if o.pin = i then
          { o with overrides := entry :: o.overrides.filter (fun x => decide (x.origin ≠ p)), driven := v }
        else o
      roster := u.roster.map fun x => if x.station = p then { x with holdsOverrides := true } else x }
    ((∃ x ∈ h.roster, x.station = p) → h.track p = (h, true))
    ∧ ((∀ x ∈ h.roster, x.station ≠ p) → (∃ x ∈ h.roster, x.state ≠ .present ∧ ¬ Kept x) →
        ∃ u v, h.track p = (u, true) ∧ Evicted h.roster v
          ∧ u.roster = (h.roster.map fun x =>
              if x.station = v.station then createdPeer p (s.clock + e) (namesSource p s.points) else x)
          ∧ u.faults = { h.faults with peerLost := u.roster.any fun x => x.state == .lost && x.sourcesPoints }
          ∧ outputLists u = outputLists h
          ∧ u = { h with
              roster := u.roster, faults := u.faults, points := u.points, urgent := u.urgent, routine := u.routine
              outputs := u.outputs }
          ∧ ((s.points.map Point.number).Nodup → u = summaryTaken u.faults { h with roster := u.roster }))
    ∧ ((∀ x ∈ h.roster, x.station ≠ p) → (∀ x ∈ h.roster, x.state = .present ∨ Kept x) →
        ∃ t, exec c s = .next t ∧ t.replies = (answered .noRoom h).replies ∧ t.recent = (answered .noRoom h).recent
          ∧ t.counters = { h.counters with rosterOverflows := saturatingStep h.counters.rosterOverflows }
          ∧ t.faults = { h.faults with overflow := true } ∧ t.roster = h.roster
          ∧ outputLists t = outputLists h
          ∧ t = { h with
              replies := t.replies, recent := t.recent, counters := t.counters, faults := t.faults, points := t.points
              urgent := t.urgent, routine := t.routine, outputs := t.outputs }
          ∧ ((s.points.map Point.number).Nodup →
            t = answered .noRoom (summaryTaken { h.faults with overflow := true } { h with counters := t.counters })))
    ∧ ∀ u, h.track p = (u, true) →
        (u.outputAt i = none → exec c s = .next (answered .noOutput u))
        ∧ ∀ o, u.outputAt i = some o →
          (o.binding.overridable = false → exec c s = .next (answered .denied u))
          ∧ (o.binding.overridable = true → (∃ x ∈ o.overrides, x.origin = p) →
              exec c s = .next (answered .replaced (pushed u)))
          ∧ (o.binding.overridable = true → (∀ x ∈ o.overrides, x.origin ≠ p) → 4 ≤ o.overrides.length →
              exec c s = .next (answered .full u))
          ∧ (o.binding.overridable = true → (∀ x ∈ o.overrides, x.origin ≠ p) → o.overrides.length < 4 →
              exec c s = .next (answered .accepted (pushed u)))

/-- RELEASE with its field in range, new to the recent-command table: the table of R147. The requester's own entry leaves the list, the output
is evaluated and its mark is kept; the outcome is answered and recorded, with no roster entry asked for (R147, R165, R152, R162). -/
def Obligations.Release : Prop :=
  ∀ (e : Time) (s : State) (p own : Station) (tag : Byte) (i : Fin 16), Asked s p own →
    findRecent p tag s.recent = none →
    let h := heardFrom e p s
    let c : Instr := .release e p own [tag, BitVec.ofNat 8 i.val]
    let answered (code : ReplyCode) (u : State) : State := { u with
      replies := s.replies ++ [{ dest := p, tag := tag, code := code, data := [], restartMark := false }]
      recent := (if s.recent.length < 8 then s.recent else s.recent.drop 1)
        ++ [{ sender := p, tag := tag, kind := .release, outcome := code, written := s.clock + e }] }
    let outputs := h.outputs.map fun o =>
      if o.pin = i then
        Output.evaluate h.points { o with overrides := o.overrides.filter (fun x => decide (x.origin ≠ p)) }
      else o
    (h.outputAt i = none → exec c s = .next (answered .noOutput h))
    ∧ ∀ o, h.outputAt i = some o →
      ((∀ x ∈ o.overrides, x.origin ≠ p) → exec c s = .next (answered .notHeld h))
      ∧ ((∃ x ∈ o.overrides, x.origin = p) →
          exec c s = .next { answered .released h with
            outputs := outputs
            roster := h.roster.map fun x =>
              if x.station = p then
                { x with holdsOverrides := outputs.any fun o => o.overrides.any fun y => y.origin == p }
              else x })

/-- RESTART and CLEAR_COUNTERS, new to the recent-command table: DENIED, or ACCEPTED with the restart mark and a pending restart at the latest
100 ms after the first acceptance (R166, R167); all twelve counters at 0 and ACCEPTED (R168). The outcome is recorded (R162). -/
def Obligations.RestartAndClear : Prop :=
  ∀ (e : Time) (s : State) (p own : Station) (tag : Byte), Asked s p own → findRecent p tag s.recent = none →
    let h := heardFrom e p s
    let answered (kind : CommandKind) (code : ReplyCode) (mark : Bool) : State := { h with
      replies := s.replies ++ [{ dest := p, tag := tag, code := code, data := [], restartMark := mark }]
      recent := (if s.recent.length < 8 then s.recent else s.recent.drop 1)
        ++ [{ sender := p, tag := tag, kind := kind, outcome := code, written := s.clock + e }] }
    (∀ x, s.header = some x → x.remoteRestart = true →
      exec (.restart e p own [tag]) s = .next { answered .restart .accepted true with
        pendingRestart := some (match s.pendingRestart with
          | some due => due
          | none => s.clock + e + 100000) })
    ∧ (∀ x, s.header = some x → x.remoteRestart = false →
      exec (.restart e p own [tag]) s = .next (answered .restart .denied false))
    ∧ exec (.clearCounters e p own [tag]) s = .next { answered .clearCounters .accepted false with counters := Counters.zero }

/-- A command whose sender and tag stand in the recent-command table is not applied: the stored outcome is replayed, with the restart mark for
an accepted RESTART, and the table stays as it is (R163). Sender and tag alone decide, whatever the kind. -/
def Obligations.CommandRepeated : Prop :=
  (∀ (p : Station) (tag : Byte) (l : List Recent),
    (∀ x, findRecent p tag l = some x → x ∈ l ∧ x.sender = p ∧ x.tag = tag)
    ∧ (findRecent p tag l = none ↔ ∀ x ∈ l, x.sender ≠ p ∨ x.tag ≠ tag))
  ∧ ∀ (e : Time) (s : State) (p own : Station) (tag : Byte) (x : Recent), Asked s p own →
    findRecent p tag s.recent = some x →
    let h := heardFrom e p s
    let replayed : State := { h with
      replies := s.replies ++
        [{ dest := p, tag := tag, code := x.outcome, data := []
           restartMark := decide (x.kind = .restart ∧ x.outcome = .accepted) }] }
    (∀ (i : Fin 16) (v : Bool) (lease : Byte),
      exec (.force e p own [tag, BitVec.ofNat 8 i.val, if v then 1 else 0, lease]) s = .next replayed)
    ∧ (∀ i : Fin 16, exec (.release e p own [tag, BitVec.ofNat 8 i.val]) s = .next replayed)
    ∧ exec (.restart e p own [tag]) s = .next replayed
    ∧ exec (.clearCounters e p own [tag]) s = .next replayed

/-- STATUS, COUNTERS, PEER, OUTPUT and POINT_GROUP with their fields in range: one DATA reply with the data as it stands at this arrival
(NO-OUTPUT for a pin not in OUT mode), and nothing else changed (R169 to R172, R157, section 11.1.4); each byte is spelled by its bits.
STATUS is answered in UNCONFIGURED too (R159), with the codes of sections 11.1.2 and 11.1.4 and of R180 and R181. The rounding of a peer's
age is a free value (log 19), and a lease counts from 1 to 255 (log 20). -/
def Obligations.Queries : Prop :=
  ∀ (e : Time) (s : State) (p own : Station) (tag : Byte),
    let h := heardFrom e p s
    let told (data : List Byte) : State := { h with
      replies := s.replies ++ [{ dest := p, tag := tag, code := .data, data := data, restartMark := false }] }
    let status (state : Byte) : List Byte :=
      [state,
       match s.mode with
        | .active => 0
        | .silenced => 1
        | .probing => 2,
       match s.retained.cause with
        | .power => 0
        | .pin => 1
        | .remote => 2
        | .guard => 3,
       s.retained.incarnation, s.retained.guardCount.setWidth 8,
       BitVec.ofNat 8 (h.faults.config.toNat + 2 * h.faults.duplicate.toNat + 4 * h.faults.silenced.toNat
        + 8 * h.faults.conflict.toNat + 16 * h.faults.source.toNat + 32 * h.faults.peerLost.toNat + 64 * h.faults.line.toNat
        + 128 * h.faults.overflow.toNat),
       match s.error with
        | .none => 0
        | .noAnswer => 1
        | .signature => 2
        | .length => 3
        | .imageCrc => 4
        | .fieldRange => 5
        | .pointNumber => 6
        | .duplicatePoint => 7
        | .tooManyPoints => 8
        | .levelPin => 9
        | .sourcePin => 10
        | .noThreshold => 11
        | .bindingPin => 12
        | .handTarget => 13
        | .bindingSource => 14
        | .statusPoints => 15,
       BitVec.ofNat 8 (s.points.filter fun p => p.owned?.isSome).length,
       BitVec.ofNat 8 (s.points.filter fun p => p.mirrored?.isSome).length]
    let pair (x : Counter) : List Byte := [BitVec.ofNat 8 (x.toNat / 256), BitVec.ofNat 8 x.toNat]
    let k := h.counters
    let bits (n : Nat) : Byte := BitVec.ofNat 8 n
    let peer (q : Station) (x : Peer) (age : Nat) : List Byte :=
      [q.setWidth 8,
       bits (1 + 2 * x.bootSeen.toNat + 4 * x.sourcesPoints.toNat + 8 * x.holdsOverrides.toNat + 16 * x.content.isSome.toNat
        + 32 * (match x.state with
          | .present => 0
          | .silent => 1
          | .lost => 2)),
       bits age]
      ++ match x.content with
        | none => [0, 0, 0, 0]
        | some c =>
          [c.periodCode.setWidth 8, c.incarnation,
           match c.cause with
            | .power => 0
            | .pin => 1
            | .remote => 2
            | .guard => 3,
           c.faults]
    let condition (o : Output) : Nat :=
      if o.binding.source = 0 then 0
      else match (findPoint o.binding.source h.points).map Point.role with
        | some (.owned _) => 1
        | some (.mirrored m) =>
          match m.state with
          | .fresh => 2
          | .stale => 3
          | .unknown => 4
        | none => 4
    let output (i : Fin 16) (o : Output) : List Byte :=
      [bits i.val, bits (o.driven.toNat + 2 * condition o + 16 * o.overrides.length)]
      ++ o.overrides.flatMap fun x =>
        [bits (x.origin.toNat + 64 * x.value.toNat + 128 * x.lease.isSome.toNat),
         match x.lease with
          | none => 0
          | some due => bits (max 1 (min 255 ((due - (s.clock + e) + 999999) / 1000000)))]
    let slot (i : Nat) (x : Option Point) : List Byte :=
      match x.map Point.role with
      | none => [bits i, 0, 0]
      | some (.owned o) =>
        [bits (i + 16 + 64 * (match o.sched with
          | .quiet => 0
          | .routine => 1
          | .urgent => 2
          | .yielded => 3)),
         bits (o.count.toNat + 16 + 32), o.current]
      | some (.mirrored m) =>
        [bits (i + 16 + 32 + 64 * (match m.state with
          | .unknown => 0
          | .fresh => 1
          | .stale => 2)),
         bits ((m.count.getD 0).toNat + 16 * m.count.isSome.toNat + 32 * m.value.isSome.toNat + 64 * m.old.toNat),
         m.value.getD 0]
    (Asked s p own →
      exec (.status e p own [tag]) s = .next (told (status 4))
      ∧ exec (.counters e p own [tag, 0]) s = .next (told (0 ::
          [k.framesReceived, k.receiveErrors, k.framesSent, k.transmitFailures, k.contentionLosses, k.requestsDropped].flatMap
            pair))
      ∧ exec (.counters e p own [tag, 1]) s = .next (told (1 ::
          [k.solicitsUnanswered, k.missedChanges, k.conflicts, k.rosterOverflows, k.overrideDiscards, k.stuckLineEpisodes].flatMap
            pair))
      ∧ (∀ q : Station, stationOk q = true → h.peerAt q = none →
          exec (.peer e p own [tag, q.setWidth 8]) s = .next (told [q.setWidth 8, 0]))
      ∧ (∀ (q : Station) (x : Peer), stationOk q = true → h.peerAt q = some x →
          let elapsed := s.clock + e - x.lastHeard
          ∃ age, (age = min 255 (elapsed / 100000)
              ∨ (elapsed % 100000 ≠ 0 ∧ age = min 255 (elapsed / 100000 + 1)))
            ∧ exec (.peer e p own [tag, q.setWidth 8]) s = .next (told (peer q x age)))
      ∧ (∀ i : Fin 16, h.outputAt i = none →
          exec (.output e p own [tag, BitVec.ofNat 8 i.val]) s = .next { h with
            replies := s.replies ++ [{ dest := p, tag := tag, code := .noOutput, data := [], restartMark := false }] })
      ∧ (∀ (i : Fin 16) (o : Output), h.outputAt i = some o →
          exec (.output e p own [tag, BitVec.ofNat 8 i.val]) s
            = .next (told (output i o)))
      ∧ ∀ (g n : Nat) (i : Fin 16), g ≤ 63 → 1 ≤ n → n ≤ 7 →
          exec (.pointGroup e p own [tag, BitVec.ofNat 8 g, BitVec.ofNat 8 i.val, BitVec.ofNat 8 n]) s
            = .next (told (BitVec.ofNat 8 g :: (List.range n).flatMap fun j =>
                slot ((i.val + j) % 16) (findPoint (16 * g + (i.val + j) % 16) h.points))))
    ∧ (s.station = .unconfigured → Receives s → s.number = some own → own ≠ Config.everyone → stationOk p = true → p ≠ own →
        s.replies.length < 4 → exec (.status e p own [tag]) s = .next (told (status 1)))

/-- UNKNOWN_REQUEST_KIND, and every body that fails its kind: answered BAD-REQUEST with the body's tag, or tag 0 when it is too short to hold one;
nothing is applied and nothing recorded. A body stands exactly at the length of its kind with its fields in range (R161). In UNCONFIGURED,
where of all requests only a STATUS is taken (R159), a STATUS whose body holds anything but its kind and a tag is answered so too, by the
same steps (R158). -/
def Obligations.BadRequest : Prop :=
  (∀ (e : Time) (s : State) (p own : Station) (rest : List Byte), s.station = .unconfigured → Receives s → s.number = some own →
    own ≠ Config.everyone → stationOk p = true → p ≠ own → s.replies.length < 4 → rest.length ≤ 23 → rest.length ≠ 1 →
    let h := heardFrom e p s
    exec (.status e p own rest) s = .next { h with
      replies := s.replies ++ [{ dest := p, tag := rest.getD 0 0, code := .badRequest, data := [], restartMark := false }] })
  ∧ ∀ (e : Time) (s : State) (p own : Station) (body : List Byte), Asked s p own → bodyOk body = true →
    let h := heardFrom e p s
    let refused : State := { h with
      replies := s.replies ++
        [{ dest := p, tag := body.getD 1 0, code := .badRequest, data := [], restartMark := false }] }
    (commandOf body = none → exec (.unknownRequestKind e .command p own body) s = .next refused)
    ∧ (queryOf body = none → exec (.unknownRequestKind e .query p own body) s = .next refused)
    ∧ (commandOf body ≠ none ↔ ∃ tag : Byte,
        (∃ i v lease : Byte, body = [1, tag, i, v, lease] ∧ i.toNat ≤ 15 ∧ v.toNat ≤ 1)
        ∨ (∃ i : Byte, body = [2, tag, i] ∧ i.toNat ≤ 15)
        ∨ body = [3, tag] ∨ body = [4, tag])
    ∧ (queryOf body ≠ none ↔ ∃ tag : Byte,
        body = [1, tag]
        ∨ (∃ g i n : Byte, body = [2, tag, g, i, n] ∧ g.toNat ≤ 63 ∧ i.toNat ≤ 15 ∧ 1 ≤ n.toNat ∧ n.toNat ≤ 7)
        ∨ (∃ q : Byte, body = [3, tag, q] ∧ 1 ≤ q.toNat ∧ q.toNat ≤ 62)
        ∨ (∃ i : Byte, body = [4, tag, i] ∧ i.toNat ≤ 15)
        ∨ ∃ page : Byte, body = [5, tag, page] ∧ page.toNat ≤ 1)

/-- A request to 63 is dropped and counted, and one to another station is ignored (R76); in JOINING every request is dropped and counted, in
UNCONFIGURED all but a STATUS (R159), and in RUNNING one that meets four waiting replies (R160). Each row that names a request is the frame
whose body begins with the code of its kind (section 11.1.3). -/
def Obligations.RequestsNotTaken : Prop :=
  (∀ (e : Time) (s : State) (p d : Station) (cls : RequestClass) (body : List Byte), Hears s p → bodyOk body = true →
    let h := heardFrom e p s
    let dropped : State := { h with
      counters := { h.counters with requestsDropped := saturatingStep h.counters.requestsDropped } }
    (d = 63 → exec (.unknownRequestKind e cls p d body) s = .next dropped)
    ∧ (d ≠ 63 → s.number ≠ some d → exec (.unknownRequestKind e cls p d body) s = .next h)
    ∧ (s.number = some d → s.station = .joining → exec (.unknownRequestKind e cls p d body) s = .next dropped)
    ∧ (s.number = some d → s.station = .unconfigured → cls = .command ∨ (∀ tag, body ≠ 1 :: tag) →
      exec (.unknownRequestKind e cls p d body) s = .next dropped)
    ∧ (s.number = some d → 4 ≤ s.replies.length → exec (.unknownRequestKind e cls p d body) s = .next dropped))
  ∧ ∀ (e : Time) (s : State) (p d : Station) (rest : List Byte),
    exec (.force e p d rest) s = exec (.unknownRequestKind e .command p d (1 :: rest)) s
    ∧ exec (.release e p d rest) s = exec (.unknownRequestKind e .command p d (2 :: rest)) s
    ∧ exec (.restart e p d rest) s = exec (.unknownRequestKind e .command p d (3 :: rest)) s
    ∧ exec (.clearCounters e p d rest) s = exec (.unknownRequestKind e .command p d (4 :: rest)) s
    ∧ exec (.status e p d rest) s = exec (.unknownRequestKind e .query p d (1 :: rest)) s
    ∧ exec (.pointGroup e p d rest) s = exec (.unknownRequestKind e .query p d (2 :: rest)) s
    ∧ exec (.peer e p d rest) s = exec (.unknownRequestKind e .query p d (3 :: rest)) s
    ∧ exec (.output e p d rest) s = exec (.unknownRequestKind e .query p d (4 :: rest)) s
    ∧ exec (.counters e p d rest) s = exec (.unknownRequestKind e .query p d (5 :: rest)) s

/-! ## Pins (chapter 2) -/

/-- DIGITAL_INPUT_SAMPLE in JOINING and RUNNING: every pin from IO0 to IO15 (log 18) takes its sample by the table of R25. Elsewhere no pin is
sampled (R34, R38). The transition that a sample ends in is the one that DEBOUNCED_TRANSITION makes of that pin, IN-DIGITAL or HAND
(DebouncedTransition, HandPress). -/
def Obligations.DigitalSample : Prop :=
  (∀ (e : Time) (levels : BitVec 16) (s : State),
    (s.station.live = true →
      exec (.digitalInputSample e levels) s
        = .next ((List.finRange 16).foldl (State.samplePin levels) { s with clock := s.clock + e }))
    ∧ (s.station.live = false → exec (.digitalInputSample e levels) s = .next { s with clock := after e s }))
  ∧ ∀ (levels : BitVec 16) (i : Fin 16) (s : State) (p : Pin), s.pins[i.val]? = some p →
    let sample := levels.getLsbD i.val
    let candidate (x : Option Time) : State := { s with pins := s.pins.modify i.val fun p => { p with candidate := x } }
    (p.mode ≠ .inDigital → p.mode ≠ .hand → s.samplePin levels i = s)
    ∧ (p.mode = .inDigital ∨ p.mode = .hand →
      (p.level = some sample → s.samplePin levels i = candidate none)
      ∧ (p.level ≠ some sample → p.debounce = 0 → s.samplePin levels i = s.pinTransition i sample)
      ∧ (p.level ≠ some sample → p.debounce ≠ 0 → p.candidate = none → s.samplePin levels i = candidate (some s.clock))
      ∧ (∀ since, p.level ≠ some sample → p.debounce ≠ 0 → p.candidate = some since →
        (p.debounce * 1000 ≤ s.clock - since → s.samplePin levels i = s.pinTransition i sample)
        ∧ (s.clock - since < p.debounce * 1000 → s.samplePin levels i = s)))

/-- DEBOUNCED_TRANSITION of an IN-DIGITAL or a HAND pin does, after the time that passes, what a sample's transition does (R25, R26), so
that the statements about the command, HandPress among them, are those about a sample. Of an IN-DIGITAL pin: the debounced level is taken,
and every BINARY point sourced from the pin takes the level as its current value and steps its count by 1; in RUNNING it raises a change
event, which leaves it URGENT, and dirty if it is in flight, unless it is YIELDED. No other entry changes, no other point's place in the
queue, and no output that follows none of these points (R26, R29, R34, R43, R144). A pin that is not sampled, or stands at the level, has no
transition (log 4). -/
def Obligations.DebouncedTransition : Prop :=
  ∀ (e : Time) (s : State) (i : Fin 16) (p : Pin) (level : Bool), s.pins[i.val]? = some p →
    (s.station.live = true → p.mode = .inDigital ∨ p.mode = .hand → p.level ≠ some level →
      exec (.debouncedTransition e i level) s = .next (State.pinTransition i level { s with clock := s.clock + e }))
    ∧ (s.station.live = true → p.mode = .inDigital → p.level ≠ some level → (s.points.map Point.number).Nodup →
      ∃ t, exec (.debouncedTransition e i level) s = .next t
        ∧ t = { s with
            clock := s.clock + e, pins := t.pins, points := t.points, urgent := t.urgent, routine := t.routine
            outputs := t.outputs }
        ∧ t.pins = s.pins.modify i.val (fun p => { p with level := some level, candidate := none })
        ∧ outputLists t = outputLists s
        ∧ OwnedStay (.pin i) s t ∧ OutputsStay (fun o => fedBy (.pin i) s o.binding.source = true) s t
        ∧ (∀ q ∈ s.points, ∀ o, q.role = .owned o → q.kind = .binary → o.source = .pin i →
            ∃ o', t.ownedAt q.number = some o' ∧ o'.current = (if level then 1 else 0) ∧ o'.count = o.count + 1
              ∧ (s.station = .running → o.sched ≠ .yielded → o'.sched = .urgent
                  ∧ (o.sched ≠ .quiet → o.inFlight = true → o'.dirty = true))
              ∧ (s.station = .joining ∨ o.sched = .yielded → o'.sched = o.sched ∧ o'.dirty = o.dirty))
        ∧ (∀ n, (∀ o, s.ownedAt n = some o → o.source ≠ .pin i) →
            t.ownedAt n = s.ownedAt n ∧ t.mirroredAt n = s.mirroredAt n))
    ∧ (s.station.live = false ∨ (p.mode ≠ .inDigital ∧ p.mode ≠ .hand) ∨ p.level = some level →
      exec (.debouncedTransition e i level) s = .next { s with clock := after e s })

/-- DEBOUNCED_TRANSITION of a HAND pin: a rise in RUNNING is a press, which toggles the local override of its target by the table of R149; on a full
list the oldest entry is discarded, counted, and sets OVERFLOW, its origin's mark is kept, a STATUS-sourced point takes the change of the
summary (R33), and nothing else changes (R150). A fall, and any transition in JOINING, changes the debounced level
only (R36). A press that comes from a sample is this transition too (DigitalSample, DebouncedTransition). -/
def Obligations.HandPress : Prop :=
  ∀ (e : Time) (s : State) (i : Fin 16) (p : Pin) (level : Bool), s.pins[i.val]? = some p → p.mode = .hand →
    p.level ≠ some level → s.station.live = true →
    let u : State := { s with
      clock := s.clock + e, pins := s.pins.modify i.val fun p => { p with level := some level, candidate := none } }
    let c : Instr := .debouncedTransition e i level
    (level = false ∨ s.station = .joining → exec c s = .next u)
    ∧ (level = true → s.station = .running →
      (s.outputAt p.target = none → exec c s = .next u)
      ∧ ∀ o, s.outputAt p.target = some o →
        ((∃ x ∈ o.overrides, x.origin = 0) →
          exec c s = .next { u with outputs := s.outputs.map fun x =>
            if x.pin = p.target then
              { x with overrides := x.overrides.filter fun y => decide (y.origin ≠ 0) }.evaluate s.points
            else x })
        ∧ ((∀ x ∈ o.overrides, x.origin ≠ 0) → o.overrides.length < 4 →
          exec c s = .next { u with outputs := s.outputs.map fun x =>
            if x.pin = p.target then
              { x with driven := !o.driven, overrides := { origin := 0, value := !o.driven, lease := none } :: x.overrides }
            else x })
        ∧ ((∀ x ∈ o.overrides, x.origin ≠ 0) → 4 ≤ o.overrides.length →
          ∃ t o', exec c s = .next t ∧ t.outputAt p.target = some o'
            ∧ o'.overrides = { origin := 0, value := !o.driven, lease := none } :: o.overrides.dropLast
            ∧ o'.driven = !o.driven ∧ o'.held = o.held
            ∧ t.counters = { s.counters with overrideDiscards := saturatingStep s.counters.overrideDiscards }
            ∧ t.faults = { s.faults with overflow := true }
            ∧ (∀ x ∈ t.roster, o.overrides.getLast?.map Override.origin = some x.station →
                x.holdsOverrides = holdsOverride x.station t.outputs)
            ∧ ((s.points.map Point.number).Nodup →
              let outputs := s.outputs.map fun x => if x.pin = p.target then { x with overrides := x.overrides.dropLast } else x
              let v := summaryTaken { s.faults with overflow := true } { u with
                outputs := outputs
                roster := s.roster.map fun x =>
                  if o.overrides.getLast?.map Override.origin = some x.station then
                    { x with holdsOverrides := holdsOverride x.station outputs }
                  else x
                counters := t.counters }
              t = { v with outputs := v.outputs.map fun x =>
                if x.pin = p.target then
                  { x with driven := !o.driven, overrides := { origin := 0, value := !o.driven, lease := none } :: x.overrides }
                else x })))

/-- LEVEL_READING of an IN-LEVEL pin: the reading is kept; a LEVEL point takes it as its value, and in RUNNING a reading that differs from the
comparison reference by more than the deadband raises a change event, with the count step of R32; a BINARY point takes it through its threshold
with the hysteresis of 4, each change a transition (R27, R28, R29, R30, R31). A pin in another mode is not converted (log 4). -/
def Obligations.LevelReading : Prop :=
  ∀ (e : Time) (s : State) (i : Fin 16) (reading : Byte),
    (s.pinMode i = .inLevel ↔ ∃ p, s.pins[i.val]? = some p ∧ p.mode = .inLevel)
    ∧ (s.station.live = true → s.pinMode i = .inLevel → (s.points.map Point.number).Nodup →
      ∃ t, exec (.levelReading e i reading) s = .next t
        ∧ t = { s with
            clock := s.clock + e, pins := t.pins, points := t.points, urgent := t.urgent, routine := t.routine
            outputs := t.outputs }
        ∧ t.pins = s.pins.modify i.val (fun p => { p with reading := some reading })
        ∧ outputLists t = outputLists s
        ∧ OwnedStay (.pin i) s t ∧ OutputsStay (fun o => fedBy (.pin i) s o.binding.source = true) s t
        ∧ (∀ q ∈ s.points, ∀ o, q.role = .owned o → o.source = .pin i → q.kind = .level →
            ∃ o', t.ownedAt q.number = some o' ∧ o'.current = reading
              ∧ (let reference := if o.inFlight then o.carried else o.compareBase.or o.carried
                 let outside := ∃ ref band, reference = some ref ∧ o.deadband = some band
                  ∧ (ref.toNat + band.toNat < reading.toNat ∨ reading.toNat + band.toNat < ref.toNat)
                 (s.station = .running → outside → o.sched ≠ .yielded → o'.sched = .urgent
                    ∧ (o.sched ≠ .urgent ∨ (o.inFlight = true ∧ o.dirty = false) → o'.count = o.count + 1)
                    ∧ (o.sched = .urgent → o.inFlight = false ∨ o.dirty = true → o'.count = o.count))
                 ∧ (s.station = .joining ∨ ¬ outside ∨ o.sched = .yielded → o'.sched = o.sched ∧ o'.count = o.count)))
        ∧ (∀ q ∈ s.points, ∀ o T, q.role = .owned o → o.source = .pin i → q.kind = .binary → o.threshold = some T →
            o.current = 0 ∨ o.current = 1 →
            ∃ o', t.ownedAt q.number = some o'
              ∧ (o.current = 0 → o'.current = if T.toNat ≤ reading.toNat then 1 else 0)
              ∧ (o.current = 1 → 4 < T.toNat → o'.current = if reading.toNat < T.toNat - 4 then 0 else 1)
              ∧ (o.current = 1 → 1 ≤ T.toNat → T.toNat ≤ 4 → o'.current = if reading = 0 then 0 else 1)
              ∧ (o.current = 1 → T = 0 → o'.current = 1)
              ∧ (o'.current = o.current → o'.count = o.count ∧ o'.sched = o.sched)
              ∧ (o'.current ≠ o.current → o'.count = o.count + 1
                  ∧ (s.station = .running → o.sched ≠ .yielded → o'.sched = .urgent)))
        ∧ (∀ n, (∀ o, s.ownedAt n = some o → o.source ≠ .pin i) →
            t.ownedAt n = s.ownedAt n ∧ t.mirroredAt n = s.mirroredAt n))
    ∧ (s.station.live = false ∨ s.pinMode i ≠ .inLevel →
      exec (.levelReading e i reading) s = .next { s with clock := after e s })

/-- A change event for an owned point, by its scheduler state and marks (R43), with the count step of R32 for a LEVEL or STATUS-sourced point. -/
def Obligations.ChangeEvent : Prop :=
  ∀ (s : State) (n : Nat) (o : Owned), s.ownedAt n = some o →
    let stepped (f : Owned → Owned) : List Point := s.points.map fun p =>
      if p.number = n then
        p.mapOwned fun x =>
          let y := f x
          if p.kind = .binary ∧ x.source ≠ .status then y else { y with count := y.count + 1 }
      else p
    let urgent : Owned → Owned := fun x => { x with sched := .urgent }
    let dirty : Owned → Owned := fun x => { x with dirty := true }
    let left := s.routine.filter fun m => decide (m ≠ n)
    (o.sched = .quiet → s.changeEvent n = { s with points := stepped urgent, urgent := s.urgent ++ [n] })
    ∧ (o.sched = .routine → o.inFlight = false →
      s.changeEvent n = { s with points := stepped urgent, urgent := s.urgent ++ [n], routine := left })
    ∧ (o.sched = .routine → o.inFlight = true →
      s.changeEvent n = { s with points := stepped (dirty ∘ urgent), urgent := s.urgent ++ [n], routine := left })
    ∧ (o.sched = .urgent → o.inFlight = true → o.dirty = false → s.changeEvent n = { s with points := stepped dirty })
    ∧ (o.sched = .urgent → o.inFlight = false ∨ o.dirty = true → s.changeEvent n = s)
    ∧ (o.sched = .yielded → s.changeEvent n = s)

/-! ## Timers -/

/-- REFRESH_TIMER_EXPIRY: a QUIET point joins the routine tail; a ROUTINE or URGENT point stays where it stands; the timer stays stopped (R47,
R46). Where the timer does not run nothing happens (log 3). -/
def Obligations.RefreshTimer : Prop :=
  ∀ (s : State) (n : Nat),
    (∀ o due, s.station = .running → s.ownedAt n = some o → o.refreshTimer = some due →
      (o.sched = .quiet → exec (.refreshTimerExpiry n) s = .next { s with
        clock := max s.clock due, routine := s.routine ++ [n]
        points := s.points.map fun p =>
          if p.number = n then p.mapOwned (fun o => { o with sched := .routine, refreshTimer := none }) else p })
      ∧ (o.sched ≠ .quiet → exec (.refreshTimerExpiry n) s = .next { s with
        clock := max s.clock due
        points := s.points.map fun p => if p.number = n then p.mapOwned (fun o => { o with refreshTimer := none }) else p }))
    ∧ (s.station ≠ .running ∨ s.ownedAt n = none ∨ (∃ o, s.ownedAt n = some o ∧ o.refreshTimer = none) →
      exec (.refreshTimerExpiry n) s = .next s)

/-- STALENESS_DEADLINE_EXPIRY makes a FRESH point STALE with its value, count and learned source kept, and OVERDUE_TIMER_EXPIRY sets the overdue
mark; SOURCE holds after either, the outputs bound to a point made STALE show it, and no solicit entry is made (R16, R101, R21, R188). No other
entry, output or place in the queue changes but those that a STATUS-sourced point brings as it takes the change of the summary (R33).
Each expiry takes place at the time its timer holds (log 3). -/
def Obligations.StalenessAndOverdue : Prop :=
  (∀ (s : State) (n : Nat) (m : Mirrored) (due : Time), s.station.live = true → s.mirroredAt n = some m →
    m.state = .fresh → m.deadline = some due →
    ∃ t, exec (.stalenessDeadlineExpiry n) s = .next t
      ∧ t = { s with
          clock := max s.clock due, points := t.points, urgent := t.urgent, routine := t.routine, outputs := t.outputs
          faults := { s.faults with source := true } }
      ∧ t.mirroredAt n = some { m with state := .stale, deadline := none }
      ∧ outputLists t = outputLists s
      ∧ (∀ k, k ≠ n → t.mirroredAt k = s.mirroredAt k)
      ∧ (s.station = .running → ∀ o ∈ t.outputs, o.binding.source = n → o.evaluate t.points = o)
      ∧ ((s.points.map Point.number).Nodup →
        let v := summaryTaken { s.faults with source := true } { s with
          clock := max s.clock due
          points := s.points.map fun p =>
            if p.number = n then p.mapMirrored (fun m => { m with state := .stale, deadline := none }) else p }
        t = { v with outputs := v.outputs.map fun o =>
          if s.station = .running ∧ o.binding.source = n then o.evaluate v.points else o }))
  ∧ (∀ (s : State) (n : Nat) (m : Mirrored) (due : Time), s.station = .running → s.mirroredAt n = some m →
    m.overdueTimer = some due →
    ∃ t, exec (.overdueTimerExpiry n) s = .next t
      ∧ t = { s with
          clock := max s.clock due, points := t.points, urgent := t.urgent, routine := t.routine, outputs := t.outputs
          faults := { s.faults with source := true } }
      ∧ t.mirroredAt n = some { m with overdue := true, overdueTimer := none }
      ∧ outputLists t = outputLists s
      ∧ (∀ k, k ≠ n → t.mirroredAt k = s.mirroredAt k)
      ∧ ((s.points.map Point.number).Nodup →
        t = summaryTaken { s.faults with source := true } { s with
          clock := max s.clock due
          points := s.points.map fun p =>
            if p.number = n then p.mapMirrored (fun m => { m with overdue := true, overdueTimer := none }) else p }))

/-- SOLICIT_DEADLINE_EXPIRY and BACKOFF_MARK_EXPIRY: after one to three unanswered waits the entry is WAITING again in its place; after the fourth it
leaves the list, is counted, and its point rests with a backoff mark for 5 s; the list is then filled in Point Table order from the points waiting
for room, as it is when a mark expires (R113, R114, R110). A mirrored point may have an entry while it is UNKNOWN without a backoff mark (R109).
Each expiry takes place at the time its timer holds (log 3). -/
def Obligations.SolicitAndBackoff : Prop :=
  (∀ (s : State) (n : Nat) (x : Solicit) (due : Time), s.station = .running →
    s.solicits.find? (fun y => y.point == n) = some x → x.state = .sent due ∨ x.state = .covered due →
    (x.attempts < 3 → exec (.solicitDeadlineExpiry n) s = .next { s with
      clock := max s.clock due
      solicits := s.solicits.map fun y =>
        if y.point = n then { y with attempts := x.attempts + 1, state := .waiting false } else y })
    ∧ (3 ≤ x.attempts →
      let points := s.points.map fun p =>
        if p.number = n then p.mapMirrored (fun m => { m with backoff := some (max s.clock due + 5000000) }) else p
      exec (.solicitDeadlineExpiry n) s = .next { s with
        clock := max s.clock due
        counters := { s.counters with solicitsUnanswered := saturatingStep s.counters.solicitsUnanswered }
        points := points
        solicits := points.foldl addSolicit (s.solicits.filter fun y => decide (y.point ≠ n)) }))
  ∧ (∀ (s : State) (n : Nat) (m : Mirrored) (due : Time), s.station = .running → s.mirroredAt n = some m →
    m.backoff = some due →
    let points := s.points.map fun p => if p.number = n then p.mapMirrored (fun m => { m with backoff := none }) else p
    exec (.backoffMarkExpiry n) s = .next { s with
      clock := max s.clock due, points := points, solicits := points.foldl addSolicit s.solicits })
  ∧ ∀ (l : List Solicit) (p : Point),
    (p.solicitable = true ↔ ∃ m, p.role = .mirrored m ∧ m.state = .unknown ∧ m.backoff = none)
    ∧ (p.solicitable = true → (∀ y ∈ l, y.point ≠ p.number) → l.length < 16 →
      addSolicit l p = l ++ [{ point := p.number, state := .waiting false, attempts := 0 }])
    ∧ (p.solicitable = false ∨ (∃ y ∈ l, y.point = p.number) ∨ 16 ≤ l.length → addSolicit l p = l)

/-- PRESENCE_TIMER_EXPIRY sets the pending mark and starts the timer again with the own period, the period code of the image in units of 100
ms (R121); QUARANTINE_TIMER_EXPIRY makes the mode PROBING and holds a presence frame pending (R83). Each expiry takes place at the time its
timer holds (log 3). -/
def Obligations.PresenceAndQuarantine : Prop :=
  (∀ (s : State) (h : Header), s.header = some h → s.period = h.periodCode.toNat * 100000)
  ∧ ∀ (s : State) (due : Time), s.station = .running →
    (s.presenceTimer = some due →
      exec .presenceTimerExpiry s = .next { s with
        clock := max s.clock due, presencePending := true, presenceTimer := some (max s.clock due + s.period) })
    ∧ (s.mode = .silenced → s.quarantineTimer = some due →
      exec .quarantineTimerExpiry s = .next { s with
        clock := max s.clock due, mode := .probing, quarantineTimer := none, presencePending := true })

/-- SILENT_DEADLINE_EXPIRY makes a PRESENT entry SILENT and hands nothing on. LOST_DEADLINE_EXPIRY makes a SILENT entry LOST: every FRESH point it
sources becomes STALE, its entries, and no others, leave every override list and its mark is cleared, and PEER-LOST is judged (R132, R133,
R102, R151). Of the summary only SOURCE and PEER-LOST may change, and of the owned entries only a STATUS-sourced one, which takes it (R33).
Each expiry takes place at the time its timer holds (log 3). -/
def Obligations.PeerSupervision : Prop :=
  ∀ (s : State) (p : Station) (x : Peer) (due : Time), s.station.live = true → s.peerAt p = some x →
    (x.state = .present → x.silentAt = some due →
      exec (.silentDeadlineExpiry p) s = .next { s with
        clock := max s.clock due
        roster := s.roster.map fun y => if y.station = p then { y with state := .silent, silentAt := none } else y })
    ∧ (x.state = .silent → x.lostAt = some due → (s.points.map Point.number).Nodup →
      ∃ t, exec (.lostDeadlineExpiry p) s = .next t
        ∧ t = { s with
            clock := max s.clock due, points := t.points, urgent := t.urgent, routine := t.routine, outputs := t.outputs
            faults := t.faults, roster := t.roster }
        ∧ t.peerAt p = some { x with state := .lost, lostAt := none, holdsOverrides := false }
        ∧ (∀ q, q ≠ p → t.peerAt q = s.peerAt q)
        ∧ (∀ n m, s.mirroredAt n = some m → t.mirroredAt n = some
            (if m.source = some p ∧ m.state = .fresh then { m with state := .stale, deadline := none } else m))
        ∧ outputLists t = purgedLists p s
        ∧ t.faults = { s.faults with
            source := s.faults.source || s.points.any fun q =>
              match q.role with
              | .owned _ => false
              | .mirrored m => m.source == some p && m.state == .fresh
            peerLost := t.roster.any fun y => y.state == .lost && y.sourcesPoints }
        ∧ OwnedStay .status s t
        ∧ ((s.outputs.map Output.pin).Nodup → OutputsStay (fun o => (∃ y ∈ o.overrides, y.origin = p)
            ∨ fedBy .status s o.binding.source = true ∨ ∃ m, s.mirroredAt o.binding.source = some m ∧ m.source = some p) s t))

/-- LEASE_EXPIRY removes the entry from wherever it stands, has the output evaluated and keeps the origin's mark (R148, R152);
RECENT_COMMAND_EXPIRY removes the entry of the sender and tag at the age of 2 s (R162). Each expiry takes place at the time its timer holds
(log 3). -/
def Obligations.LeaseAndRecent : Prop :=
  (∀ (s : State) (i : Fin 16) (p : Station) (o : Output) (x : Override) (due : Time), s.station = .running →
    s.outputAt i = some o → o.overrides.find? (fun y => y.origin == p) = some x → x.lease = some due →
    let outputs := s.outputs.map fun o =>
      if o.pin = i then
        Output.evaluate s.points { o with overrides := o.overrides.filter (fun y => decide (y.origin ≠ p)) }
      else o
    exec (.leaseExpiry i p) s = .next { s with
      clock := max s.clock due
      outputs := outputs
      roster := s.roster.map fun y =>
        if y.station = p then
          { y with holdsOverrides := outputs.any fun o => o.overrides.any fun z => z.origin == p }
        else y })
  ∧ ∀ (s : State) (p : Station) (tag : Byte) (x : Recent), s.station = .running → findRecent p tag s.recent = some x →
    exec (.recentCommandExpiry p tag) s = .next { s with
      clock := max s.clock (x.written + 2000000)
      recent := s.recent.filter fun y => decide (¬ (y.sender = p ∧ y.tag = tag)) }

/-! ## Formats (chapter 11) -/

/-- The bytes of a frame laid out by R68, R69 and R190, sent as characters and sampled, pass every receive check of R75 when their header fields
and length do, and the header reads back the class, sender and destination it was laid out from. A character is a dominant start bit, eight
data bits with the least significant first and a recessive stop bit; sampled with a recessive start bit it is a glitch and no character
(R64). A frame of this station with a body of L bytes lasts 10 × (5 + L) bit times (R68), and the CRC of "1" to "9" is 29B1 (R69). The first
sixteen data bits, as sent, are the class, the sender and the destination, each most significant bit first (R190); the length, the body and
the two CRC bytes follow, the high one first (R68, R69). The CRC register starts at all ones and takes each byte in eight shifts with the
generator 1021 (R69). A frame of this station carries the class, destination and body of what it was assembled as (00_scope.md section 6). -/
def Obligations.FramesReadBack : Prop :=
  (∀ (cls : FrameClass) (sender dest : Station) (body : List Byte), headerGood cls sender dest body = true →
    failedChecks (((frameBytes cls.code sender dest body).map sendChar).filterMap sampleChar) = []
    ∧ parseHeader (byteAt (frameBytes cls.code sender dest body) 0) (byteAt (frameBytes cls.code sender dest body) 1)
      = (cls.code, sender, dest))
  ∧ (∀ (cls : FrameClass) (sender dest : Station) (body : List Byte), headerGood cls sender dest body = true ↔
    1 ≤ sender.toNat ∧ sender.toNat ≤ 62 ∧ body.length ≤ 24
    ∧ (cls = .urgentPublish ∨ cls = .solicit ∨ cls = .presence ∨ cls = .routinePublish → dest = 63))
  ∧ [FrameClass.command, .urgentPublish, .reply, .solicit, .presence, .query, .routinePublish].map FrameClass.code = [0, 1, 2, 3, 4, 5, 6]
  ∧ (∀ b : Byte, charLevels (sendChar b) = false :: (List.range 8).map b.getLsbD ++ [true]
    ∧ sampleChar (sendChar b) = some { data := b, stopRecessive := true })
  ∧ (∀ bits : CharBits, (bits.getLsbD 0 = true → sampleChar bits = none)
    ∧ (bits.getLsbD 0 = false → ∃ c, sampleChar bits = some c ∧ c.stopRecessive = bits.getLsbD 9
      ∧ ∀ i, i < 8 → c.data.getLsbD i = bits.getLsbD (1 + i)))
  ∧ (∀ f : TxFrame, f.levels.length = 10 * (5 + f.content.body.length)
    ∧ f.levels = f.bytes.flatMap (fun b => charLevels (sendChar b)))
  ∧ (∀ (cls : BitVec 4) (sender dest : Station) (body : List Byte),
    let bytes := frameBytes cls sender dest body
    let crc := (crc16 (bytes.take (3 + body.length))).toNat
    (List.range 8).map (bytes.getD 0 0).getLsbD ++ (List.range 8).map (bytes.getD 1 0).getLsbD
      = (List.range 4).map cls.getMsbD ++ (List.range 6).map sender.getMsbD ++ (List.range 6).map dest.getMsbD
    ∧ bytes.drop 2 = BitVec.ofNat 8 body.length :: body ++ [BitVec.ofNat 8 (crc / 256), BitVec.ofNat 8 crc])
  ∧ (crc16 [] = 0xFFFF#16 ∧ ∀ (l : List Byte) (b : Byte), crc16 (l ++ [b]) =
      (List.range 8).foldl (fun r _ => if r.getLsbD 15 then (r <<< 1) ^^^ 0x1021#16 else r <<< 1)
        (crc16 l ^^^ (b.setWidth 16 <<< 8)))
  ∧ (∀ sender : Station,
      (∀ records, TxFrame.bytes { sender := sender, content := .publication true records }
        = frameBytes 1 sender 63 (records.flatMap Record.bytes))
      ∧ (∀ records, TxFrame.bytes { sender := sender, content := .publication false records }
        = frameBytes 6 sender 63 (records.flatMap Record.bytes))
      ∧ (∀ r, TxFrame.bytes { sender := sender, content := .reply r } = frameBytes 2 sender r.dest r.body)
      ∧ (∀ points, TxFrame.bytes { sender := sender, content := .solicit points }
        = frameBytes 3 sender 63 (points.flatMap be16Bytes))
      ∧ ∀ p, TxFrame.bytes { sender := sender, content := .presence p } = frameBytes 4 sender 63 p.bytes)
  ∧ crc16 [0x31, 0x32, 0x33, 0x34, 0x35, 0x36, 0x37, 0x38, 0x39] = 0x29B1#16

/-- The bodies this station lays out read back as what they were laid out from: records, listed points and presence content, every field at every
value its bits admit, the period code within 1 to 20; each byte is the one that the tables give (sections 11.1.1 and 11.1.2). A reply is its
tag, its code and its data (section 11.1.4). -/
def Obligations.BodiesReadBack : Prop :=
  (∀ records : List Record, recordsOf (records.flatMap Record.bytes) = records)
  ∧ (∀ points : List Nat, (∀ n ∈ points, n ≤ 1023) → solicitedOf (points.flatMap be16Bytes) = points)
  ∧ (∀ p : PresenceContent, 1 ≤ p.periodCode.toNat → p.periodCode.toNat ≤ 20 → parsePresence p.bytes = some p)
  ∧ (∀ r : Record, r.bytes =
      [BitVec.ofNat 8 (r.point.toNat / 256), BitVec.ofNat 8 r.point.toNat,
       BitVec.ofNat 8 (r.count.toNat + 32 * r.refreshClass.toNat + if r.kind = .level then 128 else 0), r.value])
  ∧ (∀ p : PresenceContent, p.bytes =
      [BitVec.ofNat 8 (p.periodCode.toNat + 64 * p.probing.toNat + 128 * p.boot.toNat),
       match p.cause with
        | .power => 0
        | .pin => 1
        | .remote => 2
        | .guard => 3,
       p.incarnation, p.faults])
  ∧ (∀ n : Nat, be16Bytes n = [BitVec.ofNat 8 (n / 256), BitVec.ofNat 8 n])
  ∧ (∀ r : Reply, r.body =
      r.tag :: (match r.code with
        | .data => 0
        | .accepted => 1
        | .replaced => 2
        | .released => 3
        | .notHeld => 4
        | .full => 5
        | .denied => 6
        | .noOutput => 7
        | .noRoom => 8
        | .badRequest => 9) :: r.data)
  ∧ ∀ f : FaultSummary, f.byte = BitVec.ofNat 8
      (f.config.toNat + 2 * f.duplicate.toNat + 4 * f.silenced.toNat + 8 * f.conflict.toNat + 16 * f.source.toNat
        + 32 * f.peerLost.toNat + 64 * f.line.toNat + 128 * f.overflow.toNat)

/-! ## What the outside sees -/

/-- The electrical state of the pins by station state and pin mode (R23, R37), the FAULT pin, asserted exactly while some condition holds and so in
STARTING, UNCONFIGURED and HALTED (R189), and the line driver, engaged only while a frame of this station is in flight and so in UNCONFIGURED and
RUNNING only (R67, R70). A command that leaves the station in STARTING or HALTED leaves its driver and every pin released (R23, R37, R67). -/
def Obligations.OutsidePins : Prop :=
  (∀ (s : State) (i : Fin 16),
    (s.station = .starting ∨ s.station = .unconfigured ∨ s.station = .halted → s.pinState i = .input false)
    ∧ ∀ p, s.pins[i.val]? = some p → s.station = .joining ∨ s.station = .running →
      (p.mode = .unused → s.pinState i = .input false)
      ∧ (p.mode = .inDigital ∨ p.mode = .inLevel ∨ p.mode = .hand → s.pinState i = .input p.pullUp)
      ∧ (p.mode = .out → s.station = .joining → s.pinState i = .driven false)
      ∧ (p.mode = .out → s.station = .running → ∀ o, s.outputAt i = some o → s.pinState i = .driven o.driven))
  ∧ (∀ s : State, s.faultPin = true ↔
      s.faults.config = true ∨ s.faults.duplicate = true ∨ s.faults.silenced = true ∨ s.faults.conflict = true
      ∨ s.faults.source = true ∨ s.faults.peerLost = true ∨ s.faults.line = true ∨ s.faults.overflow = true)
  ∧ (∀ s : State, HealthLawful s → s.station = .starting ∨ s.station = .unconfigured ∨ s.station = .halted → s.faultPin = true)
  ∧ (∀ s : State, (s.driverEngaged = true ↔ ∃ f, s.inFlight = some f)
    ∧ (TransmitLawful s → s.driverEngaged = true → s.station = .running ∨ s.station = .unconfigured))
  ∧ ∀ (c : Instr) (s t : State), StationLawful s → TransmitLawful s → exec c s = .next t →
      t.station = .starting ∨ t.station = .halted →
      t.driverEngaged = false ∧ ∀ i, t.pinState i = .input false
end

