-- ==== Sys2Proof/Laws/State.lean ====
section
/-!
SUPPORT. The named updates of the state, field by field: one lemma for each field of each update, each true by `rfl`.
-/

namespace Sys2Proof.Machine

variable (s : State)

/-! ### advance -/

@[simp] theorem State.advance_station (e : Time) : (s.advance e).station = s.station := rfl
@[simp] theorem State.advance_retained (e : Time) : (s.advance e).retained = s.retained := rfl
@[simp] theorem State.advance_supplyAbove (e : Time) : (s.advance e).supplyAbove = s.supplyAbove := rfl
@[simp] theorem State.advance_resetHigh (e : Time) : (s.advance e).resetHigh = s.resetHigh := rfl
@[simp] theorem State.advance_loading (e : Time) : (s.advance e).loading = s.loading := rfl
@[simp] theorem State.advance_straps (e : Time) : (s.advance e).straps = s.straps := rfl
@[simp] theorem State.advance_number (e : Time) : (s.advance e).number = s.number := rfl
@[simp] theorem State.advance_error (e : Time) : (s.advance e).error = s.error := rfl
@[simp] theorem State.advance_header (e : Time) : (s.advance e).header = s.header := rfl
@[simp] theorem State.advance_faults (e : Time) : (s.advance e).faults = s.faults := rfl
@[simp] theorem State.advance_joinTimer (e : Time) : (s.advance e).joinTimer = s.joinTimer := rfl
@[simp] theorem State.advance_points (e : Time) : (s.advance e).points = s.points := rfl
@[simp] theorem State.advance_pins (e : Time) : (s.advance e).pins = s.pins := rfl
@[simp] theorem State.advance_urgent (e : Time) : (s.advance e).urgent = s.urgent := rfl
@[simp] theorem State.advance_routine (e : Time) : (s.advance e).routine = s.routine := rfl
@[simp] theorem State.advance_line (e : Time) : (s.advance e).line = s.line := rfl
@[simp] theorem State.advance_assembly (e : Time) : (s.advance e).assembly = s.assembly := rfl
@[simp] theorem State.advance_inFlight (e : Time) : (s.advance e).inFlight = s.inFlight := rfl
@[simp] theorem State.advance_lineRate (e : Time) : (s.advance e).lineRate = s.lineRate := rfl
@[simp] theorem State.advance_mode (e : Time) : (s.advance e).mode = s.mode := rfl
@[simp] theorem State.advance_failures (e : Time) : (s.advance e).failures = s.failures := rfl
@[simp] theorem State.advance_quarantineLength (e : Time) : (s.advance e).quarantineLength = s.quarantineLength := rfl
@[simp] theorem State.advance_quarantineTimer (e : Time) : (s.advance e).quarantineTimer = s.quarantineTimer := rfl
@[simp] theorem State.advance_solicits (e : Time) : (s.advance e).solicits = s.solicits := rfl
@[simp] theorem State.advance_roster (e : Time) : (s.advance e).roster = s.roster := rfl
@[simp] theorem State.advance_presenceTimer (e : Time) : (s.advance e).presenceTimer = s.presenceTimer := rfl
@[simp] theorem State.advance_presencePending (e : Time) : (s.advance e).presencePending = s.presencePending := rfl
@[simp] theorem State.advance_bootCount (e : Time) : (s.advance e).bootCount = s.bootCount := rfl
@[simp] theorem State.advance_outputs (e : Time) : (s.advance e).outputs = s.outputs := rfl
@[simp] theorem State.advance_replies (e : Time) : (s.advance e).replies = s.replies := rfl
@[simp] theorem State.advance_recent (e : Time) : (s.advance e).recent = s.recent := rfl
@[simp] theorem State.advance_counters (e : Time) : (s.advance e).counters = s.counters := rfl
@[simp] theorem State.advance_pendingRestart (e : Time) : (s.advance e).pendingRestart = s.pendingRestart := rfl
@[simp] theorem State.advance_clock (e : Time) : (s.advance e).clock = if s.station = .halted then s.clock else s.clock + e := rfl
@[simp] theorem State.advance_pending (e : Time) : (s.advance e).pending = s.pending := rfl

/-! ### advanceTo -/

@[simp] theorem State.advanceTo_station (due : Time) : (s.advanceTo due).station = s.station := rfl
@[simp] theorem State.advanceTo_retained (due : Time) : (s.advanceTo due).retained = s.retained := rfl
@[simp] theorem State.advanceTo_supplyAbove (due : Time) : (s.advanceTo due).supplyAbove = s.supplyAbove := rfl
@[simp] theorem State.advanceTo_resetHigh (due : Time) : (s.advanceTo due).resetHigh = s.resetHigh := rfl
@[simp] theorem State.advanceTo_loading (due : Time) : (s.advanceTo due).loading = s.loading := rfl
@[simp] theorem State.advanceTo_straps (due : Time) : (s.advanceTo due).straps = s.straps := rfl
@[simp] theorem State.advanceTo_number (due : Time) : (s.advanceTo due).number = s.number := rfl
@[simp] theorem State.advanceTo_error (due : Time) : (s.advanceTo due).error = s.error := rfl
@[simp] theorem State.advanceTo_header (due : Time) : (s.advanceTo due).header = s.header := rfl
@[simp] theorem State.advanceTo_faults (due : Time) : (s.advanceTo due).faults = s.faults := rfl
@[simp] theorem State.advanceTo_joinTimer (due : Time) : (s.advanceTo due).joinTimer = s.joinTimer := rfl
@[simp] theorem State.advanceTo_points (due : Time) : (s.advanceTo due).points = s.points := rfl
@[simp] theorem State.advanceTo_pins (due : Time) : (s.advanceTo due).pins = s.pins := rfl
@[simp] theorem State.advanceTo_urgent (due : Time) : (s.advanceTo due).urgent = s.urgent := rfl
@[simp] theorem State.advanceTo_routine (due : Time) : (s.advanceTo due).routine = s.routine := rfl
@[simp] theorem State.advanceTo_line (due : Time) : (s.advanceTo due).line = s.line := rfl
@[simp] theorem State.advanceTo_assembly (due : Time) : (s.advanceTo due).assembly = s.assembly := rfl
@[simp] theorem State.advanceTo_inFlight (due : Time) : (s.advanceTo due).inFlight = s.inFlight := rfl
@[simp] theorem State.advanceTo_lineRate (due : Time) : (s.advanceTo due).lineRate = s.lineRate := rfl
@[simp] theorem State.advanceTo_mode (due : Time) : (s.advanceTo due).mode = s.mode := rfl
@[simp] theorem State.advanceTo_failures (due : Time) : (s.advanceTo due).failures = s.failures := rfl
@[simp] theorem State.advanceTo_quarantineLength (due : Time) : (s.advanceTo due).quarantineLength = s.quarantineLength := rfl
@[simp] theorem State.advanceTo_quarantineTimer (due : Time) : (s.advanceTo due).quarantineTimer = s.quarantineTimer := rfl
@[simp] theorem State.advanceTo_solicits (due : Time) : (s.advanceTo due).solicits = s.solicits := rfl
@[simp] theorem State.advanceTo_roster (due : Time) : (s.advanceTo due).roster = s.roster := rfl
@[simp] theorem State.advanceTo_presenceTimer (due : Time) : (s.advanceTo due).presenceTimer = s.presenceTimer := rfl
@[simp] theorem State.advanceTo_presencePending (due : Time) : (s.advanceTo due).presencePending = s.presencePending := rfl
@[simp] theorem State.advanceTo_bootCount (due : Time) : (s.advanceTo due).bootCount = s.bootCount := rfl
@[simp] theorem State.advanceTo_outputs (due : Time) : (s.advanceTo due).outputs = s.outputs := rfl
@[simp] theorem State.advanceTo_replies (due : Time) : (s.advanceTo due).replies = s.replies := rfl
@[simp] theorem State.advanceTo_recent (due : Time) : (s.advanceTo due).recent = s.recent := rfl
@[simp] theorem State.advanceTo_counters (due : Time) : (s.advanceTo due).counters = s.counters := rfl
@[simp] theorem State.advanceTo_pendingRestart (due : Time) : (s.advanceTo due).pendingRestart = s.pendingRestart := rfl
@[simp] theorem State.advanceTo_clock (due : Time) : (s.advanceTo due).clock = max s.clock due := rfl
@[simp] theorem State.advanceTo_pending (due : Time) : (s.advanceTo due).pending = s.pending := rfl

/-! ### bump -/

@[simp] theorem State.bump_station (k : CounterId) : (s.bump k).station = s.station := rfl
@[simp] theorem State.bump_retained (k : CounterId) : (s.bump k).retained = s.retained := rfl
@[simp] theorem State.bump_supplyAbove (k : CounterId) : (s.bump k).supplyAbove = s.supplyAbove := rfl
@[simp] theorem State.bump_resetHigh (k : CounterId) : (s.bump k).resetHigh = s.resetHigh := rfl
@[simp] theorem State.bump_loading (k : CounterId) : (s.bump k).loading = s.loading := rfl
@[simp] theorem State.bump_straps (k : CounterId) : (s.bump k).straps = s.straps := rfl
@[simp] theorem State.bump_number (k : CounterId) : (s.bump k).number = s.number := rfl
@[simp] theorem State.bump_error (k : CounterId) : (s.bump k).error = s.error := rfl
@[simp] theorem State.bump_header (k : CounterId) : (s.bump k).header = s.header := rfl
@[simp] theorem State.bump_faults (k : CounterId) : (s.bump k).faults = s.faults := rfl
@[simp] theorem State.bump_joinTimer (k : CounterId) : (s.bump k).joinTimer = s.joinTimer := rfl
@[simp] theorem State.bump_points (k : CounterId) : (s.bump k).points = s.points := rfl
@[simp] theorem State.bump_pins (k : CounterId) : (s.bump k).pins = s.pins := rfl
@[simp] theorem State.bump_urgent (k : CounterId) : (s.bump k).urgent = s.urgent := rfl
@[simp] theorem State.bump_routine (k : CounterId) : (s.bump k).routine = s.routine := rfl
@[simp] theorem State.bump_line (k : CounterId) : (s.bump k).line = s.line := rfl
@[simp] theorem State.bump_assembly (k : CounterId) : (s.bump k).assembly = s.assembly := rfl
@[simp] theorem State.bump_inFlight (k : CounterId) : (s.bump k).inFlight = s.inFlight := rfl
@[simp] theorem State.bump_lineRate (k : CounterId) : (s.bump k).lineRate = s.lineRate := rfl
@[simp] theorem State.bump_mode (k : CounterId) : (s.bump k).mode = s.mode := rfl
@[simp] theorem State.bump_failures (k : CounterId) : (s.bump k).failures = s.failures := rfl
@[simp] theorem State.bump_quarantineLength (k : CounterId) : (s.bump k).quarantineLength = s.quarantineLength := rfl
@[simp] theorem State.bump_quarantineTimer (k : CounterId) : (s.bump k).quarantineTimer = s.quarantineTimer := rfl
@[simp] theorem State.bump_solicits (k : CounterId) : (s.bump k).solicits = s.solicits := rfl
@[simp] theorem State.bump_roster (k : CounterId) : (s.bump k).roster = s.roster := rfl
@[simp] theorem State.bump_presenceTimer (k : CounterId) : (s.bump k).presenceTimer = s.presenceTimer := rfl
@[simp] theorem State.bump_presencePending (k : CounterId) : (s.bump k).presencePending = s.presencePending := rfl
@[simp] theorem State.bump_bootCount (k : CounterId) : (s.bump k).bootCount = s.bootCount := rfl
@[simp] theorem State.bump_outputs (k : CounterId) : (s.bump k).outputs = s.outputs := rfl
@[simp] theorem State.bump_replies (k : CounterId) : (s.bump k).replies = s.replies := rfl
@[simp] theorem State.bump_recent (k : CounterId) : (s.bump k).recent = s.recent := rfl
@[simp] theorem State.bump_counters (k : CounterId) : (s.bump k).counters = s.counters.bump k := rfl
@[simp] theorem State.bump_pendingRestart (k : CounterId) : (s.bump k).pendingRestart = s.pendingRestart := rfl
@[simp] theorem State.bump_clock (k : CounterId) : (s.bump k).clock = s.clock := rfl
@[simp] theorem State.bump_pending (k : CounterId) : (s.bump k).pending = s.pending := rfl

/-! ### updateOwned -/

@[simp] theorem State.updateOwned_station (n : Nat) (f : Owned → Owned) : (s.updateOwned n f).station = s.station := rfl
@[simp] theorem State.updateOwned_retained (n : Nat) (f : Owned → Owned) : (s.updateOwned n f).retained = s.retained := rfl
@[simp] theorem State.updateOwned_supplyAbove (n : Nat) (f : Owned → Owned) : (s.updateOwned n f).supplyAbove = s.supplyAbove := rfl
@[simp] theorem State.updateOwned_resetHigh (n : Nat) (f : Owned → Owned) : (s.updateOwned n f).resetHigh = s.resetHigh := rfl
@[simp] theorem State.updateOwned_loading (n : Nat) (f : Owned → Owned) : (s.updateOwned n f).loading = s.loading := rfl
@[simp] theorem State.updateOwned_straps (n : Nat) (f : Owned → Owned) : (s.updateOwned n f).straps = s.straps := rfl
@[simp] theorem State.updateOwned_number (n : Nat) (f : Owned → Owned) : (s.updateOwned n f).number = s.number := rfl
@[simp] theorem State.updateOwned_error (n : Nat) (f : Owned → Owned) : (s.updateOwned n f).error = s.error := rfl
@[simp] theorem State.updateOwned_header (n : Nat) (f : Owned → Owned) : (s.updateOwned n f).header = s.header := rfl
@[simp] theorem State.updateOwned_faults (n : Nat) (f : Owned → Owned) : (s.updateOwned n f).faults = s.faults := rfl
@[simp] theorem State.updateOwned_joinTimer (n : Nat) (f : Owned → Owned) : (s.updateOwned n f).joinTimer = s.joinTimer := rfl
@[simp] theorem State.updateOwned_points (n : Nat) (f : Owned → Owned) : (s.updateOwned n f).points = s.points.map fun p => if p.number = n then p.mapOwned f else p := rfl
@[simp] theorem State.updateOwned_pins (n : Nat) (f : Owned → Owned) : (s.updateOwned n f).pins = s.pins := rfl
@[simp] theorem State.updateOwned_urgent (n : Nat) (f : Owned → Owned) : (s.updateOwned n f).urgent = s.urgent := rfl
@[simp] theorem State.updateOwned_routine (n : Nat) (f : Owned → Owned) : (s.updateOwned n f).routine = s.routine := rfl
@[simp] theorem State.updateOwned_line (n : Nat) (f : Owned → Owned) : (s.updateOwned n f).line = s.line := rfl
@[simp] theorem State.updateOwned_assembly (n : Nat) (f : Owned → Owned) : (s.updateOwned n f).assembly = s.assembly := rfl
@[simp] theorem State.updateOwned_inFlight (n : Nat) (f : Owned → Owned) : (s.updateOwned n f).inFlight = s.inFlight := rfl
@[simp] theorem State.updateOwned_lineRate (n : Nat) (f : Owned → Owned) : (s.updateOwned n f).lineRate = s.lineRate := rfl
@[simp] theorem State.updateOwned_mode (n : Nat) (f : Owned → Owned) : (s.updateOwned n f).mode = s.mode := rfl
@[simp] theorem State.updateOwned_failures (n : Nat) (f : Owned → Owned) : (s.updateOwned n f).failures = s.failures := rfl
@[simp] theorem State.updateOwned_quarantineLength (n : Nat) (f : Owned → Owned) : (s.updateOwned n f).quarantineLength = s.quarantineLength := rfl
@[simp] theorem State.updateOwned_quarantineTimer (n : Nat) (f : Owned → Owned) : (s.updateOwned n f).quarantineTimer = s.quarantineTimer := rfl
@[simp] theorem State.updateOwned_solicits (n : Nat) (f : Owned → Owned) : (s.updateOwned n f).solicits = s.solicits := rfl
@[simp] theorem State.updateOwned_roster (n : Nat) (f : Owned → Owned) : (s.updateOwned n f).roster = s.roster := rfl
@[simp] theorem State.updateOwned_presenceTimer (n : Nat) (f : Owned → Owned) : (s.updateOwned n f).presenceTimer = s.presenceTimer := rfl
@[simp] theorem State.updateOwned_presencePending (n : Nat) (f : Owned → Owned) : (s.updateOwned n f).presencePending = s.presencePending := rfl
@[simp] theorem State.updateOwned_bootCount (n : Nat) (f : Owned → Owned) : (s.updateOwned n f).bootCount = s.bootCount := rfl
@[simp] theorem State.updateOwned_outputs (n : Nat) (f : Owned → Owned) : (s.updateOwned n f).outputs = s.outputs := rfl
@[simp] theorem State.updateOwned_replies (n : Nat) (f : Owned → Owned) : (s.updateOwned n f).replies = s.replies := rfl
@[simp] theorem State.updateOwned_recent (n : Nat) (f : Owned → Owned) : (s.updateOwned n f).recent = s.recent := rfl
@[simp] theorem State.updateOwned_counters (n : Nat) (f : Owned → Owned) : (s.updateOwned n f).counters = s.counters := rfl
@[simp] theorem State.updateOwned_pendingRestart (n : Nat) (f : Owned → Owned) : (s.updateOwned n f).pendingRestart = s.pendingRestart := rfl
@[simp] theorem State.updateOwned_clock (n : Nat) (f : Owned → Owned) : (s.updateOwned n f).clock = s.clock := rfl
@[simp] theorem State.updateOwned_pending (n : Nat) (f : Owned → Owned) : (s.updateOwned n f).pending = s.pending := rfl

/-! ### updateMirrored -/

@[simp] theorem State.updateMirrored_station (n : Nat) (f : Mirrored → Mirrored) : (s.updateMirrored n f).station = s.station := rfl
@[simp] theorem State.updateMirrored_retained (n : Nat) (f : Mirrored → Mirrored) : (s.updateMirrored n f).retained = s.retained := rfl
@[simp] theorem State.updateMirrored_supplyAbove (n : Nat) (f : Mirrored → Mirrored) : (s.updateMirrored n f).supplyAbove = s.supplyAbove := rfl
@[simp] theorem State.updateMirrored_resetHigh (n : Nat) (f : Mirrored → Mirrored) : (s.updateMirrored n f).resetHigh = s.resetHigh := rfl
@[simp] theorem State.updateMirrored_loading (n : Nat) (f : Mirrored → Mirrored) : (s.updateMirrored n f).loading = s.loading := rfl
@[simp] theorem State.updateMirrored_straps (n : Nat) (f : Mirrored → Mirrored) : (s.updateMirrored n f).straps = s.straps := rfl
@[simp] theorem State.updateMirrored_number (n : Nat) (f : Mirrored → Mirrored) : (s.updateMirrored n f).number = s.number := rfl
@[simp] theorem State.updateMirrored_error (n : Nat) (f : Mirrored → Mirrored) : (s.updateMirrored n f).error = s.error := rfl
@[simp] theorem State.updateMirrored_header (n : Nat) (f : Mirrored → Mirrored) : (s.updateMirrored n f).header = s.header := rfl
@[simp] theorem State.updateMirrored_faults (n : Nat) (f : Mirrored → Mirrored) : (s.updateMirrored n f).faults = s.faults := rfl
@[simp] theorem State.updateMirrored_joinTimer (n : Nat) (f : Mirrored → Mirrored) : (s.updateMirrored n f).joinTimer = s.joinTimer := rfl
@[simp] theorem State.updateMirrored_points (n : Nat) (f : Mirrored → Mirrored) : (s.updateMirrored n f).points = s.points.map fun p => if p.number = n then p.mapMirrored f else p := rfl
@[simp] theorem State.updateMirrored_pins (n : Nat) (f : Mirrored → Mirrored) : (s.updateMirrored n f).pins = s.pins := rfl
@[simp] theorem State.updateMirrored_urgent (n : Nat) (f : Mirrored → Mirrored) : (s.updateMirrored n f).urgent = s.urgent := rfl
@[simp] theorem State.updateMirrored_routine (n : Nat) (f : Mirrored → Mirrored) : (s.updateMirrored n f).routine = s.routine := rfl
@[simp] theorem State.updateMirrored_line (n : Nat) (f : Mirrored → Mirrored) : (s.updateMirrored n f).line = s.line := rfl
@[simp] theorem State.updateMirrored_assembly (n : Nat) (f : Mirrored → Mirrored) : (s.updateMirrored n f).assembly = s.assembly := rfl
@[simp] theorem State.updateMirrored_inFlight (n : Nat) (f : Mirrored → Mirrored) : (s.updateMirrored n f).inFlight = s.inFlight := rfl
@[simp] theorem State.updateMirrored_lineRate (n : Nat) (f : Mirrored → Mirrored) : (s.updateMirrored n f).lineRate = s.lineRate := rfl
@[simp] theorem State.updateMirrored_mode (n : Nat) (f : Mirrored → Mirrored) : (s.updateMirrored n f).mode = s.mode := rfl
@[simp] theorem State.updateMirrored_failures (n : Nat) (f : Mirrored → Mirrored) : (s.updateMirrored n f).failures = s.failures := rfl
@[simp] theorem State.updateMirrored_quarantineLength (n : Nat) (f : Mirrored → Mirrored) : (s.updateMirrored n f).quarantineLength = s.quarantineLength := rfl
@[simp] theorem State.updateMirrored_quarantineTimer (n : Nat) (f : Mirrored → Mirrored) : (s.updateMirrored n f).quarantineTimer = s.quarantineTimer := rfl
@[simp] theorem State.updateMirrored_solicits (n : Nat) (f : Mirrored → Mirrored) : (s.updateMirrored n f).solicits = s.solicits := rfl
@[simp] theorem State.updateMirrored_roster (n : Nat) (f : Mirrored → Mirrored) : (s.updateMirrored n f).roster = s.roster := rfl
@[simp] theorem State.updateMirrored_presenceTimer (n : Nat) (f : Mirrored → Mirrored) : (s.updateMirrored n f).presenceTimer = s.presenceTimer := rfl
@[simp] theorem State.updateMirrored_presencePending (n : Nat) (f : Mirrored → Mirrored) : (s.updateMirrored n f).presencePending = s.presencePending := rfl
@[simp] theorem State.updateMirrored_bootCount (n : Nat) (f : Mirrored → Mirrored) : (s.updateMirrored n f).bootCount = s.bootCount := rfl
@[simp] theorem State.updateMirrored_outputs (n : Nat) (f : Mirrored → Mirrored) : (s.updateMirrored n f).outputs = s.outputs := rfl
@[simp] theorem State.updateMirrored_replies (n : Nat) (f : Mirrored → Mirrored) : (s.updateMirrored n f).replies = s.replies := rfl
@[simp] theorem State.updateMirrored_recent (n : Nat) (f : Mirrored → Mirrored) : (s.updateMirrored n f).recent = s.recent := rfl
@[simp] theorem State.updateMirrored_counters (n : Nat) (f : Mirrored → Mirrored) : (s.updateMirrored n f).counters = s.counters := rfl
@[simp] theorem State.updateMirrored_pendingRestart (n : Nat) (f : Mirrored → Mirrored) : (s.updateMirrored n f).pendingRestart = s.pendingRestart := rfl
@[simp] theorem State.updateMirrored_clock (n : Nat) (f : Mirrored → Mirrored) : (s.updateMirrored n f).clock = s.clock := rfl
@[simp] theorem State.updateMirrored_pending (n : Nat) (f : Mirrored → Mirrored) : (s.updateMirrored n f).pending = s.pending := rfl

/-! ### joinUrgent -/

@[simp] theorem State.joinUrgent_station (n : Nat) : (s.joinUrgent n).station = s.station := rfl
@[simp] theorem State.joinUrgent_retained (n : Nat) : (s.joinUrgent n).retained = s.retained := rfl
@[simp] theorem State.joinUrgent_supplyAbove (n : Nat) : (s.joinUrgent n).supplyAbove = s.supplyAbove := rfl
@[simp] theorem State.joinUrgent_resetHigh (n : Nat) : (s.joinUrgent n).resetHigh = s.resetHigh := rfl
@[simp] theorem State.joinUrgent_loading (n : Nat) : (s.joinUrgent n).loading = s.loading := rfl
@[simp] theorem State.joinUrgent_straps (n : Nat) : (s.joinUrgent n).straps = s.straps := rfl
@[simp] theorem State.joinUrgent_number (n : Nat) : (s.joinUrgent n).number = s.number := rfl
@[simp] theorem State.joinUrgent_error (n : Nat) : (s.joinUrgent n).error = s.error := rfl
@[simp] theorem State.joinUrgent_header (n : Nat) : (s.joinUrgent n).header = s.header := rfl
@[simp] theorem State.joinUrgent_faults (n : Nat) : (s.joinUrgent n).faults = s.faults := rfl
@[simp] theorem State.joinUrgent_joinTimer (n : Nat) : (s.joinUrgent n).joinTimer = s.joinTimer := rfl
@[simp] theorem State.joinUrgent_points (n : Nat) : (s.joinUrgent n).points = (s.updateOwned n fun o => { o with sched := .urgent }).points := rfl
@[simp] theorem State.joinUrgent_pins (n : Nat) : (s.joinUrgent n).pins = s.pins := rfl
@[simp] theorem State.joinUrgent_urgent (n : Nat) : (s.joinUrgent n).urgent = s.urgent ++ [n] := rfl
@[simp] theorem State.joinUrgent_routine (n : Nat) : (s.joinUrgent n).routine = s.routine := rfl
@[simp] theorem State.joinUrgent_line (n : Nat) : (s.joinUrgent n).line = s.line := rfl
@[simp] theorem State.joinUrgent_assembly (n : Nat) : (s.joinUrgent n).assembly = s.assembly := rfl
@[simp] theorem State.joinUrgent_inFlight (n : Nat) : (s.joinUrgent n).inFlight = s.inFlight := rfl
@[simp] theorem State.joinUrgent_lineRate (n : Nat) : (s.joinUrgent n).lineRate = s.lineRate := rfl
@[simp] theorem State.joinUrgent_mode (n : Nat) : (s.joinUrgent n).mode = s.mode := rfl
@[simp] theorem State.joinUrgent_failures (n : Nat) : (s.joinUrgent n).failures = s.failures := rfl
@[simp] theorem State.joinUrgent_quarantineLength (n : Nat) : (s.joinUrgent n).quarantineLength = s.quarantineLength := rfl
@[simp] theorem State.joinUrgent_quarantineTimer (n : Nat) : (s.joinUrgent n).quarantineTimer = s.quarantineTimer := rfl
@[simp] theorem State.joinUrgent_solicits (n : Nat) : (s.joinUrgent n).solicits = s.solicits := rfl
@[simp] theorem State.joinUrgent_roster (n : Nat) : (s.joinUrgent n).roster = s.roster := rfl
@[simp] theorem State.joinUrgent_presenceTimer (n : Nat) : (s.joinUrgent n).presenceTimer = s.presenceTimer := rfl
@[simp] theorem State.joinUrgent_presencePending (n : Nat) : (s.joinUrgent n).presencePending = s.presencePending := rfl
@[simp] theorem State.joinUrgent_bootCount (n : Nat) : (s.joinUrgent n).bootCount = s.bootCount := rfl
@[simp] theorem State.joinUrgent_outputs (n : Nat) : (s.joinUrgent n).outputs = s.outputs := rfl
@[simp] theorem State.joinUrgent_replies (n : Nat) : (s.joinUrgent n).replies = s.replies := rfl
@[simp] theorem State.joinUrgent_recent (n : Nat) : (s.joinUrgent n).recent = s.recent := rfl
@[simp] theorem State.joinUrgent_counters (n : Nat) : (s.joinUrgent n).counters = s.counters := rfl
@[simp] theorem State.joinUrgent_pendingRestart (n : Nat) : (s.joinUrgent n).pendingRestart = s.pendingRestart := rfl
@[simp] theorem State.joinUrgent_clock (n : Nat) : (s.joinUrgent n).clock = s.clock := rfl
@[simp] theorem State.joinUrgent_pending (n : Nat) : (s.joinUrgent n).pending = s.pending := rfl

/-! ### joinRoutine -/

@[simp] theorem State.joinRoutine_station (n : Nat) : (s.joinRoutine n).station = s.station := rfl
@[simp] theorem State.joinRoutine_retained (n : Nat) : (s.joinRoutine n).retained = s.retained := rfl
@[simp] theorem State.joinRoutine_supplyAbove (n : Nat) : (s.joinRoutine n).supplyAbove = s.supplyAbove := rfl
@[simp] theorem State.joinRoutine_resetHigh (n : Nat) : (s.joinRoutine n).resetHigh = s.resetHigh := rfl
@[simp] theorem State.joinRoutine_loading (n : Nat) : (s.joinRoutine n).loading = s.loading := rfl
@[simp] theorem State.joinRoutine_straps (n : Nat) : (s.joinRoutine n).straps = s.straps := rfl
@[simp] theorem State.joinRoutine_number (n : Nat) : (s.joinRoutine n).number = s.number := rfl
@[simp] theorem State.joinRoutine_error (n : Nat) : (s.joinRoutine n).error = s.error := rfl
@[simp] theorem State.joinRoutine_header (n : Nat) : (s.joinRoutine n).header = s.header := rfl
@[simp] theorem State.joinRoutine_faults (n : Nat) : (s.joinRoutine n).faults = s.faults := rfl
@[simp] theorem State.joinRoutine_joinTimer (n : Nat) : (s.joinRoutine n).joinTimer = s.joinTimer := rfl
@[simp] theorem State.joinRoutine_points (n : Nat) : (s.joinRoutine n).points = (s.updateOwned n fun o => { o with sched := .routine }).points := rfl
@[simp] theorem State.joinRoutine_pins (n : Nat) : (s.joinRoutine n).pins = s.pins := rfl
@[simp] theorem State.joinRoutine_urgent (n : Nat) : (s.joinRoutine n).urgent = s.urgent := rfl
@[simp] theorem State.joinRoutine_routine (n : Nat) : (s.joinRoutine n).routine = s.routine ++ [n] := rfl
@[simp] theorem State.joinRoutine_line (n : Nat) : (s.joinRoutine n).line = s.line := rfl
@[simp] theorem State.joinRoutine_assembly (n : Nat) : (s.joinRoutine n).assembly = s.assembly := rfl
@[simp] theorem State.joinRoutine_inFlight (n : Nat) : (s.joinRoutine n).inFlight = s.inFlight := rfl
@[simp] theorem State.joinRoutine_lineRate (n : Nat) : (s.joinRoutine n).lineRate = s.lineRate := rfl
@[simp] theorem State.joinRoutine_mode (n : Nat) : (s.joinRoutine n).mode = s.mode := rfl
@[simp] theorem State.joinRoutine_failures (n : Nat) : (s.joinRoutine n).failures = s.failures := rfl
@[simp] theorem State.joinRoutine_quarantineLength (n : Nat) : (s.joinRoutine n).quarantineLength = s.quarantineLength := rfl
@[simp] theorem State.joinRoutine_quarantineTimer (n : Nat) : (s.joinRoutine n).quarantineTimer = s.quarantineTimer := rfl
@[simp] theorem State.joinRoutine_solicits (n : Nat) : (s.joinRoutine n).solicits = s.solicits := rfl
@[simp] theorem State.joinRoutine_roster (n : Nat) : (s.joinRoutine n).roster = s.roster := rfl
@[simp] theorem State.joinRoutine_presenceTimer (n : Nat) : (s.joinRoutine n).presenceTimer = s.presenceTimer := rfl
@[simp] theorem State.joinRoutine_presencePending (n : Nat) : (s.joinRoutine n).presencePending = s.presencePending := rfl
@[simp] theorem State.joinRoutine_bootCount (n : Nat) : (s.joinRoutine n).bootCount = s.bootCount := rfl
@[simp] theorem State.joinRoutine_outputs (n : Nat) : (s.joinRoutine n).outputs = s.outputs := rfl
@[simp] theorem State.joinRoutine_replies (n : Nat) : (s.joinRoutine n).replies = s.replies := rfl
@[simp] theorem State.joinRoutine_recent (n : Nat) : (s.joinRoutine n).recent = s.recent := rfl
@[simp] theorem State.joinRoutine_counters (n : Nat) : (s.joinRoutine n).counters = s.counters := rfl
@[simp] theorem State.joinRoutine_pendingRestart (n : Nat) : (s.joinRoutine n).pendingRestart = s.pendingRestart := rfl
@[simp] theorem State.joinRoutine_clock (n : Nat) : (s.joinRoutine n).clock = s.clock := rfl
@[simp] theorem State.joinRoutine_pending (n : Nat) : (s.joinRoutine n).pending = s.pending := rfl

/-! ### promote -/

@[simp] theorem State.promote_station (n : Nat) : (s.promote n).station = s.station := rfl
@[simp] theorem State.promote_retained (n : Nat) : (s.promote n).retained = s.retained := rfl
@[simp] theorem State.promote_supplyAbove (n : Nat) : (s.promote n).supplyAbove = s.supplyAbove := rfl
@[simp] theorem State.promote_resetHigh (n : Nat) : (s.promote n).resetHigh = s.resetHigh := rfl
@[simp] theorem State.promote_loading (n : Nat) : (s.promote n).loading = s.loading := rfl
@[simp] theorem State.promote_straps (n : Nat) : (s.promote n).straps = s.straps := rfl
@[simp] theorem State.promote_number (n : Nat) : (s.promote n).number = s.number := rfl
@[simp] theorem State.promote_error (n : Nat) : (s.promote n).error = s.error := rfl
@[simp] theorem State.promote_header (n : Nat) : (s.promote n).header = s.header := rfl
@[simp] theorem State.promote_faults (n : Nat) : (s.promote n).faults = s.faults := rfl
@[simp] theorem State.promote_joinTimer (n : Nat) : (s.promote n).joinTimer = s.joinTimer := rfl
@[simp] theorem State.promote_points (n : Nat) : (s.promote n).points = (s.updateOwned n fun o => { o with sched := .urgent }).points := rfl
@[simp] theorem State.promote_pins (n : Nat) : (s.promote n).pins = s.pins := rfl
@[simp] theorem State.promote_urgent (n : Nat) : (s.promote n).urgent = s.urgent ++ [n] := rfl
@[simp] theorem State.promote_routine (n : Nat) : (s.promote n).routine = without n s.routine := rfl
@[simp] theorem State.promote_line (n : Nat) : (s.promote n).line = s.line := rfl
@[simp] theorem State.promote_assembly (n : Nat) : (s.promote n).assembly = s.assembly := rfl
@[simp] theorem State.promote_inFlight (n : Nat) : (s.promote n).inFlight = s.inFlight := rfl
@[simp] theorem State.promote_lineRate (n : Nat) : (s.promote n).lineRate = s.lineRate := rfl
@[simp] theorem State.promote_mode (n : Nat) : (s.promote n).mode = s.mode := rfl
@[simp] theorem State.promote_failures (n : Nat) : (s.promote n).failures = s.failures := rfl
@[simp] theorem State.promote_quarantineLength (n : Nat) : (s.promote n).quarantineLength = s.quarantineLength := rfl
@[simp] theorem State.promote_quarantineTimer (n : Nat) : (s.promote n).quarantineTimer = s.quarantineTimer := rfl
@[simp] theorem State.promote_solicits (n : Nat) : (s.promote n).solicits = s.solicits := rfl
@[simp] theorem State.promote_roster (n : Nat) : (s.promote n).roster = s.roster := rfl
@[simp] theorem State.promote_presenceTimer (n : Nat) : (s.promote n).presenceTimer = s.presenceTimer := rfl
@[simp] theorem State.promote_presencePending (n : Nat) : (s.promote n).presencePending = s.presencePending := rfl
@[simp] theorem State.promote_bootCount (n : Nat) : (s.promote n).bootCount = s.bootCount := rfl
@[simp] theorem State.promote_outputs (n : Nat) : (s.promote n).outputs = s.outputs := rfl
@[simp] theorem State.promote_replies (n : Nat) : (s.promote n).replies = s.replies := rfl
@[simp] theorem State.promote_recent (n : Nat) : (s.promote n).recent = s.recent := rfl
@[simp] theorem State.promote_counters (n : Nat) : (s.promote n).counters = s.counters := rfl
@[simp] theorem State.promote_pendingRestart (n : Nat) : (s.promote n).pendingRestart = s.pendingRestart := rfl
@[simp] theorem State.promote_clock (n : Nat) : (s.promote n).clock = s.clock := rfl
@[simp] theorem State.promote_pending (n : Nat) : (s.promote n).pending = s.pending := rfl

/-! ### leaveQueue -/

@[simp] theorem State.leaveQueue_station (n : Nat) (d : Sched) : (s.leaveQueue n d).station = s.station := rfl
@[simp] theorem State.leaveQueue_retained (n : Nat) (d : Sched) : (s.leaveQueue n d).retained = s.retained := rfl
@[simp] theorem State.leaveQueue_supplyAbove (n : Nat) (d : Sched) : (s.leaveQueue n d).supplyAbove = s.supplyAbove := rfl
@[simp] theorem State.leaveQueue_resetHigh (n : Nat) (d : Sched) : (s.leaveQueue n d).resetHigh = s.resetHigh := rfl
@[simp] theorem State.leaveQueue_loading (n : Nat) (d : Sched) : (s.leaveQueue n d).loading = s.loading := rfl
@[simp] theorem State.leaveQueue_straps (n : Nat) (d : Sched) : (s.leaveQueue n d).straps = s.straps := rfl
@[simp] theorem State.leaveQueue_number (n : Nat) (d : Sched) : (s.leaveQueue n d).number = s.number := rfl
@[simp] theorem State.leaveQueue_error (n : Nat) (d : Sched) : (s.leaveQueue n d).error = s.error := rfl
@[simp] theorem State.leaveQueue_header (n : Nat) (d : Sched) : (s.leaveQueue n d).header = s.header := rfl
@[simp] theorem State.leaveQueue_faults (n : Nat) (d : Sched) : (s.leaveQueue n d).faults = s.faults := rfl
@[simp] theorem State.leaveQueue_joinTimer (n : Nat) (d : Sched) : (s.leaveQueue n d).joinTimer = s.joinTimer := rfl
@[simp] theorem State.leaveQueue_points (n : Nat) (d : Sched) : (s.leaveQueue n d).points = (s.updateOwned n fun o => { o with sched := d, inFlight := false, dirty := false }).points := rfl
@[simp] theorem State.leaveQueue_pins (n : Nat) (d : Sched) : (s.leaveQueue n d).pins = s.pins := rfl
@[simp] theorem State.leaveQueue_urgent (n : Nat) (d : Sched) : (s.leaveQueue n d).urgent = without n s.urgent := rfl
@[simp] theorem State.leaveQueue_routine (n : Nat) (d : Sched) : (s.leaveQueue n d).routine = without n s.routine := rfl
@[simp] theorem State.leaveQueue_line (n : Nat) (d : Sched) : (s.leaveQueue n d).line = s.line := rfl
@[simp] theorem State.leaveQueue_assembly (n : Nat) (d : Sched) : (s.leaveQueue n d).assembly = s.assembly := rfl
@[simp] theorem State.leaveQueue_inFlight (n : Nat) (d : Sched) : (s.leaveQueue n d).inFlight = s.inFlight := rfl
@[simp] theorem State.leaveQueue_lineRate (n : Nat) (d : Sched) : (s.leaveQueue n d).lineRate = s.lineRate := rfl
@[simp] theorem State.leaveQueue_mode (n : Nat) (d : Sched) : (s.leaveQueue n d).mode = s.mode := rfl
@[simp] theorem State.leaveQueue_failures (n : Nat) (d : Sched) : (s.leaveQueue n d).failures = s.failures := rfl
@[simp] theorem State.leaveQueue_quarantineLength (n : Nat) (d : Sched) : (s.leaveQueue n d).quarantineLength = s.quarantineLength := rfl
@[simp] theorem State.leaveQueue_quarantineTimer (n : Nat) (d : Sched) : (s.leaveQueue n d).quarantineTimer = s.quarantineTimer := rfl
@[simp] theorem State.leaveQueue_solicits (n : Nat) (d : Sched) : (s.leaveQueue n d).solicits = s.solicits := rfl
@[simp] theorem State.leaveQueue_roster (n : Nat) (d : Sched) : (s.leaveQueue n d).roster = s.roster := rfl
@[simp] theorem State.leaveQueue_presenceTimer (n : Nat) (d : Sched) : (s.leaveQueue n d).presenceTimer = s.presenceTimer := rfl
@[simp] theorem State.leaveQueue_presencePending (n : Nat) (d : Sched) : (s.leaveQueue n d).presencePending = s.presencePending := rfl
@[simp] theorem State.leaveQueue_bootCount (n : Nat) (d : Sched) : (s.leaveQueue n d).bootCount = s.bootCount := rfl
@[simp] theorem State.leaveQueue_outputs (n : Nat) (d : Sched) : (s.leaveQueue n d).outputs = s.outputs := rfl
@[simp] theorem State.leaveQueue_replies (n : Nat) (d : Sched) : (s.leaveQueue n d).replies = s.replies := rfl
@[simp] theorem State.leaveQueue_recent (n : Nat) (d : Sched) : (s.leaveQueue n d).recent = s.recent := rfl
@[simp] theorem State.leaveQueue_counters (n : Nat) (d : Sched) : (s.leaveQueue n d).counters = s.counters := rfl
@[simp] theorem State.leaveQueue_pendingRestart (n : Nat) (d : Sched) : (s.leaveQueue n d).pendingRestart = s.pendingRestart := rfl
@[simp] theorem State.leaveQueue_clock (n : Nat) (d : Sched) : (s.leaveQueue n d).clock = s.clock := rfl
@[simp] theorem State.leaveQueue_pending (n : Nat) (d : Sched) : (s.leaveQueue n d).pending = s.pending := rfl

/-! ### yieldPoint -/

@[simp] theorem State.yieldPoint_station (n : Nat) : (s.yieldPoint n).station = s.station := rfl
@[simp] theorem State.yieldPoint_retained (n : Nat) : (s.yieldPoint n).retained = s.retained := rfl
@[simp] theorem State.yieldPoint_supplyAbove (n : Nat) : (s.yieldPoint n).supplyAbove = s.supplyAbove := rfl
@[simp] theorem State.yieldPoint_resetHigh (n : Nat) : (s.yieldPoint n).resetHigh = s.resetHigh := rfl
@[simp] theorem State.yieldPoint_loading (n : Nat) : (s.yieldPoint n).loading = s.loading := rfl
@[simp] theorem State.yieldPoint_straps (n : Nat) : (s.yieldPoint n).straps = s.straps := rfl
@[simp] theorem State.yieldPoint_number (n : Nat) : (s.yieldPoint n).number = s.number := rfl
@[simp] theorem State.yieldPoint_error (n : Nat) : (s.yieldPoint n).error = s.error := rfl
@[simp] theorem State.yieldPoint_header (n : Nat) : (s.yieldPoint n).header = s.header := rfl
@[simp] theorem State.yieldPoint_faults (n : Nat) : (s.yieldPoint n).faults = s.faults := rfl
@[simp] theorem State.yieldPoint_joinTimer (n : Nat) : (s.yieldPoint n).joinTimer = s.joinTimer := rfl
@[simp] theorem State.yieldPoint_points (n : Nat) : (s.yieldPoint n).points = ((s.leaveQueue n .yielded).updateOwned n fun o => { o with refreshTimer := none }).points := rfl
@[simp] theorem State.yieldPoint_pins (n : Nat) : (s.yieldPoint n).pins = s.pins := rfl
@[simp] theorem State.yieldPoint_urgent (n : Nat) : (s.yieldPoint n).urgent = without n s.urgent := rfl
@[simp] theorem State.yieldPoint_routine (n : Nat) : (s.yieldPoint n).routine = without n s.routine := rfl
@[simp] theorem State.yieldPoint_line (n : Nat) : (s.yieldPoint n).line = s.line := rfl
@[simp] theorem State.yieldPoint_assembly (n : Nat) : (s.yieldPoint n).assembly = s.assembly := rfl
@[simp] theorem State.yieldPoint_inFlight (n : Nat) : (s.yieldPoint n).inFlight = s.inFlight := rfl
@[simp] theorem State.yieldPoint_lineRate (n : Nat) : (s.yieldPoint n).lineRate = s.lineRate := rfl
@[simp] theorem State.yieldPoint_mode (n : Nat) : (s.yieldPoint n).mode = s.mode := rfl
@[simp] theorem State.yieldPoint_failures (n : Nat) : (s.yieldPoint n).failures = s.failures := rfl
@[simp] theorem State.yieldPoint_quarantineLength (n : Nat) : (s.yieldPoint n).quarantineLength = s.quarantineLength := rfl
@[simp] theorem State.yieldPoint_quarantineTimer (n : Nat) : (s.yieldPoint n).quarantineTimer = s.quarantineTimer := rfl
@[simp] theorem State.yieldPoint_solicits (n : Nat) : (s.yieldPoint n).solicits = s.solicits := rfl
@[simp] theorem State.yieldPoint_roster (n : Nat) : (s.yieldPoint n).roster = s.roster := rfl
@[simp] theorem State.yieldPoint_presenceTimer (n : Nat) : (s.yieldPoint n).presenceTimer = s.presenceTimer := rfl
@[simp] theorem State.yieldPoint_presencePending (n : Nat) : (s.yieldPoint n).presencePending = s.presencePending := rfl
@[simp] theorem State.yieldPoint_bootCount (n : Nat) : (s.yieldPoint n).bootCount = s.bootCount := rfl
@[simp] theorem State.yieldPoint_outputs (n : Nat) : (s.yieldPoint n).outputs = s.outputs := rfl
@[simp] theorem State.yieldPoint_replies (n : Nat) : (s.yieldPoint n).replies = s.replies := rfl
@[simp] theorem State.yieldPoint_recent (n : Nat) : (s.yieldPoint n).recent = s.recent := rfl
@[simp] theorem State.yieldPoint_counters (n : Nat) : (s.yieldPoint n).counters = s.counters := rfl
@[simp] theorem State.yieldPoint_pendingRestart (n : Nat) : (s.yieldPoint n).pendingRestart = s.pendingRestart := rfl
@[simp] theorem State.yieldPoint_clock (n : Nat) : (s.yieldPoint n).clock = s.clock := rfl
@[simp] theorem State.yieldPoint_pending (n : Nat) : (s.yieldPoint n).pending = s.pending := rfl

/-! ### stepWithEvent -/

@[simp] theorem State.stepWithEvent_station (n : Nat) : (s.stepWithEvent n).station = s.station := rfl
@[simp] theorem State.stepWithEvent_retained (n : Nat) : (s.stepWithEvent n).retained = s.retained := rfl
@[simp] theorem State.stepWithEvent_supplyAbove (n : Nat) : (s.stepWithEvent n).supplyAbove = s.supplyAbove := rfl
@[simp] theorem State.stepWithEvent_resetHigh (n : Nat) : (s.stepWithEvent n).resetHigh = s.resetHigh := rfl
@[simp] theorem State.stepWithEvent_loading (n : Nat) : (s.stepWithEvent n).loading = s.loading := rfl
@[simp] theorem State.stepWithEvent_straps (n : Nat) : (s.stepWithEvent n).straps = s.straps := rfl
@[simp] theorem State.stepWithEvent_number (n : Nat) : (s.stepWithEvent n).number = s.number := rfl
@[simp] theorem State.stepWithEvent_error (n : Nat) : (s.stepWithEvent n).error = s.error := rfl
@[simp] theorem State.stepWithEvent_header (n : Nat) : (s.stepWithEvent n).header = s.header := rfl
@[simp] theorem State.stepWithEvent_faults (n : Nat) : (s.stepWithEvent n).faults = s.faults := rfl
@[simp] theorem State.stepWithEvent_joinTimer (n : Nat) : (s.stepWithEvent n).joinTimer = s.joinTimer := rfl
@[simp] theorem State.stepWithEvent_points (n : Nat) : (s.stepWithEvent n).points = s.points.map fun p => if p.number = n then p.mapOwned (fun o => if isBinaryFromPin p.kind o then o else { o with count := o.count + 1 }) else p := rfl
@[simp] theorem State.stepWithEvent_pins (n : Nat) : (s.stepWithEvent n).pins = s.pins := rfl
@[simp] theorem State.stepWithEvent_urgent (n : Nat) : (s.stepWithEvent n).urgent = s.urgent := rfl
@[simp] theorem State.stepWithEvent_routine (n : Nat) : (s.stepWithEvent n).routine = s.routine := rfl
@[simp] theorem State.stepWithEvent_line (n : Nat) : (s.stepWithEvent n).line = s.line := rfl
@[simp] theorem State.stepWithEvent_assembly (n : Nat) : (s.stepWithEvent n).assembly = s.assembly := rfl
@[simp] theorem State.stepWithEvent_inFlight (n : Nat) : (s.stepWithEvent n).inFlight = s.inFlight := rfl
@[simp] theorem State.stepWithEvent_lineRate (n : Nat) : (s.stepWithEvent n).lineRate = s.lineRate := rfl
@[simp] theorem State.stepWithEvent_mode (n : Nat) : (s.stepWithEvent n).mode = s.mode := rfl
@[simp] theorem State.stepWithEvent_failures (n : Nat) : (s.stepWithEvent n).failures = s.failures := rfl
@[simp] theorem State.stepWithEvent_quarantineLength (n : Nat) : (s.stepWithEvent n).quarantineLength = s.quarantineLength := rfl
@[simp] theorem State.stepWithEvent_quarantineTimer (n : Nat) : (s.stepWithEvent n).quarantineTimer = s.quarantineTimer := rfl
@[simp] theorem State.stepWithEvent_solicits (n : Nat) : (s.stepWithEvent n).solicits = s.solicits := rfl
@[simp] theorem State.stepWithEvent_roster (n : Nat) : (s.stepWithEvent n).roster = s.roster := rfl
@[simp] theorem State.stepWithEvent_presenceTimer (n : Nat) : (s.stepWithEvent n).presenceTimer = s.presenceTimer := rfl
@[simp] theorem State.stepWithEvent_presencePending (n : Nat) : (s.stepWithEvent n).presencePending = s.presencePending := rfl
@[simp] theorem State.stepWithEvent_bootCount (n : Nat) : (s.stepWithEvent n).bootCount = s.bootCount := rfl
@[simp] theorem State.stepWithEvent_outputs (n : Nat) : (s.stepWithEvent n).outputs = s.outputs := rfl
@[simp] theorem State.stepWithEvent_replies (n : Nat) : (s.stepWithEvent n).replies = s.replies := rfl
@[simp] theorem State.stepWithEvent_recent (n : Nat) : (s.stepWithEvent n).recent = s.recent := rfl
@[simp] theorem State.stepWithEvent_counters (n : Nat) : (s.stepWithEvent n).counters = s.counters := rfl
@[simp] theorem State.stepWithEvent_pendingRestart (n : Nat) : (s.stepWithEvent n).pendingRestart = s.pendingRestart := rfl
@[simp] theorem State.stepWithEvent_clock (n : Nat) : (s.stepWithEvent n).clock = s.clock := rfl
@[simp] theorem State.stepWithEvent_pending (n : Nat) : (s.stepWithEvent n).pending = s.pending := rfl

/-! ### setDirty -/

@[simp] theorem State.setDirty_station (n : Nat) : (s.setDirty n).station = s.station := rfl
@[simp] theorem State.setDirty_retained (n : Nat) : (s.setDirty n).retained = s.retained := rfl
@[simp] theorem State.setDirty_supplyAbove (n : Nat) : (s.setDirty n).supplyAbove = s.supplyAbove := rfl
@[simp] theorem State.setDirty_resetHigh (n : Nat) : (s.setDirty n).resetHigh = s.resetHigh := rfl
@[simp] theorem State.setDirty_loading (n : Nat) : (s.setDirty n).loading = s.loading := rfl
@[simp] theorem State.setDirty_straps (n : Nat) : (s.setDirty n).straps = s.straps := rfl
@[simp] theorem State.setDirty_number (n : Nat) : (s.setDirty n).number = s.number := rfl
@[simp] theorem State.setDirty_error (n : Nat) : (s.setDirty n).error = s.error := rfl
@[simp] theorem State.setDirty_header (n : Nat) : (s.setDirty n).header = s.header := rfl
@[simp] theorem State.setDirty_faults (n : Nat) : (s.setDirty n).faults = s.faults := rfl
@[simp] theorem State.setDirty_joinTimer (n : Nat) : (s.setDirty n).joinTimer = s.joinTimer := rfl
@[simp] theorem State.setDirty_points (n : Nat) : (s.setDirty n).points = (s.updateOwned n fun o => { o with dirty := true }).points := rfl
@[simp] theorem State.setDirty_pins (n : Nat) : (s.setDirty n).pins = s.pins := rfl
@[simp] theorem State.setDirty_urgent (n : Nat) : (s.setDirty n).urgent = s.urgent := rfl
@[simp] theorem State.setDirty_routine (n : Nat) : (s.setDirty n).routine = s.routine := rfl
@[simp] theorem State.setDirty_line (n : Nat) : (s.setDirty n).line = s.line := rfl
@[simp] theorem State.setDirty_assembly (n : Nat) : (s.setDirty n).assembly = s.assembly := rfl
@[simp] theorem State.setDirty_inFlight (n : Nat) : (s.setDirty n).inFlight = s.inFlight := rfl
@[simp] theorem State.setDirty_lineRate (n : Nat) : (s.setDirty n).lineRate = s.lineRate := rfl
@[simp] theorem State.setDirty_mode (n : Nat) : (s.setDirty n).mode = s.mode := rfl
@[simp] theorem State.setDirty_failures (n : Nat) : (s.setDirty n).failures = s.failures := rfl
@[simp] theorem State.setDirty_quarantineLength (n : Nat) : (s.setDirty n).quarantineLength = s.quarantineLength := rfl
@[simp] theorem State.setDirty_quarantineTimer (n : Nat) : (s.setDirty n).quarantineTimer = s.quarantineTimer := rfl
@[simp] theorem State.setDirty_solicits (n : Nat) : (s.setDirty n).solicits = s.solicits := rfl
@[simp] theorem State.setDirty_roster (n : Nat) : (s.setDirty n).roster = s.roster := rfl
@[simp] theorem State.setDirty_presenceTimer (n : Nat) : (s.setDirty n).presenceTimer = s.presenceTimer := rfl
@[simp] theorem State.setDirty_presencePending (n : Nat) : (s.setDirty n).presencePending = s.presencePending := rfl
@[simp] theorem State.setDirty_bootCount (n : Nat) : (s.setDirty n).bootCount = s.bootCount := rfl
@[simp] theorem State.setDirty_outputs (n : Nat) : (s.setDirty n).outputs = s.outputs := rfl
@[simp] theorem State.setDirty_replies (n : Nat) : (s.setDirty n).replies = s.replies := rfl
@[simp] theorem State.setDirty_recent (n : Nat) : (s.setDirty n).recent = s.recent := rfl
@[simp] theorem State.setDirty_counters (n : Nat) : (s.setDirty n).counters = s.counters := rfl
@[simp] theorem State.setDirty_pendingRestart (n : Nat) : (s.setDirty n).pendingRestart = s.pendingRestart := rfl
@[simp] theorem State.setDirty_clock (n : Nat) : (s.setDirty n).clock = s.clock := rfl
@[simp] theorem State.setDirty_pending (n : Nat) : (s.setDirty n).pending = s.pending := rfl

/-! ### updateOverrides -/

@[simp] theorem State.updateOverrides_station (i : Fin 16) (f : List Override → List Override) : (s.updateOverrides i f).station = s.station := rfl
@[simp] theorem State.updateOverrides_retained (i : Fin 16) (f : List Override → List Override) : (s.updateOverrides i f).retained = s.retained := rfl
@[simp] theorem State.updateOverrides_supplyAbove (i : Fin 16) (f : List Override → List Override) : (s.updateOverrides i f).supplyAbove = s.supplyAbove := rfl
@[simp] theorem State.updateOverrides_resetHigh (i : Fin 16) (f : List Override → List Override) : (s.updateOverrides i f).resetHigh = s.resetHigh := rfl
@[simp] theorem State.updateOverrides_loading (i : Fin 16) (f : List Override → List Override) : (s.updateOverrides i f).loading = s.loading := rfl
@[simp] theorem State.updateOverrides_straps (i : Fin 16) (f : List Override → List Override) : (s.updateOverrides i f).straps = s.straps := rfl
@[simp] theorem State.updateOverrides_number (i : Fin 16) (f : List Override → List Override) : (s.updateOverrides i f).number = s.number := rfl
@[simp] theorem State.updateOverrides_error (i : Fin 16) (f : List Override → List Override) : (s.updateOverrides i f).error = s.error := rfl
@[simp] theorem State.updateOverrides_header (i : Fin 16) (f : List Override → List Override) : (s.updateOverrides i f).header = s.header := rfl
@[simp] theorem State.updateOverrides_faults (i : Fin 16) (f : List Override → List Override) : (s.updateOverrides i f).faults = s.faults := rfl
@[simp] theorem State.updateOverrides_joinTimer (i : Fin 16) (f : List Override → List Override) : (s.updateOverrides i f).joinTimer = s.joinTimer := rfl
@[simp] theorem State.updateOverrides_points (i : Fin 16) (f : List Override → List Override) : (s.updateOverrides i f).points = s.points := rfl
@[simp] theorem State.updateOverrides_pins (i : Fin 16) (f : List Override → List Override) : (s.updateOverrides i f).pins = s.pins := rfl
@[simp] theorem State.updateOverrides_urgent (i : Fin 16) (f : List Override → List Override) : (s.updateOverrides i f).urgent = s.urgent := rfl
@[simp] theorem State.updateOverrides_routine (i : Fin 16) (f : List Override → List Override) : (s.updateOverrides i f).routine = s.routine := rfl
@[simp] theorem State.updateOverrides_line (i : Fin 16) (f : List Override → List Override) : (s.updateOverrides i f).line = s.line := rfl
@[simp] theorem State.updateOverrides_assembly (i : Fin 16) (f : List Override → List Override) : (s.updateOverrides i f).assembly = s.assembly := rfl
@[simp] theorem State.updateOverrides_inFlight (i : Fin 16) (f : List Override → List Override) : (s.updateOverrides i f).inFlight = s.inFlight := rfl
@[simp] theorem State.updateOverrides_lineRate (i : Fin 16) (f : List Override → List Override) : (s.updateOverrides i f).lineRate = s.lineRate := rfl
@[simp] theorem State.updateOverrides_mode (i : Fin 16) (f : List Override → List Override) : (s.updateOverrides i f).mode = s.mode := rfl
@[simp] theorem State.updateOverrides_failures (i : Fin 16) (f : List Override → List Override) : (s.updateOverrides i f).failures = s.failures := rfl
@[simp] theorem State.updateOverrides_quarantineLength (i : Fin 16) (f : List Override → List Override) : (s.updateOverrides i f).quarantineLength = s.quarantineLength := rfl
@[simp] theorem State.updateOverrides_quarantineTimer (i : Fin 16) (f : List Override → List Override) : (s.updateOverrides i f).quarantineTimer = s.quarantineTimer := rfl
@[simp] theorem State.updateOverrides_solicits (i : Fin 16) (f : List Override → List Override) : (s.updateOverrides i f).solicits = s.solicits := rfl
@[simp] theorem State.updateOverrides_roster (i : Fin 16) (f : List Override → List Override) : (s.updateOverrides i f).roster = s.roster := rfl
@[simp] theorem State.updateOverrides_presenceTimer (i : Fin 16) (f : List Override → List Override) : (s.updateOverrides i f).presenceTimer = s.presenceTimer := rfl
@[simp] theorem State.updateOverrides_presencePending (i : Fin 16) (f : List Override → List Override) : (s.updateOverrides i f).presencePending = s.presencePending := rfl
@[simp] theorem State.updateOverrides_bootCount (i : Fin 16) (f : List Override → List Override) : (s.updateOverrides i f).bootCount = s.bootCount := rfl
@[simp] theorem State.updateOverrides_outputs (i : Fin 16) (f : List Override → List Override) : (s.updateOverrides i f).outputs = s.outputs.map fun o => if o.pin = i then { o with overrides := f o.overrides } else o := rfl
@[simp] theorem State.updateOverrides_replies (i : Fin 16) (f : List Override → List Override) : (s.updateOverrides i f).replies = s.replies := rfl
@[simp] theorem State.updateOverrides_recent (i : Fin 16) (f : List Override → List Override) : (s.updateOverrides i f).recent = s.recent := rfl
@[simp] theorem State.updateOverrides_counters (i : Fin 16) (f : List Override → List Override) : (s.updateOverrides i f).counters = s.counters := rfl
@[simp] theorem State.updateOverrides_pendingRestart (i : Fin 16) (f : List Override → List Override) : (s.updateOverrides i f).pendingRestart = s.pendingRestart := rfl
@[simp] theorem State.updateOverrides_clock (i : Fin 16) (f : List Override → List Override) : (s.updateOverrides i f).clock = s.clock := rfl
@[simp] theorem State.updateOverrides_pending (i : Fin 16) (f : List Override → List Override) : (s.updateOverrides i f).pending = s.pending := rfl

/-! ### writeStatus -/

@[simp] theorem State.writeStatus_station : (s.writeStatus).station = s.station := rfl
@[simp] theorem State.writeStatus_retained : (s.writeStatus).retained = s.retained := rfl
@[simp] theorem State.writeStatus_supplyAbove : (s.writeStatus).supplyAbove = s.supplyAbove := rfl
@[simp] theorem State.writeStatus_resetHigh : (s.writeStatus).resetHigh = s.resetHigh := rfl
@[simp] theorem State.writeStatus_loading : (s.writeStatus).loading = s.loading := rfl
@[simp] theorem State.writeStatus_straps : (s.writeStatus).straps = s.straps := rfl
@[simp] theorem State.writeStatus_number : (s.writeStatus).number = s.number := rfl
@[simp] theorem State.writeStatus_error : (s.writeStatus).error = s.error := rfl
@[simp] theorem State.writeStatus_header : (s.writeStatus).header = s.header := rfl
@[simp] theorem State.writeStatus_faults : (s.writeStatus).faults = s.faults := rfl
@[simp] theorem State.writeStatus_joinTimer : (s.writeStatus).joinTimer = s.joinTimer := rfl
@[simp] theorem State.writeStatus_points : (s.writeStatus).points = s.points.map fun p => p.mapOwned fun o => if o.source = .status then { o with current := statusValue p.kind s.faults } else o := rfl
@[simp] theorem State.writeStatus_pins : (s.writeStatus).pins = s.pins := rfl
@[simp] theorem State.writeStatus_urgent : (s.writeStatus).urgent = s.urgent := rfl
@[simp] theorem State.writeStatus_routine : (s.writeStatus).routine = s.routine := rfl
@[simp] theorem State.writeStatus_line : (s.writeStatus).line = s.line := rfl
@[simp] theorem State.writeStatus_assembly : (s.writeStatus).assembly = s.assembly := rfl
@[simp] theorem State.writeStatus_inFlight : (s.writeStatus).inFlight = s.inFlight := rfl
@[simp] theorem State.writeStatus_lineRate : (s.writeStatus).lineRate = s.lineRate := rfl
@[simp] theorem State.writeStatus_mode : (s.writeStatus).mode = s.mode := rfl
@[simp] theorem State.writeStatus_failures : (s.writeStatus).failures = s.failures := rfl
@[simp] theorem State.writeStatus_quarantineLength : (s.writeStatus).quarantineLength = s.quarantineLength := rfl
@[simp] theorem State.writeStatus_quarantineTimer : (s.writeStatus).quarantineTimer = s.quarantineTimer := rfl
@[simp] theorem State.writeStatus_solicits : (s.writeStatus).solicits = s.solicits := rfl
@[simp] theorem State.writeStatus_roster : (s.writeStatus).roster = s.roster := rfl
@[simp] theorem State.writeStatus_presenceTimer : (s.writeStatus).presenceTimer = s.presenceTimer := rfl
@[simp] theorem State.writeStatus_presencePending : (s.writeStatus).presencePending = s.presencePending := rfl
@[simp] theorem State.writeStatus_bootCount : (s.writeStatus).bootCount = s.bootCount := rfl
@[simp] theorem State.writeStatus_outputs : (s.writeStatus).outputs = s.outputs := rfl
@[simp] theorem State.writeStatus_replies : (s.writeStatus).replies = s.replies := rfl
@[simp] theorem State.writeStatus_recent : (s.writeStatus).recent = s.recent := rfl
@[simp] theorem State.writeStatus_counters : (s.writeStatus).counters = s.counters := rfl
@[simp] theorem State.writeStatus_pendingRestart : (s.writeStatus).pendingRestart = s.pendingRestart := rfl
@[simp] theorem State.writeStatus_clock : (s.writeStatus).clock = s.clock := rfl
@[simp] theorem State.writeStatus_pending : (s.writeStatus).pending = s.pending := rfl

/-! ### removeSolicit -/

@[simp] theorem State.removeSolicit_station (n : Nat) : (s.removeSolicit n).station = s.station := rfl
@[simp] theorem State.removeSolicit_retained (n : Nat) : (s.removeSolicit n).retained = s.retained := rfl
@[simp] theorem State.removeSolicit_supplyAbove (n : Nat) : (s.removeSolicit n).supplyAbove = s.supplyAbove := rfl
@[simp] theorem State.removeSolicit_resetHigh (n : Nat) : (s.removeSolicit n).resetHigh = s.resetHigh := rfl
@[simp] theorem State.removeSolicit_loading (n : Nat) : (s.removeSolicit n).loading = s.loading := rfl
@[simp] theorem State.removeSolicit_straps (n : Nat) : (s.removeSolicit n).straps = s.straps := rfl
@[simp] theorem State.removeSolicit_number (n : Nat) : (s.removeSolicit n).number = s.number := rfl
@[simp] theorem State.removeSolicit_error (n : Nat) : (s.removeSolicit n).error = s.error := rfl
@[simp] theorem State.removeSolicit_header (n : Nat) : (s.removeSolicit n).header = s.header := rfl
@[simp] theorem State.removeSolicit_faults (n : Nat) : (s.removeSolicit n).faults = s.faults := rfl
@[simp] theorem State.removeSolicit_joinTimer (n : Nat) : (s.removeSolicit n).joinTimer = s.joinTimer := rfl
@[simp] theorem State.removeSolicit_points (n : Nat) : (s.removeSolicit n).points = s.points := rfl
@[simp] theorem State.removeSolicit_pins (n : Nat) : (s.removeSolicit n).pins = s.pins := rfl
@[simp] theorem State.removeSolicit_urgent (n : Nat) : (s.removeSolicit n).urgent = s.urgent := rfl
@[simp] theorem State.removeSolicit_routine (n : Nat) : (s.removeSolicit n).routine = s.routine := rfl
@[simp] theorem State.removeSolicit_line (n : Nat) : (s.removeSolicit n).line = s.line := rfl
@[simp] theorem State.removeSolicit_assembly (n : Nat) : (s.removeSolicit n).assembly = s.assembly := rfl
@[simp] theorem State.removeSolicit_inFlight (n : Nat) : (s.removeSolicit n).inFlight = s.inFlight := rfl
@[simp] theorem State.removeSolicit_lineRate (n : Nat) : (s.removeSolicit n).lineRate = s.lineRate := rfl
@[simp] theorem State.removeSolicit_mode (n : Nat) : (s.removeSolicit n).mode = s.mode := rfl
@[simp] theorem State.removeSolicit_failures (n : Nat) : (s.removeSolicit n).failures = s.failures := rfl
@[simp] theorem State.removeSolicit_quarantineLength (n : Nat) : (s.removeSolicit n).quarantineLength = s.quarantineLength := rfl
@[simp] theorem State.removeSolicit_quarantineTimer (n : Nat) : (s.removeSolicit n).quarantineTimer = s.quarantineTimer := rfl
@[simp] theorem State.removeSolicit_solicits (n : Nat) : (s.removeSolicit n).solicits = s.solicits.filter fun e => e.point != n := rfl
@[simp] theorem State.removeSolicit_roster (n : Nat) : (s.removeSolicit n).roster = s.roster := rfl
@[simp] theorem State.removeSolicit_presenceTimer (n : Nat) : (s.removeSolicit n).presenceTimer = s.presenceTimer := rfl
@[simp] theorem State.removeSolicit_presencePending (n : Nat) : (s.removeSolicit n).presencePending = s.presencePending := rfl
@[simp] theorem State.removeSolicit_bootCount (n : Nat) : (s.removeSolicit n).bootCount = s.bootCount := rfl
@[simp] theorem State.removeSolicit_outputs (n : Nat) : (s.removeSolicit n).outputs = s.outputs := rfl
@[simp] theorem State.removeSolicit_replies (n : Nat) : (s.removeSolicit n).replies = s.replies := rfl
@[simp] theorem State.removeSolicit_recent (n : Nat) : (s.removeSolicit n).recent = s.recent := rfl
@[simp] theorem State.removeSolicit_counters (n : Nat) : (s.removeSolicit n).counters = s.counters := rfl
@[simp] theorem State.removeSolicit_pendingRestart (n : Nat) : (s.removeSolicit n).pendingRestart = s.pendingRestart := rfl
@[simp] theorem State.removeSolicit_clock (n : Nat) : (s.removeSolicit n).clock = s.clock := rfl
@[simp] theorem State.removeSolicit_pending (n : Nat) : (s.removeSolicit n).pending = s.pending := rfl

/-! ### coverPoint -/

@[simp] theorem State.coverPoint_station (n : Nat) : (s.coverPoint n).station = s.station := rfl
@[simp] theorem State.coverPoint_retained (n : Nat) : (s.coverPoint n).retained = s.retained := rfl
@[simp] theorem State.coverPoint_supplyAbove (n : Nat) : (s.coverPoint n).supplyAbove = s.supplyAbove := rfl
@[simp] theorem State.coverPoint_resetHigh (n : Nat) : (s.coverPoint n).resetHigh = s.resetHigh := rfl
@[simp] theorem State.coverPoint_loading (n : Nat) : (s.coverPoint n).loading = s.loading := rfl
@[simp] theorem State.coverPoint_straps (n : Nat) : (s.coverPoint n).straps = s.straps := rfl
@[simp] theorem State.coverPoint_number (n : Nat) : (s.coverPoint n).number = s.number := rfl
@[simp] theorem State.coverPoint_error (n : Nat) : (s.coverPoint n).error = s.error := rfl
@[simp] theorem State.coverPoint_header (n : Nat) : (s.coverPoint n).header = s.header := rfl
@[simp] theorem State.coverPoint_faults (n : Nat) : (s.coverPoint n).faults = s.faults := rfl
@[simp] theorem State.coverPoint_joinTimer (n : Nat) : (s.coverPoint n).joinTimer = s.joinTimer := rfl
@[simp] theorem State.coverPoint_points (n : Nat) : (s.coverPoint n).points = s.points := rfl
@[simp] theorem State.coverPoint_pins (n : Nat) : (s.coverPoint n).pins = s.pins := rfl
@[simp] theorem State.coverPoint_urgent (n : Nat) : (s.coverPoint n).urgent = s.urgent := rfl
@[simp] theorem State.coverPoint_routine (n : Nat) : (s.coverPoint n).routine = s.routine := rfl
@[simp] theorem State.coverPoint_line (n : Nat) : (s.coverPoint n).line = s.line := rfl
@[simp] theorem State.coverPoint_assembly (n : Nat) : (s.coverPoint n).assembly = s.assembly := rfl
@[simp] theorem State.coverPoint_inFlight (n : Nat) : (s.coverPoint n).inFlight = s.inFlight := rfl
@[simp] theorem State.coverPoint_lineRate (n : Nat) : (s.coverPoint n).lineRate = s.lineRate := rfl
@[simp] theorem State.coverPoint_mode (n : Nat) : (s.coverPoint n).mode = s.mode := rfl
@[simp] theorem State.coverPoint_failures (n : Nat) : (s.coverPoint n).failures = s.failures := rfl
@[simp] theorem State.coverPoint_quarantineLength (n : Nat) : (s.coverPoint n).quarantineLength = s.quarantineLength := rfl
@[simp] theorem State.coverPoint_quarantineTimer (n : Nat) : (s.coverPoint n).quarantineTimer = s.quarantineTimer := rfl
@[simp] theorem State.coverPoint_solicits (n : Nat) : (s.coverPoint n).solicits = s.solicits.map fun e => if e.point = n then e.cover s.clock else e := rfl
@[simp] theorem State.coverPoint_roster (n : Nat) : (s.coverPoint n).roster = s.roster := rfl
@[simp] theorem State.coverPoint_presenceTimer (n : Nat) : (s.coverPoint n).presenceTimer = s.presenceTimer := rfl
@[simp] theorem State.coverPoint_presencePending (n : Nat) : (s.coverPoint n).presencePending = s.presencePending := rfl
@[simp] theorem State.coverPoint_bootCount (n : Nat) : (s.coverPoint n).bootCount = s.bootCount := rfl
@[simp] theorem State.coverPoint_outputs (n : Nat) : (s.coverPoint n).outputs = s.outputs := rfl
@[simp] theorem State.coverPoint_replies (n : Nat) : (s.coverPoint n).replies = s.replies := rfl
@[simp] theorem State.coverPoint_recent (n : Nat) : (s.coverPoint n).recent = s.recent := rfl
@[simp] theorem State.coverPoint_counters (n : Nat) : (s.coverPoint n).counters = s.counters := rfl
@[simp] theorem State.coverPoint_pendingRestart (n : Nat) : (s.coverPoint n).pendingRestart = s.pendingRestart := rfl
@[simp] theorem State.coverPoint_clock (n : Nat) : (s.coverPoint n).clock = s.clock := rfl
@[simp] theorem State.coverPoint_pending (n : Nat) : (s.coverPoint n).pending = s.pending := rfl

/-! ### solicitOutcome -/

@[simp] theorem State.solicitOutcome_station (b : Bool) : (s.solicitOutcome b).station = s.station := rfl
@[simp] theorem State.solicitOutcome_retained (b : Bool) : (s.solicitOutcome b).retained = s.retained := rfl
@[simp] theorem State.solicitOutcome_supplyAbove (b : Bool) : (s.solicitOutcome b).supplyAbove = s.supplyAbove := rfl
@[simp] theorem State.solicitOutcome_resetHigh (b : Bool) : (s.solicitOutcome b).resetHigh = s.resetHigh := rfl
@[simp] theorem State.solicitOutcome_loading (b : Bool) : (s.solicitOutcome b).loading = s.loading := rfl
@[simp] theorem State.solicitOutcome_straps (b : Bool) : (s.solicitOutcome b).straps = s.straps := rfl
@[simp] theorem State.solicitOutcome_number (b : Bool) : (s.solicitOutcome b).number = s.number := rfl
@[simp] theorem State.solicitOutcome_error (b : Bool) : (s.solicitOutcome b).error = s.error := rfl
@[simp] theorem State.solicitOutcome_header (b : Bool) : (s.solicitOutcome b).header = s.header := rfl
@[simp] theorem State.solicitOutcome_faults (b : Bool) : (s.solicitOutcome b).faults = s.faults := rfl
@[simp] theorem State.solicitOutcome_joinTimer (b : Bool) : (s.solicitOutcome b).joinTimer = s.joinTimer := rfl
@[simp] theorem State.solicitOutcome_points (b : Bool) : (s.solicitOutcome b).points = s.points := rfl
@[simp] theorem State.solicitOutcome_pins (b : Bool) : (s.solicitOutcome b).pins = s.pins := rfl
@[simp] theorem State.solicitOutcome_urgent (b : Bool) : (s.solicitOutcome b).urgent = s.urgent := rfl
@[simp] theorem State.solicitOutcome_routine (b : Bool) : (s.solicitOutcome b).routine = s.routine := rfl
@[simp] theorem State.solicitOutcome_line (b : Bool) : (s.solicitOutcome b).line = s.line := rfl
@[simp] theorem State.solicitOutcome_assembly (b : Bool) : (s.solicitOutcome b).assembly = s.assembly := rfl
@[simp] theorem State.solicitOutcome_inFlight (b : Bool) : (s.solicitOutcome b).inFlight = s.inFlight := rfl
@[simp] theorem State.solicitOutcome_lineRate (b : Bool) : (s.solicitOutcome b).lineRate = s.lineRate := rfl
@[simp] theorem State.solicitOutcome_mode (b : Bool) : (s.solicitOutcome b).mode = s.mode := rfl
@[simp] theorem State.solicitOutcome_failures (b : Bool) : (s.solicitOutcome b).failures = s.failures := rfl
@[simp] theorem State.solicitOutcome_quarantineLength (b : Bool) : (s.solicitOutcome b).quarantineLength = s.quarantineLength := rfl
@[simp] theorem State.solicitOutcome_quarantineTimer (b : Bool) : (s.solicitOutcome b).quarantineTimer = s.quarantineTimer := rfl
@[simp] theorem State.solicitOutcome_solicits (b : Bool) : (s.solicitOutcome b).solicits = s.solicits.map fun e => if e.flying then { e with state := if b then .sent (s.clock + Config.solicitWait) else .waiting false } else e := rfl
@[simp] theorem State.solicitOutcome_roster (b : Bool) : (s.solicitOutcome b).roster = s.roster := rfl
@[simp] theorem State.solicitOutcome_presenceTimer (b : Bool) : (s.solicitOutcome b).presenceTimer = s.presenceTimer := rfl
@[simp] theorem State.solicitOutcome_presencePending (b : Bool) : (s.solicitOutcome b).presencePending = s.presencePending := rfl
@[simp] theorem State.solicitOutcome_bootCount (b : Bool) : (s.solicitOutcome b).bootCount = s.bootCount := rfl
@[simp] theorem State.solicitOutcome_outputs (b : Bool) : (s.solicitOutcome b).outputs = s.outputs := rfl
@[simp] theorem State.solicitOutcome_replies (b : Bool) : (s.solicitOutcome b).replies = s.replies := rfl
@[simp] theorem State.solicitOutcome_recent (b : Bool) : (s.solicitOutcome b).recent = s.recent := rfl
@[simp] theorem State.solicitOutcome_counters (b : Bool) : (s.solicitOutcome b).counters = s.counters := rfl
@[simp] theorem State.solicitOutcome_pendingRestart (b : Bool) : (s.solicitOutcome b).pendingRestart = s.pendingRestart := rfl
@[simp] theorem State.solicitOutcome_clock (b : Bool) : (s.solicitOutcome b).clock = s.clock := rfl
@[simp] theorem State.solicitOutcome_pending (b : Bool) : (s.solicitOutcome b).pending = s.pending := rfl

/-! ### keepHoldsMark -/

@[simp] theorem State.keepHoldsMark_station (p : Station) : (s.keepHoldsMark p).station = s.station := rfl
@[simp] theorem State.keepHoldsMark_retained (p : Station) : (s.keepHoldsMark p).retained = s.retained := rfl
@[simp] theorem State.keepHoldsMark_supplyAbove (p : Station) : (s.keepHoldsMark p).supplyAbove = s.supplyAbove := rfl
@[simp] theorem State.keepHoldsMark_resetHigh (p : Station) : (s.keepHoldsMark p).resetHigh = s.resetHigh := rfl
@[simp] theorem State.keepHoldsMark_loading (p : Station) : (s.keepHoldsMark p).loading = s.loading := rfl
@[simp] theorem State.keepHoldsMark_straps (p : Station) : (s.keepHoldsMark p).straps = s.straps := rfl
@[simp] theorem State.keepHoldsMark_number (p : Station) : (s.keepHoldsMark p).number = s.number := rfl
@[simp] theorem State.keepHoldsMark_error (p : Station) : (s.keepHoldsMark p).error = s.error := rfl
@[simp] theorem State.keepHoldsMark_header (p : Station) : (s.keepHoldsMark p).header = s.header := rfl
@[simp] theorem State.keepHoldsMark_faults (p : Station) : (s.keepHoldsMark p).faults = s.faults := rfl
@[simp] theorem State.keepHoldsMark_joinTimer (p : Station) : (s.keepHoldsMark p).joinTimer = s.joinTimer := rfl
@[simp] theorem State.keepHoldsMark_points (p : Station) : (s.keepHoldsMark p).points = s.points := rfl
@[simp] theorem State.keepHoldsMark_pins (p : Station) : (s.keepHoldsMark p).pins = s.pins := rfl
@[simp] theorem State.keepHoldsMark_urgent (p : Station) : (s.keepHoldsMark p).urgent = s.urgent := rfl
@[simp] theorem State.keepHoldsMark_routine (p : Station) : (s.keepHoldsMark p).routine = s.routine := rfl
@[simp] theorem State.keepHoldsMark_line (p : Station) : (s.keepHoldsMark p).line = s.line := rfl
@[simp] theorem State.keepHoldsMark_assembly (p : Station) : (s.keepHoldsMark p).assembly = s.assembly := rfl
@[simp] theorem State.keepHoldsMark_inFlight (p : Station) : (s.keepHoldsMark p).inFlight = s.inFlight := rfl
@[simp] theorem State.keepHoldsMark_lineRate (p : Station) : (s.keepHoldsMark p).lineRate = s.lineRate := rfl
@[simp] theorem State.keepHoldsMark_mode (p : Station) : (s.keepHoldsMark p).mode = s.mode := rfl
@[simp] theorem State.keepHoldsMark_failures (p : Station) : (s.keepHoldsMark p).failures = s.failures := rfl
@[simp] theorem State.keepHoldsMark_quarantineLength (p : Station) : (s.keepHoldsMark p).quarantineLength = s.quarantineLength := rfl
@[simp] theorem State.keepHoldsMark_quarantineTimer (p : Station) : (s.keepHoldsMark p).quarantineTimer = s.quarantineTimer := rfl
@[simp] theorem State.keepHoldsMark_solicits (p : Station) : (s.keepHoldsMark p).solicits = s.solicits := rfl
@[simp] theorem State.keepHoldsMark_roster (p : Station) : (s.keepHoldsMark p).roster = s.roster.map fun e => if e.station = p then { e with holdsOverrides := holdsOverride p s.outputs } else e := rfl
@[simp] theorem State.keepHoldsMark_presenceTimer (p : Station) : (s.keepHoldsMark p).presenceTimer = s.presenceTimer := rfl
@[simp] theorem State.keepHoldsMark_presencePending (p : Station) : (s.keepHoldsMark p).presencePending = s.presencePending := rfl
@[simp] theorem State.keepHoldsMark_bootCount (p : Station) : (s.keepHoldsMark p).bootCount = s.bootCount := rfl
@[simp] theorem State.keepHoldsMark_outputs (p : Station) : (s.keepHoldsMark p).outputs = s.outputs := rfl
@[simp] theorem State.keepHoldsMark_replies (p : Station) : (s.keepHoldsMark p).replies = s.replies := rfl
@[simp] theorem State.keepHoldsMark_recent (p : Station) : (s.keepHoldsMark p).recent = s.recent := rfl
@[simp] theorem State.keepHoldsMark_counters (p : Station) : (s.keepHoldsMark p).counters = s.counters := rfl
@[simp] theorem State.keepHoldsMark_pendingRestart (p : Station) : (s.keepHoldsMark p).pendingRestart = s.pendingRestart := rfl
@[simp] theorem State.keepHoldsMark_clock (p : Station) : (s.keepHoldsMark p).clock = s.clock := rfl
@[simp] theorem State.keepHoldsMark_pending (p : Station) : (s.keepHoldsMark p).pending = s.pending := rfl

/-! ### updatePeer -/

@[simp] theorem State.updatePeer_station (p : Station) (f : Peer → Peer) : (s.updatePeer p f).station = s.station := rfl
@[simp] theorem State.updatePeer_retained (p : Station) (f : Peer → Peer) : (s.updatePeer p f).retained = s.retained := rfl
@[simp] theorem State.updatePeer_supplyAbove (p : Station) (f : Peer → Peer) : (s.updatePeer p f).supplyAbove = s.supplyAbove := rfl
@[simp] theorem State.updatePeer_resetHigh (p : Station) (f : Peer → Peer) : (s.updatePeer p f).resetHigh = s.resetHigh := rfl
@[simp] theorem State.updatePeer_loading (p : Station) (f : Peer → Peer) : (s.updatePeer p f).loading = s.loading := rfl
@[simp] theorem State.updatePeer_straps (p : Station) (f : Peer → Peer) : (s.updatePeer p f).straps = s.straps := rfl
@[simp] theorem State.updatePeer_number (p : Station) (f : Peer → Peer) : (s.updatePeer p f).number = s.number := rfl
@[simp] theorem State.updatePeer_error (p : Station) (f : Peer → Peer) : (s.updatePeer p f).error = s.error := rfl
@[simp] theorem State.updatePeer_header (p : Station) (f : Peer → Peer) : (s.updatePeer p f).header = s.header := rfl
@[simp] theorem State.updatePeer_faults (p : Station) (f : Peer → Peer) : (s.updatePeer p f).faults = s.faults := rfl
@[simp] theorem State.updatePeer_joinTimer (p : Station) (f : Peer → Peer) : (s.updatePeer p f).joinTimer = s.joinTimer := rfl
@[simp] theorem State.updatePeer_points (p : Station) (f : Peer → Peer) : (s.updatePeer p f).points = s.points := rfl
@[simp] theorem State.updatePeer_pins (p : Station) (f : Peer → Peer) : (s.updatePeer p f).pins = s.pins := rfl
@[simp] theorem State.updatePeer_urgent (p : Station) (f : Peer → Peer) : (s.updatePeer p f).urgent = s.urgent := rfl
@[simp] theorem State.updatePeer_routine (p : Station) (f : Peer → Peer) : (s.updatePeer p f).routine = s.routine := rfl
@[simp] theorem State.updatePeer_line (p : Station) (f : Peer → Peer) : (s.updatePeer p f).line = s.line := rfl
@[simp] theorem State.updatePeer_assembly (p : Station) (f : Peer → Peer) : (s.updatePeer p f).assembly = s.assembly := rfl
@[simp] theorem State.updatePeer_inFlight (p : Station) (f : Peer → Peer) : (s.updatePeer p f).inFlight = s.inFlight := rfl
@[simp] theorem State.updatePeer_lineRate (p : Station) (f : Peer → Peer) : (s.updatePeer p f).lineRate = s.lineRate := rfl
@[simp] theorem State.updatePeer_mode (p : Station) (f : Peer → Peer) : (s.updatePeer p f).mode = s.mode := rfl
@[simp] theorem State.updatePeer_failures (p : Station) (f : Peer → Peer) : (s.updatePeer p f).failures = s.failures := rfl
@[simp] theorem State.updatePeer_quarantineLength (p : Station) (f : Peer → Peer) : (s.updatePeer p f).quarantineLength = s.quarantineLength := rfl
@[simp] theorem State.updatePeer_quarantineTimer (p : Station) (f : Peer → Peer) : (s.updatePeer p f).quarantineTimer = s.quarantineTimer := rfl
@[simp] theorem State.updatePeer_solicits (p : Station) (f : Peer → Peer) : (s.updatePeer p f).solicits = s.solicits := rfl
@[simp] theorem State.updatePeer_roster (p : Station) (f : Peer → Peer) : (s.updatePeer p f).roster = s.roster.map fun e => if e.station = p then f e else e := rfl
@[simp] theorem State.updatePeer_presenceTimer (p : Station) (f : Peer → Peer) : (s.updatePeer p f).presenceTimer = s.presenceTimer := rfl
@[simp] theorem State.updatePeer_presencePending (p : Station) (f : Peer → Peer) : (s.updatePeer p f).presencePending = s.presencePending := rfl
@[simp] theorem State.updatePeer_bootCount (p : Station) (f : Peer → Peer) : (s.updatePeer p f).bootCount = s.bootCount := rfl
@[simp] theorem State.updatePeer_outputs (p : Station) (f : Peer → Peer) : (s.updatePeer p f).outputs = s.outputs := rfl
@[simp] theorem State.updatePeer_replies (p : Station) (f : Peer → Peer) : (s.updatePeer p f).replies = s.replies := rfl
@[simp] theorem State.updatePeer_recent (p : Station) (f : Peer → Peer) : (s.updatePeer p f).recent = s.recent := rfl
@[simp] theorem State.updatePeer_counters (p : Station) (f : Peer → Peer) : (s.updatePeer p f).counters = s.counters := rfl
@[simp] theorem State.updatePeer_pendingRestart (p : Station) (f : Peer → Peer) : (s.updatePeer p f).pendingRestart = s.pendingRestart := rfl
@[simp] theorem State.updatePeer_clock (p : Station) (f : Peer → Peer) : (s.updatePeer p f).clock = s.clock := rfl
@[simp] theorem State.updatePeer_pending (p : Station) (f : Peer → Peer) : (s.updatePeer p f).pending = s.pending := rfl

/-! ### markTaken -/

@[simp] theorem State.markTaken_station : (s.markTaken).station = s.station := rfl
@[simp] theorem State.markTaken_retained : (s.markTaken).retained = s.retained := rfl
@[simp] theorem State.markTaken_supplyAbove : (s.markTaken).supplyAbove = s.supplyAbove := rfl
@[simp] theorem State.markTaken_resetHigh : (s.markTaken).resetHigh = s.resetHigh := rfl
@[simp] theorem State.markTaken_loading : (s.markTaken).loading = s.loading := rfl
@[simp] theorem State.markTaken_straps : (s.markTaken).straps = s.straps := rfl
@[simp] theorem State.markTaken_number : (s.markTaken).number = s.number := rfl
@[simp] theorem State.markTaken_error : (s.markTaken).error = s.error := rfl
@[simp] theorem State.markTaken_header : (s.markTaken).header = s.header := rfl
@[simp] theorem State.markTaken_faults : (s.markTaken).faults = s.faults := rfl
@[simp] theorem State.markTaken_joinTimer : (s.markTaken).joinTimer = s.joinTimer := rfl
@[simp] theorem State.markTaken_points : (s.markTaken).points = s.points.map fun p => if s.taken.contains p.number then p.mapOwned (Owned.take p.kind) else p := rfl
@[simp] theorem State.markTaken_pins : (s.markTaken).pins = s.pins := rfl
@[simp] theorem State.markTaken_urgent : (s.markTaken).urgent = s.urgent := rfl
@[simp] theorem State.markTaken_routine : (s.markTaken).routine = s.routine := rfl
@[simp] theorem State.markTaken_line : (s.markTaken).line = s.line := rfl
@[simp] theorem State.markTaken_assembly : (s.markTaken).assembly = s.assembly := rfl
@[simp] theorem State.markTaken_inFlight : (s.markTaken).inFlight = s.inFlight := rfl
@[simp] theorem State.markTaken_lineRate : (s.markTaken).lineRate = s.lineRate := rfl
@[simp] theorem State.markTaken_mode : (s.markTaken).mode = s.mode := rfl
@[simp] theorem State.markTaken_failures : (s.markTaken).failures = s.failures := rfl
@[simp] theorem State.markTaken_quarantineLength : (s.markTaken).quarantineLength = s.quarantineLength := rfl
@[simp] theorem State.markTaken_quarantineTimer : (s.markTaken).quarantineTimer = s.quarantineTimer := rfl
@[simp] theorem State.markTaken_solicits : (s.markTaken).solicits = s.solicits := rfl
@[simp] theorem State.markTaken_roster : (s.markTaken).roster = s.roster := rfl
@[simp] theorem State.markTaken_presenceTimer : (s.markTaken).presenceTimer = s.presenceTimer := rfl
@[simp] theorem State.markTaken_presencePending : (s.markTaken).presencePending = s.presencePending := rfl
@[simp] theorem State.markTaken_bootCount : (s.markTaken).bootCount = s.bootCount := rfl
@[simp] theorem State.markTaken_outputs : (s.markTaken).outputs = s.outputs := rfl
@[simp] theorem State.markTaken_replies : (s.markTaken).replies = s.replies := rfl
@[simp] theorem State.markTaken_recent : (s.markTaken).recent = s.recent := rfl
@[simp] theorem State.markTaken_counters : (s.markTaken).counters = s.counters := rfl
@[simp] theorem State.markTaken_pendingRestart : (s.markTaken).pendingRestart = s.pendingRestart := rfl
@[simp] theorem State.markTaken_clock : (s.markTaken).clock = s.clock := rfl
@[simp] theorem State.markTaken_pending : (s.markTaken).pending = s.pending := rfl

/-! ### complete12 -/

@[simp] theorem State.complete12_station (n : Nat) : (s.complete12 n).station = s.station := rfl
@[simp] theorem State.complete12_retained (n : Nat) : (s.complete12 n).retained = s.retained := rfl
@[simp] theorem State.complete12_supplyAbove (n : Nat) : (s.complete12 n).supplyAbove = s.supplyAbove := rfl
@[simp] theorem State.complete12_resetHigh (n : Nat) : (s.complete12 n).resetHigh = s.resetHigh := rfl
@[simp] theorem State.complete12_loading (n : Nat) : (s.complete12 n).loading = s.loading := rfl
@[simp] theorem State.complete12_straps (n : Nat) : (s.complete12 n).straps = s.straps := rfl
@[simp] theorem State.complete12_number (n : Nat) : (s.complete12 n).number = s.number := rfl
@[simp] theorem State.complete12_error (n : Nat) : (s.complete12 n).error = s.error := rfl
@[simp] theorem State.complete12_header (n : Nat) : (s.complete12 n).header = s.header := rfl
@[simp] theorem State.complete12_faults (n : Nat) : (s.complete12 n).faults = s.faults := rfl
@[simp] theorem State.complete12_joinTimer (n : Nat) : (s.complete12 n).joinTimer = s.joinTimer := rfl
@[simp] theorem State.complete12_points (n : Nat) : (s.complete12 n).points = s.points.map fun p => if p.number = n then p.mapOwned (Owned.completed p.kind s.clock) else p := rfl
@[simp] theorem State.complete12_pins (n : Nat) : (s.complete12 n).pins = s.pins := rfl
@[simp] theorem State.complete12_urgent (n : Nat) : (s.complete12 n).urgent = s.urgent := rfl
@[simp] theorem State.complete12_routine (n : Nat) : (s.complete12 n).routine = s.routine := rfl
@[simp] theorem State.complete12_line (n : Nat) : (s.complete12 n).line = s.line := rfl
@[simp] theorem State.complete12_assembly (n : Nat) : (s.complete12 n).assembly = s.assembly := rfl
@[simp] theorem State.complete12_inFlight (n : Nat) : (s.complete12 n).inFlight = s.inFlight := rfl
@[simp] theorem State.complete12_lineRate (n : Nat) : (s.complete12 n).lineRate = s.lineRate := rfl
@[simp] theorem State.complete12_mode (n : Nat) : (s.complete12 n).mode = s.mode := rfl
@[simp] theorem State.complete12_failures (n : Nat) : (s.complete12 n).failures = s.failures := rfl
@[simp] theorem State.complete12_quarantineLength (n : Nat) : (s.complete12 n).quarantineLength = s.quarantineLength := rfl
@[simp] theorem State.complete12_quarantineTimer (n : Nat) : (s.complete12 n).quarantineTimer = s.quarantineTimer := rfl
@[simp] theorem State.complete12_solicits (n : Nat) : (s.complete12 n).solicits = s.solicits := rfl
@[simp] theorem State.complete12_roster (n : Nat) : (s.complete12 n).roster = s.roster := rfl
@[simp] theorem State.complete12_presenceTimer (n : Nat) : (s.complete12 n).presenceTimer = s.presenceTimer := rfl
@[simp] theorem State.complete12_presencePending (n : Nat) : (s.complete12 n).presencePending = s.presencePending := rfl
@[simp] theorem State.complete12_bootCount (n : Nat) : (s.complete12 n).bootCount = s.bootCount := rfl
@[simp] theorem State.complete12_outputs (n : Nat) : (s.complete12 n).outputs = s.outputs := rfl
@[simp] theorem State.complete12_replies (n : Nat) : (s.complete12 n).replies = s.replies := rfl
@[simp] theorem State.complete12_recent (n : Nat) : (s.complete12 n).recent = s.recent := rfl
@[simp] theorem State.complete12_counters (n : Nat) : (s.complete12 n).counters = s.counters := rfl
@[simp] theorem State.complete12_pendingRestart (n : Nat) : (s.complete12 n).pendingRestart = s.pendingRestart := rfl
@[simp] theorem State.complete12_clock (n : Nat) : (s.complete12 n).clock = s.clock := rfl
@[simp] theorem State.complete12_pending (n : Nat) : (s.complete12 n).pending = s.pending := rfl

/-! ### requeueDirty -/

@[simp] theorem State.requeueDirty_station (n : Nat) : (s.requeueDirty n).station = s.station := rfl
@[simp] theorem State.requeueDirty_retained (n : Nat) : (s.requeueDirty n).retained = s.retained := rfl
@[simp] theorem State.requeueDirty_supplyAbove (n : Nat) : (s.requeueDirty n).supplyAbove = s.supplyAbove := rfl
@[simp] theorem State.requeueDirty_resetHigh (n : Nat) : (s.requeueDirty n).resetHigh = s.resetHigh := rfl
@[simp] theorem State.requeueDirty_loading (n : Nat) : (s.requeueDirty n).loading = s.loading := rfl
@[simp] theorem State.requeueDirty_straps (n : Nat) : (s.requeueDirty n).straps = s.straps := rfl
@[simp] theorem State.requeueDirty_number (n : Nat) : (s.requeueDirty n).number = s.number := rfl
@[simp] theorem State.requeueDirty_error (n : Nat) : (s.requeueDirty n).error = s.error := rfl
@[simp] theorem State.requeueDirty_header (n : Nat) : (s.requeueDirty n).header = s.header := rfl
@[simp] theorem State.requeueDirty_faults (n : Nat) : (s.requeueDirty n).faults = s.faults := rfl
@[simp] theorem State.requeueDirty_joinTimer (n : Nat) : (s.requeueDirty n).joinTimer = s.joinTimer := rfl
@[simp] theorem State.requeueDirty_points (n : Nat) : (s.requeueDirty n).points = ((s.leaveQueue n .quiet).joinUrgent n).points := rfl
@[simp] theorem State.requeueDirty_pins (n : Nat) : (s.requeueDirty n).pins = s.pins := rfl
@[simp] theorem State.requeueDirty_urgent (n : Nat) : (s.requeueDirty n).urgent = without n s.urgent ++ [n] := rfl
@[simp] theorem State.requeueDirty_routine (n : Nat) : (s.requeueDirty n).routine = without n s.routine := rfl
@[simp] theorem State.requeueDirty_line (n : Nat) : (s.requeueDirty n).line = s.line := rfl
@[simp] theorem State.requeueDirty_assembly (n : Nat) : (s.requeueDirty n).assembly = s.assembly := rfl
@[simp] theorem State.requeueDirty_inFlight (n : Nat) : (s.requeueDirty n).inFlight = s.inFlight := rfl
@[simp] theorem State.requeueDirty_lineRate (n : Nat) : (s.requeueDirty n).lineRate = s.lineRate := rfl
@[simp] theorem State.requeueDirty_mode (n : Nat) : (s.requeueDirty n).mode = s.mode := rfl
@[simp] theorem State.requeueDirty_failures (n : Nat) : (s.requeueDirty n).failures = s.failures := rfl
@[simp] theorem State.requeueDirty_quarantineLength (n : Nat) : (s.requeueDirty n).quarantineLength = s.quarantineLength := rfl
@[simp] theorem State.requeueDirty_quarantineTimer (n : Nat) : (s.requeueDirty n).quarantineTimer = s.quarantineTimer := rfl
@[simp] theorem State.requeueDirty_solicits (n : Nat) : (s.requeueDirty n).solicits = s.solicits := rfl
@[simp] theorem State.requeueDirty_roster (n : Nat) : (s.requeueDirty n).roster = s.roster := rfl
@[simp] theorem State.requeueDirty_presenceTimer (n : Nat) : (s.requeueDirty n).presenceTimer = s.presenceTimer := rfl
@[simp] theorem State.requeueDirty_presencePending (n : Nat) : (s.requeueDirty n).presencePending = s.presencePending := rfl
@[simp] theorem State.requeueDirty_bootCount (n : Nat) : (s.requeueDirty n).bootCount = s.bootCount := rfl
@[simp] theorem State.requeueDirty_outputs (n : Nat) : (s.requeueDirty n).outputs = s.outputs := rfl
@[simp] theorem State.requeueDirty_replies (n : Nat) : (s.requeueDirty n).replies = s.replies := rfl
@[simp] theorem State.requeueDirty_recent (n : Nat) : (s.requeueDirty n).recent = s.recent := rfl
@[simp] theorem State.requeueDirty_counters (n : Nat) : (s.requeueDirty n).counters = s.counters := rfl
@[simp] theorem State.requeueDirty_pendingRestart (n : Nat) : (s.requeueDirty n).pendingRestart = s.pendingRestart := rfl
@[simp] theorem State.requeueDirty_clock (n : Nat) : (s.requeueDirty n).clock = s.clock := rfl
@[simp] theorem State.requeueDirty_pending (n : Nat) : (s.requeueDirty n).pending = s.pending := rfl

/-! ### pointNotSent -/

@[simp] theorem State.pointNotSent_station (n : Nat) : (s.pointNotSent n).station = s.station := rfl
@[simp] theorem State.pointNotSent_retained (n : Nat) : (s.pointNotSent n).retained = s.retained := rfl
@[simp] theorem State.pointNotSent_supplyAbove (n : Nat) : (s.pointNotSent n).supplyAbove = s.supplyAbove := rfl
@[simp] theorem State.pointNotSent_resetHigh (n : Nat) : (s.pointNotSent n).resetHigh = s.resetHigh := rfl
@[simp] theorem State.pointNotSent_loading (n : Nat) : (s.pointNotSent n).loading = s.loading := rfl
@[simp] theorem State.pointNotSent_straps (n : Nat) : (s.pointNotSent n).straps = s.straps := rfl
@[simp] theorem State.pointNotSent_number (n : Nat) : (s.pointNotSent n).number = s.number := rfl
@[simp] theorem State.pointNotSent_error (n : Nat) : (s.pointNotSent n).error = s.error := rfl
@[simp] theorem State.pointNotSent_header (n : Nat) : (s.pointNotSent n).header = s.header := rfl
@[simp] theorem State.pointNotSent_faults (n : Nat) : (s.pointNotSent n).faults = s.faults := rfl
@[simp] theorem State.pointNotSent_joinTimer (n : Nat) : (s.pointNotSent n).joinTimer = s.joinTimer := rfl
@[simp] theorem State.pointNotSent_points (n : Nat) : (s.pointNotSent n).points = (s.updateOwned n fun o => { o with inFlight := false, dirty := false }).points := rfl
@[simp] theorem State.pointNotSent_pins (n : Nat) : (s.pointNotSent n).pins = s.pins := rfl
@[simp] theorem State.pointNotSent_urgent (n : Nat) : (s.pointNotSent n).urgent = s.urgent := rfl
@[simp] theorem State.pointNotSent_routine (n : Nat) : (s.pointNotSent n).routine = s.routine := rfl
@[simp] theorem State.pointNotSent_line (n : Nat) : (s.pointNotSent n).line = s.line := rfl
@[simp] theorem State.pointNotSent_assembly (n : Nat) : (s.pointNotSent n).assembly = s.assembly := rfl
@[simp] theorem State.pointNotSent_inFlight (n : Nat) : (s.pointNotSent n).inFlight = s.inFlight := rfl
@[simp] theorem State.pointNotSent_lineRate (n : Nat) : (s.pointNotSent n).lineRate = s.lineRate := rfl
@[simp] theorem State.pointNotSent_mode (n : Nat) : (s.pointNotSent n).mode = s.mode := rfl
@[simp] theorem State.pointNotSent_failures (n : Nat) : (s.pointNotSent n).failures = s.failures := rfl
@[simp] theorem State.pointNotSent_quarantineLength (n : Nat) : (s.pointNotSent n).quarantineLength = s.quarantineLength := rfl
@[simp] theorem State.pointNotSent_quarantineTimer (n : Nat) : (s.pointNotSent n).quarantineTimer = s.quarantineTimer := rfl
@[simp] theorem State.pointNotSent_solicits (n : Nat) : (s.pointNotSent n).solicits = s.solicits := rfl
@[simp] theorem State.pointNotSent_roster (n : Nat) : (s.pointNotSent n).roster = s.roster := rfl
@[simp] theorem State.pointNotSent_presenceTimer (n : Nat) : (s.pointNotSent n).presenceTimer = s.presenceTimer := rfl
@[simp] theorem State.pointNotSent_presencePending (n : Nat) : (s.pointNotSent n).presencePending = s.presencePending := rfl
@[simp] theorem State.pointNotSent_bootCount (n : Nat) : (s.pointNotSent n).bootCount = s.bootCount := rfl
@[simp] theorem State.pointNotSent_outputs (n : Nat) : (s.pointNotSent n).outputs = s.outputs := rfl
@[simp] theorem State.pointNotSent_replies (n : Nat) : (s.pointNotSent n).replies = s.replies := rfl
@[simp] theorem State.pointNotSent_recent (n : Nat) : (s.pointNotSent n).recent = s.recent := rfl
@[simp] theorem State.pointNotSent_counters (n : Nat) : (s.pointNotSent n).counters = s.counters := rfl
@[simp] theorem State.pointNotSent_pendingRestart (n : Nat) : (s.pointNotSent n).pendingRestart = s.pendingRestart := rfl
@[simp] theorem State.pointNotSent_clock (n : Nat) : (s.pointNotSent n).clock = s.clock := rfl
@[simp] theorem State.pointNotSent_pending (n : Nat) : (s.pointNotSent n).pending = s.pending := rfl

/-! ### clearMarks -/

@[simp] theorem State.clearMarks_station : (s.clearMarks).station = s.station := rfl
@[simp] theorem State.clearMarks_retained : (s.clearMarks).retained = s.retained := rfl
@[simp] theorem State.clearMarks_supplyAbove : (s.clearMarks).supplyAbove = s.supplyAbove := rfl
@[simp] theorem State.clearMarks_resetHigh : (s.clearMarks).resetHigh = s.resetHigh := rfl
@[simp] theorem State.clearMarks_loading : (s.clearMarks).loading = s.loading := rfl
@[simp] theorem State.clearMarks_straps : (s.clearMarks).straps = s.straps := rfl
@[simp] theorem State.clearMarks_number : (s.clearMarks).number = s.number := rfl
@[simp] theorem State.clearMarks_error : (s.clearMarks).error = s.error := rfl
@[simp] theorem State.clearMarks_header : (s.clearMarks).header = s.header := rfl
@[simp] theorem State.clearMarks_faults : (s.clearMarks).faults = s.faults := rfl
@[simp] theorem State.clearMarks_joinTimer : (s.clearMarks).joinTimer = s.joinTimer := rfl
@[simp] theorem State.clearMarks_points : (s.clearMarks).points = s.points.map (Point.mapOwned fun o => { o with inFlight := false, dirty := false }) := rfl
@[simp] theorem State.clearMarks_pins : (s.clearMarks).pins = s.pins := rfl
@[simp] theorem State.clearMarks_urgent : (s.clearMarks).urgent = s.urgent := rfl
@[simp] theorem State.clearMarks_routine : (s.clearMarks).routine = s.routine := rfl
@[simp] theorem State.clearMarks_line : (s.clearMarks).line = s.line := rfl
@[simp] theorem State.clearMarks_assembly : (s.clearMarks).assembly = s.assembly := rfl
@[simp] theorem State.clearMarks_inFlight : (s.clearMarks).inFlight = s.inFlight := rfl
@[simp] theorem State.clearMarks_lineRate : (s.clearMarks).lineRate = s.lineRate := rfl
@[simp] theorem State.clearMarks_mode : (s.clearMarks).mode = s.mode := rfl
@[simp] theorem State.clearMarks_failures : (s.clearMarks).failures = s.failures := rfl
@[simp] theorem State.clearMarks_quarantineLength : (s.clearMarks).quarantineLength = s.quarantineLength := rfl
@[simp] theorem State.clearMarks_quarantineTimer : (s.clearMarks).quarantineTimer = s.quarantineTimer := rfl
@[simp] theorem State.clearMarks_solicits : (s.clearMarks).solicits = s.solicits := rfl
@[simp] theorem State.clearMarks_roster : (s.clearMarks).roster = s.roster := rfl
@[simp] theorem State.clearMarks_presenceTimer : (s.clearMarks).presenceTimer = s.presenceTimer := rfl
@[simp] theorem State.clearMarks_presencePending : (s.clearMarks).presencePending = s.presencePending := rfl
@[simp] theorem State.clearMarks_bootCount : (s.clearMarks).bootCount = s.bootCount := rfl
@[simp] theorem State.clearMarks_outputs : (s.clearMarks).outputs = s.outputs := rfl
@[simp] theorem State.clearMarks_replies : (s.clearMarks).replies = s.replies := rfl
@[simp] theorem State.clearMarks_recent : (s.clearMarks).recent = s.recent := rfl
@[simp] theorem State.clearMarks_counters : (s.clearMarks).counters = s.counters := rfl
@[simp] theorem State.clearMarks_pendingRestart : (s.clearMarks).pendingRestart = s.pendingRestart := rfl
@[simp] theorem State.clearMarks_clock : (s.clearMarks).clock = s.clock := rfl
@[simp] theorem State.clearMarks_pending : (s.clearMarks).pending = s.pending := rfl

/-! ### queueReply -/

@[simp] theorem State.queueReply_station (r : Reply) : (s.queueReply r).station = s.station := rfl
@[simp] theorem State.queueReply_retained (r : Reply) : (s.queueReply r).retained = s.retained := rfl
@[simp] theorem State.queueReply_supplyAbove (r : Reply) : (s.queueReply r).supplyAbove = s.supplyAbove := rfl
@[simp] theorem State.queueReply_resetHigh (r : Reply) : (s.queueReply r).resetHigh = s.resetHigh := rfl
@[simp] theorem State.queueReply_loading (r : Reply) : (s.queueReply r).loading = s.loading := rfl
@[simp] theorem State.queueReply_straps (r : Reply) : (s.queueReply r).straps = s.straps := rfl
@[simp] theorem State.queueReply_number (r : Reply) : (s.queueReply r).number = s.number := rfl
@[simp] theorem State.queueReply_error (r : Reply) : (s.queueReply r).error = s.error := rfl
@[simp] theorem State.queueReply_header (r : Reply) : (s.queueReply r).header = s.header := rfl
@[simp] theorem State.queueReply_faults (r : Reply) : (s.queueReply r).faults = s.faults := rfl
@[simp] theorem State.queueReply_joinTimer (r : Reply) : (s.queueReply r).joinTimer = s.joinTimer := rfl
@[simp] theorem State.queueReply_points (r : Reply) : (s.queueReply r).points = s.points := rfl
@[simp] theorem State.queueReply_pins (r : Reply) : (s.queueReply r).pins = s.pins := rfl
@[simp] theorem State.queueReply_urgent (r : Reply) : (s.queueReply r).urgent = s.urgent := rfl
@[simp] theorem State.queueReply_routine (r : Reply) : (s.queueReply r).routine = s.routine := rfl
@[simp] theorem State.queueReply_line (r : Reply) : (s.queueReply r).line = s.line := rfl
@[simp] theorem State.queueReply_assembly (r : Reply) : (s.queueReply r).assembly = s.assembly := rfl
@[simp] theorem State.queueReply_inFlight (r : Reply) : (s.queueReply r).inFlight = s.inFlight := rfl
@[simp] theorem State.queueReply_lineRate (r : Reply) : (s.queueReply r).lineRate = s.lineRate := rfl
@[simp] theorem State.queueReply_mode (r : Reply) : (s.queueReply r).mode = s.mode := rfl
@[simp] theorem State.queueReply_failures (r : Reply) : (s.queueReply r).failures = s.failures := rfl
@[simp] theorem State.queueReply_quarantineLength (r : Reply) : (s.queueReply r).quarantineLength = s.quarantineLength := rfl
@[simp] theorem State.queueReply_quarantineTimer (r : Reply) : (s.queueReply r).quarantineTimer = s.quarantineTimer := rfl
@[simp] theorem State.queueReply_solicits (r : Reply) : (s.queueReply r).solicits = s.solicits := rfl
@[simp] theorem State.queueReply_roster (r : Reply) : (s.queueReply r).roster = s.roster := rfl
@[simp] theorem State.queueReply_presenceTimer (r : Reply) : (s.queueReply r).presenceTimer = s.presenceTimer := rfl
@[simp] theorem State.queueReply_presencePending (r : Reply) : (s.queueReply r).presencePending = s.presencePending := rfl
@[simp] theorem State.queueReply_bootCount (r : Reply) : (s.queueReply r).bootCount = s.bootCount := rfl
@[simp] theorem State.queueReply_outputs (r : Reply) : (s.queueReply r).outputs = s.outputs := rfl
@[simp] theorem State.queueReply_replies (r : Reply) : (s.queueReply r).replies = s.replies ++ [r] := rfl
@[simp] theorem State.queueReply_recent (r : Reply) : (s.queueReply r).recent = s.recent := rfl
@[simp] theorem State.queueReply_counters (r : Reply) : (s.queueReply r).counters = s.counters := rfl
@[simp] theorem State.queueReply_pendingRestart (r : Reply) : (s.queueReply r).pendingRestart = s.pendingRestart := rfl
@[simp] theorem State.queueReply_clock (r : Reply) : (s.queueReply r).clock = s.clock := rfl
@[simp] theorem State.queueReply_pending (r : Reply) : (s.queueReply r).pending = s.pending := rfl

/-! ### record -/

@[simp] theorem State.record_station (p : Station) (tag : Byte) (kind : CommandKind) (code : ReplyCode) : (s.record p tag kind code).station = s.station := rfl
@[simp] theorem State.record_retained (p : Station) (tag : Byte) (kind : CommandKind) (code : ReplyCode) : (s.record p tag kind code).retained = s.retained := rfl
@[simp] theorem State.record_supplyAbove (p : Station) (tag : Byte) (kind : CommandKind) (code : ReplyCode) : (s.record p tag kind code).supplyAbove = s.supplyAbove := rfl
@[simp] theorem State.record_resetHigh (p : Station) (tag : Byte) (kind : CommandKind) (code : ReplyCode) : (s.record p tag kind code).resetHigh = s.resetHigh := rfl
@[simp] theorem State.record_loading (p : Station) (tag : Byte) (kind : CommandKind) (code : ReplyCode) : (s.record p tag kind code).loading = s.loading := rfl
@[simp] theorem State.record_straps (p : Station) (tag : Byte) (kind : CommandKind) (code : ReplyCode) : (s.record p tag kind code).straps = s.straps := rfl
@[simp] theorem State.record_number (p : Station) (tag : Byte) (kind : CommandKind) (code : ReplyCode) : (s.record p tag kind code).number = s.number := rfl
@[simp] theorem State.record_error (p : Station) (tag : Byte) (kind : CommandKind) (code : ReplyCode) : (s.record p tag kind code).error = s.error := rfl
@[simp] theorem State.record_header (p : Station) (tag : Byte) (kind : CommandKind) (code : ReplyCode) : (s.record p tag kind code).header = s.header := rfl
@[simp] theorem State.record_faults (p : Station) (tag : Byte) (kind : CommandKind) (code : ReplyCode) : (s.record p tag kind code).faults = s.faults := rfl
@[simp] theorem State.record_joinTimer (p : Station) (tag : Byte) (kind : CommandKind) (code : ReplyCode) : (s.record p tag kind code).joinTimer = s.joinTimer := rfl
@[simp] theorem State.record_points (p : Station) (tag : Byte) (kind : CommandKind) (code : ReplyCode) : (s.record p tag kind code).points = s.points := rfl
@[simp] theorem State.record_pins (p : Station) (tag : Byte) (kind : CommandKind) (code : ReplyCode) : (s.record p tag kind code).pins = s.pins := rfl
@[simp] theorem State.record_urgent (p : Station) (tag : Byte) (kind : CommandKind) (code : ReplyCode) : (s.record p tag kind code).urgent = s.urgent := rfl
@[simp] theorem State.record_routine (p : Station) (tag : Byte) (kind : CommandKind) (code : ReplyCode) : (s.record p tag kind code).routine = s.routine := rfl
@[simp] theorem State.record_line (p : Station) (tag : Byte) (kind : CommandKind) (code : ReplyCode) : (s.record p tag kind code).line = s.line := rfl
@[simp] theorem State.record_assembly (p : Station) (tag : Byte) (kind : CommandKind) (code : ReplyCode) : (s.record p tag kind code).assembly = s.assembly := rfl
@[simp] theorem State.record_inFlight (p : Station) (tag : Byte) (kind : CommandKind) (code : ReplyCode) : (s.record p tag kind code).inFlight = s.inFlight := rfl
@[simp] theorem State.record_lineRate (p : Station) (tag : Byte) (kind : CommandKind) (code : ReplyCode) : (s.record p tag kind code).lineRate = s.lineRate := rfl
@[simp] theorem State.record_mode (p : Station) (tag : Byte) (kind : CommandKind) (code : ReplyCode) : (s.record p tag kind code).mode = s.mode := rfl
@[simp] theorem State.record_failures (p : Station) (tag : Byte) (kind : CommandKind) (code : ReplyCode) : (s.record p tag kind code).failures = s.failures := rfl
@[simp] theorem State.record_quarantineLength (p : Station) (tag : Byte) (kind : CommandKind) (code : ReplyCode) : (s.record p tag kind code).quarantineLength = s.quarantineLength := rfl
@[simp] theorem State.record_quarantineTimer (p : Station) (tag : Byte) (kind : CommandKind) (code : ReplyCode) : (s.record p tag kind code).quarantineTimer = s.quarantineTimer := rfl
@[simp] theorem State.record_solicits (p : Station) (tag : Byte) (kind : CommandKind) (code : ReplyCode) : (s.record p tag kind code).solicits = s.solicits := rfl
@[simp] theorem State.record_roster (p : Station) (tag : Byte) (kind : CommandKind) (code : ReplyCode) : (s.record p tag kind code).roster = s.roster := rfl
@[simp] theorem State.record_presenceTimer (p : Station) (tag : Byte) (kind : CommandKind) (code : ReplyCode) : (s.record p tag kind code).presenceTimer = s.presenceTimer := rfl
@[simp] theorem State.record_presencePending (p : Station) (tag : Byte) (kind : CommandKind) (code : ReplyCode) : (s.record p tag kind code).presencePending = s.presencePending := rfl
@[simp] theorem State.record_bootCount (p : Station) (tag : Byte) (kind : CommandKind) (code : ReplyCode) : (s.record p tag kind code).bootCount = s.bootCount := rfl
@[simp] theorem State.record_outputs (p : Station) (tag : Byte) (kind : CommandKind) (code : ReplyCode) : (s.record p tag kind code).outputs = s.outputs := rfl
@[simp] theorem State.record_replies (p : Station) (tag : Byte) (kind : CommandKind) (code : ReplyCode) : (s.record p tag kind code).replies = s.replies := rfl
@[simp] theorem State.record_recent (p : Station) (tag : Byte) (kind : CommandKind) (code : ReplyCode) : (s.record p tag kind code).recent = addRecent { sender := p, tag := tag, kind := kind, outcome := code, written := s.clock } s.recent := rfl
@[simp] theorem State.record_counters (p : Station) (tag : Byte) (kind : CommandKind) (code : ReplyCode) : (s.record p tag kind code).counters = s.counters := rfl
@[simp] theorem State.record_pendingRestart (p : Station) (tag : Byte) (kind : CommandKind) (code : ReplyCode) : (s.record p tag kind code).pendingRestart = s.pendingRestart := rfl
@[simp] theorem State.record_clock (p : Station) (tag : Byte) (kind : CommandKind) (code : ReplyCode) : (s.record p tag kind code).clock = s.clock := rfl
@[simp] theorem State.record_pending (p : Station) (tag : Byte) (kind : CommandKind) (code : ReplyCode) : (s.record p tag kind code).pending = s.pending := rfl

/-! ### answer -/

@[simp] theorem State.answer_station (p : Station) (tag : Byte) (kind : CommandKind) (code : ReplyCode) : (s.answer p tag kind code).station = s.station := rfl
@[simp] theorem State.answer_retained (p : Station) (tag : Byte) (kind : CommandKind) (code : ReplyCode) : (s.answer p tag kind code).retained = s.retained := rfl
@[simp] theorem State.answer_supplyAbove (p : Station) (tag : Byte) (kind : CommandKind) (code : ReplyCode) : (s.answer p tag kind code).supplyAbove = s.supplyAbove := rfl
@[simp] theorem State.answer_resetHigh (p : Station) (tag : Byte) (kind : CommandKind) (code : ReplyCode) : (s.answer p tag kind code).resetHigh = s.resetHigh := rfl
@[simp] theorem State.answer_loading (p : Station) (tag : Byte) (kind : CommandKind) (code : ReplyCode) : (s.answer p tag kind code).loading = s.loading := rfl
@[simp] theorem State.answer_straps (p : Station) (tag : Byte) (kind : CommandKind) (code : ReplyCode) : (s.answer p tag kind code).straps = s.straps := rfl
@[simp] theorem State.answer_number (p : Station) (tag : Byte) (kind : CommandKind) (code : ReplyCode) : (s.answer p tag kind code).number = s.number := rfl
@[simp] theorem State.answer_error (p : Station) (tag : Byte) (kind : CommandKind) (code : ReplyCode) : (s.answer p tag kind code).error = s.error := rfl
@[simp] theorem State.answer_header (p : Station) (tag : Byte) (kind : CommandKind) (code : ReplyCode) : (s.answer p tag kind code).header = s.header := rfl
@[simp] theorem State.answer_faults (p : Station) (tag : Byte) (kind : CommandKind) (code : ReplyCode) : (s.answer p tag kind code).faults = s.faults := rfl
@[simp] theorem State.answer_joinTimer (p : Station) (tag : Byte) (kind : CommandKind) (code : ReplyCode) : (s.answer p tag kind code).joinTimer = s.joinTimer := rfl
@[simp] theorem State.answer_points (p : Station) (tag : Byte) (kind : CommandKind) (code : ReplyCode) : (s.answer p tag kind code).points = s.points := rfl
@[simp] theorem State.answer_pins (p : Station) (tag : Byte) (kind : CommandKind) (code : ReplyCode) : (s.answer p tag kind code).pins = s.pins := rfl
@[simp] theorem State.answer_urgent (p : Station) (tag : Byte) (kind : CommandKind) (code : ReplyCode) : (s.answer p tag kind code).urgent = s.urgent := rfl
@[simp] theorem State.answer_routine (p : Station) (tag : Byte) (kind : CommandKind) (code : ReplyCode) : (s.answer p tag kind code).routine = s.routine := rfl
@[simp] theorem State.answer_line (p : Station) (tag : Byte) (kind : CommandKind) (code : ReplyCode) : (s.answer p tag kind code).line = s.line := rfl
@[simp] theorem State.answer_assembly (p : Station) (tag : Byte) (kind : CommandKind) (code : ReplyCode) : (s.answer p tag kind code).assembly = s.assembly := rfl
@[simp] theorem State.answer_inFlight (p : Station) (tag : Byte) (kind : CommandKind) (code : ReplyCode) : (s.answer p tag kind code).inFlight = s.inFlight := rfl
@[simp] theorem State.answer_lineRate (p : Station) (tag : Byte) (kind : CommandKind) (code : ReplyCode) : (s.answer p tag kind code).lineRate = s.lineRate := rfl
@[simp] theorem State.answer_mode (p : Station) (tag : Byte) (kind : CommandKind) (code : ReplyCode) : (s.answer p tag kind code).mode = s.mode := rfl
@[simp] theorem State.answer_failures (p : Station) (tag : Byte) (kind : CommandKind) (code : ReplyCode) : (s.answer p tag kind code).failures = s.failures := rfl
@[simp] theorem State.answer_quarantineLength (p : Station) (tag : Byte) (kind : CommandKind) (code : ReplyCode) : (s.answer p tag kind code).quarantineLength = s.quarantineLength := rfl
@[simp] theorem State.answer_quarantineTimer (p : Station) (tag : Byte) (kind : CommandKind) (code : ReplyCode) : (s.answer p tag kind code).quarantineTimer = s.quarantineTimer := rfl
@[simp] theorem State.answer_solicits (p : Station) (tag : Byte) (kind : CommandKind) (code : ReplyCode) : (s.answer p tag kind code).solicits = s.solicits := rfl
@[simp] theorem State.answer_roster (p : Station) (tag : Byte) (kind : CommandKind) (code : ReplyCode) : (s.answer p tag kind code).roster = s.roster := rfl
@[simp] theorem State.answer_presenceTimer (p : Station) (tag : Byte) (kind : CommandKind) (code : ReplyCode) : (s.answer p tag kind code).presenceTimer = s.presenceTimer := rfl
@[simp] theorem State.answer_presencePending (p : Station) (tag : Byte) (kind : CommandKind) (code : ReplyCode) : (s.answer p tag kind code).presencePending = s.presencePending := rfl
@[simp] theorem State.answer_bootCount (p : Station) (tag : Byte) (kind : CommandKind) (code : ReplyCode) : (s.answer p tag kind code).bootCount = s.bootCount := rfl
@[simp] theorem State.answer_outputs (p : Station) (tag : Byte) (kind : CommandKind) (code : ReplyCode) : (s.answer p tag kind code).outputs = s.outputs := rfl
@[simp] theorem State.answer_replies (p : Station) (tag : Byte) (kind : CommandKind) (code : ReplyCode) : (s.answer p tag kind code).replies = s.replies ++ [plainReply p tag code] := rfl
@[simp] theorem State.answer_recent (p : Station) (tag : Byte) (kind : CommandKind) (code : ReplyCode) : (s.answer p tag kind code).recent = addRecent { sender := p, tag := tag, kind := kind, outcome := code, written := s.clock } s.recent := rfl
@[simp] theorem State.answer_counters (p : Station) (tag : Byte) (kind : CommandKind) (code : ReplyCode) : (s.answer p tag kind code).counters = s.counters := rfl
@[simp] theorem State.answer_pendingRestart (p : Station) (tag : Byte) (kind : CommandKind) (code : ReplyCode) : (s.answer p tag kind code).pendingRestart = s.pendingRestart := rfl
@[simp] theorem State.answer_clock (p : Station) (tag : Byte) (kind : CommandKind) (code : ReplyCode) : (s.answer p tag kind code).clock = s.clock := rfl
@[simp] theorem State.answer_pending (p : Station) (tag : Byte) (kind : CommandKind) (code : ReplyCode) : (s.answer p tag kind code).pending = s.pending := rfl

/-! ### startOverdueTimers -/

@[simp] theorem State.startOverdueTimers_station : (s.startOverdueTimers).station = s.station := rfl
@[simp] theorem State.startOverdueTimers_retained : (s.startOverdueTimers).retained = s.retained := rfl
@[simp] theorem State.startOverdueTimers_supplyAbove : (s.startOverdueTimers).supplyAbove = s.supplyAbove := rfl
@[simp] theorem State.startOverdueTimers_resetHigh : (s.startOverdueTimers).resetHigh = s.resetHigh := rfl
@[simp] theorem State.startOverdueTimers_loading : (s.startOverdueTimers).loading = s.loading := rfl
@[simp] theorem State.startOverdueTimers_straps : (s.startOverdueTimers).straps = s.straps := rfl
@[simp] theorem State.startOverdueTimers_number : (s.startOverdueTimers).number = s.number := rfl
@[simp] theorem State.startOverdueTimers_error : (s.startOverdueTimers).error = s.error := rfl
@[simp] theorem State.startOverdueTimers_header : (s.startOverdueTimers).header = s.header := rfl
@[simp] theorem State.startOverdueTimers_faults : (s.startOverdueTimers).faults = s.faults := rfl
@[simp] theorem State.startOverdueTimers_joinTimer : (s.startOverdueTimers).joinTimer = s.joinTimer := rfl
@[simp] theorem State.startOverdueTimers_points : (s.startOverdueTimers).points = s.points.map (Point.mapMirrored fun m => if m.state = .unknown then { m with overdueTimer := some (s.clock + s.joinLength) } else m) := rfl
@[simp] theorem State.startOverdueTimers_pins : (s.startOverdueTimers).pins = s.pins := rfl
@[simp] theorem State.startOverdueTimers_urgent : (s.startOverdueTimers).urgent = s.urgent := rfl
@[simp] theorem State.startOverdueTimers_routine : (s.startOverdueTimers).routine = s.routine := rfl
@[simp] theorem State.startOverdueTimers_line : (s.startOverdueTimers).line = s.line := rfl
@[simp] theorem State.startOverdueTimers_assembly : (s.startOverdueTimers).assembly = s.assembly := rfl
@[simp] theorem State.startOverdueTimers_inFlight : (s.startOverdueTimers).inFlight = s.inFlight := rfl
@[simp] theorem State.startOverdueTimers_lineRate : (s.startOverdueTimers).lineRate = s.lineRate := rfl
@[simp] theorem State.startOverdueTimers_mode : (s.startOverdueTimers).mode = s.mode := rfl
@[simp] theorem State.startOverdueTimers_failures : (s.startOverdueTimers).failures = s.failures := rfl
@[simp] theorem State.startOverdueTimers_quarantineLength : (s.startOverdueTimers).quarantineLength = s.quarantineLength := rfl
@[simp] theorem State.startOverdueTimers_quarantineTimer : (s.startOverdueTimers).quarantineTimer = s.quarantineTimer := rfl
@[simp] theorem State.startOverdueTimers_solicits : (s.startOverdueTimers).solicits = s.solicits := rfl
@[simp] theorem State.startOverdueTimers_roster : (s.startOverdueTimers).roster = s.roster := rfl
@[simp] theorem State.startOverdueTimers_presenceTimer : (s.startOverdueTimers).presenceTimer = s.presenceTimer := rfl
@[simp] theorem State.startOverdueTimers_presencePending : (s.startOverdueTimers).presencePending = s.presencePending := rfl
@[simp] theorem State.startOverdueTimers_bootCount : (s.startOverdueTimers).bootCount = s.bootCount := rfl
@[simp] theorem State.startOverdueTimers_outputs : (s.startOverdueTimers).outputs = s.outputs := rfl
@[simp] theorem State.startOverdueTimers_replies : (s.startOverdueTimers).replies = s.replies := rfl
@[simp] theorem State.startOverdueTimers_recent : (s.startOverdueTimers).recent = s.recent := rfl
@[simp] theorem State.startOverdueTimers_counters : (s.startOverdueTimers).counters = s.counters := rfl
@[simp] theorem State.startOverdueTimers_pendingRestart : (s.startOverdueTimers).pendingRestart = s.pendingRestart := rfl
@[simp] theorem State.startOverdueTimers_clock : (s.startOverdueTimers).clock = s.clock := rfl
@[simp] theorem State.startOverdueTimers_pending : (s.startOverdueTimers).pending = s.pending := rfl

/-! ### startFrame -/

@[simp] theorem State.startFrame_station (c : TxContent) : (s.startFrame c).station = s.station := rfl
@[simp] theorem State.startFrame_retained (c : TxContent) : (s.startFrame c).retained = s.retained := rfl
@[simp] theorem State.startFrame_supplyAbove (c : TxContent) : (s.startFrame c).supplyAbove = s.supplyAbove := rfl
@[simp] theorem State.startFrame_resetHigh (c : TxContent) : (s.startFrame c).resetHigh = s.resetHigh := rfl
@[simp] theorem State.startFrame_loading (c : TxContent) : (s.startFrame c).loading = s.loading := rfl
@[simp] theorem State.startFrame_straps (c : TxContent) : (s.startFrame c).straps = s.straps := rfl
@[simp] theorem State.startFrame_number (c : TxContent) : (s.startFrame c).number = s.number := rfl
@[simp] theorem State.startFrame_error (c : TxContent) : (s.startFrame c).error = s.error := rfl
@[simp] theorem State.startFrame_header (c : TxContent) : (s.startFrame c).header = s.header := rfl
@[simp] theorem State.startFrame_faults (c : TxContent) : (s.startFrame c).faults = s.faults := rfl
@[simp] theorem State.startFrame_joinTimer (c : TxContent) : (s.startFrame c).joinTimer = s.joinTimer := rfl
@[simp] theorem State.startFrame_points (c : TxContent) : (s.startFrame c).points = s.points := rfl
@[simp] theorem State.startFrame_pins (c : TxContent) : (s.startFrame c).pins = s.pins := rfl
@[simp] theorem State.startFrame_urgent (c : TxContent) : (s.startFrame c).urgent = s.urgent := rfl
@[simp] theorem State.startFrame_routine (c : TxContent) : (s.startFrame c).routine = s.routine := rfl
@[simp] theorem State.startFrame_line (c : TxContent) : (s.startFrame c).line = .busy := rfl
@[simp] theorem State.startFrame_assembly (c : TxContent) : (s.startFrame c).assembly = .assembling [] := rfl
@[simp] theorem State.startFrame_inFlight (c : TxContent) : (s.startFrame c).inFlight = some { sender := s.number.getD 0, content := c } := rfl
@[simp] theorem State.startFrame_lineRate (c : TxContent) : (s.startFrame c).lineRate = s.lineRate := rfl
@[simp] theorem State.startFrame_mode (c : TxContent) : (s.startFrame c).mode = s.mode := rfl
@[simp] theorem State.startFrame_failures (c : TxContent) : (s.startFrame c).failures = s.failures := rfl
@[simp] theorem State.startFrame_quarantineLength (c : TxContent) : (s.startFrame c).quarantineLength = s.quarantineLength := rfl
@[simp] theorem State.startFrame_quarantineTimer (c : TxContent) : (s.startFrame c).quarantineTimer = s.quarantineTimer := rfl
@[simp] theorem State.startFrame_solicits (c : TxContent) : (s.startFrame c).solicits = s.solicits := rfl
@[simp] theorem State.startFrame_roster (c : TxContent) : (s.startFrame c).roster = s.roster := rfl
@[simp] theorem State.startFrame_presenceTimer (c : TxContent) : (s.startFrame c).presenceTimer = s.presenceTimer := rfl
@[simp] theorem State.startFrame_presencePending (c : TxContent) : (s.startFrame c).presencePending = s.presencePending := rfl
@[simp] theorem State.startFrame_bootCount (c : TxContent) : (s.startFrame c).bootCount = s.bootCount := rfl
@[simp] theorem State.startFrame_outputs (c : TxContent) : (s.startFrame c).outputs = s.outputs := rfl
@[simp] theorem State.startFrame_replies (c : TxContent) : (s.startFrame c).replies = s.replies := rfl
@[simp] theorem State.startFrame_recent (c : TxContent) : (s.startFrame c).recent = s.recent := rfl
@[simp] theorem State.startFrame_counters (c : TxContent) : (s.startFrame c).counters = s.counters := rfl
@[simp] theorem State.startFrame_pendingRestart (c : TxContent) : (s.startFrame c).pendingRestart = s.pendingRestart := rfl
@[simp] theorem State.startFrame_clock (c : TxContent) : (s.startFrame c).clock = s.clock := rfl
@[simp] theorem State.startFrame_pending (c : TxContent) : (s.startFrame c).pending = s.pending := rfl

/-! ### markSolicited -/

@[simp] theorem State.markSolicited_station : (s.markSolicited).station = s.station := rfl
@[simp] theorem State.markSolicited_retained : (s.markSolicited).retained = s.retained := rfl
@[simp] theorem State.markSolicited_supplyAbove : (s.markSolicited).supplyAbove = s.supplyAbove := rfl
@[simp] theorem State.markSolicited_resetHigh : (s.markSolicited).resetHigh = s.resetHigh := rfl
@[simp] theorem State.markSolicited_loading : (s.markSolicited).loading = s.loading := rfl
@[simp] theorem State.markSolicited_straps : (s.markSolicited).straps = s.straps := rfl
@[simp] theorem State.markSolicited_number : (s.markSolicited).number = s.number := rfl
@[simp] theorem State.markSolicited_error : (s.markSolicited).error = s.error := rfl
@[simp] theorem State.markSolicited_header : (s.markSolicited).header = s.header := rfl
@[simp] theorem State.markSolicited_faults : (s.markSolicited).faults = s.faults := rfl
@[simp] theorem State.markSolicited_joinTimer : (s.markSolicited).joinTimer = s.joinTimer := rfl
@[simp] theorem State.markSolicited_points : (s.markSolicited).points = s.points := rfl
@[simp] theorem State.markSolicited_pins : (s.markSolicited).pins = s.pins := rfl
@[simp] theorem State.markSolicited_urgent : (s.markSolicited).urgent = s.urgent := rfl
@[simp] theorem State.markSolicited_routine : (s.markSolicited).routine = s.routine := rfl
@[simp] theorem State.markSolicited_line : (s.markSolicited).line = s.line := rfl
@[simp] theorem State.markSolicited_assembly : (s.markSolicited).assembly = s.assembly := rfl
@[simp] theorem State.markSolicited_inFlight : (s.markSolicited).inFlight = s.inFlight := rfl
@[simp] theorem State.markSolicited_lineRate : (s.markSolicited).lineRate = s.lineRate := rfl
@[simp] theorem State.markSolicited_mode : (s.markSolicited).mode = s.mode := rfl
@[simp] theorem State.markSolicited_failures : (s.markSolicited).failures = s.failures := rfl
@[simp] theorem State.markSolicited_quarantineLength : (s.markSolicited).quarantineLength = s.quarantineLength := rfl
@[simp] theorem State.markSolicited_quarantineTimer : (s.markSolicited).quarantineTimer = s.quarantineTimer := rfl
@[simp] theorem State.markSolicited_solicits : (s.markSolicited).solicits = s.solicits.map fun e => if e.ready && s.nextSolicited.contains e.point then { e with state := .waiting true } else e := rfl
@[simp] theorem State.markSolicited_roster : (s.markSolicited).roster = s.roster := rfl
@[simp] theorem State.markSolicited_presenceTimer : (s.markSolicited).presenceTimer = s.presenceTimer := rfl
@[simp] theorem State.markSolicited_presencePending : (s.markSolicited).presencePending = s.presencePending := rfl
@[simp] theorem State.markSolicited_bootCount : (s.markSolicited).bootCount = s.bootCount := rfl
@[simp] theorem State.markSolicited_outputs : (s.markSolicited).outputs = s.outputs := rfl
@[simp] theorem State.markSolicited_replies : (s.markSolicited).replies = s.replies := rfl
@[simp] theorem State.markSolicited_recent : (s.markSolicited).recent = s.recent := rfl
@[simp] theorem State.markSolicited_counters : (s.markSolicited).counters = s.counters := rfl
@[simp] theorem State.markSolicited_pendingRestart : (s.markSolicited).pendingRestart = s.pendingRestart := rfl
@[simp] theorem State.markSolicited_clock : (s.markSolicited).clock = s.clock := rfl
@[simp] theorem State.markSolicited_pending : (s.markSolicited).pending = s.pending := rfl

/-! ### endAssembly -/

@[simp] theorem State.endAssembly_station : (s.endAssembly).station = s.station := rfl
@[simp] theorem State.endAssembly_retained : (s.endAssembly).retained = s.retained := rfl
@[simp] theorem State.endAssembly_supplyAbove : (s.endAssembly).supplyAbove = s.supplyAbove := rfl
@[simp] theorem State.endAssembly_resetHigh : (s.endAssembly).resetHigh = s.resetHigh := rfl
@[simp] theorem State.endAssembly_loading : (s.endAssembly).loading = s.loading := rfl
@[simp] theorem State.endAssembly_straps : (s.endAssembly).straps = s.straps := rfl
@[simp] theorem State.endAssembly_number : (s.endAssembly).number = s.number := rfl
@[simp] theorem State.endAssembly_error : (s.endAssembly).error = s.error := rfl
@[simp] theorem State.endAssembly_header : (s.endAssembly).header = s.header := rfl
@[simp] theorem State.endAssembly_faults : (s.endAssembly).faults = s.faults := rfl
@[simp] theorem State.endAssembly_joinTimer : (s.endAssembly).joinTimer = s.joinTimer := rfl
@[simp] theorem State.endAssembly_points : (s.endAssembly).points = s.points := rfl
@[simp] theorem State.endAssembly_pins : (s.endAssembly).pins = s.pins := rfl
@[simp] theorem State.endAssembly_urgent : (s.endAssembly).urgent = s.urgent := rfl
@[simp] theorem State.endAssembly_routine : (s.endAssembly).routine = s.routine := rfl
@[simp] theorem State.endAssembly_line : (s.endAssembly).line = s.line := rfl
@[simp] theorem State.endAssembly_assembly : (s.endAssembly).assembly = if s.inFlight.isSome then s.assembly else .empty := rfl
@[simp] theorem State.endAssembly_inFlight : (s.endAssembly).inFlight = s.inFlight := rfl
@[simp] theorem State.endAssembly_lineRate : (s.endAssembly).lineRate = s.lineRate := rfl
@[simp] theorem State.endAssembly_mode : (s.endAssembly).mode = s.mode := rfl
@[simp] theorem State.endAssembly_failures : (s.endAssembly).failures = s.failures := rfl
@[simp] theorem State.endAssembly_quarantineLength : (s.endAssembly).quarantineLength = s.quarantineLength := rfl
@[simp] theorem State.endAssembly_quarantineTimer : (s.endAssembly).quarantineTimer = s.quarantineTimer := rfl
@[simp] theorem State.endAssembly_solicits : (s.endAssembly).solicits = s.solicits := rfl
@[simp] theorem State.endAssembly_roster : (s.endAssembly).roster = s.roster := rfl
@[simp] theorem State.endAssembly_presenceTimer : (s.endAssembly).presenceTimer = s.presenceTimer := rfl
@[simp] theorem State.endAssembly_presencePending : (s.endAssembly).presencePending = s.presencePending := rfl
@[simp] theorem State.endAssembly_bootCount : (s.endAssembly).bootCount = s.bootCount := rfl
@[simp] theorem State.endAssembly_outputs : (s.endAssembly).outputs = s.outputs := rfl
@[simp] theorem State.endAssembly_replies : (s.endAssembly).replies = s.replies := rfl
@[simp] theorem State.endAssembly_recent : (s.endAssembly).recent = s.recent := rfl
@[simp] theorem State.endAssembly_counters : (s.endAssembly).counters = s.counters := rfl
@[simp] theorem State.endAssembly_pendingRestart : (s.endAssembly).pendingRestart = s.pendingRestart := rfl
@[simp] theorem State.endAssembly_clock : (s.endAssembly).clock = s.clock := rfl
@[simp] theorem State.endAssembly_pending : (s.endAssembly).pending = s.pending := rfl

/-! ### discardFrame -/

@[simp] theorem State.discardFrame_station : (s.discardFrame).station = s.station := rfl
@[simp] theorem State.discardFrame_retained : (s.discardFrame).retained = s.retained := rfl
@[simp] theorem State.discardFrame_supplyAbove : (s.discardFrame).supplyAbove = s.supplyAbove := rfl
@[simp] theorem State.discardFrame_resetHigh : (s.discardFrame).resetHigh = s.resetHigh := rfl
@[simp] theorem State.discardFrame_loading : (s.discardFrame).loading = s.loading := rfl
@[simp] theorem State.discardFrame_straps : (s.discardFrame).straps = s.straps := rfl
@[simp] theorem State.discardFrame_number : (s.discardFrame).number = s.number := rfl
@[simp] theorem State.discardFrame_error : (s.discardFrame).error = s.error := rfl
@[simp] theorem State.discardFrame_header : (s.discardFrame).header = s.header := rfl
@[simp] theorem State.discardFrame_faults : (s.discardFrame).faults = s.faults := rfl
@[simp] theorem State.discardFrame_joinTimer : (s.discardFrame).joinTimer = s.joinTimer := rfl
@[simp] theorem State.discardFrame_points : (s.discardFrame).points = s.points := rfl
@[simp] theorem State.discardFrame_pins : (s.discardFrame).pins = s.pins := rfl
@[simp] theorem State.discardFrame_urgent : (s.discardFrame).urgent = s.urgent := rfl
@[simp] theorem State.discardFrame_routine : (s.discardFrame).routine = s.routine := rfl
@[simp] theorem State.discardFrame_line : (s.discardFrame).line = s.line := rfl
@[simp] theorem State.discardFrame_assembly : (s.discardFrame).assembly = if s.inFlight.isSome then s.assembly else if s.line = .busy then .ignoring else .empty := rfl
@[simp] theorem State.discardFrame_inFlight : (s.discardFrame).inFlight = s.inFlight := rfl
@[simp] theorem State.discardFrame_lineRate : (s.discardFrame).lineRate = s.lineRate := rfl
@[simp] theorem State.discardFrame_mode : (s.discardFrame).mode = s.mode := rfl
@[simp] theorem State.discardFrame_failures : (s.discardFrame).failures = s.failures := rfl
@[simp] theorem State.discardFrame_quarantineLength : (s.discardFrame).quarantineLength = s.quarantineLength := rfl
@[simp] theorem State.discardFrame_quarantineTimer : (s.discardFrame).quarantineTimer = s.quarantineTimer := rfl
@[simp] theorem State.discardFrame_solicits : (s.discardFrame).solicits = s.solicits := rfl
@[simp] theorem State.discardFrame_roster : (s.discardFrame).roster = s.roster := rfl
@[simp] theorem State.discardFrame_presenceTimer : (s.discardFrame).presenceTimer = s.presenceTimer := rfl
@[simp] theorem State.discardFrame_presencePending : (s.discardFrame).presencePending = s.presencePending := rfl
@[simp] theorem State.discardFrame_bootCount : (s.discardFrame).bootCount = s.bootCount := rfl
@[simp] theorem State.discardFrame_outputs : (s.discardFrame).outputs = s.outputs := rfl
@[simp] theorem State.discardFrame_replies : (s.discardFrame).replies = s.replies := rfl
@[simp] theorem State.discardFrame_recent : (s.discardFrame).recent = s.recent := rfl
@[simp] theorem State.discardFrame_counters : (s.discardFrame).counters = s.counters.bump .receiveErrors := rfl
@[simp] theorem State.discardFrame_pendingRestart : (s.discardFrame).pendingRestart = s.pendingRestart := rfl
@[simp] theorem State.discardFrame_clock : (s.discardFrame).clock = s.clock := rfl
@[simp] theorem State.discardFrame_pending : (s.discardFrame).pending = s.pending := rfl

/-! ### updatePin -/

@[simp] theorem State.updatePin_station (i : Fin 16) (f : Pin → Pin) : (s.updatePin i f).station = s.station := rfl
@[simp] theorem State.updatePin_retained (i : Fin 16) (f : Pin → Pin) : (s.updatePin i f).retained = s.retained := rfl
@[simp] theorem State.updatePin_supplyAbove (i : Fin 16) (f : Pin → Pin) : (s.updatePin i f).supplyAbove = s.supplyAbove := rfl
@[simp] theorem State.updatePin_resetHigh (i : Fin 16) (f : Pin → Pin) : (s.updatePin i f).resetHigh = s.resetHigh := rfl
@[simp] theorem State.updatePin_loading (i : Fin 16) (f : Pin → Pin) : (s.updatePin i f).loading = s.loading := rfl
@[simp] theorem State.updatePin_straps (i : Fin 16) (f : Pin → Pin) : (s.updatePin i f).straps = s.straps := rfl
@[simp] theorem State.updatePin_number (i : Fin 16) (f : Pin → Pin) : (s.updatePin i f).number = s.number := rfl
@[simp] theorem State.updatePin_error (i : Fin 16) (f : Pin → Pin) : (s.updatePin i f).error = s.error := rfl
@[simp] theorem State.updatePin_header (i : Fin 16) (f : Pin → Pin) : (s.updatePin i f).header = s.header := rfl
@[simp] theorem State.updatePin_faults (i : Fin 16) (f : Pin → Pin) : (s.updatePin i f).faults = s.faults := rfl
@[simp] theorem State.updatePin_joinTimer (i : Fin 16) (f : Pin → Pin) : (s.updatePin i f).joinTimer = s.joinTimer := rfl
@[simp] theorem State.updatePin_points (i : Fin 16) (f : Pin → Pin) : (s.updatePin i f).points = s.points := rfl
@[simp] theorem State.updatePin_pins (i : Fin 16) (f : Pin → Pin) : (s.updatePin i f).pins = s.pins.modify i.val f := rfl
@[simp] theorem State.updatePin_urgent (i : Fin 16) (f : Pin → Pin) : (s.updatePin i f).urgent = s.urgent := rfl
@[simp] theorem State.updatePin_routine (i : Fin 16) (f : Pin → Pin) : (s.updatePin i f).routine = s.routine := rfl
@[simp] theorem State.updatePin_line (i : Fin 16) (f : Pin → Pin) : (s.updatePin i f).line = s.line := rfl
@[simp] theorem State.updatePin_assembly (i : Fin 16) (f : Pin → Pin) : (s.updatePin i f).assembly = s.assembly := rfl
@[simp] theorem State.updatePin_inFlight (i : Fin 16) (f : Pin → Pin) : (s.updatePin i f).inFlight = s.inFlight := rfl
@[simp] theorem State.updatePin_lineRate (i : Fin 16) (f : Pin → Pin) : (s.updatePin i f).lineRate = s.lineRate := rfl
@[simp] theorem State.updatePin_mode (i : Fin 16) (f : Pin → Pin) : (s.updatePin i f).mode = s.mode := rfl
@[simp] theorem State.updatePin_failures (i : Fin 16) (f : Pin → Pin) : (s.updatePin i f).failures = s.failures := rfl
@[simp] theorem State.updatePin_quarantineLength (i : Fin 16) (f : Pin → Pin) : (s.updatePin i f).quarantineLength = s.quarantineLength := rfl
@[simp] theorem State.updatePin_quarantineTimer (i : Fin 16) (f : Pin → Pin) : (s.updatePin i f).quarantineTimer = s.quarantineTimer := rfl
@[simp] theorem State.updatePin_solicits (i : Fin 16) (f : Pin → Pin) : (s.updatePin i f).solicits = s.solicits := rfl
@[simp] theorem State.updatePin_roster (i : Fin 16) (f : Pin → Pin) : (s.updatePin i f).roster = s.roster := rfl
@[simp] theorem State.updatePin_presenceTimer (i : Fin 16) (f : Pin → Pin) : (s.updatePin i f).presenceTimer = s.presenceTimer := rfl
@[simp] theorem State.updatePin_presencePending (i : Fin 16) (f : Pin → Pin) : (s.updatePin i f).presencePending = s.presencePending := rfl
@[simp] theorem State.updatePin_bootCount (i : Fin 16) (f : Pin → Pin) : (s.updatePin i f).bootCount = s.bootCount := rfl
@[simp] theorem State.updatePin_outputs (i : Fin 16) (f : Pin → Pin) : (s.updatePin i f).outputs = s.outputs := rfl
@[simp] theorem State.updatePin_replies (i : Fin 16) (f : Pin → Pin) : (s.updatePin i f).replies = s.replies := rfl
@[simp] theorem State.updatePin_recent (i : Fin 16) (f : Pin → Pin) : (s.updatePin i f).recent = s.recent := rfl
@[simp] theorem State.updatePin_counters (i : Fin 16) (f : Pin → Pin) : (s.updatePin i f).counters = s.counters := rfl
@[simp] theorem State.updatePin_pendingRestart (i : Fin 16) (f : Pin → Pin) : (s.updatePin i f).pendingRestart = s.pendingRestart := rfl
@[simp] theorem State.updatePin_clock (i : Fin 16) (f : Pin → Pin) : (s.updatePin i f).clock = s.clock := rfl
@[simp] theorem State.updatePin_pending (i : Fin 16) (f : Pin → Pin) : (s.updatePin i f).pending = s.pending := rfl

/-! ### writeCurrent -/

@[simp] theorem State.writeCurrent_station (n : Nat) (v : Byte) : (s.writeCurrent n v).station = s.station := rfl
@[simp] theorem State.writeCurrent_retained (n : Nat) (v : Byte) : (s.writeCurrent n v).retained = s.retained := rfl
@[simp] theorem State.writeCurrent_supplyAbove (n : Nat) (v : Byte) : (s.writeCurrent n v).supplyAbove = s.supplyAbove := rfl
@[simp] theorem State.writeCurrent_resetHigh (n : Nat) (v : Byte) : (s.writeCurrent n v).resetHigh = s.resetHigh := rfl
@[simp] theorem State.writeCurrent_loading (n : Nat) (v : Byte) : (s.writeCurrent n v).loading = s.loading := rfl
@[simp] theorem State.writeCurrent_straps (n : Nat) (v : Byte) : (s.writeCurrent n v).straps = s.straps := rfl
@[simp] theorem State.writeCurrent_number (n : Nat) (v : Byte) : (s.writeCurrent n v).number = s.number := rfl
@[simp] theorem State.writeCurrent_error (n : Nat) (v : Byte) : (s.writeCurrent n v).error = s.error := rfl
@[simp] theorem State.writeCurrent_header (n : Nat) (v : Byte) : (s.writeCurrent n v).header = s.header := rfl
@[simp] theorem State.writeCurrent_faults (n : Nat) (v : Byte) : (s.writeCurrent n v).faults = s.faults := rfl
@[simp] theorem State.writeCurrent_joinTimer (n : Nat) (v : Byte) : (s.writeCurrent n v).joinTimer = s.joinTimer := rfl
@[simp] theorem State.writeCurrent_points (n : Nat) (v : Byte) : (s.writeCurrent n v).points = (s.updateOwned n fun o => { o with current := v }).points := rfl
@[simp] theorem State.writeCurrent_pins (n : Nat) (v : Byte) : (s.writeCurrent n v).pins = s.pins := rfl
@[simp] theorem State.writeCurrent_urgent (n : Nat) (v : Byte) : (s.writeCurrent n v).urgent = s.urgent := rfl
@[simp] theorem State.writeCurrent_routine (n : Nat) (v : Byte) : (s.writeCurrent n v).routine = s.routine := rfl
@[simp] theorem State.writeCurrent_line (n : Nat) (v : Byte) : (s.writeCurrent n v).line = s.line := rfl
@[simp] theorem State.writeCurrent_assembly (n : Nat) (v : Byte) : (s.writeCurrent n v).assembly = s.assembly := rfl
@[simp] theorem State.writeCurrent_inFlight (n : Nat) (v : Byte) : (s.writeCurrent n v).inFlight = s.inFlight := rfl
@[simp] theorem State.writeCurrent_lineRate (n : Nat) (v : Byte) : (s.writeCurrent n v).lineRate = s.lineRate := rfl
@[simp] theorem State.writeCurrent_mode (n : Nat) (v : Byte) : (s.writeCurrent n v).mode = s.mode := rfl
@[simp] theorem State.writeCurrent_failures (n : Nat) (v : Byte) : (s.writeCurrent n v).failures = s.failures := rfl
@[simp] theorem State.writeCurrent_quarantineLength (n : Nat) (v : Byte) : (s.writeCurrent n v).quarantineLength = s.quarantineLength := rfl
@[simp] theorem State.writeCurrent_quarantineTimer (n : Nat) (v : Byte) : (s.writeCurrent n v).quarantineTimer = s.quarantineTimer := rfl
@[simp] theorem State.writeCurrent_solicits (n : Nat) (v : Byte) : (s.writeCurrent n v).solicits = s.solicits := rfl
@[simp] theorem State.writeCurrent_roster (n : Nat) (v : Byte) : (s.writeCurrent n v).roster = s.roster := rfl
@[simp] theorem State.writeCurrent_presenceTimer (n : Nat) (v : Byte) : (s.writeCurrent n v).presenceTimer = s.presenceTimer := rfl
@[simp] theorem State.writeCurrent_presencePending (n : Nat) (v : Byte) : (s.writeCurrent n v).presencePending = s.presencePending := rfl
@[simp] theorem State.writeCurrent_bootCount (n : Nat) (v : Byte) : (s.writeCurrent n v).bootCount = s.bootCount := rfl
@[simp] theorem State.writeCurrent_outputs (n : Nat) (v : Byte) : (s.writeCurrent n v).outputs = s.outputs := rfl
@[simp] theorem State.writeCurrent_replies (n : Nat) (v : Byte) : (s.writeCurrent n v).replies = s.replies := rfl
@[simp] theorem State.writeCurrent_recent (n : Nat) (v : Byte) : (s.writeCurrent n v).recent = s.recent := rfl
@[simp] theorem State.writeCurrent_counters (n : Nat) (v : Byte) : (s.writeCurrent n v).counters = s.counters := rfl
@[simp] theorem State.writeCurrent_pendingRestart (n : Nat) (v : Byte) : (s.writeCurrent n v).pendingRestart = s.pendingRestart := rfl
@[simp] theorem State.writeCurrent_clock (n : Nat) (v : Byte) : (s.writeCurrent n v).clock = s.clock := rfl
@[simp] theorem State.writeCurrent_pending (n : Nat) (v : Byte) : (s.writeCurrent n v).pending = s.pending := rfl

end Sys2Proof.Machine
end

