-- ==== Sys2Proof/Laws/Ops.lean ====
section
/-!
SUPPORT. What the shared operations of Machine/Ops.lean and Machine/Flags.lean can do: which fields they touch, and what a look-up
gives after them.
-/

namespace Sys2Proof.Machine

/-! ## The receive assembly -/

@[simp] theorem Assembly.chars_empty : Assembly.empty.chars = [] := rfl
@[simp] theorem Assembly.chars_assembling (l : List LineChar) : (Assembly.assembling l).chars = l := rfl
@[simp] theorem Assembly.chars_ignoring : Assembly.ignoring.chars = [] := rfl
@[simp] theorem Assembly.inProgress_empty : Assembly.empty.inProgress = false := rfl
@[simp] theorem Assembly.inProgress_assembling (l : List LineChar) : (Assembly.assembling l).inProgress = true := rfl
@[simp] theorem Assembly.inProgress_ignoring : Assembly.ignoring.inProgress = false := rfl
@[simp] theorem Assembly.takeChar_empty (c : LineChar) : Assembly.empty.takeChar c = .assembling [c] := rfl
@[simp] theorem Assembly.takeChar_ignoring (c : LineChar) : Assembly.ignoring.takeChar c = .ignoring := rfl

/-- A character joins a buffer with room (R75). -/
theorem Assembly.takeChar_room {l : List LineChar} (h : l.length < Config.maxChars) (c : LineChar) :
    (Assembly.assembling l).takeChar c = .assembling (l ++ [c]) := by
  simp [Assembly.takeChar, List.take_of_length_le (show (l ++ [c]).length ≤ Config.maxChars by simp; omega)]

/-- A full buffer takes no character (R75). -/
theorem Assembly.takeChar_full {l : List LineChar} (h : l.length = Config.maxChars) (c : LineChar) :
    (Assembly.assembling l).takeChar c = .assembling l := by
  simp [Assembly.takeChar, ← h]

/-- The receive assembly buffer never holds more than 29 characters (R75). -/
theorem Assembly.takeChar_capacity {a : Assembly} (h : a.chars.length ≤ Config.maxChars) (c : LineChar) :
    (a.takeChar c).chars.length ≤ Config.maxChars := by
  cases a with
  | empty => simp [Config.maxChars]
  | assembling l => simp [Assembly.takeChar]
  | ignoring => exact h

/-- What a character does to the receive assembly: it keeps an ignored line ignored, and else a frame is in assembly. -/
theorem Assembly.takeChar_inProgress (a : Assembly) (c : LineChar) : (a.takeChar c).inProgress = (a != .ignoring) := by
  cases a <;> simp [Assembly.takeChar]

/-- The two ways a change from recessive to dominant samples (R64). -/
theorem sampleChar_cases (bits : CharBits) :
    (bits.getLsbD 0 = true ∧ sampleChar bits = none)
    ∨ (bits.getLsbD 0 = false
      ∧ sampleChar bits = some { data := bits.extractLsb' 1 8, stopRecessive := bits.getLsbD 9 }) := by
  unfold sampleChar
  split
  · exact .inl ⟨‹_›, rfl⟩
  · exact .inr ⟨Bool.eq_false_iff.mpr ‹_›, rfl⟩

/-! ## Which fields an operation touches -/

/-- `t` differs from `s` in the Publication Queue and the Point Table at most. -/
def OnlyQueue (s t : State) : Prop := t = { s with points := t.points, urgent := t.urgent, routine := t.routine }

/-- `t` differs from `s` in what a change of the fault summary reaches at most. -/
def OnlyStatus (s t : State) : Prop :=
  t = { s with points := t.points, urgent := t.urgent, routine := t.routine, outputs := t.outputs, faults := t.faults }

/-- `t` differs from `s` in the tables of points, solicitations, peers and outputs, the summary and the counters at most. -/
def OnlyTables (s t : State) : Prop :=
  t = { s with
    points := t.points, urgent := t.urgent, routine := t.routine, outputs := t.outputs, faults := t.faults
    solicits := t.solicits, roster := t.roster, counters := t.counters }

/-- `t` differs from `s` in what the arrival of a frame from another station reaches at most, the receive assembly apart. -/
def OnlyTaken (s t : State) : Prop :=
  t = { s with
    points := t.points, urgent := t.urgent, routine := t.routine, outputs := t.outputs, faults := t.faults
    solicits := t.solicits, roster := t.roster, counters := t.counters
    replies := t.replies, recent := t.recent, pendingRestart := t.pendingRestart }

theorem OnlyQueue.refl (s : State) : OnlyQueue s s := rfl
theorem OnlyStatus.refl (s : State) : OnlyStatus s s := rfl
theorem OnlyTables.refl (s : State) : OnlyTables s s := rfl
theorem OnlyTaken.refl (s : State) : OnlyTaken s s := rfl

theorem OnlyQueue.trans {s t u : State} (h : OnlyQueue s t) (k : OnlyQueue t u) : OnlyQueue s u := by
  unfold OnlyQueue at *; rw [k, h]
theorem OnlyStatus.trans {s t u : State} (h : OnlyStatus s t) (k : OnlyStatus t u) : OnlyStatus s u := by
  unfold OnlyStatus at *; rw [k, h]
theorem OnlyTables.trans {s t u : State} (h : OnlyTables s t) (k : OnlyTables t u) : OnlyTables s u := by
  unfold OnlyTables at *; rw [k, h]
theorem OnlyTaken.trans {s t u : State} (h : OnlyTaken s t) (k : OnlyTaken t u) : OnlyTaken s u := by
  unfold OnlyTaken at *; rw [k, h]

theorem OnlyQueue.status {s t : State} (h : OnlyQueue s t) : OnlyStatus s t := by
  unfold OnlyQueue at h; unfold OnlyStatus; rw [h]
theorem OnlyStatus.tables {s t : State} (h : OnlyStatus s t) : OnlyTables s t := by
  unfold OnlyStatus at h; unfold OnlyTables; rw [h]
theorem OnlyTables.taken {s t : State} (h : OnlyTables s t) : OnlyTaken s t := by
  unfold OnlyTables at h; unfold OnlyTaken; rw [h]

/-- A relation that holds of every turn of a fold holds of the fold. -/
theorem foldl_rel {α : Type} (R : State → State → Prop) (refl : ∀ s, R s s)
    (trans : ∀ {s t u}, R s t → R t u → R s u) (f : State → α → State) (turn : ∀ s a, R s (f s a)) (l : List α) :
    ∀ s, R s (l.foldl f s) := by
  induction l with
  | nil => exact refl
  | cons a l ih => exact fun s => trans (turn s a) (ih _)

/-- A property that every turn of a fold keeps is kept by the fold. -/
theorem foldl_keeps {α : Type} (P : State → Prop) (f : State → α → State) (turn : ∀ s a, P s → P (f s a)) (l : List α) :
    ∀ s, P s → P (l.foldl f s) := by
  induction l with
  | nil => exact fun _ h => h
  | cons a l ih => exact fun s h => ih _ (turn s a h)

theorem evaluateWhere_only (pick : Output → Bool) (s : State) :
    s.evaluateWhere pick = { s with outputs := (s.evaluateWhere pick).outputs } := by
  unfold State.evaluateWhere; split <;> rfl

theorem evaluateWhere_status (pick : Output → Bool) (s : State) : OnlyStatus s (s.evaluateWhere pick) := by
  unfold OnlyStatus State.evaluateWhere; split <;> rfl

theorem evaluateSource_status (n : Nat) (s : State) : OnlyStatus s (s.evaluateSource n) := evaluateWhere_status _ s
theorem evaluatePin_status (i : Fin 16) (s : State) : OnlyStatus s (s.evaluatePin i) := evaluateWhere_status _ s

theorem changeEvent_queue (n : Nat) (s : State) : OnlyQueue s (s.changeEvent n) := by
  unfold State.changeEvent
  split
  · exact .refl s
  · split <;> first | exact .refl s | rfl

theorem claim_queue (n : Nat) (s : State) : OnlyQueue s (s.claim n) := by
  unfold State.claim
  split
  · exact .refl s
  · split <;> first | exact .refl s | rfl

theorem yieldPoint_queue (n : Nat) (s : State) : OnlyQueue s (s.yieldPoint n) := rfl

theorem statusEvent_status (s : State) (n : Nat) : OnlyStatus s (s.statusEvent n) := by
  unfold State.statusEvent
  refine (evaluateSource_status n s).trans ?_
  dsimp only
  split
  · exact (changeEvent_queue n _).status
  · exact .refl _

theorem statusChanged_status (s : State) : OnlyStatus s s.statusChanged := by
  unfold State.statusChanged
  split
  · exact OnlyStatus.trans (s := s) (t := s.writeStatus) rfl
      (foldl_rel OnlyStatus .refl .trans _ statusEvent_status _ _)
  · exact .refl s

/-- A report of a condition reaches the summary, the STATUS-sourced point, its outputs and its place in the queue (R188, R33). -/
theorem report_status (c : Condition) (b : Bool) (s : State) : OnlyStatus s (s.report c b) := by
  unfold State.report
  split
  · exact .refl s
  · exact OnlyStatus.trans (s := s) (t := { s with faults := s.faults.put c b }) rfl (statusChanged_status _)

theorem judgeSource_status (s : State) : OnlyStatus s s.judgeSource := report_status _ _ s
theorem judgePeerLost_status (s : State) : OnlyStatus s s.judgePeerLost := report_status _ _ s

/-! ## The fault summary -/

@[simp] theorem FaultSummary.get_put (f : FaultSummary) (c d : Condition) (b : Bool) :
    (f.put c b).get d = if d = c then b else f.get d := by
  cases c <;> cases d <;> rfl

theorem statusChanged_faults (s : State) : s.statusChanged.faults = s.faults := by
  unfold State.statusChanged
  split
  · refine foldl_keeps (fun t => t.faults = s.faults) _ (fun t n h => ?_) _ _ rfl
    unfold State.statusEvent
    rw [← h]
    dsimp only
    split
    · rw [changeEvent_queue, State.evaluateSource, evaluateWhere_only]
    · rw [State.evaluateSource, evaluateWhere_only]
  · rfl

/-- The summary after a report: the one condition as reported, the others as they were (R188). -/
@[simp] theorem report_faults (c : Condition) (b : Bool) (s : State) : (s.report c b).faults = s.faults.put c b := by
  unfold State.report
  split
  · next h => subst h; cases c <;> rfl
  · rw [statusChanged_faults]

theorem judgeSource_faults (s : State) : s.judgeSource.faults = s.faults.put .source (s.points.any Point.holdsSource) :=
  report_faults _ _ s

theorem judgePeerLost_faults (s : State) :
    s.judgePeerLost.faults = s.faults.put .peerLost (s.roster.any Peer.holdsPeerLost) :=
  report_faults _ _ s

/-! ## Looking up the Point Table -/

@[simp] theorem Point.mapOwned_number (f : Owned → Owned) (p : Point) : (p.mapOwned f).number = p.number := by
  unfold Point.mapOwned; split <;> rfl
@[simp] theorem Point.mapMirrored_number (f : Mirrored → Mirrored) (p : Point) : (p.mapMirrored f).number = p.number := by
  unfold Point.mapMirrored; split <;> rfl
@[simp] theorem Point.mapOwned_kind (f : Owned → Owned) (p : Point) : (p.mapOwned f).kind = p.kind := by
  unfold Point.mapOwned; split <;> rfl
@[simp] theorem Point.mapMirrored_kind (f : Mirrored → Mirrored) (p : Point) : (p.mapMirrored f).kind = p.kind := by
  unfold Point.mapMirrored; split <;> rfl
@[simp] theorem Point.owned?_mapOwned (f : Owned → Owned) (p : Point) : (p.mapOwned f).owned? = p.owned?.map f := by
  unfold Point.mapOwned Point.owned?; cases h : p.role <;> simp [h]
@[simp] theorem Point.mirrored?_mapOwned (f : Owned → Owned) (p : Point) : (p.mapOwned f).mirrored? = p.mirrored? := by
  unfold Point.mapOwned Point.mirrored?; cases h : p.role <;> simp [h]
@[simp] theorem Point.mirrored?_mapMirrored (f : Mirrored → Mirrored) (p : Point) :
    (p.mapMirrored f).mirrored? = p.mirrored?.map f := by
  unfold Point.mapMirrored Point.mirrored?; cases h : p.role <;> simp [h]
@[simp] theorem Point.owned?_mapMirrored (f : Mirrored → Mirrored) (p : Point) : (p.mapMirrored f).owned? = p.owned? := by
  unfold Point.mapMirrored Point.owned?; cases h : p.role <;> simp [h]

/-- A look-up after a change of entries that keeps every number. -/
theorem findPoint_map (g : Point → Point) (keeps : ∀ p, (g p).number = p.number) (n : Nat) (l : List Point) :
    findPoint n (l.map g) = (findPoint n l).map g := by
  unfold findPoint
  rw [List.find?_map]
  congr 2
  funext p
  simp [keeps]

theorem findPoint_number {n : Nat} {l : List Point} {p : Point} (h : findPoint n l = some p) : p.number = n := by
  simpa using List.find?_some h

theorem findPoint_mem {n : Nat} {l : List Point} {p : Point} (h : findPoint n l = some p) : p ∈ l :=
  List.mem_of_find?_eq_some h

/-- The OWNED entry of a number after a change of OWNED entries: the changed fields for the number, the old ones elsewhere. -/
theorem ownedAt_updateOwned (n m : Nat) (f : Owned → Owned) (s : State) :
    (s.updateOwned n f).ownedAt m = (s.ownedAt m).map fun o => if m = n then f o else o := by
  unfold State.ownedAt State.updateOwned
  rw [findPoint_map _ (fun p => by split <;> simp)]
  cases h : findPoint m s.points with
  | none => rfl
  | some p =>
    have hm := findPoint_number h
    by_cases e : m = n
    · simp [hm, e]
    · simp [hm, e]

@[simp] theorem mirroredAt_updateOwned (n m : Nat) (f : Owned → Owned) (s : State) :
    (s.updateOwned n f).mirroredAt m = s.mirroredAt m := by
  unfold State.mirroredAt State.updateOwned
  rw [findPoint_map _ (fun p => by split <;> simp)]
  cases h : findPoint m s.points with
  | none => rfl
  | some p => by_cases e : p.number = n <;> simp [e]

/-- The MIRRORED entry of a number after a change of MIRRORED entries. -/
theorem mirroredAt_updateMirrored (n m : Nat) (f : Mirrored → Mirrored) (s : State) :
    (s.updateMirrored n f).mirroredAt m = (s.mirroredAt m).map fun o => if m = n then f o else o := by
  unfold State.mirroredAt State.updateMirrored
  rw [findPoint_map _ (fun p => by split <;> simp)]
  cases h : findPoint m s.points with
  | none => rfl
  | some p =>
    have hm := findPoint_number h
    by_cases e : m = n
    · simp [hm, e]
    · simp [hm, e]

@[simp] theorem ownedAt_updateMirrored (n m : Nat) (f : Mirrored → Mirrored) (s : State) :
    (s.updateMirrored n f).ownedAt m = s.ownedAt m := by
  unfold State.ownedAt State.updateMirrored
  rw [findPoint_map _ (fun p => by split <;> simp)]
  cases h : findPoint m s.points with
  | none => rfl
  | some p => by_cases e : p.number = n <;> simp [e]

/-! ## Lists without a number -/

@[simp] theorem mem_without (n m : Nat) (l : List Nat) : m ∈ without n l ↔ m ∈ l ∧ m ≠ n := by
  simp [without]

theorem without_nodup {n : Nat} {l : List Nat} (h : l.Nodup) : (without n l).Nodup := h.filter _

/-! ## Counters -/

/-- A counter never falls at an increase, and stands at its ceiling there (R175). -/
theorem le_saturatingStep (c : Counter) : c ≤ saturatingStep c := by
  unfold saturatingStep
  split
  · exact BitVec.le_refl c
  · next h =>
    have : c.toNat ≠ 65535 := fun e => h (BitVec.eq_of_toNat_eq e)
    rw [BitVec.le_def, BitVec.toNat_add]
    have := c.isLt
    have one : (1 : BitVec 16).toNat = 1 := rfl
    omega

end Sys2Proof.Machine
end

