-- ==== Sys2Proof/Laws/Blocks.lean ====
section
/-!
SUPPORT. Which fields the operations of the blocks touch: what a frame heard, a record, a solicitation, a presence frame and a request
can change.
-/

namespace Sys2Proof.Machine

/-! ## Counters and the solicit list -/

theorem bump_tables (k : CounterId) (s : State) : OnlyTables s (s.bump k) := rfl

theorem fillSolicits_tables (s : State) : OnlyTables s s.fillSolicits := by
  unfold State.fillSolicits; split <;> rfl

theorem solicitPoint_tables (n : Nat) (s : State) : OnlyTables s (s.solicitPoint n) := by
  unfold State.solicitPoint; split
  · split <;> rfl
  · rfl

theorem satisfy_tables (n : Nat) (s : State) : OnlyTables s (s.satisfy n) := by
  unfold State.satisfy; split
  · exact OnlyTables.trans (t := s.removeSolicit n) rfl (fillSolicits_tables _)
  · rfl

theorem takeSolicited_tables (s : State) (n : Nat) : OnlyTables s (s.takeSolicited n) := by
  unfold State.takeSolicited
  split
  · split
    · exact .refl s
    · split
      · exact (claim_queue n s).status.tables
      · rfl
  · exact .refl s

theorem takeSolicit_tables (body : List Byte) (s : State) : OnlyTables s (s.takeSolicit body) := by
  unfold State.takeSolicit
  split
  · exact foldl_rel OnlyTables .refl .trans _ takeSolicited_tables _ s
  · rfl

/-! ## Overrides -/

theorem updateOverrides_tables (i : Fin 16) (f : List Override → List Override) (s : State) :
    OnlyTables s (s.updateOverrides i f) := rfl

theorem keepHoldsMark_tables (p : Station) (s : State) : OnlyTables s (s.keepHoldsMark p) := rfl

theorem removeOverride_tables (i : Fin 16) (p : Station) (s : State) : OnlyTables s (s.removeOverride i p) :=
  ((updateOverrides_tables i _ s).trans (evaluatePin_status i _).tables).trans (keepHoldsMark_tables p _)

theorem applyForce_tables (p : Station) (i : Fin 16) (v : Bool) (lease : Byte) (s : State) :
    OnlyTables s (s.applyForce p i v lease).1 := by
  unfold State.applyForce
  split
  · exact .refl s
  · dsimp only
    have pushed := ((updateOverrides_tables i
      (fun l => { origin := p, value := v, lease := leaseExpiry s.clock lease } :: dropOrigin p l) s).trans
      (evaluatePin_status i _).tables).trans (keepHoldsMark_tables p _)
    split
    · exact .refl s
    · split
      · exact pushed
      · split
        · exact .refl s
        · exact pushed

theorem applyRelease_tables (p : Station) (i : Fin 16) (s : State) : OnlyTables s (s.applyRelease p i).1 := by
  unfold State.applyRelease
  split
  · exact .refl s
  · split
    · exact removeOverride_tables i p s
    · exact .refl s

theorem discardOldest_tables (i : Fin 16) (s : State) : OnlyTables s (s.discardOldest i) := by
  unfold State.discardOldest
  split
  · exact .refl s
  · split
    · exact .refl s
    · exact OnlyTables.trans (t := ((s.updateOverrides i List.dropLast).keepHoldsMark _).bump .overrideDiscards) rfl
        (report_status _ _ _).tables

theorem handPress_tables (i : Fin 16) (s : State) : OnlyTables s (s.handPress i) := by
  unfold State.handPress
  split
  · exact .refl s
  · split
    · exact (updateOverrides_tables i _ s).trans (evaluatePin_status i _).tables
    · dsimp only
      have room : ∀ t : State, OnlyTables s t → ∀ e : Override,
          OnlyTables s ((t.updateOverrides i (e :: ·)).evaluatePin i) := fun t h e =>
        (h.trans (updateOverrides_tables i _ t)).trans (evaluatePin_status i _).tables
      split
      · exact room _ (discardOldest_tables i s) _
      · exact room s (.refl s) _

theorem purge_tables (p : Station) (s : State) : OnlyTables s (s.purge p) := by
  unfold State.purge
  refine OnlyTables.trans ?_ (keepHoldsMark_tables p _)
  exact foldl_rel OnlyTables .refl .trans _
    (fun t i => (updateOverrides_tables i _ t).trans (evaluatePin_status i _).tables) _ s

/-! ## The roster -/

theorem updatePeer_tables (p : Station) (f : Peer → Peer) (s : State) : OnlyTables s (s.updatePeer p f) := rfl

theorem mustTrack_tables (p : Station) (s : State) : OnlyTables s (s.mustTrack p).1 := by
  unfold State.mustTrack
  dsimp only
  split
  · rfl
  · split
    · exact .refl s
    · exact OnlyTables.trans
        (t := { s with roster := s.roster.map fun e => if e.station = _ then newPeer p s.clock (namesSource p s.points) else e })
        rfl (judgePeerLost_status _).tables

theorem track_tables (p : Station) (s : State) : OnlyTables s (s.track p).1 := by
  unfold State.track
  split
  · exact .refl s
  · have h := mustTrack_tables p s
    split
    · next e => rw [e] at h; exact h
    · next e =>
      rw [e] at h
      exact h.trans (OnlyTables.trans (bump_tables _ _) (report_status _ _ _).tables)

theorem keepSourcesMark_tables (p : Station) (s : State) : OnlyTables s (s.keepSourcesMark p) :=
  (updatePeer_tables p _ s).trans (judgePeerLost_status _).tables

theorem heard_tables (p : Station) (s : State) : OnlyTables s (s.heard p) := by
  unfold State.heard
  split
  · split
    · exact (updatePeer_tables p _ s).trans (judgePeerLost_status _).tables
    · split
      · rfl
      · split
        · exact mustTrack_tables p s
        · exact .refl s
  · exact .refl s

theorem sourceLost_tables (s : State) (n : Nat) : OnlyTables s (s.sourceLost n) := by
  unfold State.sourceLost
  split
  · exact .refl s
  · split
    · exact (OnlyTables.trans (t := s.updateMirrored n Mirrored.goStale) rfl (judgeSource_status _).tables).trans
        (evaluateSource_status n _).tables
    · exact .refl s
    · exact .refl s

theorem sourceRestarted_tables (s : State) (n : Nat) : OnlyTables s (s.sourceRestarted n) := by
  have unk : ∀ f, OnlyTables s (((s.updateMirrored n f).judgeSource.evaluateSource n).solicitPoint n) := fun f =>
    ((OnlyTables.trans (t := s.updateMirrored n f) rfl (judgeSource_status _).tables).trans
      (evaluateSource_status n _).tables).trans (solicitPoint_tables n _)
  unfold State.sourceRestarted
  split
  · exact .refl s
  · split
    · rfl
    · exact unk _
    · exact unk _

theorem peerRestarted_tables (p : Station) (s : State) : OnlyTables s (s.peerRestarted p) :=
  (foldl_rel OnlyTables .refl .trans _ sourceRestarted_tables _ s).trans (purge_tables p _)

theorem peerLost_tables (p : Station) (s : State) : OnlyTables s (s.peerLost p) :=
  (foldl_rel OnlyTables .refl .trans _ sourceLost_tables _ s).trans (purge_tables p _)

theorem takePresence_tables (p : Station) (body : List Byte) (s : State) : OnlyTables s (s.takePresence p body) := by
  unfold State.takePresence
  split
  · split
    · rfl
    · unfold State.applyPresence
      split
      · exact .refl s
      · dsimp only
        split
        · exact (peerRestarted_tables p s).trans (updatePeer_tables p _ _)
        · exact updatePeer_tables p _ s
  · exact .refl s

/-! ## Records -/

theorem countMissed_tables (c : Option Count) (d : Count) (s : State) : OnlyTables s (s.countMissed c d) := by
  unfold State.countMissed
  split
  · exact .refl s
  · split <;> rfl

theorem acceptRecord_tables (n : Nat) (k : Kind) (m : Mirrored) (r : Record) (s : State) :
    OnlyTables s (s.acceptRecord n k m r) :=
  ((((countMissed_tables m.count r.count s).trans
    (OnlyTables.trans (t := (s.countMissed m.count r.count).updateMirrored n (Mirrored.accept k s.clock r)) rfl
      (judgeSource_status _).tables)).trans (satisfy_tables n _))).trans (evaluateSource_status n _).tables

theorem learn_tables (n : Nat) (p : Station) (s : State) : OnlyTables s (s.learn n p) :=
  (OnlyTables.trans (t := s.updateMirrored n fun m => { m with source := some p }) rfl (track_tables p _)).trans
    (keepSourcesMark_tables p _)

theorem ownershipConflict_tables (p : Station) (n : Nat) (s : State) : OnlyTables s (s.ownershipConflict p n) := by
  unfold State.ownershipConflict
  have reported : OnlyTables s ((s.bump .conflicts).report .conflict true) :=
    (bump_tables _ s).trans (report_status _ _ _).tables
  dsimp only
  split
  · exact reported
  · split
    · exact reported.trans (yieldPoint_queue n _).status.tables
    · split
      · exact reported.trans (claim_queue n _).status.tables
      · exact reported

theorem mirroredRecord_tables (p : Station) (n : Nat) (k : Kind) (m : Mirrored) (r : Record) (s : State) :
    OnlyTables s (s.mirroredRecord p n k m r) := by
  unfold State.mirroredRecord
  split
  · exact (learn_tables n p s).trans (acceptRecord_tables n k m r _)
  · split
    · exact acceptRecord_tables n k m r s
    · split
      · exact (((bump_tables _ s).trans (learn_tables n p _)).trans (keepSourcesMark_tables _ _)).trans
          (acceptRecord_tables n k m r _)
      · exact ((learn_tables n p s).trans (keepSourcesMark_tables _ _)).trans (acceptRecord_tables n k m r _)
      · exact bump_tables _ s

theorem takeRecord_tables (p : Station) (s : State) (r : Record) : OnlyTables s (s.takeRecord p r) := by
  unfold State.takeRecord
  dsimp only
  split
  · exact .refl s
  · split
    · split
      · exact .refl s
      · exact ownershipConflict_tables p _ s
    · split
      · exact mirroredRecord_tables p _ _ _ r s
      · exact bump_tables _ s

theorem takePublication_tables (p : Station) (body : List Byte) (s : State) : OnlyTables s (s.takePublication p body) := by
  unfold State.takePublication
  split
  · exact foldl_rel OnlyTables .refl .trans _ (takeRecord_tables p) _ s
  · rfl

/-! ## Requests -/

theorem answer_taken (p : Station) (tag : Byte) (k : CommandKind) (code : ReplyCode) (s : State) :
    OnlyTaken s (s.answer p tag k code) := rfl

theorem performCommand_taken (p : Station) (tag : Byte) (c : Command) (s : State) : OnlyTaken s (s.performCommand p tag c) := by
  unfold State.performCommand
  split
  · unfold State.force
    have h := track_tables p s
    split
    · next e => rw [e] at h; exact h.taken.trans (answer_taken ..)
    · next e =>
      rw [e] at h
      exact (h.taken.trans (applyForce_tables ..).taken).trans (answer_taken ..)
  · exact (applyRelease_tables ..).taken.trans (answer_taken ..)
  · unfold State.requestRestart
    split <;> rfl
  · rfl

theorem takeRequest_taken (cls : RequestClass) (p : Station) (body : List Byte) (s : State) :
    OnlyTaken s (s.takeRequest cls p body) := by
  unfold State.takeRequest
  split
  · split
    · unfold State.takeCommand
      split
      · rfl
      · split
        · rfl
        · exact performCommand_taken ..
    · unfold State.takeQuery
      split <;> rfl
  · rfl

/-- What the block of a frame's class can change (R78). -/
theorem dispatchFrame_taken (cls : FrameClass) (p d : Station) (body : List Byte) (s : State) :
    OnlyTaken s (s.dispatchFrame cls p d body) := by
  have request : ∀ c, OnlyTaken s (s.filterRequest c p d body) := fun c => by
    unfold State.filterRequest
    split
    · rfl
    · split
      · exact takeRequest_taken ..
      · exact .refl s
  unfold State.dispatchFrame
  split
  · exact (takePublication_tables ..).taken
  · exact (takePublication_tables ..).taken
  · exact (takeSolicit_tables ..).taken
  · exact (takePresence_tables ..).taken
  · exact .refl s
  · exact request _
  · exact request _

/-! ## Reception -/

/-- The test of reception is the law of the same words (R67, R75, R86). -/
theorem assembles_iff (s : State) : s.assembles = true ↔ Safety.Receives s := by
  simp [State.assembles, Safety.Receives, and_assoc]

@[simp] theorem advance_assembles (e : Time) (s : State) : (s.advance e).assembles = s.assembles := rfl

@[simp] theorem advance_frameChars (e : Time) (l : List CharBits) (s : State) : (s.advance e).frameChars l = s.frameChars l := rfl

/-- While no frame of this station is on the line, the buffer holds the beginning of the frame that ends (R75). -/
theorem frameChars_held {s : State} (h : s.inFlight = none) (l : List CharBits) :
    s.frameChars l = s.assembly.chars ++ l.filterMap sampleChar := by simp [State.frameChars, h]

/-- While a frame of this station is on the line, the frame that ends came before it (R75). -/
theorem frameChars_flying {s : State} {f : TxFrame} (h : s.inFlight = some f) (l : List CharBits) :
    s.frameChars l = l.filterMap sampleChar := by simp [State.frameChars, h]

@[simp] theorem advance_frameBegun (e : Time) (l : List CharBits) (s : State) : (s.advance e).frameBegun l = s.frameBegun l := rfl

/-- The three ways a frame is there to judge: it has characters, it is brought without a sample, or one is in the assembly (R64, R70). -/
theorem frameBegun_iff (l : List CharBits) (s : State) :
    s.frameBegun l = true ↔
      s.frameChars l ≠ [] ∨ l = [] ∨ (s.inFlight = none ∧ ∃ held, s.assembly = .assembling held) := by
  cases h : s.assembly <;> simp [State.frameBegun, h, or_assoc]

/-- A frame without a character is short and nothing else (R75). -/
theorem failedChecks_nil : failedChecks [] = [.short] := by decide

/-- Where nothing is assembled a frame heard changes nothing. -/
theorem arrive_unheard {s : State} (h : ¬ Safety.Receives s) (cls : FrameClass) (p d : Station) (body : List Byte) :
    s.arrive cls p d body = s := by
  rw [← assembles_iff] at h
  simp [State.arrive, h]

/-- Where frames are assembled, one from another station is counted, heard and taken by the block of its class (R75, R78). -/
theorem arrive_heard {s : State} {p : Station} (h : Safety.Hears s p) (cls : FrameClass) (d : Station) (body : List Byte)
    (hd : cls.broadcast = true → d = Config.everyone) (hb : bodyOk body = true) :
    s.arrive cls p d body = ((s.endAssembly.bump .framesReceived).heard p).dispatchFrame cls p d body := by
  obtain ⟨hr, hp, hn⟩ := h
  have good : headerGood cls p d body = true := by
    simp only [stationOk, bodyOk, Bool.and_eq_true, decide_eq_true_eq] at hp hb
    cases hc : cls.broadcast <;> simp_all [headerGood]
  simp [State.arrive, (assembles_iff s).mpr hr, good, State.goodFrame, hn]

/-! ## Failure accounting -/

/-- What the outcome of a frame can change at failure accounting (R82, R84). -/
theorem account_only (out : TxOutcome) (s : State) :
    s.account out = { s with
      mode := (s.account out).mode, failures := (s.account out).failures
      quarantineLength := (s.account out).quarantineLength, quarantineTimer := (s.account out).quarantineTimer
      points := (s.account out).points, urgent := (s.account out).urgent, routine := (s.account out).routine
      outputs := (s.account out).outputs, faults := (s.account out).faults } := by
  have rep : ∀ c b (t u : State), u = t.report c b →
      u = { t with points := u.points, urgent := u.urgent, routine := u.routine, outputs := u.outputs, faults := u.faults } :=
    fun c b t u h => h ▸ report_status c b t
  unfold State.account
  split
  · split
    · rfl
    · rfl
    · split
      · rfl
      · unfold State.enterSilenced; rw [rep _ _ _ _ rfl]
    · unfold State.enterActive; rw [rep _ _ _ _ rfl]
    · rfl
    · unfold State.enterSilenced; rw [rep _ _ _ _ rfl]
    · rfl
  · rfl

/-! ## The tracking of a station (R128) -/

theorem newPeer_eq (p : Station) (now : Time) (b : Bool) : newPeer p now b = Safety.createdPeer p now b := by
  have period : ∀ x : Peer, x.content = none → x.period = 2000000 := fun x h => by
    unfold Peer.period; rw [h]; exact (by decide : Config.assumedPeriod = 2000000)
  unfold newPeer Peer.supervise Safety.createdPeer
  rw [period _ rfl]

theorem evictable_iff (x : Peer) : x.evictable = true ↔ ¬ Safety.Kept x := by
  unfold Peer.evictable Safety.Kept; cases x.sourcesPoints <;> cases x.holdsOverrides <;> simp

/-- The oldest of a list, by the time last heard. -/
theorem foldl_olderHeard (l : List Peer) (best : Option Peer) :
    match l.foldl olderHeard best with
    | none => best = none ∧ l = []
    | some v => (some v = best ∨ v ∈ l) ∧ (∀ x ∈ l, v.lastHeard ≤ x.lastHeard) ∧ ∀ b, best = some b → v.lastHeard ≤ b.lastHeard := by
  induction l generalizing best with
  | nil => cases best <;> simp
  | cons y l ih =>
    have h := ih (olderHeard best y)
    have step : (olderHeard best y = some y ∧ ∀ b, best = some b → y.lastHeard ≤ b.lastHeard)
        ∨ ∃ b, best = some b ∧ olderHeard best y = some b ∧ b.lastHeard ≤ y.lastHeard := by
      cases best with
      | none => exact .inl ⟨rfl, by simp⟩
      | some b =>
        unfold olderHeard
        by_cases hb : y.lastHeard < b.lastHeard
        · exact .inl ⟨by simp [hb], fun c hc => by cases hc; exact Nat.le_of_lt hb⟩
        · exact .inr ⟨b, rfl, by simp [hb], Nat.le_of_not_lt hb⟩
    rw [List.foldl_cons]
    split at h
    · obtain ⟨he, -⟩ := h
      rcases step with ⟨e, -⟩ | ⟨b, -, e, -⟩ <;> rw [e] at he <;> cases he
    · obtain ⟨hv, hl, hb⟩ := h
      rcases step with ⟨e, ho⟩ | ⟨b, hbest, e, hby⟩
      · rw [e] at hv hb
        have hy := hb y rfl
        refine ⟨.inr ?_, fun x hx => ?_, fun b hbb => Nat.le_trans hy (ho b hbb)⟩
        · rcases hv with hv | hv
          · cases hv; exact List.mem_cons_self
          · exact List.mem_cons_of_mem _ hv
        · rcases List.mem_cons.mp hx with rfl | hx
          · exact hy
          · exact hl x hx
      · rw [e] at hv hb
        have hbv := hb b rfl
        refine ⟨?_, fun x hx => ?_, fun c hc => ?_⟩
        · exact hv.imp (fun h => h.trans hbest.symm) (List.mem_cons_of_mem _)
        · rcases List.mem_cons.mp hx with rfl | hx
          · exact Nat.le_trans hbv hby
          · exact hl x hx
        · rw [hbest] at hc; cases hc; exact hbv

/-- The oldest evictable entry of a state: none where there is none, else one of them that no other is older than. -/
theorem oldestEvictable_spec (st : PeerState) (l : List Peer) :
    match oldestEvictable st l with
    | none => ∀ x ∈ l, x.state = st → Safety.Kept x
    | some v => v ∈ l ∧ v.state = st ∧ ¬ Safety.Kept v
        ∧ ∀ x ∈ l, x.state = st → ¬ Safety.Kept x → v.lastHeard ≤ x.lastHeard := by
  have mem : ∀ x, x ∈ l.filter (fun e => e.state == st && e.evictable) ↔ x ∈ l ∧ x.state = st ∧ ¬ Safety.Kept x := by
    simp [evictable_iff]
  have h := foldl_olderHeard (l.filter fun e => e.state == st && e.evictable) none
  unfold oldestEvictable
  split at h
  · intro x hx hs
    by_contra hk
    have := (mem x).mpr ⟨hx, hs, hk⟩
    rw [h.2] at this; cases this
  · obtain ⟨hv, hl, -⟩ := h
    have hv := (mem _).mp (hv.resolve_left (fun h => by cases h))
    exact ⟨hv.1, hv.2.1, hv.2.2, fun x hx hs hk => hl x ((mem x).mpr ⟨hx, hs, hk⟩)⟩

/-- The entry that a must-track creation evicts is the one of R128. -/
theorem evictionChoice_evicted {l : List Peer} {v : Peer} (h : evictionChoice l = some v) : Safety.Evicted l v := by
  have hl := oldestEvictable_spec .lost l
  have hs := oldestEvictable_spec .silent l
  unfold evictionChoice at h
  cases hc : oldestEvictable .lost l with
  | some w =>
    rw [hc] at h hl; cases h
    obtain ⟨a, b, c, d⟩ := hl
    exact ⟨a, by simp [b], c, fun e => by simp [b] at e, fun x hx e => d x hx (e.trans b)⟩
  | none =>
    rw [hc] at h hl
    rw [Option.none_or] at h
    rw [h] at hs
    obtain ⟨a, b, c, d⟩ := hs
    exact ⟨a, by simp [b], c, fun _ => hl, fun x hx e => d x hx (e.trans b)⟩

/-- A must-track creation evicts nothing exactly where every entry is PRESENT or kept. -/
theorem evictionChoice_none (l : List Peer) : evictionChoice l = none ↔ ∀ x ∈ l, x.state = .present ∨ Safety.Kept x := by
  have hl := oldestEvictable_spec .lost l
  have hs := oldestEvictable_spec .silent l
  unfold evictionChoice
  rw [Option.or_eq_none_iff]
  constructor
  · rintro ⟨e1, e2⟩ x hx
    rw [e1] at hl; rw [e2] at hs
    cases hst : x.state
    · exact .inl rfl
    · exact .inr (hs x hx hst)
    · exact .inr (hl x hx hst)
  · intro h
    constructor
    · cases hc : oldestEvictable .lost l with
      | none => rfl
      | some v => rw [hc] at hl; rcases h v hl.1 with e | e <;> simp_all
    · cases hc : oldestEvictable .silent l with
      | none => rfl
      | some v => rw [hc] at hs; rcases h v hs.1 with e | e <;> simp_all

/-! ## The fault summary in the words of the laws (R33) -/

/-- A summary that stays as it is brings nothing. -/
@[simp] theorem summaryTaken_self (s : State) : Safety.summaryTaken s.faults s = s := by simp [Safety.summaryTaken]

/-- Nothing changes from a state to itself. -/
theorem OwnedStay.refl (src : Source) (s : State) : Safety.OwnedStay src s s := ⟨fun _ _ h _ => h, rfl, rfl⟩

/-- An output with no entry of the origin keeps its list at a purge (R151). -/
theorem purgedLists_of_none {p : Station} {s : State} (h : ∀ o ∈ s.outputs, ∀ x ∈ o.overrides, x.origin ≠ p) :
    Safety.purgedLists p s = Safety.outputLists s := by
  refine List.map_congr_left fun o ho => ?_
  rw [List.filter_eq_self.mpr fun x hx => decide_eq_true (h o ho x hx)]

/-! ## The fallback of a binding in the image (R181, section 11.2) -/

/-- Bits that are a code give its fallback. -/
theorem fallbackOf_code (pin : Nat) {bits : Nat} (h : bits ≤ 2) :
    some (fallbackOf pin bits) = [Fallback.hold, .off, .on][bits]? := by
  match bits, h with
  | 0, _ => rfl
  | 1, _ => rfl
  | 2, _ => rfl

/-- A binding uses its fallback exactly when it names a mirrored entry (R139, R142). -/
theorem usesFallback_iff (im : Image) (b : ImageBinding) :
    im.usesFallback b = true ↔ b.source ≠ 0 ∧ ∃ p ∈ im.points, p.mirrored = true ∧ p.number = b.source := by
  simp [Image.usesFallback]

/-! ## Evaluation and the override lists (R142, R144) -/

/-- An evaluation changes the two levels only. -/
theorem evaluate_only (points : List Point) (o : Output) :
    o.evaluate points = { o with driven := (o.evaluate points).driven, held := (o.evaluate points).held } := by
  unfold Output.evaluate; split
  · rfl
  · split <;> rfl

theorem outputLists_evaluateWhere (pick : Output → Bool) (s : State) :
    Safety.outputLists (s.evaluateWhere pick) = Safety.outputLists s := by
  unfold State.evaluateWhere Safety.outputLists
  split
  · rw [List.map_map]
    refine List.map_congr_left fun o _ => ?_
    simp only [Function.comp_apply]
    split
    · rw [evaluate_only]
    · rfl
  · rfl

theorem outputLists_statusEvent (s : State) (n : Nat) : Safety.outputLists (s.statusEvent n) = Safety.outputLists s := by
  have queue : ∀ t : State, Safety.outputLists (t.changeEvent n) = Safety.outputLists t := fun t => by
    rw [changeEvent_queue]; rfl
  unfold State.statusEvent
  dsimp only
  split
  · rw [queue]; exact outputLists_evaluateWhere _ s
  · exact outputLists_evaluateWhere _ s

/-- No report of a condition changes an override list. -/
theorem outputLists_report (c : Condition) (b : Bool) (s : State) :
    Safety.outputLists (s.report c b) = Safety.outputLists s := by
  have fold : ∀ (l : List Nat) (t : State), Safety.outputLists (l.foldl State.statusEvent t) = Safety.outputLists t := by
    intro l
    induction l with
    | nil => exact fun _ => rfl
    | cons n l ih => exact fun t => (ih _).trans (outputLists_statusEvent t n)
  unfold State.report
  split
  · rfl
  · unfold State.statusChanged
    split
    · exact fold _ _
    · rfl

end Sys2Proof.Machine
end

