-- ==== Sys2Proof/Tests/Slice0.lean ====
section
/-!
SUPPORT. Tests of one command each against values that the manual's examples and tables give (the section stands in each docstring), the
smoke test of the well-formedness checks, and for every statement with hypotheses a witness that meets them.
-/

namespace Sys2Proof.Tests

open Sys2Proof.Machine Sys2Proof.Safety

/-! ## Helpers -/

/-- The state after a command; a command that stops would leave the state. -/
def after1 (c : Instr) (s : State) : State :=
  match exec c s with
  | .next t => t
  | .fault _ => s
  | .refused _ => s

/-- The command answers a next state. -/
def runs (c : Instr) (s : State) : Bool :=
  match exec c s with
  | .next _ => true
  | .fault _ => false
  | .refused _ => false

/-- No condition holds. -/
def clear : FaultSummary := { FaultSummary.afterRestart with config := false }

/-- A BINARY point owned from IO0, QUIET. -/
def key : Owned :=
  { source := .pin 0, refreshClass := 1, deadband := none, threshold := none, current := 0, count := 3, compareBase := none,
    carried := none, sched := .quiet, inFlight := false, dirty := false, refreshTimer := some 500000 }

/-- Point 300 of section 2.4.1, on IO2: deadband 4, compare base 100, current value 100, count 7. -/
def gauge : Owned :=
  { source := .pin 2, refreshClass := 2, deadband := some 4, threshold := none, current := 100, count := 7,
    compareBase := some 100, carried := none, sched := .quiet, inFlight := false, dirty := false, refreshTimer := none }

/-- A FRESH mirrored entry from station 9. -/
def lamp : Mirrored :=
  { fillMirrored with state := .fresh, value := some 1, count := some 4, source := some 9, deadline := some 900000 }

/-- A pin with no debounce time. -/
def pinOf (mode : PinMode) (level : Option Bool) : Pin :=
  { mode := mode, debounce := 0, pullUp := false, target := 3, level := level, candidate := none, reading := none }

/-- An output of IO3 that follows point 20. -/
def relay : Output :=
  { pin := 3, binding := { source := 20, threshold := 0, invert := false, fallback := .off, overridable := true }
    driven := true, held := true, overrides := [] }

/-- A running station of number 30: points 10 and 300 owned, 20 and 21 mirrored, one output, two peers. -/
def demo : State :=
  { State.reset with
    station := .running, loading := false, straps := some 30, number := some 30, lineRate := some .kbit100
    header := some { rate := .kbit100, periodCode := 10, remoteRestart := true }
    faults := clear, line := .idle, clock := 100000, presenceTimer := some 900000
    points := [⟨10, .binary, .owned key⟩, ⟨300, .level, .owned gauge⟩, ⟨20, .binary, .mirrored lamp⟩,
      ⟨21, .level, .mirrored fillMirrored⟩]
    pins := [pinOf .inDigital (some false), pinOf .hand (some false), pinOf .inLevel none, pinOf .out none]
    outputs := [relay]
    solicits := [newSolicit 21]
    roster := [newPeer 9 0 true, newPeer 41 0 false] }

/-- The same station in JOINING, with empty lists. -/
def joining : State :=
  { demo with
    station := .joining, joinTimer := some 1000000, solicits := [], outputs := [{ relay with driven := false, held := false }]
    presenceTimer := none }

/-- A station without an image, which has a number. -/
def unconfigured : State :=
  { State.reset with station := .unconfigured, loading := false, straps := some 30, number := some 30, line := .idle }

/-- A station that has heard its own number. -/
def halted : State := { demo with station := .halted, faults := { clear with duplicate := true } }

/-- The station with the fields of the entry of point 10 changed. -/
def withKey (f : Owned → Owned) : State := demo.updateOwned 10 f

/-- The station with a frame on the line. -/
def sending (c : TxContent) (s : State) : State :=
  { s with line := .busy, assembly := .assembling [], inFlight := some { sender := 30, content := c } }

/-- The station on a line that it ignores up to the next line-idle event. -/
def ignoring (s : State) : State := { s with line := .busy, assembly := .ignoring }

/-- The record of section 11.1: point 300, LEVEL, class 2, count 9, value 111. -/
def record300 : Record := { point := 300, kind := .level, refreshClass := 2, count := 9, value := 111 }

/-- A record for point 20. -/
def record20 : Record := { point := 20, kind := .binary, refreshClass := 1, count := 5, value := 1 }

/-- A record for point 10. -/
def record10 : Record := { point := 10, kind := .binary, refreshClass := 1, count := 5, value := 1 }

/-- The four bytes of `record20` (section 11.1.1). -/
def body20 : List Byte := [0, 20, 0x25, 1]

/-- Point 10 in flight in an urgent frame. -/
def flying (dirty : Bool) : State :=
  sending (.publication true [record10])
    { withKey (fun o => { o with sched := .urgent, inFlight := true, dirty := dirty }) with urgent := [10] }

/-- A reply to station 41. -/
def reply41 (mark : Bool) : Reply := { dest := 41, tag := 1, code := .accepted, data := [], restartMark := mark }

/-- An override of station 41. -/
def force41 : Override := { origin := 41, value := true, lease := some 700000 }

/-- The station with an override list on its output. -/
def withOverrides (l : List Override) : State :=
  { demo with
    outputs := [{ relay with overrides := l }]
    roster := [newPeer 9 0 true, { newPeer 41 0 false with holdsOverrides := true }] }

/-- A roster of n PRESENT peers from 31 on. -/
def crowd (n : Nat) : List Peer := (List.range n).map fun i => newPeer (BitVec.ofNat 6 (31 + i)) 0 false

/-- A LEVEL point sourced from STATUS, QUIET. -/
def health : Owned :=
  { source := .status, refreshClass := 1, deadband := none, threshold := none, current := 0, count := 0, compareBase := none,
    carried := none, sched := .quiet, inFlight := false, dirty := false, refreshTimer := none }

/-- Point 40, sourced from STATUS, in flight in an urgent frame, five failures before. -/
def flyingStatus : State :=
  sending (.publication true [{ record10 with point := 40, kind := .level }])
    { demo with
      points := [⟨40, .level, .owned { health with sched := .urgent, inFlight := true }⟩], urgent := [40], failures := 5 }

/-- The probe on the line, point 40 sourced from STATUS. -/
def probing : State :=
  sending (.presence demo.presenceContent)
    { demo with
      mode := .probing, quarantineLength := 8, faults := { clear with silenced := true }, presencePending := true
      points := [⟨40, .level, .owned { health with current := 4 }⟩] }

/-- A STUCK line, point 40 sourced from STATUS. -/
def stuckStatus : State :=
  { demo with
    line := .stuck, faults := { clear with line := true }, points := [⟨40, .level, .owned { health with current := 64 }⟩] }

/-- A recent command of station 41 with tag 1. -/
def forced41 : Recent := { sender := 41, tag := 1, kind := .force, outcome := .accepted, written := 0 }

/-! ## A small image (R191)

Header number 30, 100 kbit/s, period code 10, remote restart permitted; IO0 IN-DIGITAL; one owned BINARY point 10 from IO0. -/

/-- The bytes before the CRC. -/
def imageBody : List Byte :=
  [0xA5, 0x3C, 0, 50, 30, 1, 10, 1, 1, 0] ++ [1, 0] ++ List.replicate 30 0 ++ [0, 10, 0, 1, 0, 0]

/-- The whole image. -/
def image : List Byte := imageBody ++ crcBytes imageBody

/-- What the pins show at the fill: IO0 high. -/
def inputs : PinInputs := { digital := 1, analog := Vector.replicate 8 0 }

/-- A memory in which only the number is out of range, with its CRC right: FIELD-RANGE. -/
def badBody : List Byte := [0xA5, 0x3C, 0, 50, 63, 1, 10, 1, 1, 0] ++ imageBody.drop 10

/-- The image that fails validation. -/
def badImage : List Byte := badBody ++ crcBytes badBody

/-- IO0 IN-DIGITAL, IO1 IN-LEVEL, IO2 OUT, IO3 HAND for IO2; point 10 BINARY from IO0, point 11 mirrored LEVEL, point 12 BINARY from IO1 with a
threshold; IO2 bound to point 11. Validation does not look at the two bytes of the CRC. -/
def validBytes : List Byte :=
  [0xA5, 0x3C, 0, 67, 30, 1, 10, 1, 3, 1] ++ [1, 0, 2, 0, 3, 0, 4, 2] ++ List.replicate 24 0
    ++ [0, 10, 0x00, 1, 0, 0] ++ [0, 11, 0xC0, 0, 0, 0] ++ [0, 12, 0x21, 1, 0, 100] ++ [2, 0, 11, 0, 0x06] ++ [0, 0]

/-- What validation answers to those bytes with some of them changed. -/
def validated (changes : List (Nat × Byte)) : ConfigError :=
  (parseImage (changes.foldl (fun l c => l.set c.1 c.2) validBytes)).validate

/-! ## Formats -/

set_option maxRecDepth 20000 in
/-- R69: the CRC of the characters "1" to "9" is 29B1 hexadecimal. -/
theorem test_crc_check_value : crc16 [0x31, 0x32, 0x33, 0x34, 0x35, 0x36, 0x37, 0x38, 0x39] = 0x29B1#16 := by decide

/-- Section 11.1: station 7 sends URGENT PUBLISH with one record for point 300. -/
theorem test_urgent_publish_bytes :
    (frameBytes 1 7 63 record300.bytes).take 7 = [0x88, 0xFF, 0x04, 0x01, 0x2C, 0xC9, 0x6F] := by decide

/-- R64: the character of 01 hexadecimal, first bit first: start dominant, data from the least significant bit, stop recessive. -/
theorem test_character_levels :
    charLevels (sendChar 0x01) = [false, true, false, false, false, false, false, false, false, true] := by decide

/-- Section 11.1.2: the fault summary of the fault conditions CONFLICT and OVERFLOW is 88 hexadecimal. -/
theorem test_fault_byte : FaultSummary.byte { clear with conflict := true, overflow := true } = 0x88 := by decide

/-! ## The well-formedness checks, each with a term it refuses -/

/-- No station has number 0 or 63 (stationOk). -/
theorem test_wellFormed_station :
    Instr.wellFormed (.presence 0 0 []) = false ∧ Instr.wellFormed (.reply 0 63 5 []) = false
      ∧ Instr.wellFormed (.presence 0 62 []) = true := by decide

/-- A body of 25 bytes fits no frame (bodyOk). -/
theorem test_wellFormed_body : Instr.wellFormed (.solicit 0 5 (List.replicate 25 0)) = false := by decide

/-- A request body of 25 bytes with its kind fits no frame (restOk). -/
theorem test_wellFormed_rest : Instr.wellFormed (.status 0 5 6 (List.replicate 24 0)) = false := by decide

/-- Points have numbers 1 to 1023 (pointOk). -/
theorem test_wellFormed_point :
    Instr.wellFormed (.refreshTimerExpiry 0) = false ∧ Instr.wellFormed (.overdueTimerExpiry 1024) = false := by decide

/-- IO8 has no level reading (levelPinOk). -/
theorem test_wellFormed_levelPin : Instr.wellFormed (.levelReading 0 8 0) = false := by decide

/-- A RESET low of 9 µs is no assertion (R176). -/
theorem test_wellFormed_resetHold : Instr.wellFormed (.pinRestart 0 9) = false := by decide

/-! ## One command each, against the manual's examples -/

/-- Section 2.4.1, 0 ms: a reading of 103 is within 4 of 100. -/
theorem test_reading_within_deadband :
    ((after1 (.levelReading 0 2 103) demo).ownedAt 300).map (fun o => (o.current, o.sched, o.count))
      = some (103, .quiet, 7) := by decide

/-- Section 2.4.1, 10 ms: a reading of 105 differs by 5; the point is URGENT with count 8. -/
theorem test_reading_change_event :
    ((after1 (.levelReading 0 2 105) demo).ownedAt 300).map (fun o => (o.current, o.sched, o.count))
      = some (105, .urgent, 8) := by decide

/-- Section 2.4.1, 20 ms: 111 differs from the carried 105 by 6; dirty, count 9. -/
theorem test_reading_in_flight :
    ((after1 (.levelReading 0 2 111)
        { demo.updateOwned 300 (fun o => { o with sched := .urgent, inFlight := true, carried := some 105, count := 8 }) with
          urgent := [300] }).ownedAt 300).map (fun o => (o.dirty, o.count)) = some (true, 9) := by decide

/-- Section 3.6.1, step 6: a lost contention clears the marks and keeps the place. -/
theorem test_lost_keeps_place :
    let t := after1 (.contentionLost 0) (flying true)
    t.urgent = [10] ∧ (t.ownedAt 10).map (fun o => (o.inFlight, o.dirty, o.sched)) = some (false, false, .urgent) := by
  decide

/-- Section 3.7.1, step 6: a dirty point rejoins the urgent tail at the completion, its timer started (500 ms for class 1). -/
theorem test_complete_dirty :
    let t := after1 (.transmissionComplete 0) (flying true)
    t.urgent = [10] ∧ (t.ownedAt 10).map (fun o => (o.inFlight, o.dirty, o.refreshTimer)) = some (false, false, some 600000) := by
  decide

/-- Section 3.7.1, step 12: a point that is not dirty becomes QUIET. -/
theorem test_complete_quiet :
    let t := after1 (.transmissionComplete 0) (flying false)
    t.urgent = [] ∧ (t.ownedAt 10).map Owned.sched = some .quiet := by decide

/-- Section 4.7.1, 1 ms: the failure at count 5 silences the station for 2 s. -/
theorem test_sixth_failure :
    let t := after1 (.transmitFailure 0) { flying false with failures := 5 }
    (t.mode, t.failures, t.quarantineTimer, t.faults.silenced) = (.silenced, 0, some 2100000, true) := by decide

/-- Section 4.7.1, 2002 ms: a failed probe doubles the quarantine to 4 s. -/
theorem test_failed_probe :
    let t := after1 (.transmitFailure 0) (sending (.presence demo.presenceContent) { demo with mode := .probing })
    (t.mode, t.quarantineLength, t.quarantineTimer) = (.silenced, 4, some 4100000) := by decide

/-- Section 4.7.1, 2001 ms: the quarantine expires into PROBING with a presence frame pending. -/
theorem test_quarantine_expiry :
    let t := after1 .quarantineTimerExpiry { demo with mode := .silenced, quarantineTimer := some 2001000 }
    (t.mode, t.presencePending, t.clock) = (.probing, true, 2001000) := by decide

/-- Section 7.3.1: of the evictable LOST entries, 27 was heard longest ago. -/
theorem test_eviction :
    (evictionChoice
      [{ newPeer 8 1200 true with state := .lost }, { newPeer 19 4600 false with state := .lost },
       { newPeer 27 2900 false with state := .lost }, { newPeer 44 900 false with state := .silent }]).map Peer.station
      = some 27 := by decide

/-- Section 7.7.1, 5404 ms: the incarnation is unchanged, but the flag is set and boot-seen was clear: restart detected. -/
theorem test_restart_by_flag :
    restartDetected { newPeer 11 0 true with content := some { periodCode := 10, incarnation := 0, cause := .power, faults := 0 } }
      { periodCode := 10, boot := true, probing := false, cause := .power, incarnation := 0, faults := 0 } = true := by decide

/-- Section 8.2.1: a LEVEL of 60 below threshold 100 with invert set drives ON. -/
theorem test_invert :
    ({ relay with binding := { source := 21, threshold := 100, invert := true, fallback := .hold, overridable := false }
                  driven := false, held := false }.evaluate
        [⟨21, .level, .mirrored { lamp with value := some 60 }⟩]).driven = true := by decide

/-- Section 9.7, 0 ms: FORCE from 45, tag 7, IO3, value 1, lease 60 s is ACCEPTED and expires after 60 s. -/
theorem test_force_accepted :
    let t := after1 (.force 0 45 30 [7, 3, 1, 60]) demo
    t.replies.map (fun r => (r.dest, r.tag, r.code)) = [(45, 7, .accepted)]
      ∧ t.outputs.map (fun o => o.overrides.map fun e => (e.origin, e.lease)) = [[(45, some 60100000)]] := by decide

/-- Section 9.7, 44 ms: group 13, index 14, count 4 asks for the points 222, 223, 208 and 209. -/
theorem test_point_group_wraps :
    (after1 (.pointGroup 0 52 30 [200, 13, 14, 4]) demo).replies.map Reply.data
      = [[13, 14, 0, 0, 15, 0, 0, 0, 0, 0, 1, 0, 0]] := by decide

/-- Section 6.9, step 1: from count 5 to 0 is a distance of 11, one missed change. -/
theorem test_missed_change : (demo.takeRecord 9 { record20 with count := 0 }).counters.missedChanges = 1 := by decide

/-- R64, R65: a glitch makes the line BUSY and begins no character. -/
theorem test_glitch :
    let t := after1 (.dominantLevelSeen { elapsed := 0, bits := 0x3FF }) demo
    (t.line, t.assembly) = (.busy, .empty) := by decide

/-- R67: a frame begun before the first line-idle event reaches no block and counts nothing. -/
theorem test_unheard_before_idle :
    after1 (.urgentPublish 5 9 body20) (ignoring demo) = { ignoring demo with clock := 100005 } := by decide

/-- R86: while the line is STUCK no frame is heard and no error counted. -/
theorem test_unheard_stuck :
    (after1 (.frameDiscarded 0 [0#10]) { demo with line := .stuck }).counters = demo.counters := by decide

/-- R66, R72: a frame begun within 11 bit times of this station's own is in assembly, and a stuck line discards it with one error. -/
theorem test_frame_after_own :
    let t := after1 (.dominantLevelSeen { elapsed := 0, bits := sendChar 0x88 }) (after1 (.transmissionComplete 0) (flying false))
    t.assembly = .assembling [{ data := 0x88, stopRecessive := true }] ∧ (after1 (.stuckLineEpisode 0) t).counters.receiveErrors = 1 := by decide

set_option maxRecDepth 20000 in
/-- R75: the characters in the receive assembly buffer and those that come with the end of the frame are judged together: the last CRC byte
makes the frame of section 11.1 whole, and a character after it makes it over-length. -/
theorem test_buffer_judged :
    let bytes := frameBytes 1 7 63 record300.bytes
    let s : State := { demo with
      line := .busy, assembly := .assembling ((bytes.take 8).map fun b => { data := b, stopRecessive := true }) }
    (after1 (.frameDiscarded 0 [sendChar (bytes.getD 8 0)]) s).counters.receiveErrors = 0
    ∧ (after1 (.frameDiscarded 0 [sendChar (bytes.getD 8 0), sendChar 0]) s).counters.receiveErrors = 1
    ∧ (after1 (.frameDiscarded 0 []) s).counters.receiveErrors = 1 := by decide

/-- R70 and R71: a station reads nothing of its own frame back, its driver having failed. The frame has ended short and counts one error, whether
FRAME_DISCARDED comes before the next line-idle event or after it. Glitches alone are no frame (R64). -/
theorem test_failed_driver :
    let t := after1 (.transmitFailure 0) (flying false)
    t.assembly = .assembling []
    ∧ ([[], [0x3FF#10]].all fun l => (after1 (.frameDiscarded 0 l) t).counters.receiveErrors == 1)
    ∧ (after1 (.frameDiscarded 0 []) (after1 (.lineIdleEvent 0) t)).counters.receiveErrors = 1
    ∧ (after1 (.frameDiscarded 0 [0x3FF#10]) demo).counters.receiveErrors = 0 := by decide

/-- R86, R33 and R79: the line-idle event that ends a stuck-line episode clears LINE; point 40, sourced from STATUS, takes the change and goes out
at once. -/
theorem test_stuck_line_ends :
    let t := after1 (.lineIdleEvent 0) stuckStatus
    (t.faults.line, t.urgent, t.inFlight.map TxFrame.content)
      = (false, [40], some (.publication true
          [{ point := 40, kind := .level, refreshClass := 1, count := 1, value := 0 }])) := by decide

/-- R33 and R82: the sixth failure of a frame that carries the STATUS point: the point shows SILENCED, its count steps, both marks are
cleared and it stands in the urgent band. -/
theorem test_sixth_failure_status :
    let t := after1 (.transmitFailure 0) flyingStatus
    (t.mode, t.urgent, t.ownedAt 40)
      = (.silenced, [40], some { health with sched := .urgent, current := 4, count := 1 }) := by decide

/-- R84: the probe completes: ACTIVE again, the STATUS point queued with its change, one boot frame counted. -/
theorem test_probe_complete :
    let t := after1 (.transmissionComplete 0) probing
    (t.mode, t.presencePending, t.bootCount, t.urgent) = (.active, false, 1, [40]) := by decide

/-- R177: 255 goes to 1 at a PIN restart. -/
theorem test_incarnation_wraps :
    (after1 (.pinRestart 0 10) { demo with retained := { incarnation := 255, cause := .power, guardCount := 0 } }).retained.incarnation
      = 1 := by decide

set_option maxRecDepth 20000 in
/-- R180 and R181: the small image loads, and JOINING is entered with point 10 at the level of IO0. -/
theorem test_load_complete :
    let t := after1 (.loadComplete 0 image 7 inputs) State.reset
    (t.station, t.number, t.error, (t.ownedAt 10).map Owned.current) = (.joining, some 30, .none, some 1) := by decide

set_option maxRecDepth 20000 in
/-- R181: a header number of 63 is FIELD-RANGE, code 5. -/
theorem test_load_field_range : (after1 (.loadComplete 0 badImage 7 inputs) State.reset).error.code = 5 := by decide

/-- No word spells a command (log 8). -/
theorem test_decode_none : decodeTableWord 0 0 = none := rfl

/-! ## Witnesses: states that meet the hypotheses of the statements

A witness of a law is the station of the examples with a command at the front of its queue. -/

/-- The witness station with a line-idle event waiting. -/
def waiting : State := { demo with pending := [.lineIdleEvent 0] }

/-- The owned entries of the witness station are QUIET. -/
theorem waiting_owned (n : Nat) (o : Owned) (h : waiting.ownedAt n = some o) : o = key ∨ o = gauge := by
  simp only [State.ownedAt, findPoint, waiting, demo, List.find?_cons, List.find?_nil] at h
  repeat' split at h
  all_goals simp [Point.owned?] at h
  all_goals first | exact .inl h.symm | exact .inr h.symm

theorem witness_StepKeepsStations : StationLawful waiting ∧ TransmitLawful waiting ∧ ∃ t, step waiting = .next t :=
  ⟨by unfold StationLawful; decide, (fun _ hf => nomatch hf), _, rfl⟩

theorem witness_StepKeepsPublication : PublicationLawful waiting ∧ ∃ t, step waiting = .next t :=
  ⟨{ station := witness_StepKeepsStations.1
     table := by unfold TableLawful; decide
     owned := by
       intro p hp o ho
       simp only [waiting, demo, List.mem_cons, List.not_mem_nil, or_false] at hp
       rcases hp with rfl | rfl | rfl | rfl <;> simp [Point.owned?] at ho <;> subst ho <;> unfold OwnedLawful InKind <;> decide
     queue := by
       refine ⟨by decide, fun n => ⟨fun h => by simp [waiting, demo, State.reset] at h, ?_⟩,
         fun n => ⟨fun h => by simp [waiting, demo, State.reset] at h, ?_⟩⟩
       all_goals
         rintro ⟨o, ho, hs⟩
         rcases waiting_owned n o ho with rfl | rfl <;> cases hs
     flight := by
       intro n o ho hf
       rcases waiting_owned n o ho with rfl | rfl <;> cases hf }, _, rfl⟩

theorem witness_StepKeepsMirroring : MirroringLawful waiting ∧ ∃ t, step waiting = .next t :=
  ⟨{ station := witness_StepKeepsStations.1
     transmit := witness_StepKeepsStations.2.1
     numbers := by decide
     mirrored := by
       intro p hp m hm
       simp only [waiting, demo, List.mem_cons, List.not_mem_nil, or_false] at hp
       rcases hp with rfl | rfl | rfl | rfl <;> simp [Point.mirrored?] at hm <;> subst hm <;>
         simp [MirroredLawful, InKind, lamp, fillMirrored]
     solicits := by
       refine ⟨by decide, by decide, fun e he => ?_⟩
       simp only [waiting, demo, List.mem_cons, List.not_mem_nil, or_false] at he
       subst he
       exact ⟨by decide, fillMirrored, rfl, rfl, rfl⟩
     waiting := by unfold WaitingLawful; decide }, _, rfl⟩

theorem witness_StepKeepsSources : SourcesLawful waiting ∧ ∃ t, step waiting = .next t :=
  ⟨{ station := witness_StepKeepsStations.1
     transmit := witness_StepKeepsStations.2.1
     numbers := by decide
     roster := by unfold RosterLawful; decide
     fresh := by
       intro p hp m hm hs
       simp only [waiting, demo, List.mem_cons, List.not_mem_nil, or_false] at hp
       rcases hp with rfl | rfl | rfl | rfl <;> simp [Point.mirrored?] at hm <;> subst hm <;> revert hs <;> decide }, _, rfl⟩

theorem witness_StepKeepsOrigins : OriginsLawful waiting ∧ ∃ t, step waiting = .next t :=
  ⟨{ station := witness_StepKeepsStations.1
     transmit := witness_StepKeepsStations.2.1
     numbers := by decide
     roster := witness_StepKeepsSources.1.roster
     marks := by unfold MarksLawful; decide
     outputs := by unfold OutputsLawful OverridesLawful; decide }, _, rfl⟩

theorem witness_StepKeepsHealth : HealthLawful waiting ∧ ∃ t, step waiting = .next t :=
  ⟨{ station := witness_StepKeepsStations.1
     transmit := witness_StepKeepsStations.2.1
     line := by unfold LineLawful; decide
     numbers := by decide
     starting := by unfold StartingLawful; decide
     summary := by unfold SummaryLawful; decide
     status := by
       intro _ p hp o ho hs
       simp only [waiting, demo, List.mem_cons, List.not_mem_nil, or_false] at hp
       rcases hp with rfl | rfl | rfl | rfl <;> simp [Point.owned?] at ho <;> subst ho <;> cases hs }, _, rfl⟩

theorem witness_StepKeepsLineUnit : LineUnitLawful waiting ∧ ∃ t, step waiting = .next t :=
  ⟨{ station := witness_StepKeepsStations.1
     transmit := witness_StepKeepsStations.2.1
     line := by unfold LineLawful; decide
     assembly := by unfold AssemblyLawful; decide
     replyFlight := fun f r hf => by cases hf }, _, rfl⟩

theorem witness_StepKeepsOutputs : DrivenLawful waiting ∧ ∃ t, step waiting = .next t :=
  ⟨by unfold DrivenLawful; decide, _, rfl⟩

/-- A list with an entry, the null point, an owned point, a FRESH, a STALE and an UNKNOWN one; a LEVEL of 100 at the thresholds 100 and 101
(R141). -/
theorem witness_StepKeepsOutputs_evaluate :
    let on (source : Nat) (threshold : Byte) : Output :=
      { relay with binding := { relay.binding with source := source, threshold := threshold }, driven := false, held := false }
    let points (state : MirrorState) : List Point :=
      ⟨20, .binary, .mirrored { lamp with state := state }⟩ :: demo.points.filter fun p => p.number != 20
    { relay with overrides := [force41] }.overrides = [force41] ∧ relay.overrides = []
    ∧ (relay.binding.source ≠ 0 ∧ (on 0 0).binding.source = 0)
    ∧ findPoint 20 (points .fresh) = some ⟨20, .binary, .mirrored lamp⟩ ∧ (lamp.state = .fresh ∧ lamp.value = some 1)
    ∧ findPoint 20 (points .stale) = some ⟨20, .binary, .mirrored { lamp with state := .stale }⟩
    ∧ findPoint 21 (points .fresh) = some ⟨21, .level, .mirrored fillMirrored⟩ ∧ fillMirrored.state = .unknown
    ∧ findPoint 300 demo.points = some ⟨300, .level, .owned gauge⟩
    ∧ ((on 300 100).evaluate demo.points).driven = true ∧ ((on 300 101).evaluate demo.points).driven = false := by decide

theorem witness_StepKeepsCapacities : HandlerLawful waiting ∧ AccountingLawful waiting ∧ ∃ t, step waiting = .next t :=
  ⟨by unfold HandlerLawful; decide, by unfold AccountingLawful; decide, _, rfl⟩

theorem witness_StepRunsFront :
    State.reset.pending = [] := rfl

/-- The three ways a frame starts: ACTIVE, PROBING, UNCONFIGURED. -/
theorem witness_TransmissionsStartAtIdle :
    let probing := { demo with mode := .probing, presencePending := true }
    let answering := { unconfigured with replies := [reply41 false] }
    let solicit := after1 (.lineIdleEvent 0) demo
    (demo.inFlight = none ∧ exec (.lineIdleEvent 0) demo = .next solicit ∧ solicit.inFlight.isSome)
    ∧ (probing.inFlight = none ∧ runs (.lineIdleEvent 0) probing ∧ (after1 (.lineIdleEvent 0) probing).inFlight.isSome)
    ∧ (answering.inFlight = none ∧ runs (.lineIdleEvent 0) answering
      ∧ (after1 (.lineIdleEvent 0) answering).inFlight.isSome) := ⟨⟨rfl, rfl, rfl⟩, ⟨rfl, rfl, rfl⟩, rfl, rfl, rfl⟩

/-- A restart, a command that is none, and a cause other than POWER. -/
theorem witness_RetainedRecord :
    exec (.transmitGuardTrip 0) demo = .next (after1 (.transmitGuardTrip 0) demo)
    ∧ exec (.presenceTimerExpiry) demo = .next (after1 (.presenceTimerExpiry) demo)
    ∧ Cause.guard ≠ .power := ⟨rfl, rfl, by decide⟩

/-- A stuck line, and a restart, in HALTED. -/
theorem witness_HaltedIsFrozen :
    halted.station = .halted ∧ halted.loading = false ∧ halted.inFlight = none
    ∧ exec (.stuckLineEpisode 5) halted = .next (after1 (.stuckLineEpisode 5) halted)
    ∧ exec (.pinRestart 0 10) halted = .next (after1 (.pinRestart 0 10) halted) := ⟨rfl, rfl, rfl, rfl, rfl⟩

theorem witness_ConfigurationIsFixed :
    exec (.urgentPublish 0 9 body20) demo = .next (after1 (.urgentPublish 0 9 body20) demo) ∧ demo.station ≠ .starting ∧ demo.loading = false
    ∧ (after1 (.urgentPublish 0 9 body20) demo).station ≠ .starting := ⟨rfl, by decide, rfl, by decide⟩

/-- The first counter and the last. -/
theorem witness_CountersNeverFall :
    exec (.stuckLineEpisode 0) demo = .next (after1 (.stuckLineEpisode 0) demo) ∧ (after1 (.stuckLineEpisode 0) demo).station ≠ .starting ∧ 0 < 12 ∧ 11 < 12 := ⟨rfl, by decide, by decide, by decide⟩

/-- The station whose point 10 has yielded. -/
def yielded : State := withKey fun o => { o with sched := .yielded, refreshTimer := none }

theorem witness_YieldedStays :
    TableLawful yielded ∧ OwnedTableLawful yielded ∧ yielded.loading = false
    ∧ yielded.ownedAt 10 = some { key with sched := .yielded, refreshTimer := none } ∧ 10 ∉ yielded.queue
    ∧ exec (.urgentPublish 0 9 record10.bytes) yielded = .next (after1 (.urgentPublish 0 9 record10.bytes) yielded)
    ∧ (after1 (.urgentPublish 0 9 record10.bytes) yielded).station ≠ .starting := by
  refine ⟨by unfold TableLawful; decide, ?_, rfl, rfl, by decide, rfl, by decide⟩
  have table : yielded.points = [⟨10, .binary, .owned { key with sched := .yielded, refreshTimer := none }⟩,
      ⟨300, .level, .owned gauge⟩, ⟨20, .binary, .mirrored lamp⟩, ⟨21, .level, .mirrored fillMirrored⟩] := rfl
  intro p hp o ho
  rw [table] at hp
  simp only [List.mem_cons, List.not_mem_nil, or_false] at hp
  rcases hp with rfl | rfl | rfl | rfl <;> simp [Point.owned?] at ho <;> subst ho <;> unfold OwnedLawful InKind <;> decide

theorem witness_RestartsOfOtherCauses :
    demo.station ≠ .halted ∧ halted.station = .halted
    ∧ { demo with pendingRestart := some 200000 }.station = .running
    ∧ { demo with pendingRestart := some 200000 }.pendingRestart = some 200000 := ⟨by decide, rfl, rfl, rfl⟩

/-- A low of 10 µs, one of 9 µs, and RESET low already. -/
theorem witness_ResetPin :
    demo.resetHigh = true ∧ 10 ≤ 10 ∧ 9 < 10 ∧ { demo with resetHigh := false }.resetHigh = false := ⟨rfl, by decide, by decide, rfl⟩

set_option maxRecDepth 20000 in
/-- The small image: with its own number, and with none usable. -/
theorem witness_LoadCompleteValid :
    State.reset.loading = true ∧ State.reset.station = .starting ∧ loadFailureOf image = none
    ∧ (parseImage image).validate = .none ∧ (after1 (.loadComplete 0 image 7 inputs) State.reset).number.isSome
    ∧ (let unnumbered := imageBody.set 4 0 ++ crcBytes (imageBody.set 4 0)
       loadFailureOf unnumbered = none ∧ (parseImage unnumbered).validate = .none
       ∧ (after1 (.loadComplete 0 unnumbered 63 inputs) State.reset).number = none) := by decide

set_option maxRecDepth 20000 in
theorem witness_LoadWithoutImage :
    State.reset.loading = true ∧ loadFailureOf (image.set 49 0) = some .imageCrc
    ∧ loadFailureOf badImage = none ∧ (parseImage badImage).validate ≠ .none ∧ demo.loading = false := by decide

set_option maxRecDepth 20000 in
/-- A memory that stops answering at each of the bytes where it is missed, a wrong signature, lengths of 49 and 509, a length against the
counts, and the image alone and with a byte after it. -/
theorem witness_LoadWithoutImage_load :
    ([0, 1, 2, 3, 4, 9, 10, 49].all fun n => loadFailureOf (image.take n) == some .noAnswer)
    ∧ loadFailureOf (image.set 1 0x3D) = some .signature ∧ loadFailureOf ([0xA5, 0x3D] ++ []) = some .signature
    ∧ loadFailureOf (image.set 3 49) = some .length ∧ loadFailureOf ((image.set 2 1).set 3 253) = some .length
    ∧ loadFailureOf (image.set 3 51) = some .length ∧ loadFailureOf (image.set 48 0) = some .imageCrc
    ∧ loadFailureOf image = none ∧ loadFailureOf (image ++ [7]) = none := by decide

set_option maxRecDepth 20000 in
/-- Each check of R181 failed by a changed byte or two, at the end of its range; at the ends within the range no check fails; the fields that an
entry does not use are disregarded. -/
theorem witness_LoadWithoutImage_checks :
    validated [] = .none
    ∧ ([[(5, 3)], [(6, 0)], [(6, 21)], [(4, 63)], [(4, 64)], [(8, 0)], [(40, 5)], [(44, 17)], [(45, 4)], [(64, 0x0E)]].all
      fun c => validated c == .fieldRange)
    ∧ ([[(43, 0)], [(42, 4), (43, 0)]].all fun c => validated c == .pointNumber)
    ∧ validated [(49, 10)] = .duplicatePoint ∧ validated [(26, 2)] = .levelPin
    ∧ ([[(44, 2)], [(44, 0x40)], [(10, 3)]].all fun c => validated c == .sourcePin)
    ∧ validated [(56, 0x01)] = .noThreshold
    ∧ ([[(60, 4)], [(60, 16)]].all fun c => validated c == .bindingPin)
    ∧ ([[(17, 3)], [(17, 16)]].all fun c => validated c == .handTarget)
    ∧ ([[(62, 13)], [(61, 4)], [(62, 13), (64, 0x0E)]].all fun c => validated c == .bindingSource)
    ∧ validated [(44, 16), (56, 16)] = .statusPoints
    ∧ ([[(5, 2), (6, 20), (4, 62)], [(6, 1), (4, 0)], [(24, 2)], [(42, 3), (43, 255)], [(62, 0)], [(45, 3)], [(44, 16)],
        [(46, 255), (47, 255)], [(50, 0xDF), (51, 255), (52, 255), (53, 255)], [(19, 255)],
        [(62, 0), (64, 0x0E)], [(62, 10), (64, 0x0E)], [(62, 12), (64, 0x0F)]].all
      fun c => validated c == .none) := by decide

set_option maxRecDepth 40000 in
/-- TOO-MANY-POINTS: 33 owned entries fail it, 32 do not. -/
theorem witness_LoadWithoutImage_points :
    let crowded (n : Nat) : ConfigError := (parseImage
      ((validBytes.take 8) ++ [BitVec.ofNat 8 n, 0] ++ (validBytes.drop 10).take 32
        ++ (List.range n).flatMap fun i => [0, BitVec.ofNat 8 (i + 1), 0, 1, 0, 0])).validate
    crowded 33 = .tooManyPoints ∧ crowded 32 = .none := by decide

theorem witness_JoinWindowExpiry :
    joining.station = .joining ∧ joining.joinTimer = some 1000000 ∧ (joining.points.map Point.number).Nodup
    ∧ joining.solicits = [] := by decide

/-- Each candidate in turn is the lowest, down to none; at the end of a stuck-line episode the STATUS-sourced point is one. -/
theorem witness_LineIdleChoice :
    (demo.station = .running ∧ demo.mode = .active ∧ demo.inFlight = none ∧ demo.faults.line = false ∧ demo.number = some 30
      ∧ demo.header = some { rate := .kbit100, periodCode := 10, remoteRestart := true })
    ∧ (stuckStatus.station = .running ∧ stuckStatus.mode = .active ∧ stuckStatus.inFlight = none
      ∧ stuckStatus.faults.line = true ∧ (stuckStatus.points.map Point.number).Nodup ∧ stuckStatus.number = some 30
      ∧ (summaryTaken { stuckStatus.faults with line := false } stuckStatus).urgent ≠ [])
    ∧ { demo with urgent := [10] }.urgent ≠ []
    ∧ (demo.urgent = [] ∧ { demo with replies := [reply41 false] }.replies = [reply41 false])
    ∧ (demo.replies = [] ∧ ∃ x ∈ demo.solicits, x.state = .waiting false)
    ∧ ((∀ x ∈ { demo with solicits := [] }.solicits, x.state ≠ .waiting false)
      ∧ { demo with solicits := [], presencePending := true }.presencePending = true)
    ∧ (demo.presencePending = false ∧ { demo with solicits := [], routine := [300] }.routine ≠ [] ∧ demo.routine = []) := by decide

theorem witness_LineIdleRestricted :
    (demo.station ≠ .starting ∧ demo.inFlight = none ∧ demo.faults.line = false)
    ∧ (stuckStatus.station ≠ .starting ∧ stuckStatus.inFlight = none ∧ stuckStatus.faults.line = true
      ∧ (stuckStatus.points.map Point.number).Nodup)
    ∧ demo.header = some { rate := .kbit100, periodCode := 10, remoteRestart := true }
    ∧ { demo with mode := .silenced }.mode = .silenced ∧ { demo with mode := .probing }.mode = .probing
    ∧ demo.presencePending = false ∧ { demo with presencePending := true }.presencePending = true
    ∧ (unconfigured.station = .unconfigured ∧ unconfigured.faults.line = false ∧ unconfigured.replies = []
      ∧ { unconfigured with replies := [reply41 false] }.replies = [reply41 false])
    ∧ joining.station = .joining ∧ halted.station = .halted ∧ halted.inFlight = none
    ∧ State.reset.station = .starting ∧ (flying false).inFlight.isSome := by decide

/-- An IDLE and a BUSY line with nothing in assembly, a frame in assembly with 0, 28 and 29 characters, and an ignored line; a start bit that
samples dominant and one that samples recessive. -/
theorem witness_LineFollowsTheLevel :
    let zero : LineChar := { data := 0, stopRecessive := true }
    (demo.line = .idle ∧ demo.station.dispatches = true ∧ demo.assembly = .empty ∧ demo.station ≠ .halted
      ∧ demo.station ≠ .starting ∧ demo.inFlight = none ∧ (demo.points.map Point.number).Nodup)
    ∧ ({ demo with line := .busy }.line = .busy ∧ { demo with line := .busy }.assembly = .empty)
    ∧ (halted.line = .idle ∧ halted.station.dispatches = false ∧ halted.station = .halted)
    ∧ ((flying false).assembly = .assembling [] ∧ (flying false).line = .busy ∧ (ignoring demo).assembly = .ignoring)
    ∧ ((List.replicate 28 zero).length < 29 ∧ (List.replicate 29 zero).length = 29)
    ∧ ((0x3FE#10).getLsbD 0 = false ∧ (0x3FF#10).getLsbD 0 = true)
    ∧ { demo with line := .stuck }.line = .stuck ∧ State.reset.line = .notTracked
    ∧ (after1 (.lineIdleEvent 0) demo).inFlight.isSome ∧ (after1 (.lineIdleEvent 0) halted).inFlight = none := by decide

set_option maxRecDepth 20000 in
/-- A framing error; the frame of section 11.1 with its CRC, which fails no check; a glitch with nothing in assembly, and one while a frame of
this station is on the line; a frame in assembly of which nothing is read back; no sample; a halted station, an ignored line, a STUCK line. -/
theorem witness_FrameDiscarded :
    let chars (l : List CharBits) := l.filterMap sampleChar
    Receives demo ∧ (chars [0x000#10] ≠ [] ∧ failedChecks (chars [0x000#10]) ≠ [])
    ∧ failedChecks (chars ((frameBytes 1 7 63 record300.bytes).map sendChar)) = []
    ∧ (chars [0x001#10] = [] ∧ demo.assembly = .empty ∧ (flying false).inFlight.isSome)
    ∧ (let failed := after1 (.transmitFailure 0) (flying false)
       Receives failed ∧ failed.inFlight = none ∧ failed.assembly = .assembling [])
    ∧ failedChecks [] ≠ []
    ∧ ¬ Receives halted ∧ ¬ Receives (ignoring demo) ∧ ¬ Receives { demo with line := .stuck } := by
  unfold Receives; decide

set_option maxRecDepth 20000 in
/-- Each check of R75 failed by a frame: sender 0 and 63, class 7 and 15, destination 62 of a broadcast class, length byte 25, a character too
many, one too few, two alone, a CRC byte wrong. -/
theorem witness_FrameDiscarded_checks :
    let good := frameBytes 1 7 63 []
    let fails (check : ReceiveCheck) (l : List Byte) := check ∈ failedChecks ((l.map sendChar).filterMap sampleChar)
    fails .sender (frameBytes 1 0 63 []) ∧ fails .sender (frameBytes 1 63 63 [])
    ∧ fails .frameClass (frameBytes 7 7 63 []) ∧ fails .frameClass (frameBytes 15 7 63 [])
    ∧ fails .destination (frameBytes 1 7 62 []) ∧ fails .lengthRange (frameBytes 1 7 63 (List.replicate 25 0))
    ∧ fails .overLength (good ++ [0]) ∧ fails .short (good.take 4) ∧ fails .short (good.take 2)
    ∧ fails .crc (good.take 4 ++ [good.getD 4 0 + 1]) ∧ ¬ fails .crc good := by decide

/-- In STARTING and HALTED, on an ignored line and on a STUCK one, none arrives. -/
theorem witness_DuplicateDetection :
    Receives demo ∧ ¬ Receives halted ∧ ¬ Receives State.reset ∧ ¬ Receives (ignoring demo)
    ∧ ¬ Receives { demo with line := .stuck } ∧ demo.number = some 30 ∧ stationOk 30 = true
    ∧ bodyOk (List.replicate 24 0) = true := by unfold Receives; decide

theorem witness_PublicationComplete :
    (flying true).station = .running ∧ (flying true).mode = .active
    ∧ (flying true).inFlight = some { sender := 30, content := .publication true [record10] }
    ∧ ((flying true).points.map Point.number).Nodup ∧ (recordPoints [record10]).Nodup := ⟨rfl, rfl, rfl, by decide, by decide⟩

/-- The count before is 4 and 5; each kind of frame; the probe; a STATUS reply in UNCONFIGURED. -/
theorem witness_FrameNotSent :
    let four (c : TxContent) := sending c { demo with failures := 4 }
    ((four (.solicit [21])).station = .running ∧ (four (.solicit [21])).mode = .active ∧ (four (.solicit [21])).failures < 5)
    ∧ (four (.publication true [record10])).inFlight = some { sender := 30, content := .publication true [record10] }
    ∧ (four (.solicit [21])).inFlight = some { sender := 30, content := .solicit [21] }
    ∧ (four (.presence demo.presenceContent)).inFlight = some { sender := 30, content := .presence demo.presenceContent }
    ∧ (four (.reply (reply41 true))).inFlight = some { sender := 30, content := .reply (reply41 true) }
    ∧ (flyingStatus.failures = 5 ∧ flyingStatus.station = .running ∧ flyingStatus.mode = .active
      ∧ flyingStatus.faults.silenced = false ∧ (flyingStatus.points.map Point.number).Nodup)
    ∧ (probing.station = .running ∧ probing.mode = .probing ∧ probing.faults.silenced = true
      ∧ probing.inFlight = some { sender := 30, content := .presence demo.presenceContent })
    ∧ unconfigured.station = .unconfigured
    ∧ (sending (.reply (reply41 false)) unconfigured).inFlight = some { sender := 30, content := .reply (reply41 false) } := by
  decide

theorem witness_FrameComplete :
    let s := sending (.reply (reply41 true)) { demo with pendingRestart := some 200000 }
    (s.station = .running ∧ s.mode = .active ∧ s.inFlight = some { sender := 30, content := .reply (reply41 true) }
      ∧ (reply41 true).restartMark = true ∧ s.pendingRestart = some 200000)
    ∧ (reply41 false).restartMark = false ∧ demo.pendingRestart = none ∧ demo.inFlight = none
    ∧ (sending (.solicit [21]) demo).inFlight = some { sender := 30, content := .solicit [21] }
    ∧ (sending (.presence demo.presenceContent) demo).inFlight
      = some { sender := 30, content := .presence demo.presenceContent }
    ∧ (probing.mode = .probing ∧ probing.faults.silenced = true ∧ (probing.points.map Point.number).Nodup)
    ∧ unconfigured.station = .unconfigured
    ∧ (sending (.reply (reply41 false)) unconfigured).inFlight = some { sender := 30, content := .reply (reply41 false) } := by
  decide

theorem witness_FailureAccounting :
    (flying false).station = .running ∧ (flying false).inFlight.isSome
    ∧ (∀ r, TxContent.publication true [record10] = .reply r → r.restartMark = true → demo.pendingRestart = none)
    ∧ ((flying false).mode = .active ∧ (flying false).failures < 5 ∧ { flying false with failures := 5 }.failures = 5)
    ∧ { flying false with mode := .probing }.mode = .probing := ⟨rfl, rfl, (fun _ h => nomatch h), by decide, rfl⟩

/-- A reply with the mark while no restart is pending, and one without it while one is. -/
theorem witness_FailureAccounting_reply :
    let pending := { demo with pendingRestart := some 200000 }
    (sending (.reply (reply41 true)) demo).inFlight = some { sender := 30, content := .reply (reply41 true) }
    ∧ demo.pendingRestart = none
    ∧ (sending (.reply (reply41 false)) pending).inFlight = some { sender := 30, content := .reply (reply41 false) }
    ∧ (reply41 false).restartMark ≠ true ∧ pending.pendingRestart = some 200000 := by decide

/-- A roster of 23 entries and one of 24. -/
theorem witness_FrameHeard :
    bodyOk (List.replicate 24 0) = true ∧ (demo.points.map Point.number).Nodup
    ∧ (Hears unconfigured 41 ∧ unconfigured.station = .unconfigured)
    ∧ (Hears demo 9 ∧ demo.station.live = true ∧ ∃ x ∈ demo.roster, x.station = 9)
    ∧ (let s := { demo with roster := crowd 23 }
       Hears s 9 ∧ (∀ x ∈ s.roster, x.station ≠ 9) ∧ s.roster.length < 24)
    ∧ (let s := { demo with roster := crowd 24 }
       Hears s 8 ∧ (∀ x ∈ s.roster, x.station ≠ 8) ∧ 24 ≤ s.roster.length ∧ namesSource 8 s.points = false)
    ∧ (Receives demo ∧ stationOk 63 = false ∧ stationOk 0 = false)
    ∧ ¬ Receives halted ∧ ¬ Receives (ignoring demo) := by unfold Hears Receives; decide

/-- An untracked source and a full roster: none evictable, a SILENT entry, and beside it a LOST one. -/
theorem witness_FrameHeard_source :
    let others (st : PeerState) (mark : Bool) : List Peer :=
      ((crowd 22).map fun x => { x with sourcesPoints := mark }) ++ [{ newPeer 5 0 mark with state := st }]
    let full (st : PeerState) (mark : Bool) : State := { demo with roster := newPeer 6 7 mark :: others st mark }
    let leaving : State := { demo with roster := { newPeer 6 7 false with state := .lost } :: others .silent false }
    (Hears (full .present false) 9 ∧ (∀ x ∈ (full .present false).roster, x.station ≠ 9)
      ∧ 24 ≤ (full .present false).roster.length ∧ namesSource 9 demo.points = true)
    ∧ (∀ x ∈ (full .present false).roster, x.state = .present ∨ x.sourcesPoints = true ∨ x.holdsOverrides = true)
    ∧ (∀ x ∈ (full .lost true).roster, x.state = .present ∨ x.sourcesPoints = true ∨ x.holdsOverrides = true)
    ∧ (∃ x ∈ (full .silent false).roster, x.state ≠ .present ∧ ¬ (x.sourcesPoints = true ∨ x.holdsOverrides = true))
    ∧ (∃ x ∈ leaving.roster, x.state = .lost ∧ ¬ (x.sourcesPoints = true ∨ x.holdsOverrides = true))
    ∧ 24 ≤ leaving.roster.length ∧ (heardFrom 0 9 leaving).roster.head?.map Peer.station = some 9 := by
  unfold Hears Receives; decide

/-- Bodies of 4, 24, 0 and 23 bytes. -/
theorem witness_PublicationTaken :
    Hears demo 9 ∧ bodyOk body20 = true ∧ body20.length ∈ [4, 8, 12, 16, 20, 24]
    ∧ (bodyOk (List.replicate 24 0) = true ∧ (List.replicate 24 (0 : Byte)).length ∈ [4, 8, 12, 16, 20, 24])
    ∧ (bodyOk [] = true ∧ ([] : List Byte).length ∉ [4, 8, 12, 16, 20, 24])
    ∧ (bodyOk (List.replicate 23 0) = true ∧ (List.replicate 23 (0 : Byte)).length ∉ [4, 8, 12, 16, 20, 24]) := by unfold Hears Receives; decide

/-- Point number 0, a YIELDED point, and a mirrored point of the other kind. -/
theorem witness_RecordPassedOver :
    findPoint 0 demo.points = none
    ∧ yielded.ownedAt record10.point.toNat = some { key with sched := .yielded, refreshTimer := none }
    ∧ (findPoint record20.point.toNat demo.points = some ⟨20, .binary, .mirrored lamp⟩ ∧ { record20 with kind := .level }.kind ≠ .binary) := ⟨rfl, rfl, rfl, by decide⟩

/-- From the learned source, and for a point without one. -/
theorem witness_RecordAccepted :
    (findPoint record20.point.toNat demo.points = some ⟨20, .binary, .mirrored lamp⟩ ∧ record20.kind = .binary ∧ lamp.source = some 9)
    ∧ (findPoint 21 demo.points = some ⟨21, .level, .mirrored fillMirrored⟩ ∧ fillMirrored.source = none)
    ∧ (demo.station = .running ∧ ∃ o ∈ (demo.takeRecord 9 record20).outputs, o.binding.source = 20)
    ∧ ∃ x ∈ (demo.takeRecord 9 { record20 with point := 21, kind := .level }).roster, x.station = 9 := by decide

/-- For a point without a learned source, a sender with an entry, one with room for it, one with an entry to evict and one with neither. -/
theorem witness_RecordAccepted_tracking :
    let full (st : PeerState) : State := { demo with roster := crowd 23 ++ [{ newPeer 5 0 false with state := st }] }
    (demo.mirroredAt 21 = some fillMirrored ∧ fillMirrored.source = none ∧ (demo.points.map Point.number).Nodup)
    ∧ demo.peerAt 9 = some (newPeer 9 0 true) ∧ (demo.peerAt 8 = none ∧ Trackable 8 demo)
    ∧ ((full .lost).peerAt 8 = none ∧ 24 ≤ (full .lost).roster.length ∧ Trackable 8 (full .lost))
    ∧ ¬ Trackable 8 (full .present) := by unfold Trackable Kept; decide

/-- From a lower and from a higher number, with the source PRESENT, LOST and untracked. -/
theorem witness_SourceSwitch :
    let lost := { demo with roster := [{ newPeer 9 0 true with state := .lost }] }
    let untracked := { demo with roster := [] }
    (findPoint record20.point.toNat demo.points = some ⟨20, .binary, .mirrored lamp⟩ ∧ record20.kind = .binary
      ∧ lamp.source = some 9 ∧ (9 : Station) ≠ 8 ∧ (9 : Station) ≠ 10)
    ∧ ((8 : Station) < 9 ∧ (9 : Station) < 10)
    ∧ (∃ x, demo.peerAt 9 = some x ∧ x.state ≠ .lost) ∧ (∃ x, lost.peerAt 9 = some x ∧ x.state = .lost)
    ∧ untracked.peerAt 9 = none := ⟨⟨rfl, rfl, rfl, by decide, by decide⟩, ⟨by decide, by decide⟩, ⟨_, rfl, by decide⟩, ⟨_, rfl, rfl⟩, rfl⟩

/-- A new source with an entry, with room for one, with an entry to evict, and with neither. -/
theorem witness_SourceSwitch_tracking :
    let full (st : PeerState) : State :=
      { demo with roster := crowd 22 ++ [newPeer 9 0 true, { newPeer 5 0 false with state := st }] }
    { demo with roster := [newPeer 9 0 true, newPeer 8 0 false] }.peerAt 8 = some (newPeer 8 0 false)
    ∧ (demo.peerAt 8 = none ∧ Trackable 8 demo)
    ∧ ((full .silent).peerAt 8 = none ∧ 24 ≤ (full .silent).roster.length ∧ Trackable 8 (full .silent))
    ∧ ¬ Trackable 8 (full .present)
    ∧ (∃ x, (full .present).peerAt 9 = some x ∧ x.state ≠ .lost) := by
  unfold Trackable Kept
  refine ⟨rfl, ⟨rfl, by decide⟩, by decide, by decide, _, rfl, by decide⟩

/-- From 29 and from 31, against 30; a QUIET point, and a ROUTINE one in flight. -/
theorem witness_OwnershipConflict :
    let routine := withKey fun o => { o with sched := .routine, inFlight := true }
    ((demo.points.map Point.number).Nodup ∧ demo.number = some 30 ∧ demo.ownedAt record10.point.toNat = some key
      ∧ key.sched ≠ .yielded ∧ (29 : Station) < 30 ∧ (30 : Station) < 31 ∧ demo.station = .running ∧ key.sched ≠ .routine
      ∧ key.source = .pin 0)
    ∧ (routine.ownedAt 10 = some { key with sched := .routine, inFlight := true } ∧ routine.station = .running)
    ∧ (joining.ownedAt 10 = some key ∧ joining.station = .joining)
    ∧ ((10 : Nat) ≠ 300 ∧ demo.ownedAt 300 = some gauge ∧ gauge.source ≠ .status)
    ∧ (let u (s : State) := summaryTaken { s.faults with conflict := true } s
       (u demo).ownedAt 10 = some key ∧ key.sched = .quiet
       ∧ (u (withKey fun o => { o with sched := .routine })).ownedAt 10 = some { key with sched := .routine }
       ∧ (u routine).ownedAt 10 = some { key with sched := .routine, inFlight := true }
       ∧ (u (flying false)).ownedAt 10 = some { key with sched := .urgent, inFlight := true }) := by decide

/-- Bodies of 2, 16, 0 and 18 bytes; points not held, mirrored and owned, in each state. -/
theorem witness_SolicitTaken :
    Hears demo 9
    ∧ (bodyOk [0, 10] = true ∧ [(0 : Byte), 10].length ∈ [2, 4, 6, 8, 10, 12, 14, 16])
    ∧ (bodyOk (List.replicate 16 0) = true ∧ (List.replicate 16 (0 : Byte)).length ∈ [2, 4, 6, 8, 10, 12, 14, 16])
    ∧ (bodyOk [] = true ∧ ([] : List Byte).length ∉ [2, 4, 6, 8, 10, 12, 14, 16])
    ∧ (bodyOk (List.replicate 18 0) = true ∧ (List.replicate 18 (0 : Byte)).length ∉ [2, 4, 6, 8, 10, 12, 14, 16])
    ∧ findPoint 0 demo.points = none ∧ joining.station ≠ .running ∧ demo.station = .running
    ∧ demo.mirroredAt 21 = some fillMirrored ∧ demo.ownedAt 10 = some key ∧ key.sched = .quiet
    ∧ (withKey fun o => { o with sched := .routine }).ownedAt 10 = some { key with sched := .routine }
    ∧ (withKey fun o => { o with sched := .routine, inFlight := true }).ownedAt 10
      = some { key with sched := .routine, inFlight := true }
    ∧ (withKey fun o => { o with sched := .urgent }).ownedAt 10 = some { key with sched := .urgent }
    ∧ yielded.ownedAt 10 = some { key with sched := .yielded, refreshTimer := none } := by unfold Hears Receives; decide

/-- Period codes 0, 1, 20 and 21; an untracked sender; a restart by incarnation. -/
theorem witness_PresenceTaken :
    let known := { demo with roster := [{ newPeer 9 0 true with
      content := some { periodCode := 10, incarnation := 3, cause := .pin, faults := 0 } }] }
    (Hears demo 9 ∧ bodyOk [0, 0, 0, 0] = true ∧ demo.station.live = true)
    ∧ (Hears unconfigured 9 ∧ unconfigured.station = .unconfigured)
    ∧ (parsePresence [0, 0, 0, 0] = none ∧ parsePresence [21, 0, 0, 0] = none ∧ parsePresence [10, 0, 0] = none)
    ∧ ((parsePresence [1, 0, 0, 0]).isSome ∧ (parsePresence [20, 0, 0, 0]).isSome)
    ∧ (parsePresence [0x20, 0, 0, 0] = none ∧ parsePresence [0x2A, 0xFC, 0, 0] = parsePresence [10, 0, 0, 0])
    ∧ (let full := { demo with roster := crowd 24 }
       Hears full 8 ∧ (heardFrom 0 8 full).peerAt 8 = none)
    ∧ (heardFrom 0 9 demo).peerAt 9 = some (newPeer 9 100000 true)
    ∧ ((((heardFrom 0 9 known).peerAt 9).bind Peer.content).map PeerContent.incarnation = some 3
      ∧ ((heardFrom 0 9 known).points.map Point.number).Nodup ∧ (3 : Byte) ≠ 4
      ∧ ((heardFrom 0 9 known).outputs.map Output.pin).Nodup) := by unfold Hears Receives; decide

/-- A tracked sender, one that takes a place, one for which a full roster has none; each row of the table of R146. -/
theorem witness_Force :
    let full := { demo with roster := (crowd 24).map fun x => { x with sourcesPoints := true } }
    let leaving := { demo with roster := (crowd 24).map fun x => { x with state := .silent } }
    (Asked demo 41 30 ∧ findRecent 41 1 demo.recent = none ∧ ∃ x ∈ (heardFrom 0 41 demo).roster, x.station = 41)
    ∧ (Asked full 8 30 ∧ (∀ x ∈ (heardFrom 0 8 full).roster, x.station ≠ 8)
      ∧ ∀ x ∈ (heardFrom 0 8 full).roster, x.state = .present ∨ Kept x)
    ∧ (Asked leaving 8 30 ∧ (∀ x ∈ (heardFrom 0 8 leaving).roster, x.station ≠ 8)
      ∧ ∃ x ∈ (heardFrom 0 8 leaving).roster, x.state ≠ .present ∧ ¬ Kept x)
    ∧ ((heardFrom 0 41 demo).track 41 = (heardFrom 0 41 demo, true) ∧ (heardFrom 0 41 demo).outputAt 4 = none
      ∧ (heardFrom 0 41 demo).outputAt 3 = some relay ∧ relay.binding.overridable = true ∧ relay.overrides.length < 4)
    ∧ ((withOverrides [force41]).outputAt 3 = some { relay with overrides := [force41] } ∧ ∃ x ∈ [force41], x.origin = 41)
    ∧ ((withOverrides (List.replicate 4 force41)).outputAt 3 = some { relay with overrides := List.replicate 4 force41 }
      ∧ (∀ x ∈ List.replicate 4 force41, x.origin ≠ 9) ∧ 4 ≤ (List.replicate 4 force41).length)
    ∧ ({ demo with outputs := [{ relay with binding := { relay.binding with overridable := false } }] }.outputAt 3).map
      (fun o : Output => o.binding.overridable) = some false := by unfold Asked Receives Kept; decide

/-- The numbers of the points differ where the roster is full, with an entry to evict and with none. -/
theorem witness_Force_numbers :
    let full : State := { demo with roster := (crowd 24).map fun x => { x with sourcesPoints := true } }
    let leaving : State := { demo with roster := (crowd 24).map fun x => { x with state := .silent } }
    (full.points.map Point.number).Nodup ∧ (leaving.points.map Point.number).Nodup := by decide

theorem witness_Release :
    (Asked demo 41 30 ∧ findRecent 41 1 demo.recent = none ∧ (heardFrom 0 41 demo).outputAt 4 = none
      ∧ (heardFrom 0 41 demo).outputAt 3 = some relay ∧ ∀ x ∈ relay.overrides, x.origin ≠ 41)
    ∧ (Asked (withOverrides [force41]) 41 30
      ∧ (heardFrom 0 41 (withOverrides [force41])).outputAt 3 = some { relay with overrides := [force41] }
      ∧ ∃ x ∈ [force41], x.origin = 41) := by unfold Asked Receives; decide

theorem witness_RestartAndClear :
    Asked demo 41 30 ∧ findRecent 41 1 demo.recent = none
    ∧ demo.header = some { rate := .kbit100, periodCode := 10, remoteRestart := true }
    ∧ { demo with header := some { rate := .kbit100, periodCode := 10, remoteRestart := false } }.header
      = some { rate := .kbit100, periodCode := 10, remoteRestart := false } := by unfold Asked Receives; decide

theorem witness_CommandRepeated :
    let s := { demo with recent := [forced41] }
    Asked s 41 30 ∧ findRecent 41 1 s.recent = some forced41 := by unfold Asked Receives; decide

/-- Stations 1 and 62, groups 0 and 63, counts 1 and 7. -/
theorem witness_Queries :
    Asked demo 41 30 ∧ (stationOk 62 = true ∧ (heardFrom 0 41 demo).peerAt 62 = none)
    ∧ (stationOk 9 = true ∧ (heardFrom 0 41 demo).peerAt 9 = some (newPeer 9 0 true) ∧ stationOk 1 = true)
    ∧ ((heardFrom 0 41 demo).outputAt 0 = none ∧ (heardFrom 0 41 demo).outputAt 3 = some relay)
    ∧ ((0 ≤ 63 ∧ 1 ≤ 1 ∧ 1 ≤ 7) ∧ 63 ≤ 63 ∧ 1 ≤ 7 ∧ 7 ≤ 7)
    ∧ (unconfigured.station = .unconfigured ∧ Receives unconfigured ∧ unconfigured.number = some 30
      ∧ (30 : Station) ≠ Config.everyone
      ∧ stationOk 41 = true ∧ (41 : Station) ≠ 30 ∧ unconfigured.replies.length < 4) := by unfold Asked Receives; decide

/-- A STATUS in UNCONFIGURED with no tag, and with a field after it: one byte, and as many as a body holds. -/
theorem witness_BadRequest_unconfigured :
    (unconfigured.station = .unconfigured ∧ Receives unconfigured ∧ unconfigured.number = some 30 ∧ (30 : Station) ≠ Config.everyone
      ∧ stationOk 41 = true ∧ (41 : Station) ≠ 30 ∧ unconfigured.replies.length < 4)
    ∧ ([[], [7, 0], List.replicate 23 7] : List (List Byte)).all fun rest => decide (rest.length ≤ 23 ∧ rest.length ≠ 1) := by
  unfold Receives; decide

/-- Kinds 0, 5 and 6, bodies of 0 and 1 bytes, and each field at the end of its range and beyond it. -/
theorem witness_BadRequest :
    Asked demo 41 30 ∧ bodyOk [0, 7] = true ∧ commandOf [0, 7] = none ∧ queryOf [0, 7] = none
    ∧ commandOf [5, 7] = none ∧ queryOf [6, 7] = none ∧ commandOf [] = none ∧ queryOf [1] = none
    ∧ (commandOf [1, 7, 15, 1, 255] ≠ none ∧ commandOf [1, 7, 3, 2, 0] = none ∧ commandOf [1, 7, 16, 1, 0] = none)
    ∧ (commandOf [2, 7, 15] ≠ none ∧ commandOf [2, 7, 16] = none ∧ commandOf [3, 7] ≠ none ∧ commandOf [4, 7, 0] = none)
    ∧ (queryOf [2, 7, 63, 15, 7] ≠ none ∧ queryOf [2, 7, 64, 15, 7] = none ∧ queryOf [2, 7, 63, 16, 7] = none
      ∧ queryOf [2, 7, 63, 15, 8] = none ∧ queryOf [2, 7, 63, 15, 0] = none)
    ∧ (queryOf [3, 7, 1] ≠ none ∧ queryOf [3, 7, 62] ≠ none ∧ queryOf [3, 7, 0] = none ∧ queryOf [3, 7, 63] = none)
    ∧ (queryOf [4, 7, 15] ≠ none ∧ queryOf [4, 7, 16] = none ∧ queryOf [5, 7, 1] ≠ none ∧ queryOf [5, 7, 2] = none) := by
  unfold Asked Receives; decide

theorem witness_RequestsNotTaken :
    Hears demo 41 ∧ bodyOk [1, 7] = true ∧ demo.number ≠ some 31 ∧ demo.number = some 30
    ∧ (Hears joining 41 ∧ joining.station = .joining ∧ joining.number = some 30)
    ∧ (Hears unconfigured 41 ∧ unconfigured.station = .unconfigured ∧ unconfigured.number = some 30)
    ∧ (let full := { demo with replies := List.replicate 4 (reply41 false) }
       Hears full 41 ∧ 4 ≤ full.replies.length) := by unfold Hears Receives; decide

/-- A QUERY that is no STATUS. -/
theorem witness_RequestsNotTaken_query :
    ∀ tag : List Byte, ([2, 7, 0, 0, 1] : List Byte) ≠ 1 :: tag := by simp

theorem witness_DigitalSample :
    let pin (s : State) (i : Fin 16) := s.pins[i.val]?
    let timed : Pin := { pinOf .inDigital (some false) with debounce := 5 }
    demo.station.live = true ∧ halted.station.live = false
    ∧ (pin demo 3 = some (pinOf .out none) ∧ (PinMode.out ≠ .inDigital ∧ PinMode.out ≠ .hand))
    ∧ (pin demo 0 = some (pinOf .inDigital (some false)) ∧ (1#16).getLsbD 0 = true ∧ (0#16).getLsbD 0 = false)
    ∧ (timed.debounce ≠ 0 ∧ timed.candidate = none ∧ { timed with candidate := some 95000 }.candidate = some 95000)
    ∧ (timed.debounce * 1000 ≤ demo.clock - 95000 ∧ demo.clock - 95001 < timed.debounce * 1000) := by decide

theorem witness_DebouncedTransition :
    (demo.pins[(0 : Fin 16).val]? = some (pinOf .inDigital (some false)) ∧ demo.station.live = true
      ∧ demo.pins[(1 : Fin 16).val]? = some (pinOf .hand (some false)) ∧ (pinOf .hand (some false)).level ≠ some true)
    ∧ (pinOf .inDigital (some false)).level ≠ some true ∧ (demo.points.map Point.number).Nodup
    ∧ (⟨10, .binary, .owned key⟩ ∈ demo.points ∧ key.source = .pin 0 ∧ demo.station = .running ∧ key.sched ≠ .yielded)
    ∧ ((withKey fun o => { o with sched := .urgent, inFlight := true }).station = .running)
    ∧ joining.station = .joining ∧ halted.station.live = false ∧ (pinOf .inDigital (some false)).level = some false
    ∧ (∀ o, demo.ownedAt 20 = some o → o.source ≠ .pin 0) := by refine ⟨⟨rfl, rfl, rfl, by decide⟩, by decide, by decide, ⟨by decide, rfl, rfl, by decide⟩, rfl, rfl, rfl, rfl, fun o h => ?_⟩; cases h

/-- A list with a local entry, one of 3 and one of 4. -/
theorem witness_HandPress :
    let local0 : Override := { origin := 0, value := false, lease := none }
    (demo.pins[(1 : Fin 16).val]? = some (pinOf .hand (some false)) ∧ (pinOf .hand (some false)).level ≠ some true
      ∧ demo.station.live = true ∧ joining.station = .joining ∧ demo.station = .running
      ∧ (demo.points.map Point.number).Nodup)
    ∧ { demo with outputs := [] }.outputAt 3 = none
    ∧ ((withOverrides [local0]).outputAt 3 = some { relay with overrides := [local0] } ∧ ∃ x ∈ [local0], x.origin = 0)
    ∧ ((withOverrides (List.replicate 3 force41)).outputAt 3 = some { relay with overrides := List.replicate 3 force41 }
      ∧ (∀ x ∈ List.replicate 3 force41, x.origin ≠ 0) ∧ (List.replicate 3 force41).length < 4)
    ∧ ((withOverrides (List.replicate 4 force41)).outputAt 3 = some { relay with overrides := List.replicate 4 force41 }
      ∧ (∀ x ∈ List.replicate 4 force41, x.origin ≠ 0) ∧ 4 ≤ (List.replicate 4 force41).length) := by decide

/-- A LEVEL point outside its deadband; a BINARY point at thresholds 5, 4, 1 and 0; a pin in another mode. -/
theorem witness_LevelReading :
    (demo.station.live = true ∧ demo.pinMode 2 = .inLevel ∧ (demo.points.map Point.number).Nodup
      ∧ ⟨300, .level, .owned gauge⟩ ∈ demo.points ∧ gauge.source = .pin 2)
    ∧ (gauge.inFlight = false ∧ gauge.compareBase.or gauge.carried = some 100 ∧ gauge.deadband = some 4
      ∧ (100 : Byte).toNat + (4 : Byte).toNat < (105 : Byte).toNat ∧ demo.station = .running ∧ gauge.sched ≠ .yielded)
    ∧ (let door : Owned := { key with source := .pin 2, threshold := some 5, current := 1 }
       let s := { demo with points := [⟨7, .binary, .owned door⟩] }
       (∃ q ∈ s.points, q.role = .owned door) ∧ door.threshold = some 5 ∧ door.current = 1 ∧ { door with current := 0 }.current = 0
       ∧ (4 < (5 : Byte).toNat ∧ (1 ≤ (4 : Byte).toNat ∧ (4 : Byte).toNat ≤ 4) ∧ 1 ≤ (1 : Byte).toNat))
    ∧ halted.station.live = false ∧ demo.pinMode 0 ≠ .inLevel := by decide

theorem witness_ChangeEvent :
    demo.ownedAt 10 = some key ∧ key.sched = .quiet
    ∧ (withKey fun o => { o with sched := .routine }).ownedAt 10 = some { key with sched := .routine }
    ∧ (withKey fun o => { o with sched := .routine, inFlight := true }).ownedAt 10
      = some { key with sched := .routine, inFlight := true }
    ∧ (flying false).ownedAt 10 = some { key with sched := .urgent, inFlight := true }
    ∧ (flying true).ownedAt 10 = some { key with sched := .urgent, inFlight := true, dirty := true }
    ∧ (withKey fun o => { o with sched := .urgent }).ownedAt 10 = some { key with sched := .urgent }
    ∧ yielded.ownedAt 10 = some { key with sched := .yielded, refreshTimer := none } := ⟨rfl, rfl, rfl, rfl, rfl, rfl, rfl, rfl⟩

theorem witness_RefreshTimer :
    (demo.station = .running ∧ demo.ownedAt 10 = some key ∧ key.refreshTimer = some 500000 ∧ key.sched = .quiet)
    ∧ (withKey fun o => { o with sched := .urgent }).ownedAt 10 = some { key with sched := .urgent }
    ∧ halted.station ≠ .running ∧ demo.ownedAt 20 = none ∧ (demo.ownedAt 300 = some gauge ∧ gauge.refreshTimer = none) := by decide

theorem witness_StalenessAndOverdue :
    (demo.station.live = true ∧ demo.mirroredAt 20 = some lamp ∧ lamp.state = .fresh ∧ lamp.deadline = some 900000
      ∧ demo.station = .running ∧ (demo.points.map Point.number).Nodup)
    ∧ (demo.updateMirrored 21 fun m => { m with overdueTimer := some 200000 }).mirroredAt 21
      = some { fillMirrored with overdueTimer := some 200000 } := by decide

/-- Attempts 2 and 3 before the expiry; a list of 15 and one of 16. -/
theorem witness_SolicitAndBackoff :
    let asked (attempts : Nat) : State := { demo with solicits := [{ point := 21, state := .sent 250000, attempts := attempts }] }
    let point : Point := ⟨21, .level, .mirrored fillMirrored⟩
    let list (n : Nat) : List Solicit := (List.range n).map fun i => newSolicit (100 + i)
    (demo.station = .running ∧ (asked 2).solicits.find? (fun y => y.point == 21)
        = some { point := 21, state := .sent 250000, attempts := 2 } ∧ 2 < 3
      ∧ (asked 3).solicits.find? (fun y => y.point == 21) = some { point := 21, state := .sent 250000, attempts := 3 } ∧ 3 ≤ 3)
    ∧ (demo.updateMirrored 21 fun m => { m with backoff := some 200000 }).mirroredAt 21
      = some { fillMirrored with backoff := some 200000 }
    ∧ (point.solicitable = true ∧ (∀ y ∈ list 15, y.point ≠ point.number) ∧ (list 15).length < 16 ∧ 16 ≤ (list 16).length)
    ∧ (Point.solicitable ⟨20, .binary, .mirrored lamp⟩ = false ∧ ∃ y ∈ [newSolicit 21], y.point = point.number) := by decide

theorem witness_PresenceAndQuarantine :
    demo.station = .running ∧ demo.presenceTimer = some 900000
    ∧ { demo with mode := .silenced, quarantineTimer := some 200000 }.mode = .silenced
    ∧ { demo with mode := .silenced, quarantineTimer := some 200000 }.quarantineTimer = some 200000 := by decide

theorem witness_PeerSupervision :
    (demo.station.live = true ∧ demo.peerAt 9 = some (newPeer 9 0 true) ∧ (newPeer 9 0 true).state = .present
      ∧ (newPeer 9 0 true).silentAt = some 4000000)
    ∧ ({ demo with roster := [{ newPeer 9 0 true with state := .silent }] }.peerAt 9 = some { newPeer 9 0 true with state := .silent }
      ∧ (newPeer 9 0 true).lostAt = some 8000000 ∧ (demo.points.map Point.number).Nodup
      ∧ (demo.outputs.map Output.pin).Nodup) := by decide

theorem witness_LeaseAndRecent :
    ((withOverrides [force41]).station = .running
      ∧ (withOverrides [force41]).outputAt 3 = some { relay with overrides := [force41] }
      ∧ [force41].find? (fun y => y.origin == 41) = some force41 ∧ force41.lease = some 700000)
    ∧ findRecent 41 1 { demo with recent := [forced41] }.recent = some forced41 := by decide

/-- The longest body and the empty one; samples that begin with a recessive and with a dominant level. -/
theorem witness_FramesReadBack :
    headerGood .urgentPublish 62 63 (List.replicate 24 0) = true ∧ headerGood .reply 1 0 [] = true
    ∧ (0x001#10).getLsbD 0 = true ∧ (0x3FE#10).getLsbD 0 = false := by decide

theorem witness_BodiesReadBack :
    (∀ n ∈ [0, 1023], n ≤ 1023) ∧ 1 ≤ demo.presenceContent.periodCode.toNat ∧ demo.presenceContent.periodCode.toNat ≤ 20 := by decide

/-- Each station state and each pin mode; a lawful frame on the line; a restart, and an entry to HALTED. -/
theorem witness_OutsidePins :
    (State.reset.station = .starting ∧ unconfigured.station = .unconfigured ∧ halted.station = .halted
      ∧ joining.station = .joining ∧ demo.station = .running)
    ∧ (demo.pins[0]? = some (pinOf .inDigital (some false)) ∧ demo.pins[1]? = some (pinOf .hand (some false))
      ∧ demo.pins[2]? = some (pinOf .inLevel none) ∧ demo.pins[3]? = some (pinOf .out none)
      ∧ { demo with pins := [pinOf .unused none] }.pins[0]? = some (pinOf .unused none) ∧ demo.outputAt 3 = some relay)
    ∧ (flying false).driverEngaged = true
    ∧ (exec (.transmitGuardTrip 0) (flying false) = .next (after1 (.transmitGuardTrip 0) (flying false))
      ∧ (after1 (.transmitGuardTrip 0) (flying false)).station = .starting)
    ∧ (exec (.duplicateDetection 0) (flying false) = .next (after1 (.duplicateDetection 0) (flying false))
      ∧ (after1 (.duplicateDetection 0) (flying false)).station = .halted) :=
  ⟨by decide, by decide, rfl, ⟨rfl, rfl⟩, rfl, rfl⟩

/-- The frame on the line of the state with point 10 in flight is lawful there. -/
theorem witness_OutsidePins_transmit : StationLawful (flying false) ∧ TransmitLawful (flying false) :=
  ⟨by unfold StationLawful; decide, fun _ hf => by cases hf; exact ⟨rfl, trivial⟩⟩

/-- The laws of the fault summary hold in HALTED, after a duplicate detection. -/
theorem witness_OutsidePins_halted : halted.station = .halted ∧ HealthLawful halted :=
  ⟨rfl,
   { station := by unfold StationLawful; decide
     transmit := fun f hf => by cases hf
     line := by unfold LineLawful; decide
     numbers := by decide
     starting := by unfold StartingLawful; decide
     summary := by unfold SummaryLawful; decide
     status := fun h => by cases h }⟩

/-- The laws of the fault summary hold after reset, in STARTING. -/
theorem witness_OutsidePins_health : HealthLawful State.reset :=
  { station := by unfold StationLawful; decide
    transmit := fun f hf => by cases hf
    line := by unfold LineLawful; decide
    numbers := by decide
    starting := by unfold StartingLawful; decide
    summary := by unfold SummaryLawful; decide
    status := fun h => by cases h }

end Sys2Proof.Tests
end

section
namespace Sys2Proof.Machine
open Sys2Proof.Safety

/-! ## The state after reset -/

/-- The state after reset is one of those a restart leaves. -/
theorem lawful_reset : Lawful State.reset := by
  have station : StationLawful State.reset := by unfold StationLawful; decide
  have transmit : TransmitLawful State.reset := fun f hf => by cases hf
  have line : LineLawful State.reset := by unfold LineLawful; decide
  have numbers : (State.reset.points.map Point.number).Nodup := by decide
  have roster : RosterLawful State.reset := by unfold RosterLawful; decide
  exact
    { publication :=
        { station, table := by unfold TableLawful; decide, owned := fun p hp => by cases hp
          queue := ⟨by decide, fun n => by simp [State.reset, State.ownedAt, findPoint],
            fun n => by simp [State.reset, State.ownedAt, findPoint]⟩
          flight := fun n o ho => by cases ho }
      mirroring :=
        { station, transmit, numbers, mirrored := fun p hp => by cases hp
          solicits := ⟨by decide, by decide, fun e he => by cases he⟩
          waiting := fun h => by cases h }
      sources := { station, transmit, numbers, roster, fresh := fun p hp => by cases hp }
      origins :=
        { station, transmit, numbers, roster, marks := fun e he => by cases he
          outputs := ⟨by decide, fun o ho => by cases ho⟩ }
      health :=
        { station, transmit, line, numbers, starting := fun _ => rfl
          summary := by unfold SummaryLawful; decide, status := fun h => by cases h }
      lineUnit :=
        { station, transmit, line, assembly := by unfold AssemblyLawful; decide
          replyFlight := fun f r hf => by cases hf }
      driven := fun h => by cases h
      handler := by unfold HandlerLawful; decide
      accounting := by unfold AccountingLawful; decide }

/-- Settles O2: every law is a property of the empty tables and the after-restart values of the state after reset. -/
theorem resetIsLawful : Obligations.ResetIsLawful := lawful_reset

/-! ## The fault summary does not survive a roster with two entries of one station -/

/-- A running station whose roster holds station 5 twice: PRESENT, and LOST with "sources points". -/
def twiceHeard : State :=
  { State.reset with
    station := .running, loading := false, number := some 30, line := .idle
    faults := { FaultSummary.afterRestart with config := false, peerLost := true }
    roster := [newPeer 5 0 false, { newPeer 5 0 true with state := .lost }]
    pending := [.silentDeadlineExpiry 5] }

theorem healthLawful_twiceHeard : HealthLawful twiceHeard :=
  { station := by unfold StationLawful; decide
    transmit := fun f hf => by cases hf
    line := by unfold LineLawful; decide
    numbers := by decide
    starting := fun h => by cases h
    summary := by unfold SummaryLawful; decide
    status := fun _ p hp => by cases hp }

/-- The expiry makes every entry of the station SILENT, so none is LOST any more. -/
def twiceHeardAfter : State :=
  { twiceHeard with
    pending := [], clock := 4000000
    roster := twiceHeard.roster.map fun x => { x with state := .silent, silentAt := none } }

theorem step_twiceHeard : step twiceHeard = .next twiceHeardAfter := rfl

/-- PEER-LOST still holds, but no entry holds it any more. -/
theorem not_summaryLawful_twiceHeardAfter : ¬ SummaryLawful twiceHeardAfter := by
  unfold SummaryLawful; decide

/-- Refutes O8: the laws of the fault summary leave open that the roster holds two entries of one station. SILENT_DEADLINE_EXPIRY finds
the PRESENT one and makes both SILENT without a judgement of PEER-LOST, which then holds with no LOST entry (R132, R133, R188). No
reachable state has such a roster: the law that excludes it is `RosterLawful`, which is no part of `HealthLawful`. -/
theorem not_stepKeepsHealth : ¬ Obligations.StepKeepsHealth := fun ⟨keeps, _⟩ =>
  not_summaryLawful_twiceHeardAfter (keeps _ _ healthLawful_twiceHeard step_twiceHeard).summary

end Sys2Proof.Machine
end

