-- ==== Sys2Proof/Proofs/Lookups.lean ====
section
/-!
SUPPORT. Looking up the Point Table: entries and numbers, changes of the OWNED and of the MIRRORED fields as maps over the table, and what
each shared operation does to the fields of one entry.
-/

namespace Sys2Proof.Machine

open Sys2Proof.Safety

/-! ## Entries and numbers -/

/-- In a table of distinct numbers an entry is the one its number finds. -/
theorem findPoint_of_mem {l : List Point} (distinct : (l.map Point.number).Nodup) {p : Point} (hp : p ∈ l) :
    findPoint p.number l = some p := by
  induction l with
  | nil => cases hp
  | cons q l ih =>
    rw [List.map_cons, List.nodup_cons] at distinct
    obtain ⟨absent, distinct⟩ := distinct
    rcases List.mem_cons.mp hp with rfl | hp
    · simp [findPoint]
    · have : q.number ≠ p.number := fun e => absent (e ▸ List.mem_map_of_mem hp)
      simpa [findPoint, this] using ih distinct hp

theorem findPoint_eq_none {n : Nat} {l : List Point} : findPoint n l = none ↔ ∀ p ∈ l, p.number ≠ n := by
  simp [findPoint]

theorem owned?_eq_some {p : Point} {o : Owned} : p.owned? = some o ↔ p.role = .owned o := by
  unfold Point.owned?; cases p.role <;> simp

theorem mirrored?_eq_some {p : Point} {m : Mirrored} : p.mirrored? = some m ↔ p.role = .mirrored m := by
  unfold Point.mirrored?; cases p.role <;> simp

/-- An entry is OWNED or MIRRORED, not both. -/
theorem owned?_of_mirrored? {p : Point} {m : Mirrored} (h : p.mirrored? = some m) : p.owned? = none := by
  rw [mirrored?_eq_some] at h; simp [Point.owned?, h]

theorem mirrored?_of_owned? {p : Point} {o : Owned} (h : p.owned? = some o) : p.mirrored? = none := by
  rw [owned?_eq_some] at h; simp [Point.mirrored?, h]

theorem ownedAt_entry {s : State} {n : Nat} {o : Owned} (h : s.ownedAt n = some o) :
    ∃ p, findPoint n s.points = some p ∧ p ∈ s.points ∧ p.number = n ∧ p.owned? = some o := by
  obtain ⟨p, hp, ho⟩ := Option.bind_eq_some_iff.mp h
  exact ⟨p, hp, findPoint_mem hp, findPoint_number hp, ho⟩

theorem mirroredAt_entry {s : State} {n : Nat} {m : Mirrored} (h : s.mirroredAt n = some m) :
    ∃ p, findPoint n s.points = some p ∧ p ∈ s.points ∧ p.number = n ∧ p.mirrored? = some m := by
  obtain ⟨p, hp, hm⟩ := Option.bind_eq_some_iff.mp h
  exact ⟨p, hp, findPoint_mem hp, findPoint_number hp, hm⟩

theorem ownedAt_of_mem {s : State} (distinct : (s.points.map Point.number).Nodup) {p : Point} (hp : p ∈ s.points) :
    s.ownedAt p.number = p.owned? := by
  simp [State.ownedAt, findPoint_of_mem distinct hp]

theorem mirroredAt_of_mem {s : State} (distinct : (s.points.map Point.number).Nodup) {p : Point} (hp : p ∈ s.points) :
    s.mirroredAt p.number = p.mirrored? := by
  simp [State.mirroredAt, findPoint_of_mem distinct hp]

/-- An entry is OWNED, or MIRRORED with fields that `mirroredAt` finds, or not held. -/
theorem mirroredAt_none_of_owned {s : State} {n : Nat} {o : Owned} (h : s.ownedAt n = some o) : s.mirroredAt n = none := by
  obtain ⟨p, hp, -, -, ho⟩ := ownedAt_entry h
  simp [State.mirroredAt, hp, mirrored?_of_owned? ho]

theorem ownedAt_none_of_mirrored {s : State} {n : Nat} {m : Mirrored} (h : s.mirroredAt n = some m) : s.ownedAt n = none := by
  obtain ⟨p, hp, -, -, hm⟩ := mirroredAt_entry h
  simp [State.ownedAt, hp, owned?_of_mirrored? hm]

@[simp] theorem Point.mapOwned_id (p : Point) : p.mapOwned (fun o => o) = p := by
  obtain ⟨n, k, r⟩ := p; cases r <;> rfl

@[simp] theorem Point.mapMirrored_id (p : Point) : p.mapMirrored (fun m => m) = p := by
  obtain ⟨n, k, r⟩ := p; cases r <;> rfl

theorem Point.mapOwned_of_mirrored {p : Point} {m : Mirrored} (h : p.mirrored? = some m) (f : Owned → Owned) :
    p.mapOwned f = p := by
  rw [mirrored?_eq_some] at h; simp [Point.mapOwned, h]

theorem Point.mapMirrored_of_owned {p : Point} {o : Owned} (h : p.owned? = some o) (f : Mirrored → Mirrored) :
    p.mapMirrored f = p := by
  rw [owned?_eq_some] at h; simp [Point.mapMirrored, h]

theorem Point.mapOwned_mapOwned (f g : Owned → Owned) (p : Point) : (p.mapOwned f).mapOwned g = p.mapOwned (fun o => g (f o)) := by
  obtain ⟨n, k, r⟩ := p; cases r <;> rfl

theorem Point.mapMirrored_mapMirrored (f g : Mirrored → Mirrored) (p : Point) :
    (p.mapMirrored f).mapMirrored g = p.mapMirrored (fun o => g (f o)) := by
  obtain ⟨n, k, r⟩ := p; cases r <;> rfl

theorem Point.mapOwned_congr {f g : Owned → Owned} {p : Point} (h : ∀ o, p.owned? = some o → f o = g o) :
    p.mapOwned f = p.mapOwned g := by
  obtain ⟨n, k, r⟩ := p
  cases r with
  | owned o => simp [Point.mapOwned, h o rfl]
  | mirrored m => rfl

theorem Point.mapMirrored_congr {f g : Mirrored → Mirrored} {p : Point} (h : ∀ m, p.mirrored? = some m → f m = g m) :
    p.mapMirrored f = p.mapMirrored g := by
  obtain ⟨n, k, r⟩ := p
  cases r with
  | owned o => rfl
  | mirrored m => simp [Point.mapMirrored, h m rfl]

/-! ## Changes of entries as maps over the table -/

/-- The table with the OWNED fields of each entry changed. -/
def mapOwnedBy (g : Point → Owned → Owned) (l : List Point) : List Point := l.map fun p => p.mapOwned (g p)

/-- The table with the MIRRORED fields of each entry changed. -/
def mapMirroredBy (g : Point → Mirrored → Mirrored) (l : List Point) : List Point := l.map fun p => p.mapMirrored (g p)

/-- A change of the OWNED fields of one number, as a change of each entry. -/
def atNumber {α : Type} (n : Nat) (f : α → α) (p : Point) : α → α := if p.number = n then f else fun a => a

@[simp] theorem mapOwnedBy_id (l : List Point) : mapOwnedBy (fun _ o => o) l = l := by simp [mapOwnedBy]

theorem updateOwned_points (n : Nat) (f : Owned → Owned) (s : State) :
    (s.updateOwned n f).points = mapOwnedBy (atNumber n f) s.points :=
  List.map_congr_left fun p _ => by
    by_cases e : p.number = n
    · simp [atNumber, e]
    · simp [atNumber, e]

theorem updateMirrored_points (n : Nat) (f : Mirrored → Mirrored) (s : State) :
    (s.updateMirrored n f).points = mapMirroredBy (atNumber n f) s.points :=
  List.map_congr_left fun p _ => by
    by_cases e : p.number = n
    · simp [atNumber, e]
    · simp [atNumber, e]

theorem mapOwnedBy_mapOwnedBy (g h : Point → Owned → Owned) (l : List Point) :
    mapOwnedBy h (mapOwnedBy g l) = mapOwnedBy (fun p o => h (p.mapOwned (g p)) (g p o)) l := by
  simp [mapOwnedBy, Function.comp_def, Point.mapOwned_mapOwned]

theorem numbers_mapOwnedBy (g : Point → Owned → Owned) (l : List Point) :
    (mapOwnedBy g l).map Point.number = l.map Point.number := by
  simp [mapOwnedBy, Function.comp_def]

theorem numbers_mapMirroredBy (g : Point → Mirrored → Mirrored) (l : List Point) :
    (mapMirroredBy g l).map Point.number = l.map Point.number := by
  simp [mapMirroredBy, Function.comp_def]

theorem findPoint_mapOwnedBy (g : Point → Owned → Owned) (n : Nat) (l : List Point) :
    findPoint n (mapOwnedBy g l) = (findPoint n l).map fun p => p.mapOwned (g p) :=
  findPoint_map _ (fun p => p.mapOwned_number _) n l

theorem findPoint_mapMirroredBy (g : Point → Mirrored → Mirrored) (n : Nat) (l : List Point) :
    findPoint n (mapMirroredBy g l) = (findPoint n l).map fun p => p.mapMirrored (g p) :=
  findPoint_map _ (fun p => p.mapMirrored_number _) n l

/-! ## What depends on one half of the table alone -/

/-- What the table shows of its OWNED half: numbers, kinds and OWNED fields. -/
def ownedHalf (l : List Point) : List (Nat × Kind × Option Owned) := l.map fun p => (p.number, p.kind, p.owned?)

/-- What the table shows of its MIRRORED half: numbers, kinds and MIRRORED fields. -/
def mirroredHalf (l : List Point) : List (Nat × Kind × Option Mirrored) := l.map fun p => (p.number, p.kind, p.mirrored?)

@[simp] theorem mirroredHalf_mapOwnedBy (g : Point → Owned → Owned) (l : List Point) :
    mirroredHalf (mapOwnedBy g l) = mirroredHalf l := by
  simp [mirroredHalf, mapOwnedBy, Function.comp_def]

@[simp] theorem ownedHalf_mapMirroredBy (g : Point → Mirrored → Mirrored) (l : List Point) :
    ownedHalf (mapMirroredBy g l) = ownedHalf l := by
  simp [ownedHalf, mapMirroredBy, Function.comp_def]

theorem numbers_of_ownedHalf {l k : List Point} (h : ownedHalf k = ownedHalf l) : k.map Point.number = l.map Point.number := by
  simpa [ownedHalf, Function.comp_def] using congrArg (List.map Prod.fst) h

theorem numbers_of_mirroredHalf {l k : List Point} (h : mirroredHalf k = mirroredHalf l) :
    k.map Point.number = l.map Point.number := by
  simpa [mirroredHalf, Function.comp_def] using congrArg (List.map Prod.fst) h

theorem eq_nil_of_ownedHalf {l k : List Point} (h : ownedHalf k = ownedHalf l) (hl : l = []) : k = [] := by
  subst hl; simpa [ownedHalf] using h

/-- The OWNED half decides what a number finds of it. -/
theorem ownedAt_congr {s t : State} (h : ownedHalf t.points = ownedHalf s.points) (n : Nat) : t.ownedAt n = s.ownedAt n := by
  have read : ∀ l : List Point, (findPoint n l).bind Point.owned?
      = ((ownedHalf l).find? fun x => x.1 == n).bind fun x => x.2.2 := by
    intro l
    simp only [ownedHalf, List.find?_map, findPoint, Function.comp_def]
    cases l.find? fun p => p.number == n <;> rfl
  simp only [State.ownedAt, read, h]

/-- The MIRRORED half decides what a number finds of it. -/
theorem mirroredAt_congr {s t : State} (h : mirroredHalf t.points = mirroredHalf s.points) (n : Nat) :
    t.mirroredAt n = s.mirroredAt n := by
  have read : ∀ l : List Point, (findPoint n l).bind Point.mirrored?
      = ((mirroredHalf l).find? fun x => x.1 == n).bind fun x => x.2.2 := by
    intro l
    simp only [mirroredHalf, List.find?_map, findPoint, Function.comp_def]
    cases l.find? fun p => p.number == n <;> rfl
  simp only [State.mirroredAt, read, h]

/-- Each OWNED entry of one table stands in the other with the same number and kind. -/
theorem mem_of_ownedHalf {l k : List Point} (h : ownedHalf k = ownedHalf l) {p : Point} (hp : p ∈ k) :
    ∃ q ∈ l, q.number = p.number ∧ q.kind = p.kind ∧ q.owned? = p.owned? := by
  have : (p.number, p.kind, p.owned?) ∈ ownedHalf l := h ▸ List.mem_map_of_mem (f := fun p : Point => (p.number, p.kind, p.owned?)) hp
  obtain ⟨q, hq, e⟩ := List.mem_map.mp this
  obtain ⟨e1, e2, e3⟩ : q.number = p.number ∧ q.kind = p.kind ∧ q.owned? = p.owned? := by simpa using e
  exact ⟨q, hq, e1, e2, e3⟩

/-- Each MIRRORED entry of one table stands in the other with the same number and kind. -/
theorem mem_of_mirroredHalf {l k : List Point} (h : mirroredHalf k = mirroredHalf l) {p : Point} (hp : p ∈ k) :
    ∃ q ∈ l, q.number = p.number ∧ q.kind = p.kind ∧ q.mirrored? = p.mirrored? := by
  have : (p.number, p.kind, p.mirrored?) ∈ mirroredHalf l :=
    h ▸ List.mem_map_of_mem (f := fun p : Point => (p.number, p.kind, p.mirrored?)) hp
  obtain ⟨q, hq, e⟩ := List.mem_map.mp this
  obtain ⟨e1, e2, e3⟩ : q.number = p.number ∧ q.kind = p.kind ∧ q.mirrored? = p.mirrored? := by simpa using e
  exact ⟨q, hq, e1, e2, e3⟩

/-- What a function of the MIRRORED fields makes of a table is a function of its MIRRORED half. -/
theorem any_of_mirroredHalf (f : Nat → Kind → Option Mirrored → Bool) {l k : List Point} (h : mirroredHalf k = mirroredHalf l) :
    (k.any fun p => f p.number p.kind p.mirrored?) = l.any fun p => f p.number p.kind p.mirrored? := by
  have read : ∀ l : List Point, (l.any fun p => f p.number p.kind p.mirrored?) = (mirroredHalf l).any fun x => f x.1 x.2.1 x.2.2 := by
    intro l; simp [mirroredHalf, List.any_map, Function.comp_def]
  rw [read, read, h]

theorem namesSource_congr (p : Station) {l k : List Point} (h : mirroredHalf k = mirroredHalf l) :
    namesSource p k = namesSource p l :=
  any_of_mirroredHalf (fun _ _ o => match o with
    | some m => m.source == some p
    | none => false) h

theorem holdsSource_congr {l k : List Point} (h : mirroredHalf k = mirroredHalf l) :
    k.any Point.holdsSource = l.any Point.holdsSource :=
  any_of_mirroredHalf (fun _ _ o => match o with
    | some m => m.state == .stale || m.overdue
    | none => false) h

/-! ## The OWNED entry of a number after each operation of the queue -/

theorem ownedAt_joinUrgent (n k : Nat) (s : State) :
    (s.joinUrgent n).ownedAt k = (s.ownedAt k).map fun o => if k = n then { o with sched := .urgent } else o :=
  ownedAt_updateOwned n k _ s

theorem ownedAt_joinRoutine (n k : Nat) (s : State) :
    (s.joinRoutine n).ownedAt k = (s.ownedAt k).map fun o => if k = n then { o with sched := .routine } else o :=
  ownedAt_updateOwned n k _ s

theorem ownedAt_promote (n k : Nat) (s : State) :
    (s.promote n).ownedAt k = (s.ownedAt k).map fun o => if k = n then { o with sched := .urgent } else o :=
  ownedAt_updateOwned n k _ s

theorem ownedAt_leaveQueue (n k : Nat) (sched : Sched) (s : State) :
    (s.leaveQueue n sched).ownedAt k =
      (s.ownedAt k).map fun o => if k = n then { o with sched := sched, inFlight := false, dirty := false } else o :=
  ownedAt_updateOwned n k _ s

theorem ownedAt_setDirty (n k : Nat) (s : State) :
    (s.setDirty n).ownedAt k = (s.ownedAt k).map fun o => if k = n then { o with dirty := true } else o :=
  ownedAt_updateOwned n k _ s

theorem ownedAt_yieldPoint (n k : Nat) (s : State) :
    (s.yieldPoint n).ownedAt k = (s.ownedAt k).map fun o =>
      if k = n then { o with sched := .yielded, inFlight := false, dirty := false, refreshTimer := none } else o := by
  rw [State.yieldPoint, ownedAt_updateOwned, ownedAt_leaveQueue, Option.map_map]
  congr 1; funext o
  by_cases e : k = n <;> simp [e]

/-- After a change of OWNED fields, what a number finds. -/
theorem ownedAt_mapOwnedBy {s t : State} {g : Point → Owned → Owned} (h : t.points = mapOwnedBy g s.points) (n : Nat) :
    t.ownedAt n = (findPoint n s.points).bind fun p => p.owned?.map (g p) := by
  rw [State.ownedAt, h, findPoint_mapOwnedBy]
  cases findPoint n s.points <;> simp

theorem mirroredAt_mapOwnedBy {s t : State} {g : Point → Owned → Owned} (h : t.points = mapOwnedBy g s.points) (n : Nat) :
    t.mirroredAt n = s.mirroredAt n :=
  mirroredAt_congr (by simp [h]) n

theorem ownedAt_mapMirroredBy {s t : State} {g : Point → Mirrored → Mirrored} (h : t.points = mapMirroredBy g s.points) (n : Nat) :
    t.ownedAt n = s.ownedAt n :=
  ownedAt_congr (by simp [h]) n

end Sys2Proof.Machine
end

