-- ==== Sys2Proof/Proofs/OwnSteps.lean ====
section
/-!
SUPPORT. The small steps that leave the MIRRORED half of the station as it is (mirrored entries, solicit list, roster), and that every report of
a condition, evaluation, change event, claim, sample and counter is made of such steps.
-/

namespace Sys2Proof.Machine

open Sys2Proof.Safety

/-- The outputs as they stand while nothing drives them: no override, OFF (R140). -/
def OutputsOff (l : List Output) : Prop := ∀ o ∈ l, o.overrides = [] ∧ o.driven = false ∧ o.held = false

/-- One small step of the station's own half. -/
inductive OwnStep : State → State → Prop
  /-- The clock, the counters, the summary, the line and what no law of the tables speaks of. -/
  | other {s t : State}
      (only : t = { s with
        clock := t.clock, counters := t.counters, faults := t.faults, line := t.line, assembly := t.assembly
        replies := t.replies, failures := t.failures, quarantineLength := t.quarantineLength
        quarantineTimer := t.quarantineTimer, presenceTimer := t.presenceTimer, bootCount := t.bootCount }) : OwnStep s t
  /-- The pending marks and the recent-command table, which fill in RUNNING only. -/
  | books {s t : State}
      (only : t = { s with
        presencePending := t.presencePending, recent := t.recent, pendingRestart := t.pendingRestart })
      (running : s.station = .running
        ∨ t.presencePending = false ∧ t.recent = s.recent ∧ t.pendingRestart = s.pendingRestart) : OwnStep s t
  /-- RESET goes high, and a load may begin. -/
  | released {s : State} (low : s.resetHigh = false) :
      OwnStep s { s with resetHigh := true, loading := s.loading || (s.station == .starting && s.supplyAbove) }
  /-- The line mode changes while no frame of this station that it forbids is on the line. -/
  | mode {s : State} (m : LineMode) (running : s.station = .running) (quiet : s.inFlight = none ∨ s.mode = .silenced) :
      OwnStep s { s with mode := m }
  /-- The outputs keep pins and bindings, and outside RUNNING they stay off. -/
  | outputs {s t : State} (only : t = { s with outputs := t.outputs })
      (fixed : t.outputs.map fixedOutput = s.outputs.map fixedOutput)
      (off : s.station = .running ∨ (OutputsOff s.outputs → OutputsOff t.outputs)) : OwnStep s t
  /-- The pins keep mode and settings. -/
  | pins {s t : State} (only : t = { s with pins := t.pins }) (fixed : t.pins.map fixedPin = s.pins.map fixedPin) : OwnStep s t
  /-- OWNED entries take values, counts and stopped refresh timers. -/
  | touched {s t : State} (g : Point → Owned → Owned)
      (only : t = { s with points := mapOwnedBy g s.points })
      (fields : ∀ p o, g p o =
        { o with current := (g p o).current, count := (g p o).count, refreshTimer := (g p o).refreshTimer })
      (timer : ∀ p o, (g p o).refreshTimer = o.refreshTimer ∨ (g p o).refreshTimer = none)
      (value : (s.points.map Point.number).Nodup → ∀ p ∈ s.points, ∀ o, InKind p.kind o.current →
        InKind p.kind (g p o).current) : OwnStep s t
  | joinUrgent {s : State} (n : Nat) (o : Owned) (running : s.station = .running) (entry : s.ownedAt n = some o)
      (quiet : o.sched = .quiet) : OwnStep s (s.joinUrgent n)
  | joinRoutine {s : State} (n : Nat) (o : Owned) (running : s.station = .running) (entry : s.ownedAt n = some o)
      (quiet : o.sched = .quiet) : OwnStep s (s.joinRoutine n)
  | promote {s : State} (n : Nat) (o : Owned) (running : s.station = .running) (entry : s.ownedAt n = some o)
      (routine : o.sched = .routine) : OwnStep s (s.promote n)
  | setDirty {s : State} (n : Nat) (o : Owned) (entry : s.ownedAt n = some o) (urgent : o.sched = .urgent)
      (flying : o.inFlight = true) : OwnStep s (s.setDirty n)
  | yielded {s : State} (n : Nat) : OwnStep s (s.yieldPoint n)

/-- Small steps one after another. -/
abbrev OwnSteps : State → State → Prop := Relation.ReflTransGen OwnStep

/-- A property that each turn of a chain keeps is kept by the chain. -/
theorem chain_keeps {R : State → State → Prop} {P : State → Prop} (turn : ∀ {s t}, R s t → P s → P t) {s t : State}
    (h : Relation.ReflTransGen R s t) (hs : P s) : P t := by
  induction h with
  | refl => exact hs
  | tail _ last ih => exact turn last ih

theorem OwnStep.one {s t : State} (h : OwnStep s t) : OwnSteps s t := .single h

/-- A fold of chains is a chain. -/
theorem foldl_chain {α : Type} {R : State → State → Prop} (f : State → α → State)
    (turn : ∀ s a, Relation.ReflTransGen R s (f s a)) (l : List α) (s : State) : Relation.ReflTransGen R s (l.foldl f s) :=
  foldl_rel (Relation.ReflTransGen R) (fun _ => .refl) .trans f turn l s

/-! ## Clock, counters, pins, outputs -/

theorem advance_own (e : Time) (s : State) : OwnSteps s (s.advance e) := (OwnStep.other rfl).one
theorem advanceTo_own (due : Time) (s : State) : OwnSteps s (s.advanceTo due) := (OwnStep.other rfl).one
theorem bump_own (k : CounterId) (s : State) : OwnSteps s (s.bump k) := (OwnStep.other rfl).one
theorem endAssembly_own (s : State) : OwnSteps s s.endAssembly := (OwnStep.other rfl).one
theorem discardFrame_own (s : State) : OwnSteps s s.discardFrame := (OwnStep.other rfl).one
theorem queueReply_own (r : Reply) (s : State) : OwnSteps s (s.queueReply r) := (OwnStep.other rfl).one

theorem countMissed_own (stored : Option Count) (carried : Count) (s : State) : OwnSteps s (s.countMissed stored carried) := by
  unfold State.countMissed
  split
  · exact .refl
  · split
    · exact bump_own _ s
    · exact .refl

theorem updatePin_own (i : Fin 16) (f : Pin → Pin) (keeps : ∀ p, fixedPin (f p) = fixedPin p) (s : State) :
    OwnSteps s (s.updatePin i f) := by
  refine (OwnStep.pins rfl (List.ext_getElem? fun k => ?_)).one
  rw [State.updatePin_pins, List.getElem?_map, List.getElem?_map, List.getElem?_modify]
  cases s.pins[k]? with
  | none => rfl
  | some p => by_cases e : i.val = k <;> simp [e, keeps]

theorem fixedOutput_evaluate (points : List Point) (o : Output) : fixedOutput (o.evaluate points) = fixedOutput o := by
  rw [evaluate_only]; rfl

theorem evaluateWhere_own (pick : Output → Bool) (s : State) : OwnSteps s (s.evaluateWhere pick) := by
  refine (OwnStep.outputs (evaluateWhere_only pick s) ?_ ?_).one
  · unfold State.evaluateWhere
    split
    · rw [List.map_map]
      refine List.map_congr_left fun o _ => ?_
      by_cases picked : pick o = true <;> simp [picked, fixedOutput_evaluate]
    · rfl
  · by_cases running : s.station = .running
    · exact .inl running
    · exact .inr (by simp [State.evaluateWhere, running])

theorem evaluateSource_own (n : Nat) (s : State) : OwnSteps s (s.evaluateSource n) := evaluateWhere_own _ s
theorem evaluatePin_own (i : Fin 16) (s : State) : OwnSteps s (s.evaluatePin i) := evaluateWhere_own _ s

/-- An override list changes: in RUNNING at will, elsewhere so that an empty one stays empty. -/
theorem updateOverrides_own (i : Fin 16) (f : List Override → List Override) (s : State)
    (h : s.station = .running ∨ f [] = []) : OwnSteps s (s.updateOverrides i f) := by
  refine (OwnStep.outputs rfl ?_ (h.imp_right fun empty off o ho => ?_)).one
  · rw [State.updateOverrides_outputs, List.map_map]
    refine List.map_congr_left fun o _ => ?_
    by_cases e : o.pin = i <;> simp [e, fixedOutput]
  · obtain ⟨q, hq, rfl⟩ := List.mem_map.mp ho
    obtain ⟨hl, hd, hh⟩ := off q hq
    by_cases e : q.pin = i <;> simp [e, hl, hd, hh, empty]

/-! ## Values, change events, claims -/

theorem updateOwned_touched (n : Nat) (f : Owned → Owned) (s : State)
    (fields : ∀ o, f o = { o with current := (f o).current, count := (f o).count, refreshTimer := (f o).refreshTimer })
    (timer : ∀ o, (f o).refreshTimer = o.refreshTimer ∨ (f o).refreshTimer = none)
    (value : ∀ p, findPoint n s.points = some p → ∀ o, InKind p.kind o.current → InKind p.kind (f o).current) :
    OwnSteps s (s.updateOwned n f) := by
  refine (OwnStep.touched (atNumber n f) (by rw [← updateOwned_points]; rfl) ?_ ?_ ?_).one
  · intro p o
    by_cases e : p.number = n
    · simpa [atNumber, e] using fields o
    · simp [atNumber, e]
  · intro p o
    by_cases e : p.number = n
    · simpa [atNumber, e] using timer o
    · simp [atNumber, e]
  · intro distinct p hp o ho
    by_cases e : p.number = n
    · simpa [atNumber, e] using value p (e ▸ findPoint_of_mem distinct hp) o ho
    · simpa [atNumber, e] using ho

theorem stepWithEvent_own (n : Nat) (s : State) : OwnSteps s (s.stepWithEvent n) := by
  let g (p : Point) (o : Owned) : Owned :=
    if p.number = n then if isBinaryFromPin p.kind o then o else { o with count := o.count + 1 } else o
  have fields : ∀ p o, g p o = { o with count := (g p o).count } := fun p o => by
    dsimp only [g]; split
    · split <;> rfl
    · rfl
  refine (OwnStep.touched g ?_ (fun p o => by rw [fields]) (fun p o => .inl (by rw [fields]))
    (fun _ p _ o h => by rw [fields]; exact h)).one
  unfold State.stepWithEvent mapOwnedBy
  congr 1
  refine List.map_congr_left fun p _ => ?_
  by_cases e : p.number = n <;> simp [g, e]

theorem changeEvent_own (n : Nat) {s : State} (running : s.station = .running) : OwnSteps s (s.changeEvent n) := by
  unfold State.changeEvent
  split
  · exact .refl
  · next o entry =>
    split
    · next _ _ quiet => exact (OwnStep.joinUrgent n o running entry quiet).one.trans (stepWithEvent_own n _)
    · next routine _ => exact (OwnStep.promote n o running entry routine).one.trans (stepWithEvent_own n _)
    · next routine flying =>
      have promoted : (s.promote n).ownedAt n = some { o with sched := .urgent } := by simp [ownedAt_promote, entry]
      exact ((OwnStep.promote n o running entry routine).one.trans
        (OwnStep.setDirty n _ promoted rfl flying).one).trans (stepWithEvent_own n _)
    · next urgent flying _ => exact (OwnStep.setDirty n o entry urgent flying).one.trans (stepWithEvent_own n _)
    · exact .refl
    · exact .refl
    · exact .refl

theorem claim_own (n : Nat) {s : State} (running : s.station = .running) : OwnSteps s (s.claim n) := by
  unfold State.claim
  split
  · exact .refl
  · next o entry =>
    split
    · next _ quiet => exact (OwnStep.joinUrgent n o running entry quiet).one
    · next routine _ => exact (OwnStep.promote n o running entry routine).one
    · exact .refl
    · exact .refl
    · exact .refl

theorem bitAt_zero_inKind (k : Kind) (b : Bool) : InKind k (bitAt 0 b) := fun _ => by
  cases b
  · exact .inl rfl
  · exact .inr rfl

theorem statusValue_inKind (k : Kind) (f : FaultSummary) : InKind k (statusValue k f) := by
  cases k with
  | binary => exact bitAt_zero_inKind _ _
  | level => intro h; cases h

theorem writeStatus_own (s : State) : OwnSteps s s.writeStatus := by
  let g (p : Point) (o : Owned) : Owned := if o.source = .status then { o with current := statusValue p.kind s.faults } else o
  refine (OwnStep.touched g rfl (fun p o => ?_) (fun p o => .inl ?_) (fun _ p _ o h => ?_)).one
  · dsimp only [g]; split <;> rfl
  · dsimp only [g]; split <;> rfl
  · dsimp only [g]; split
    · exact statusValue_inKind _ _
    · exact h

/-! ## Reports of conditions -/

theorem evaluateWhere_station (pick : Output → Bool) (s : State) : (s.evaluateWhere pick).station = s.station := by
  rw [evaluateWhere_only]

theorem statusEvent_own (s : State) (n : Nat) : OwnSteps s (s.statusEvent n) := by
  unfold State.statusEvent
  refine (evaluateSource_own n s).trans ?_
  dsimp only
  split
  · next running => exact changeEvent_own n running
  · exact .refl

theorem statusChanged_own (s : State) : OwnSteps s s.statusChanged := by
  unfold State.statusChanged
  split
  · exact (writeStatus_own s).trans (foldl_chain _ statusEvent_own _ _)
  · exact .refl

theorem report_own (c : Condition) (b : Bool) (s : State) : OwnSteps s (s.report c b) := by
  unfold State.report
  split
  · exact .refl
  · exact (OwnStep.other (t := { s with faults := s.faults.put c b }) rfl).one.trans (statusChanged_own _)

theorem judgeSource_own (s : State) : OwnSteps s s.judgeSource := report_own _ _ s
theorem judgePeerLost_own (s : State) : OwnSteps s s.judgePeerLost := report_own _ _ s

/-! ## Overrides -/

/-- An override list changes and its output is evaluated again (R144). -/
theorem evaluateOverrides_own (i : Fin 16) (f : List Override → List Override) (s : State)
    (h : s.station = .running ∨ f [] = []) : OwnSteps s ((s.updateOverrides i f).evaluatePin i) :=
  (updateOverrides_own i f s h).trans (evaluatePin_own i _)

/-! ## Sampling -/

theorem valueWritten_own (n : Nat) (event : Bool) (s : State) : OwnSteps s (s.valueWritten n event) := by
  unfold State.valueWritten
  refine (evaluateSource_own n s).trans ?_
  dsimp only
  split
  · next h => exact changeEvent_own n (by simp_all)
  · exact .refl

theorem binaryTransition_own (n : Nat) (level : Bool) (s : State) : OwnSteps s (s.binaryTransition n level) :=
  (updateOwned_touched n (fun o => { o with current := bitAt 0 level, count := o.count + 1 }) s (fun _ => rfl)
    (fun _ => .inl rfl) fun _ _ _ _ => bitAt_zero_inKind _ _).trans (valueWritten_own n true _)

theorem pointReading_own (reading : Byte) (s : State) (n : Nat) : OwnSteps s (s.pointReading reading n) := by
  unfold State.pointReading
  split
  · exact .refl
  · next p hp =>
    split
    · exact .refl
    · next level =>
      refine (updateOwned_touched n (fun o => { o with current := reading }) s (fun _ => rfl) (fun _ => .inl rfl)
        fun q hq _ _ => ?_).trans (valueWritten_own n _ _)
      intro binary
      rw [hp] at hq; cases hq
      rw [level] at binary; cases binary
    · split
      · exact .refl
      · dsimp only
        split
        · exact .refl
        · exact binaryTransition_own n _ s

theorem pinReading_own (i : Fin 16) (reading : Byte) (s : State) : OwnSteps s (s.pinReading i reading) := by
  unfold State.pinReading
  split
  · exact (updatePin_own i _ (by simp [fixedPin]) s).trans (foldl_chain _ (pointReading_own reading) _ _)
  · exact .refl

/-! ## Failure accounting -/

theorem enterSilenced_own (length : Nat) {s : State} (running : s.station = .running) (idle : s.inFlight = none) :
    OwnSteps s (s.enterSilenced length) := by
  unfold State.enterSilenced
  exact ((OwnStep.mode .silenced running (.inl idle)).one.trans (OwnStep.other rfl).one).trans (report_own _ _ _)

theorem enterActive_own {s : State} (running : s.station = .running) (idle : s.inFlight = none) : OwnSteps s s.enterActive := by
  unfold State.enterActive
  exact ((OwnStep.mode .active running (.inl idle)).one.trans (OwnStep.other rfl).one).trans (report_own _ _ _)

theorem account_own (out : TxOutcome) {s : State} (idle : s.inFlight = none) : OwnSteps s (s.account out) := by
  unfold State.account
  split
  · next running =>
    split
    · exact (OwnStep.other rfl).one
    · exact .refl
    · split
      · exact (OwnStep.other rfl).one
      · exact enterSilenced_own _ running idle
    · exact enterActive_own running idle
    · exact (OwnStep.other rfl).one
    · exact enterSilenced_own _ running idle
    · exact .refl
  · exact .refl

theorem account_station (out : TxOutcome) (s : State) : (s.account out).station = s.station := by rw [account_only]

/-- A stuck-line episode, in HALTED or not (R86). -/
theorem stuckLine_own (s : State) : OwnSteps s s.stuckLine := by
  have stuck : OwnSteps s { s with line := .stuck, assembly := if s.assembly = .empty then .empty else .ignoring } :=
    (OwnStep.other rfl).one
  unfold State.stuckLine
  dsimp only
  split
  · exact stuck.trans (report_own _ _ _)
  · split
    · exact ((stuck.trans (bump_own _ _)).trans (bump_own _ _)).trans (report_own _ _ _)
    · exact (stuck.trans (bump_own _ _)).trans (report_own _ _ _)

/-! ## What no small step of the own half reaches -/

/-- The configuration fields of an OWNED entry (R7). -/
def fixedOwned (o : Owned) : Source × RefreshClass × Option Byte × Option Byte := (o.source, o.refreshClass, o.deadband, o.threshold)

/-- The entries after a small step are the old ones with OWNED fields changed, the configuration fields among them kept (R5, R7). -/
theorem OwnStep.points {s t : State} (h : OwnStep s t) :
    ∃ g : Point → Owned → Owned, t.points = mapOwnedBy g s.points ∧ ∀ p o, fixedOwned (g p o) = fixedOwned o := by
  have unchanged : t.points = s.points →
      ∃ g : Point → Owned → Owned, t.points = mapOwnedBy g s.points ∧ ∀ p o, fixedOwned (g p o) = fixedOwned o :=
    fun e => ⟨fun _ o => o, by simp [e], fun _ _ => rfl⟩
  have changed : ∀ (n : Nat) (f : Owned → Owned), (∀ o, fixedOwned (f o) = fixedOwned o) →
      t.points = (s.updateOwned n f).points →
      ∃ g : Point → Owned → Owned, t.points = mapOwnedBy g s.points ∧ ∀ p o, fixedOwned (g p o) = fixedOwned o :=
    fun n f keeps e => ⟨atNumber n f, by rw [e, updateOwned_points], fun p o => by
      by_cases at_n : p.number = n <;> simp [atNumber, at_n, keeps]⟩
  cases h with
  | other only => exact unchanged (by rw [only])
  | books only => exact unchanged (by rw [only])
  | released => exact unchanged rfl
  | mode => exact unchanged rfl
  | outputs only => exact unchanged (by rw [only])
  | pins only => exact unchanged (by rw [only])
  | touched g only fields => exact ⟨g, by rw [only], fun p o => by rw [fields]; rfl⟩
  | joinUrgent n => exact changed n (fun o => { o with sched := .urgent }) (fun _ => rfl) rfl
  | joinRoutine n => exact changed n (fun o => { o with sched := .routine }) (fun _ => rfl) rfl
  | promote n => exact changed n (fun o => { o with sched := .urgent }) (fun _ => rfl) rfl
  | setDirty n => exact changed n (fun o => { o with dirty := true }) (fun _ => rfl) rfl
  | yielded n =>
    refine changed n (fun o => { o with sched := .yielded, inFlight := false, dirty := false, refreshTimer := none })
      (fun _ => rfl) ?_
    rw [State.yieldPoint, updateOwned_points]
    simp only [State.leaveQueue, updateOwned_points, mapOwnedBy_mapOwnedBy]
    refine congrArg (fun g => mapOwnedBy g s.points) ?_
    funext p o
    by_cases at_n : p.number = n <;> simp [atNumber, at_n]

/-- `t` shows the MIRRORED half of `s`, with the same solicit list and roster, in the same station state. -/
structure SameMirror (s t : State) : Prop where
  station : t.station = s.station
  number : t.number = s.number
  inFlight : t.inFlight = s.inFlight
  half : mirroredHalf t.points = mirroredHalf s.points
  solicits : t.solicits = s.solicits
  roster : t.roster = s.roster

theorem SameMirror.refl (s : State) : SameMirror s s := ⟨rfl, rfl, rfl, rfl, rfl, rfl⟩

theorem SameMirror.trans {s t u : State} (h : SameMirror s t) (k : SameMirror t u) : SameMirror s u :=
  ⟨k.station.trans h.station, k.number.trans h.number, k.inFlight.trans h.inFlight, k.half.trans h.half,
    k.solicits.trans h.solicits, k.roster.trans h.roster⟩

theorem OwnStep.sameMirror {s t : State} (h : OwnStep s t) : SameMirror s t := by
  have half : mirroredHalf t.points = mirroredHalf s.points := by
    obtain ⟨g, e, -⟩ := h.points
    rw [e, mirroredHalf_mapOwnedBy]
  cases h with
  | other only => exact ⟨by rw [only], by rw [only], by rw [only], half, by rw [only], by rw [only]⟩
  | books only => exact ⟨by rw [only], by rw [only], by rw [only], half, by rw [only], by rw [only]⟩
  | outputs only => exact ⟨by rw [only], by rw [only], by rw [only], half, by rw [only], by rw [only]⟩
  | pins only => exact ⟨by rw [only], by rw [only], by rw [only], half, by rw [only], by rw [only]⟩
  | touched g only => exact ⟨by rw [only], by rw [only], by rw [only], half, by rw [only], by rw [only]⟩
  | released => exact ⟨rfl, rfl, rfl, half, rfl, rfl⟩
  | mode => exact ⟨rfl, rfl, rfl, half, rfl, rfl⟩
  | joinUrgent => exact ⟨rfl, rfl, rfl, half, rfl, rfl⟩
  | joinRoutine => exact ⟨rfl, rfl, rfl, half, rfl, rfl⟩
  | promote => exact ⟨rfl, rfl, rfl, half, rfl, rfl⟩
  | setDirty => exact ⟨rfl, rfl, rfl, half, rfl, rfl⟩
  | yielded => exact ⟨rfl, rfl, rfl, half, rfl, rfl⟩

theorem OwnSteps.sameMirror {s t : State} (h : OwnSteps s t) : SameMirror s t :=
  chain_keeps (fun step kept => kept.trans step.sameMirror) h (.refl s)

end Sys2Proof.Machine
end

