-- ==== Sys2Proof/Proofs/Moves.lean ====
section
/-!
SUPPORT. What a command can do, said once. A `Move` is one change that every law of the tables survives; an `Effect` is what the meaning of one
command comes to: moves, or moves around one of the events that a law has to follow as a whole (a load, a restart, the entries to RUNNING and
HALTED, the start and the end of a frame of this station, the loss of a peer).
-/

namespace Sys2Proof.Machine

open Sys2Proof.Safety

/-- A frame of p is taken here: p is another station's number, and p's roster entry is not LOST, for the frame has been heard (R127). -/
structure TakenFrom (p : Station) (s : State) : Prop where
  ok : stationOk p = true
  other : s.number ≠ some p
  dispatches : s.station.dispatches = true
  sounds : s.station.live = true → ∀ x ∈ s.roster, x.station = p → x.state ≠ .lost

/-- One move of the station. -/
inductive Move : State → State → Prop
  | own {s t : State} (step : OwnStep s t) : Move s t
  /-- Deadlines, content and marks of a roster entry; none becomes LOST. -/
  | tended {s : State} (p : Station) (f : Peer → Peer) (station : ∀ x, (f x).station = x.station)
      (lost : ∀ x, (f x).state = .lost → x.state = .lost) : Move s (s.updatePeer p f)
  | heard {s : State} (p : Station) (ok : stationOk p = true) (other : s.number ≠ some p) : Move s (s.heard p)
  | tracked {s : State} (p : Station) (ok : stationOk p = true) (other : s.number ≠ some p)
      (live : s.station.live = true) : Move s (s.track p).1
  | record {s : State} (p : Station) (r : Record) (sent : TakenFrom p s) : Move s (s.takeRecord p r)
  | sourceLost {s : State} (n : Nat) : Move s (s.sourceLost n)
  | sourceRestarted {s : State} (n : Nat)
      (learned : (s.points.map Point.number).Nodup → ∀ m, s.mirroredAt n = some m → m.source.isSome) :
      Move s (s.sourceRestarted n)
  | overdue {s : State} (n : Nat) (m : Mirrored) (entry : s.mirroredAt n = some m) (timed : m.overdueTimer.isSome) :
      Move s (s.updateMirrored n fun m => { m with overdue := true, overdueTimer := none })
  | solicitExpired {s : State} (x : Solicit) (running : s.station = .running) (listed : x ∈ s.solicits) :
      Move s (s.solicitExpired x)
  | backoffEnded {s : State} (n : Nat) (running : s.station = .running) :
      Move s (s.updateMirrored n fun m => { m with backoff := none }).fillSolicits
  /-- The states of solicit entries change, their points and attempts do not. -/
  | solicitMarks {s : State} (g : Solicit → Solicit) (point : ∀ x, (g x).point = x.point)
      (attempts : ∀ x, (g x).attempts = x.attempts) : Move s { s with solicits := s.solicits.map g }

/-- Moves one after another. -/
abbrev Moves : State → State → Prop := Relation.ReflTransGen Move

theorem Move.one {s t : State} (h : Move s t) : Moves s t := .single h

/-- A chain is a chain of every relation that holds of each of its turns. -/
theorem OwnSteps.moves {s t : State} (h : OwnSteps s t) : Moves s t :=
  Relation.ReflTransGen.mono (r := OwnStep) (p := Move) (fun _ _ => Move.own) s t h

theorem advance_moves (e : Time) (s : State) : Moves s (s.advance e) := OwnSteps.moves (advance_own e s)
theorem advanceTo_moves (due : Time) (s : State) : Moves s (s.advanceTo due) := OwnSteps.moves (advanceTo_own due s)
theorem bump_moves (k : CounterId) (s : State) : Moves s (s.bump k) := OwnSteps.moves (bump_own k s)
theorem report_moves (c : Condition) (b : Bool) (s : State) : Moves s (s.report c b) := OwnSteps.moves (report_own c b s)
theorem evaluatePin_moves (i : Fin 16) (s : State) : Moves s (s.evaluatePin i) := OwnSteps.moves (evaluatePin_own i s)
theorem updateOverrides_moves (i : Fin 16) (f : List Override → List Override) (s : State)
    (h : s.station = .running ∨ f [] = []) : Moves s (s.updateOverrides i f) := OwnSteps.moves (updateOverrides_own i f s h)
theorem queueReply_moves (r : Reply) (s : State) : Moves s (s.queueReply r) := OwnSteps.moves (queueReply_own r s)

/-- A fold whose turns keep what they need is a chain. -/
theorem foldl_moves {α : Type} (P : State → Prop) (f : State → α → State)
    (turn : ∀ s a, P s → Moves s (f s a) ∧ P (f s a)) (l : List α) :
    ∀ s, P s → Moves s (l.foldl f s) ∧ P (l.foldl f s) := by
  induction l with
  | nil => exact fun s h => ⟨.refl, h⟩
  | cons a l ih =>
    intro s h
    obtain ⟨first, kept⟩ := turn s a h
    obtain ⟨rest, last⟩ := ih _ kept
    exact ⟨first.trans rest, last⟩

theorem OnlyTables.station {s t : State} (h : OnlyTables s t) : t.station = s.station := by rw [h]
theorem OnlyTables.number {s t : State} (h : OnlyTables s t) : t.number = s.number := by rw [h]
theorem OnlyTables.inFlight {s t : State} (h : OnlyTables s t) : t.inFlight = s.inFlight := by rw [h]
theorem OnlyTables.clock {s t : State} (h : OnlyTables s t) : t.clock = s.clock := by rw [h]
theorem OnlyTables.header {s t : State} (h : OnlyTables s t) : t.header = s.header := by rw [h]
theorem OnlyStatus.roster {s t : State} (h : OnlyStatus s t) : t.roster = s.roster := by rw [h]
theorem OnlyStatus.solicits {s t : State} (h : OnlyStatus s t) : t.solicits = s.solicits := by rw [h]
theorem OnlyStatus.counters {s t : State} (h : OnlyStatus s t) : t.counters = s.counters := by rw [h]

theorem dispatches_of_live {st : StationState} (h : st.live = true) : st.dispatches = true := by cases st <;> simp_all [StationState.live, StationState.dispatches]

theorem live_of_running {st : StationState} (h : st = .running) : st.live = true := by rw [h]; rfl

/-! ## The roster: no entry becomes LOST but at a LOST deadline -/

/-- An entry that is LOST in `t` stands for a station that had a LOST entry in `s`. -/
def NoneNewlyLost (s t : State) : Prop :=
  ∀ x ∈ t.roster, x.state = .lost → ∃ y ∈ s.roster, y.station = x.station ∧ y.state = .lost

theorem NoneNewlyLost.refl (s : State) : NoneNewlyLost s s := fun x hx hl => ⟨x, hx, rfl, hl⟩

theorem NoneNewlyLost.of_eq {s t : State} (h : t.roster = s.roster) : NoneNewlyLost s t := fun x hx hl => ⟨x, h ▸ hx, rfl, hl⟩

theorem NoneNewlyLost.trans {s t u : State} (h : NoneNewlyLost s t) (k : NoneNewlyLost t u) : NoneNewlyLost s u := by
  intro x hx hl
  obtain ⟨y, hy, e, hyl⟩ := k x hx hl
  obtain ⟨z, hz, e', hzl⟩ := h y hy hyl
  exact ⟨z, hz, e'.trans e, hzl⟩

theorem updatePeer_noneNewlyLost (p : Station) (f : Peer → Peer) (s : State) (station : ∀ x, (f x).station = x.station)
    (lost : ∀ x, (f x).state = .lost → x.state = .lost) : NoneNewlyLost s (s.updatePeer p f) := by
  intro x hx hl
  obtain ⟨y, hy, rfl⟩ := List.mem_map.mp hx
  by_cases e : y.station = p
  · rw [if_pos e] at hl ⊢
    exact ⟨y, hy, (station y).symm, lost y hl⟩
  · rw [if_neg e] at hl ⊢
    exact ⟨y, hy, rfl, hl⟩

theorem newPeer_present (p : Station) (now : Time) (b : Bool) : (newPeer p now b).state = .present := rfl
theorem newPeer_station (p : Station) (now : Time) (b : Bool) : (newPeer p now b).station = p := rfl

/-- A must-track creation appends an entry of the station, replaces one, or leaves the roster (R128). -/
theorem mustTrack_roster (p : Station) (s : State) :
    (s.roster.length < Config.maxPeers
      ∧ s.mustTrack p = ({ s with roster := s.roster ++ [newPeer p s.clock (namesSource p s.points)] }, true))
    ∨ (Config.maxPeers ≤ s.roster.length ∧ evictionChoice s.roster = none ∧ s.mustTrack p = (s, false))
    ∨ ∃ v, Config.maxPeers ≤ s.roster.length ∧ evictionChoice s.roster = some v
      ∧ s.mustTrack p = (State.judgePeerLost { s with
          roster := s.roster.map fun x => if x.station = v.station then newPeer p s.clock (namesSource p s.points) else x }, true) := by
  unfold State.mustTrack
  dsimp only
  by_cases room : s.roster.length < Config.maxPeers
  · exact .inl ⟨room, by rw [if_pos room]⟩
  · rw [if_neg room]
    cases chosen : evictionChoice s.roster with
    | none => exact .inr (.inl ⟨Nat.le_of_not_lt room, rfl, rfl⟩)
    | some v => exact .inr (.inr ⟨v, Nat.le_of_not_lt room, rfl, rfl⟩)

/-- The roster after a must-track creation is the old one, the old one with an entry at its end, or with entries replaced. -/
theorem mustTrack_mem {p : Station} {s : State} {x : Peer} (hx : x ∈ (s.mustTrack p).1.roster) :
    x ∈ s.roster ∨ x = newPeer p s.clock (namesSource p s.points) := by
  rcases mustTrack_roster p s with ⟨-, e⟩ | ⟨-, -, e⟩ | ⟨v, -, -, e⟩ <;> rw [e] at hx
  · simpa using hx
  · exact .inl hx
  · rw [(judgePeerLost_status _).roster] at hx
    obtain ⟨y, hy, rfl⟩ := List.mem_map.mp hx
    by_cases same : y.station = v.station
    · exact .inr (if_pos same)
    · exact .inl (by rwa [if_neg same])

theorem mustTrack_noneNewlyLost (p : Station) (s : State) : NoneNewlyLost s (s.mustTrack p).1 := by
  intro x hx hl
  rcases mustTrack_mem hx with h | rfl
  · exact ⟨x, h, rfl, hl⟩
  · cases hl

/-- A tracking leaves the roster, makes a must-track creation, or counts the overflow (R128). -/
theorem track_cases (p : Station) (s : State) :
    (∃ x, s.peerAt p = some x ∧ s.track p = (s, true))
    ∨ (s.peerAt p = none ∧ (s.mustTrack p).2 = true ∧ s.track p = ((s.mustTrack p).1, true))
    ∨ (s.peerAt p = none ∧ s.mustTrack p = (s, false)
      ∧ s.track p = ((s.bump .rosterOverflows).report .overflow true, false)) := by
  unfold State.track
  cases held : s.peerAt p with
  | some x => exact .inl ⟨x, rfl, rfl⟩
  | none =>
    rcases mustTrack_roster p s with ⟨-, e⟩ | ⟨-, -, e⟩ | ⟨v, -, -, e⟩
    · exact .inr (.inl ⟨rfl, by rw [e], by rw [e]⟩)
    · exact .inr (.inr ⟨rfl, e, by rw [e]⟩)
    · exact .inr (.inl ⟨rfl, by rw [e], by rw [e]⟩)

theorem track_noneNewlyLost (p : Station) (s : State) : NoneNewlyLost s (s.track p).1 := by
  rcases track_cases p s with ⟨x, -, e⟩ | ⟨-, -, e⟩ | ⟨-, -, e⟩ <;> rw [e]
  · exact .refl s
  · exact mustTrack_noneNewlyLost p s
  · exact .of_eq (by rw [(report_status _ _ _).roster]; rfl)

theorem keepSourcesMark_noneNewlyLost (p : Station) (s : State) : NoneNewlyLost s (s.keepSourcesMark p) :=
  (updatePeer_noneNewlyLost p (fun x => { x with sourcesPoints := namesSource p s.points }) s (fun _ => rfl)
    fun _ h => h).trans (.of_eq (judgePeerLost_status _).roster)

theorem learn_noneNewlyLost (n : Nat) (p : Station) (s : State) : NoneNewlyLost s (s.learn n p) :=
  NoneNewlyLost.trans (t := (s.updateMirrored n fun m => { m with source := some p }).track p |>.1)
    (track_noneNewlyLost p (s.updateMirrored n fun m => { m with source := some p }))
    (keepSourcesMark_noneNewlyLost p _)

/-- The acceptance of a record does not reach the roster. -/
theorem acceptRecord_roster (n : Nat) (k : Kind) (m : Mirrored) (r : Record) (s : State) :
    (s.acceptRecord n k m r).roster = s.roster := by
  have missed : (s.countMissed m.count r.count).roster = s.roster := (OwnSteps.sameMirror (countMissed_own m.count r.count s)).roster
  have satisfied : ∀ t : State, (t.satisfy n).roster = t.roster := fun t => by
    unfold State.satisfy State.fillSolicits; split
    · split <;> rfl
    · rfl
  rw [State.acceptRecord, (evaluateSource_status _ _).roster, satisfied, (judgeSource_status _).roster]
  exact missed

/-- What a record of the right kind comes to (R97, R98, R100). -/
theorem mirroredRecord_cases (p : Station) (n : Nat) (k : Kind) (m : Mirrored) (r : Record) (s : State) :
    (m.source = none ∧ s.mirroredRecord p n k m r = (s.learn n p).acceptRecord n k m r)
    ∨ (m.source = some p ∧ s.mirroredRecord p n k m r = s.acceptRecord n k m r)
    ∨ ∃ old, m.source = some old ∧ old ≠ p
      ∧ ((switchRuling ((s.peerAt old).map Peer.state) (decide (p < old)) = .switchCounted
          ∧ s.mirroredRecord p n k m r = ((s.bump .conflicts).switchSource n p old).acceptRecord n k m r)
        ∨ (switchRuling ((s.peerAt old).map Peer.state) (decide (p < old)) = .switchUncounted
          ∧ s.mirroredRecord p n k m r = (s.switchSource n p old).acceptRecord n k m r)
        ∨ (switchRuling ((s.peerAt old).map Peer.state) (decide (p < old)) = .refused
          ∧ s.mirroredRecord p n k m r = s.bump .conflicts)) := by
  unfold State.mirroredRecord
  cases source : m.source with
  | none => exact .inl ⟨rfl, rfl⟩
  | some old =>
    by_cases own : old = p
    · exact .inr (.inl ⟨by rw [own], by simp [own]⟩)
    · refine .inr (.inr ⟨old, rfl, own, ?_⟩)
      simp only [own, if_false]
      cases ruling : switchRuling ((s.peerAt old).map Peer.state) (decide (p < old))
      · exact .inl ⟨rfl, rfl⟩
      · exact .inr (.inl ⟨rfl, rfl⟩)
      · exact .inr (.inr ⟨rfl, rfl⟩)

/-- What a record comes to (R90, R91, R95, R96). -/
theorem takeRecord_cases (p : Station) (s : State) (r : Record) :
    s.takeRecord p r = s
    ∨ (∃ o, s.ownedAt r.point.toNat = some o ∧ o.sched ≠ .yielded
      ∧ s.takeRecord p r = s.ownershipConflict p r.point.toNat)
    ∨ (∃ q m, findPoint r.point.toNat s.points = some q ∧ q.mirrored? = some m ∧ r.kind = q.kind
      ∧ s.takeRecord p r = s.mirroredRecord p r.point.toNat q.kind m r)
    ∨ s.takeRecord p r = s.bump .conflicts := by
  unfold State.takeRecord
  dsimp only
  cases found : findPoint r.point.toNat s.points with
  | none => exact .inl rfl
  | some q =>
    cases role : q.role with
    | owned o =>
      have entry : s.ownedAt r.point.toNat = some o := by simp [State.ownedAt, found, Point.owned?, role]
      by_cases yielded : o.sched = .yielded
      · exact .inl (by simp [role, yielded])
      · exact .inr (.inl ⟨o, entry, yielded, by simp [role, yielded]⟩)
    | mirrored m =>
      by_cases kind : r.kind = q.kind
      · exact .inr (.inr (.inl ⟨q, m, rfl, mirrored?_eq_some.mpr role, kind, by simp [role, kind]⟩))
      · exact .inr (.inr (.inr (by simp [role, kind])))

theorem ownershipConflict_roster (p : Station) (n : Nat) (s : State) : (s.ownershipConflict p n).roster = s.roster := by
  have reported : ((s.bump .conflicts).report .conflict true).roster = s.roster := (report_status _ _ _).roster
  unfold State.ownershipConflict
  dsimp only
  split
  · exact reported
  · split
    · exact reported
    · split
      · rw [(claim_queue n _).status.roster]; exact reported
      · exact reported

theorem takeRecord_noneNewlyLost (p : Station) (s : State) (r : Record) : NoneNewlyLost s (s.takeRecord p r) := by
  have accepted : ∀ (t : State) (n : Nat) (k : Kind) (m : Mirrored), NoneNewlyLost s t → NoneNewlyLost s (t.acceptRecord n k m r) :=
    fun t n k m h => h.trans (.of_eq (acceptRecord_roster n k m r t))
  rcases takeRecord_cases p s r with e | ⟨o, -, -, e⟩ | ⟨q, m, -, -, -, e⟩ | e <;> rw [e]
  · exact .refl s
  · exact .of_eq (ownershipConflict_roster ..)
  · rcases mirroredRecord_cases p r.point.toNat q.kind m r s with
      ⟨-, e⟩ | ⟨-, e⟩ | ⟨old, -, -, ⟨-, e⟩ | ⟨-, e⟩ | ⟨-, e⟩⟩ <;> rw [e]
    · exact accepted _ _ _ _ (learn_noneNewlyLost _ _ s)
    · exact accepted _ _ _ _ (.refl s)
    · exact accepted _ _ _ _ ((learn_noneNewlyLost _ _ (s.bump .conflicts)).trans (keepSourcesMark_noneNewlyLost _ _))
    · exact accepted _ _ _ _ ((learn_noneNewlyLost _ _ s).trans (keepSourcesMark_noneNewlyLost _ _))
    · exact .of_eq rfl
  · exact .of_eq rfl

/-- Every record of a frame finds the sender as the first one did. -/
theorem takeRecord_takenFrom {p : Station} {s : State} (h : TakenFrom p s) (r : Record) : TakenFrom p (s.takeRecord p r) where
  ok := h.ok
  other := by rw [(takeRecord_tables p s r).number]; exact h.other
  dispatches := by rw [(takeRecord_tables p s r).station]; exact h.dispatches
  sounds live x hx e lost := by
    rw [(takeRecord_tables p s r).station] at live
    obtain ⟨y, hy, same, lost⟩ := takeRecord_noneNewlyLost p s r x hx lost
    exact h.sounds live y hy (same.trans e) lost

/-- After a frame heard the sender's entry, if there is one, is PRESENT (R127). -/
theorem heard_sounds (p : Station) (s : State) (live : s.station.live = true) :
    ∀ x ∈ (s.heard p).roster, x.station = p → x.state ≠ .lost := by
  have absent : s.peerAt p = none → ∀ x ∈ s.roster, x.station ≠ p := fun h => by simpa [State.peerAt] using h
  intro x hx same
  unfold State.heard at hx
  rw [if_pos live] at hx
  split at hx
  · rw [(judgePeerLost_status _).roster] at hx
    obtain ⟨y, -, rfl⟩ := List.mem_map.mp hx
    by_cases e : y.station = p
    · rw [if_pos e]; exact fun h => by cases h
    · rw [if_neg e] at same; exact absurd same e
  · next none =>
    have fresh : x ∈ s.roster ∨ x = newPeer p s.clock (namesSource p s.points) := by
      split at hx
      · simpa using hx
      · split at hx
        · exact mustTrack_mem hx
        · exact .inl hx
    rcases fresh with h | rfl
    · exact absurd same (absent none x h)
    · exact fun h => by cases h

theorem heard_takenFrom {p : Station} {s : State} (ok : stationOk p = true) (other : s.number ≠ some p)
    (dispatches : s.station.dispatches = true) : TakenFrom p (s.heard p) where
  ok := ok
  other := by rw [(heard_tables p s).number]; exact other
  dispatches := by rw [(heard_tables p s).station]; exact dispatches
  sounds live := heard_sounds p s (by rwa [(heard_tables p s).station] at live)

/-! ## The blocks that take a frame -/

theorem keepHoldsMark_moves (p : Station) (s : State) : Moves s (s.keepHoldsMark p) :=
  (Move.tended p (fun x => { x with holdsOverrides := holdsOverride p s.outputs }) (fun _ => rfl) fun _ h => h).one

theorem removeOverride_moves (i : Fin 16) (p : Station) (s : State) : Moves s (s.removeOverride i p) :=
  ((updateOverrides_moves i _ s (.inr rfl)).trans (evaluatePin_moves i _)).trans (keepHoldsMark_moves p _)

theorem purge_moves (p : Station) (s : State) : Moves s (s.purge p) :=
  (foldl_chain _ (fun t i => (updateOverrides_moves i (dropOrigin p) t (.inr rfl)).trans (evaluatePin_moves i _)) _ s).trans
    (keepHoldsMark_moves p _)

theorem applyForce_moves (p : Station) (i : Fin 16) (v : Bool) (lease : Byte) {s : State} (running : s.station = .running) :
    Moves s (s.applyForce p i v lease).1 := by
  unfold State.applyForce
  split
  · exact .refl
  · dsimp only
    have pushed := ((updateOverrides_moves i
      (fun l => { origin := p, value := v, lease := leaseExpiry s.clock lease } :: dropOrigin p l) s (.inl running)).trans
      (evaluatePin_moves i _)).trans (keepHoldsMark_moves p _)
    split
    · exact .refl
    · split
      · exact pushed
      · split
        · exact .refl
        · exact pushed

theorem applyRelease_moves (p : Station) (i : Fin 16) (s : State) : Moves s (s.applyRelease p i).1 := by
  unfold State.applyRelease
  split
  · exact .refl
  · split
    · exact removeOverride_moves i p s
    · exact .refl

theorem answer_moves (p : Station) (tag : Byte) (k : CommandKind) (code : ReplyCode) {s : State} (running : s.station = .running) :
    Moves s (s.answer p tag k code) :=
  (queueReply_moves (plainReply p tag code) s).trans
    (Move.own (.books (t := s.answer p tag k code) rfl (.inl running))).one

theorem performCommand_moves (p : Station) (tag : Byte) (c : Command) {s : State} (running : s.station = .running)
    (ok : stationOk p = true) (other : s.number ≠ some p) : Moves s (s.performCommand p tag c) := by
  unfold State.performCommand
  split
  · unfold State.force
    have tracked : Moves s (s.track p).1 := (Move.tracked p ok other (live_of_running running)).one
    have station : (s.track p).1.station = .running := (track_tables p s).station.trans running
    split
    · next e => rw [e] at tracked station; exact tracked.trans (answer_moves _ _ _ _ station)
    · next e =>
      rw [e] at tracked station
      exact (tracked.trans (applyForce_moves _ _ _ _ station)).trans
        (answer_moves _ _ _ _ ((applyForce_tables ..).station.trans station))
  · exact (applyRelease_moves ..).trans (answer_moves _ _ _ _ ((applyRelease_tables ..).station.trans running))
  · unfold State.requestRestart
    split
    · exact .tail (queueReply_moves { plainReply p tag .accepted with restartMark := true } s)
        (.own (.books rfl (.inl running)))
    · exact answer_moves _ _ _ _ running
  · exact (Move.own (.other (t := { s with counters := Counters.zero }) rfl)).one.trans (answer_moves _ _ _ _ running)

theorem takeRequest_moves (cls : RequestClass) (p : Station) (body : List Byte) {s : State} (ok : stationOk p = true)
    (other : s.number ≠ some p) : Moves s (s.takeRequest cls p body) := by
  unfold State.takeRequest
  split
  · next taken =>
    split
    · have running : s.station = .running := by
        rw [Bool.and_eq_true] at taken
        obtain ⟨taken, -⟩ := taken
        cases state : s.station <;> rw [state] at taken <;> first | rfl | cases taken
      unfold State.takeCommand
      split
      · exact queueReply_moves _ s
      · split
        · exact queueReply_moves _ s
        · exact performCommand_moves p _ _ running ok other
    · unfold State.takeQuery
      split <;> exact queueReply_moves _ s
  · exact bump_moves _ s

/-! ## The points of a source that is lost or restarted -/

/-- A point of a source that is lost: nothing, or STALE and what follows from it (R102). -/
theorem sourceLost_cases (n : Nat) (s : State) :
    s.sourceLost n = s ∧ (∀ m, s.mirroredAt n = some m → m.state ≠ .fresh)
    ∨ ∃ m, s.mirroredAt n = some m ∧ m.state = .fresh ∧ OwnSteps (s.updateMirrored n Mirrored.goStale) (s.sourceLost n) := by
  unfold State.sourceLost
  cases entry : s.mirroredAt n with
  | none => exact .inl ⟨rfl, fun _ h => by cases h⟩
  | some m =>
    cases state : m.state with
    | fresh =>
      refine .inr ⟨m, rfl, state, ?_⟩
      simp only [state]
      exact (judgeSource_own _).trans (evaluateSource_own n _)
    | stale => exact .inl ⟨by simp only [state], fun _ h => by cases h; simp [state]⟩
    | unknown => exact .inl ⟨by simp only [state], fun _ h => by cases h; simp [state]⟩

/-- The fields of a point whose source has restarted (R14, R21, R103). -/
def Mirrored.restarted (running : Bool) (due : Time) (m : Mirrored) : Mirrored :=
  match m.state with
  | .unknown => m.goUnknown
  | .fresh | .stale => m.goUnknown.startOverdue running due

theorem Mirrored.goUnknown_startOverdue (running : Bool) (due : Time) (m : Mirrored) :
    m.goUnknown.startOverdue running due =
      { m.goUnknown with overdueTimer := (m.goUnknown.startOverdue running due).overdueTimer } := by
  unfold Mirrored.startOverdue; split <;> rfl

theorem Mirrored.restarted_source (running : Bool) (due : Time) (m : Mirrored) : (m.restarted running due).source = m.source := by
  unfold Mirrored.restarted
  split
  · rfl
  · rw [goUnknown_startOverdue]; rfl
  · rw [goUnknown_startOverdue]; rfl

/-- A point of a source that has restarted: UNKNOWN again, or UNKNOWN with what follows from it (R103). -/
theorem sourceRestarted_cases {n : Nat} {s : State} {m : Mirrored} (entry : s.mirroredAt n = some m) :
    (m.state = .unknown ∧ s.sourceRestarted n = s.updateMirrored n Mirrored.goUnknown)
    ∨ (m.state ≠ .unknown ∧ ∃ t, t = ((s.updateMirrored n fun m =>
          m.goUnknown.startOverdue (s.station == .running) (s.clock + s.joinLength)).judgeSource).evaluateSource n
      ∧ s.sourceRestarted n = t.solicitPoint n) := by
  unfold State.sourceRestarted
  cases state : m.state <;> simp [entry, state]

theorem solicitPoint_points (n : Nat) (s : State) : (s.solicitPoint n).points = s.points := by
  unfold State.solicitPoint; split
  · split <;> rfl
  · rfl

theorem solicitPoint_roster (n : Nat) (s : State) : (s.solicitPoint n).roster = s.roster := by
  unfold State.solicitPoint; split
  · split <;> rfl
  · rfl

/-- The MIRRORED fields of every number after one point of a restarted source has been taken. -/
theorem mirroredAt_sourceRestarted (n k : Nat) (s : State) :
    (s.sourceRestarted n).mirroredAt k = (s.mirroredAt k).map fun m =>
      if k = n then m.restarted (s.station == .running) (s.clock + s.joinLength) else m := by
  cases entry : s.mirroredAt n with
  | none =>
    have : s.sourceRestarted n = s := by simp [State.sourceRestarted, entry]
    rw [this]
    by_cases e : k = n
    · simp [e, entry]
    · simp [e]
  | some m =>
    have same : ∀ f : Mirrored → Mirrored, f m = m.restarted (s.station == .running) (s.clock + s.joinLength) →
        ((s.mirroredAt k).map fun m => if k = n then f m else m) = (s.mirroredAt k).map fun m =>
          if k = n then m.restarted (s.station == .running) (s.clock + s.joinLength) else m := fun f hf => by
      by_cases e : k = n
      · simp [e, entry, hf]
      · simp [e]
    rcases sourceRestarted_cases entry with ⟨unknown, e⟩ | ⟨known, t, ht, e⟩
    · rw [e, mirroredAt_updateMirrored]
      exact same _ (by simp [Mirrored.restarted, unknown])
    · have points : (s.sourceRestarted n).mirroredAt k = t.mirroredAt k := mirroredAt_congr (by rw [e, solicitPoint_points]) k
      have kept := OwnSteps.sameMirror ((judgeSource_own (s.updateMirrored n fun m =>
        m.goUnknown.startOverdue (s.station == .running) (s.clock + s.joinLength))).trans (evaluateSource_own n _))
      rw [points, ht, mirroredAt_congr kept.half k, mirroredAt_updateMirrored]
      refine same _ ?_
      cases state : m.state <;> simp_all [Mirrored.restarted]

theorem numbers_sourceRestarted (n : Nat) (s : State) :
    (s.sourceRestarted n).points.map Point.number = s.points.map Point.number := by
  cases entry : s.mirroredAt n with
  | none => simp [State.sourceRestarted, entry]
  | some m =>
    rcases sourceRestarted_cases entry with ⟨-, e⟩ | ⟨-, t, ht, e⟩
    · rw [e, updateMirrored_points, numbers_mapMirroredBy]
    · have kept := OwnSteps.sameMirror ((judgeSource_own (s.updateMirrored n fun m =>
        m.goUnknown.startOverdue (s.station == .running) (s.clock + s.joinLength))).trans (evaluateSource_own n _))
      rw [e, solicitPoint_points, ht, numbers_of_mirroredHalf kept.half, updateMirrored_points, numbers_mapMirroredBy]

theorem mem_sourcedFrom {p : Station} {n : Nat} {l : List Point} :
    n ∈ sourcedFrom p l ↔ ∃ q ∈ l, q.number = n ∧ ∃ m, q.mirrored? = some m ∧ m.source = some p := by
  simp only [sourcedFrom, List.mem_map, List.mem_filter]
  constructor
  · rintro ⟨q, ⟨hq, named⟩, e⟩
    cases entry : q.mirrored? with
    | none => simp [entry] at named
    | some m => exact ⟨q, hq, e, m, entry, by simpa [entry] using named⟩
  · rintro ⟨q, hq, e, m, entry, source⟩
    exact ⟨q, ⟨hq, by simp [entry, source]⟩, e⟩

/-- Every number of a list is one of a point with a learned source. -/
def Learned (l : List Nat) (s : State) : Prop :=
  (s.points.map Point.number).Nodup → ∀ n ∈ l, ∀ m, s.mirroredAt n = some m → m.source.isSome

theorem learned_sourcedFrom (p : Station) (s : State) : Learned (sourcedFrom p s.points) s := by
  intro distinct n hn m hm
  obtain ⟨q, hq, rfl, m', hm', source⟩ := mem_sourcedFrom.mp hn
  rw [mirroredAt_of_mem distinct hq, hm'] at hm
  cases hm
  simp [source]

theorem learned_sourceRestarted {l : List Nat} {s : State} (h : Learned l s) (n : Nat) : Learned l (s.sourceRestarted n) := by
  intro distinct k hk m hm
  rw [numbers_sourceRestarted] at distinct
  rw [mirroredAt_sourceRestarted] at hm
  obtain ⟨m', hm', rfl⟩ := Option.map_eq_some_iff.mp hm
  have := h distinct k hk m' hm'
  split
  · rwa [Mirrored.restarted_source]
  · exact this

theorem foldl_sourceRestarted_moves (l : List Nat) (s : State) (h : Learned l s) :
    Moves s (l.foldl State.sourceRestarted s) := by
  induction l generalizing s with
  | nil => exact .refl
  | cons n l ih =>
    refine (Move.sourceRestarted n fun distinct => h distinct n List.mem_cons_self).one.trans (ih _ ?_)
    exact learned_sourceRestarted (fun distinct k hk => h distinct k (List.mem_cons_of_mem _ hk)) n

/-- The points of a station that has restarted, one by one, then its overrides (R103, R151). -/
theorem peerRestarted_moves (p : Station) (s : State) : Moves s (s.peerRestarted p) :=
  (foldl_sourceRestarted_moves _ s (learned_sourcedFrom p s)).trans (purge_moves p _)

/-- The points of a station that is lost, one by one, then its overrides (R102, R151). -/
theorem peerLost_moves (p : Station) (s : State) : Moves s (s.peerLost p) :=
  (foldl_chain _ (fun _ n => (Move.sourceLost n).one) _ s).trans (purge_moves p _)

theorem takePresence_moves (p : Station) (body : List Byte) (s : State) : Moves s (s.takePresence p body) := by
  unfold State.takePresence
  split
  · split
    · exact bump_moves _ s
    · next c _ =>
      have tended : ∀ t : State, Moves t (t.updatePeer p (Peer.takeContent c)) := fun t =>
        (Move.tended p (Peer.takeContent c) (fun _ => rfl) fun _ h => h).one
      unfold State.applyPresence
      split
      · exact .refl
      · dsimp only
        split
        · exact (peerRestarted_moves p s).trans (tended _)
        · exact tended s
  · exact .refl

theorem takePublication_moves (p : Station) (body : List Byte) {s : State} (sent : TakenFrom p s) :
    Moves s (s.takePublication p body) := by
  unfold State.takePublication
  split
  · obtain ⟨moves, -⟩ := foldl_moves (TakenFrom p) (State.takeRecord p)
      (fun t r h => ⟨(Move.record p r h).one, takeRecord_takenFrom h r⟩) (recordsOf body) s sent
    exact moves
  · exact bump_moves _ s

theorem coverPoint_moves (n : Nat) (s : State) : Moves s (s.coverPoint n) :=
  (Move.solicitMarks (fun x => if x.point = n then x.cover s.clock else x)
    (fun x => by split <;> rfl) (fun x => by split <;> rfl)).one

theorem takeSolicited_moves (s : State) (n : Nat) : Moves s (s.takeSolicited n) := by
  unfold State.takeSolicited
  split
  · next running =>
    split
    · exact .refl
    · split
      · exact OwnSteps.moves (claim_own n running)
      · exact coverPoint_moves n s
  · exact .refl

theorem takeSolicit_moves (body : List Byte) (s : State) : Moves s (s.takeSolicit body) := by
  unfold State.takeSolicit
  split
  · exact foldl_chain _ takeSolicited_moves _ s
  · exact bump_moves _ s

theorem filterRequest_moves (cls : RequestClass) (p d : Station) (body : List Byte) {s : State} (ok : stationOk p = true)
    (other : s.number ≠ some p) : Moves s (s.filterRequest cls p d body) := by
  unfold State.filterRequest
  split
  · exact bump_moves _ s
  · split
    · exact takeRequest_moves cls p body ok other
    · exact .refl

/-- The block of a frame's class makes moves (R78). -/
theorem dispatchFrame_moves (cls : FrameClass) (p d : Station) (body : List Byte) {s : State} (sent : TakenFrom p s) :
    Moves s (s.dispatchFrame cls p d body) := by
  unfold State.dispatchFrame
  split
  · exact takePublication_moves p body sent
  · exact takePublication_moves p body sent
  · exact takeSolicit_moves body s
  · exact takePresence_moves p body s
  · exact .refl
  · exact filterRequest_moves _ p d body sent.ok sent.other
  · exact filterRequest_moves _ p d body sent.ok sent.other

/-! ## The blocks that take an event of the pins -/

theorem discardOldest_moves (i : Fin 16) (s : State) : Moves s (s.discardOldest i) := by
  unfold State.discardOldest
  split
  · exact .refl
  · split
    · exact .refl
    · exact (((updateOverrides_moves i List.dropLast s (.inr rfl)).trans (keepHoldsMark_moves _ _)).trans
        (bump_moves _ _)).trans (report_moves _ _ _)

theorem handPress_moves (i : Fin 16) {s : State} (running : s.station = .running) : Moves s (s.handPress i) := by
  have changed : ∀ (f : List Override → List Override) {t : State}, Moves s t → t.station = .running →
      Moves s ((t.updateOverrides i f).evaluatePin i) := fun f t h running =>
    (h.trans (updateOverrides_moves i f t (.inl running))).trans (evaluatePin_moves i _)
  unfold State.handPress
  split
  · exact .refl
  · split
    · exact changed _ .refl running
    · dsimp only
      split
      · exact changed _ (discardOldest_moves i s) ((discardOldest_tables i s).station.trans running)
      · exact changed _ .refl running

theorem updatePin_moves (i : Fin 16) (f : Pin → Pin) (keeps : ∀ p, fixedPin (f p) = fixedPin p) (s : State) :
    Moves s (s.updatePin i f) := OwnSteps.moves (updatePin_own i f keeps s)

theorem pinTransition_moves (i : Fin 16) (level : Bool) (s : State) : Moves s (s.pinTransition i level) := by
  unfold State.pinTransition
  refine (updatePin_moves i (fun p => { p with level := some level, candidate := none }) (fun _ => rfl) s).trans ?_
  dsimp only
  split
  · exact .refl
  · split
    · exact foldl_chain _ (fun t n => OwnSteps.moves (binaryTransition_own n level t)) _ _
    · split
      · next h => exact handPress_moves _ (by simpa using (Bool.and_eq_true_iff.mp h).2)
      · exact .refl
    · exact .refl
    · exact .refl
    · exact .refl

theorem samplePin_moves (levels : BitVec 16) (s : State) (i : Fin 16) : Moves s (s.samplePin levels i) := by
  have candidate : ∀ c : Option Time, Moves s (s.updatePin i fun p => { p with candidate := c }) := fun c =>
    updatePin_moves i (fun p => { p with candidate := c }) (fun _ => rfl) s
  unfold State.samplePin
  dsimp only
  split
  · exact .refl
  · split
    · exact .refl
    · split
      · exact candidate none
      · split
        · exact pinTransition_moves i _ s
        · split
          · exact candidate _
          · split
            · exact pinTransition_moves i _ s
            · exact .refl

/-! ## Effects -/

/-- What one command comes to. -/
inductive Effect (s : State) : State → Prop
  | moved {t : State} (moves : Moves s t) : Effect s t
  | restarted (u : State) (cause : Cause) : Effect s (u.restart cause)
  | failedLoad (e : Time) (error : ConfigError) (straps : Station) (loading : s.loading = true) :
      Effect s ((s.advance e).noImage error straps)
  | loaded (e : Time) (im : Image) (straps : Station) (inputs : PinInputs) (loading : s.loading = true)
      (valid : im.validate = .none) (counted : im.points.length = im.pointCount) :
      Effect s ((s.advance e).validImage im straps inputs)
  | entered (due : Time) (joining : s.station = .joining) : Effect s (s.advanceTo due).enterRunning
  | halted {u : State} (moves : Moves s u) (dispatches : u.station.dispatches = true) : Effect s u.enterHalted
  | transmitted {u : State} (moves : Moves s u) (idle : u.inFlight = none) : Effect s u.transmit
  | publicationEnded {u : State} (f : TxFrame) (urgent : Bool) (records : List Record) (complete : Bool)
      (flying : s.inFlight = some f) (content : f.content = .publication urgent records)
      (moves : Moves { s with inFlight := none } u) : Effect s (u.publicationOutcome records complete)
  | frameEnded {t : State} (f : TxFrame) (flying : s.inFlight = some f)
      (content : ∀ urgent records, f.content ≠ .publication urgent records)
      (moves : Moves { s with inFlight := none } t) : Effect s t
  | peerLost {u t : State} (p : Station) (before : Moves s u) (live : u.station.live = true)
      (moves : Moves (u.updatePeer p fun x => { x with state := .lost, lostAt := none }) t)
      (stale : (s.points.map Point.number).Nodup → ∀ q ∈ t.points, ∀ m, q.mirrored? = some m → m.state = .fresh →
        m.source ≠ some p) : Effect s t

theorem goodFrame_effect (cls : FrameClass) (p d : Station) (body : List Byte) {s u : State} (moves : Moves s u)
    (dispatches : u.station.dispatches = true) (ok : stationOk p = true) : Effect s (u.goodFrame cls p d body) := by
  have counted : Moves s (u.endAssembly.bump .framesReceived) :=
    (moves.trans (OwnSteps.moves (endAssembly_own u))).trans (bump_moves _ _)
  unfold State.goodFrame
  dsimp only
  split
  · exact .halted counted dispatches
  · next other =>
    exact .moved ((counted.trans (Move.heard p ok other).one).trans
      (dispatchFrame_moves cls p d body (heard_takenFrom ok other dispatches)))

theorem dispatches_of_assembles {s : State} (h : s.assembles = true) : s.station.dispatches = true :=
  ((assembles_iff s).mp h).1

/-- The arrival of a frame (R75 to R78). -/
theorem arrive_effect (cls : FrameClass) (e : Time) (p d : Station) (body : List Byte) (s : State) :
    Effect s ((s.advance e).arrive cls p d body) := by
  unfold State.arrive
  split
  · next assembles =>
    split
    · next good =>
      have ok : stationOk p = true := by
        simp only [headerGood, Bool.and_eq_true] at good
        obtain ⟨⟨⟨nonzero, notAll⟩, -⟩, -⟩ := good
        simp only [stationOk, nonzero, notAll, Bool.and_self]
      exact goodFrame_effect cls p d body (advance_moves e s) (dispatches_of_assembles assembles) ok
    · exact .moved ((advance_moves e s).trans (OwnSteps.moves (discardFrame_own _)))
  · exact .moved (advance_moves e s)

theorem solicitOutcome_moves (complete : Bool) (s : State) : Moves s (s.solicitOutcome complete) :=
  (Move.solicitMarks (fun x => if x.flying then
      { x with state := if complete then .sent (s.clock + Config.solicitWait) else .waiting false } else x)
    (fun x => by split <;> rfl) (fun x => by split <;> rfl)).one

theorem presenceOutcome_moves (out : TxOutcome) (s : State) : Moves s (s.presenceOutcome out) := by
  have cleared : Moves s { s with presencePending := false } :=
    (Move.own (.books (t := { s with presencePending := false }) rfl (.inr ⟨rfl, rfl, rfl⟩))).one
  cases out with
  | complete => exact cleared.tail (.own (.other rfl))
  | lost => exact .refl
  | failed => exact cleared

/-- The owner of a frame takes its outcome (R73). -/
theorem ownerOutcome_effect (out : TxOutcome) {s u : State} {f : TxFrame} (flying : s.inFlight = some f)
    (moves : Moves { s with inFlight := none } u) : Effect s (u.ownerOutcome f.content out) := by
  have ended : (∀ urgent records, f.content ≠ .publication urgent records) → ∀ t, Moves u t → Effect s t :=
    fun content t h => .frameEnded f flying content (moves.trans h)
  unfold State.ownerOutcome
  split
  · next content => exact .publicationEnded f _ _ _ flying content moves
  · next content => exact ended (fun _ _ h => by rw [content] at h; cases h) _ (solicitOutcome_moves _ u)
  · next content => exact ended (fun _ _ h => by rw [content] at h; cases h) _ (presenceOutcome_moves _ u)
  · next r content =>
    have ended := ended (fun _ _ h => by rw [content] at h; cases h)
    cases out with
    | complete =>
      by_cases restarts : (r.restartMark && u.pendingRestart.isSome) = true
      · simp only [State.replyComplete, restarts, if_true]
        exact .restarted _ _
      · simp only [State.replyComplete, restarts]
        exact ended _ (Move.own (.other rfl)).one
    | lost => exact ended _ .refl
    | failed => exact ended _ .refl

/-- The end of a frame of this station (R70 to R73). -/
theorem endFrame_effect (out : TxOutcome) (e : Time) (s : State) : Effect s ((s.advance e).endFrame out) := by
  unfold State.endFrame
  split
  · exact .moved (advance_moves e s)
  · next f flying =>
    refine ownerOutcome_effect out flying ?_
    refine .trans (.trans (Move.own (.other ?_)).one (bump_moves out.counter _)) (OwnSteps.moves (account_own out rfl))
    rfl

/-- A line-idle event (R65, R66, R79). -/
theorem lineIdle_effect (e : Time) (s : State) (idle : s.inFlight = none) : Effect s (s.advance e).lineIdle := by
  have reported : Moves s (State.report .line false { s.advance e with line := .idle, assembly := .empty }) :=
    .trans (Move.own (.other (s := s) (t := { s.advance e with line := .idle, assembly := .empty }) rfl)).one
      (report_moves _ _ _)
  exact .transmitted reported ((report_status _ _ _).tables.inFlight.trans idle)

/-- After the points of a lost station have been taken one by one, none of them is FRESH (R102). -/
theorem foldl_sourceLost_fresh (l : List Nat) (s : State) (k : Nat) (m : Mirrored)
    (entry : (l.foldl State.sourceLost s).mirroredAt k = some m) (fresh : m.state = .fresh) :
    k ∉ l ∧ s.mirroredAt k = some m := by
  induction l generalizing s with
  | nil => exact ⟨by simp, entry⟩
  | cons n l ih =>
    obtain ⟨rest, taken⟩ := ih _ entry
    rcases sourceLost_cases n s with ⟨e, notFresh⟩ | ⟨m', found, -, steps⟩
    · rw [e] at taken
      refine ⟨fun h => ?_, taken⟩
      rcases List.mem_cons.mp h with rfl | h
      · exact notFresh m taken fresh
      · exact rest h
    · rw [mirroredAt_congr (OwnSteps.sameMirror steps).half, mirroredAt_updateMirrored] at taken
      obtain ⟨m'', hm, rfl⟩ := Option.map_eq_some_iff.mp taken
      by_cases e : k = n
      · rw [if_pos e] at fresh; cases fresh
      · rw [if_neg e] at fresh ⊢
        exact ⟨fun h => (List.mem_cons.mp h).elim e rest, hm⟩

theorem purge_half (p : Station) (s : State) : mirroredHalf (s.purge p).points = mirroredHalf s.points := by
  have fold : ∀ (l : List (Fin 16)) (t : State), (l.foldl (State.purgeOutput p) t).points = t.points := by
    intro l
    induction l with
    | nil => exact fun _ => rfl
    | cons i l ih => exact fun t => (ih _).trans (by rw [State.purgeOutput, State.evaluatePin, evaluateWhere_only]; rfl)
  rw [State.purge, State.keepHoldsMark_points, fold]

/-- A LOST deadline (R132, R133, R102). -/
theorem lostDeadline_effect (p : Station) (due : Time) (s : State) (live : s.station.live = true) :
    Effect s (((((s.advanceTo due).updatePeer p fun x => { x with state := .lost, lostAt := none }).peerLost
      p).judgePeerLost)) := by
  refine .peerLost p (advanceTo_moves due s) live ((peerLost_moves p _).trans (report_moves _ _ _))
    fun distinct q hq m entry fresh source => ?_
  let u := (s.advanceTo due).updatePeer p fun x => { x with state := .lost, lostAt := none }
  let w := (sourcedFrom p u.points).foldl State.sourceLost u
  have half : mirroredHalf (u.peerLost p).judgePeerLost.points = mirroredHalf w.points :=
    (OwnSteps.sameMirror (judgePeerLost_own _)).half.trans (purge_half p w)
  have numbers : (u.peerLost p).judgePeerLost.points.map Point.number = s.points.map Point.number := by
    have fold : ∀ (l : List Nat) (t : State), (l.foldl State.sourceLost t).points.map Point.number = t.points.map Point.number := by
      intro l
      induction l with
      | nil => exact fun _ => rfl
      | cons n l ih =>
        refine fun t => (ih _).trans ?_
        rcases sourceLost_cases n t with ⟨e, -⟩ | ⟨-, -, -, steps⟩
        · rw [e]
        · rw [numbers_of_mirroredHalf (OwnSteps.sameMirror steps).half, updateMirrored_points, numbers_mapMirroredBy]
    exact (numbers_of_mirroredHalf half).trans (fold _ u)
  have found := mirroredAt_of_mem (s := (u.peerLost p).judgePeerLost) (numbers ▸ distinct) hq
  rw [entry, mirroredAt_congr half] at found
  obtain ⟨unlisted, before⟩ := foldl_sourceLost_fresh _ u q.number m found fresh
  obtain ⟨q', -, hq', number, entry'⟩ := mirroredAt_entry before
  exact unlisted (mem_sourcedFrom.mpr ⟨q', hq', number, m, entry', source⟩)

theorem endLoad_effect (e : Time) (memory : List Byte) (straps : Station) (inputs : PinInputs) (s : State)
    (loading : s.loading = true) : Effect s ((s.advance e).endLoad memory straps inputs) := by
  unfold State.endLoad
  split
  · exact .failedLoad e _ straps loading
  · dsimp only
    split
    · next valid => exact .loaded e _ straps inputs loading valid (by simp [parseImage])
    · exact .failedLoad e _ straps loading

/-! ## The effect of every command -/

/-- Every command has an effect: the inversion of `exec` that each law of the tables is kept by. -/
theorem exec_effect {c : Instr} {s t : State} (run : exec c s = .next t) : Effect s t := by
  cases c <;> cases run
  case powerRestart => exact .restarted _ _
  case pinRestart e held =>
    split
    · exact .restarted _ _
    · exact .moved (advance_moves e s)
  case resetRelease e =>
    split
    · exact .moved (advance_moves e s)
    · next low => exact .moved ((advance_moves e s).tail (.own (.released (by simpa using low))))
  case loadComplete e memory straps inputs =>
    split
    · next loading => exact endLoad_effect e memory straps inputs s loading
    · exact .moved (advance_moves e s)
  case loadFailed e failure straps =>
    split
    · next loading => exact .failedLoad e _ straps loading
    · exact .moved (advance_moves e s)
  case joinWindowExpiry =>
    split
    · next due joining _ => exact .entered due joining
    · exact .moved .refl
  case lineIdleEvent e =>
    split
    · exact .moved (advance_moves e s)
    · next h => exact lineIdle_effect e s (by simpa using (not_or.mp h).2)
  case transmissionComplete e => exact endFrame_effect _ e s
  case contentionLost e => exact endFrame_effect _ e s
  case transmitFailure e => exact endFrame_effect _ e s
  case frameDiscarded e samples =>
    split
    · exact .moved ((advance_moves e s).trans (OwnSteps.moves (discardFrame_own _)))
    · exact .moved (advance_moves e s)
  case duplicateDetection e =>
    split
    · next h => exact .halted ((advance_moves e s).trans (bump_moves _ _)) (dispatches_of_assembles h)
    · exact .moved (advance_moves e s)
  case urgentPublish e p body => exact arrive_effect _ e p _ body s
  case routinePublish e p body => exact arrive_effect _ e p _ body s
  case solicit e p body => exact arrive_effect _ e p _ body s
  case presence e p body => exact arrive_effect _ e p _ body s
  case reply e p d body => exact arrive_effect _ e p d body s
  case force e p d rest => exact arrive_effect _ e p d _ s
  case release e p d rest => exact arrive_effect _ e p d _ s
  case restart e p d rest => exact arrive_effect _ e p d _ s
  case clearCounters e p d rest => exact arrive_effect _ e p d _ s
  case status e p d rest => exact arrive_effect _ e p d _ s
  case pointGroup e p d rest => exact arrive_effect _ e p d _ s
  case peer e p d rest => exact arrive_effect _ e p d _ s
  case output e p d rest => exact arrive_effect _ e p d _ s
  case counters e p d rest => exact arrive_effect _ e p d _ s
  case unknownRequestKind e cls p d body => exact arrive_effect _ e p d body s
  case stuckLineEpisode e =>
    split
    · exact .moved ((advance_moves e s).trans (OwnSteps.moves (stuckLine_own _)))
    · exact .moved (advance_moves e s)
  case transmitGuardTrip e =>
    split
    · exact .moved (advance_moves e s)
    · exact .restarted _ _
  case debouncedTransition e pin level =>
    split
    · split
      · exact .moved ((advance_moves e s).trans (pinTransition_moves ..))
      · exact .moved (advance_moves e s)
    · exact .moved (advance_moves e s)
  case levelReading e pin reading =>
    split
    · exact .moved ((advance_moves e s).trans (OwnSteps.moves (pinReading_own ..)))
    · exact .moved (advance_moves e s)
  case refreshTimerExpiry n =>
    split
    · next o running entry =>
      split
      · exact .moved .refl
      · next due _ =>
        have stopped : Moves s ((s.advanceTo due).updateOwned n fun o => { o with refreshTimer := none }) :=
          (advanceTo_moves due s).trans (OwnSteps.moves (updateOwned_touched n (fun o => { o with refreshTimer := none }) _
            (fun _ => rfl) (fun _ => .inr rfl) fun _ _ _ h => h))
        dsimp only
        split
        · next quiet =>
          refine .moved (stopped.tail (.own (.joinRoutine n { o with refreshTimer := none } running ?_ quiet)))
          have : (s.advanceTo due).ownedAt n = some o := entry
          simp [ownedAt_updateOwned, this]
        · exact .moved stopped
    · exact .moved .refl
  case stalenessDeadlineExpiry n =>
    split
    · split
      · exact .moved .refl
      · next m entry =>
        split
        · next due fresh _ =>
          have : (((s.advanceTo due).updateMirrored n Mirrored.goStale).judgeSource).evaluateSource n
              = (s.advanceTo due).sourceLost n := by
            have : (s.advanceTo due).mirroredAt n = some m := entry
            simp [State.sourceLost, this, fresh]
          rw [this]
          exact .moved ((advanceTo_moves due s).tail (.sourceLost n))
        · exact .moved .refl
    · exact .moved .refl
  case overdueTimerExpiry n =>
    split
    · next m running entry =>
      split
      · exact .moved .refl
      · next due timed =>
        exact .moved (((advanceTo_moves due s).tail (.overdue n m entry (by simp [timed]))).trans
          (report_moves _ _ _))
    · exact .moved .refl
  case solicitDeadlineExpiry n =>
    split
    · next x running listed =>
      split
      · exact .moved ((advanceTo_moves _ s).tail (.solicitExpired x running (List.mem_of_find?_eq_some listed)))
      · exact .moved .refl
    · exact .moved .refl
  case backoffMarkExpiry n =>
    split
    · next m running entry =>
      split
      · exact .moved .refl
      · exact .moved ((advanceTo_moves _ s).tail (.backoffEnded n running))
    · exact .moved .refl
  case presenceTimerExpiry =>
    split
    · next due running _ =>
      exact .moved (((advanceTo_moves due s).tail
        (.own (.books (t := { s.advanceTo due with presencePending := true }) rfl (.inl running)))).tail
        (.own (.other rfl)))
    · exact .moved .refl
  case silentDeadlineExpiry p =>
    split
    · split
      · exact .moved .refl
      · split
        · exact .moved ((advanceTo_moves _ s).tail (.tended p _ (fun _ => rfl) fun _ h => by cases h))
        · exact .moved .refl
    · exact .moved .refl
  case lostDeadlineExpiry p =>
    split
    · next live =>
      split
      · exact .moved .refl
      · split
        · exact lostDeadline_effect p _ s live
        · exact .moved .refl
    · exact .moved .refl
  case leaseExpiry i p =>
    split
    · split
      · exact .moved ((advanceTo_moves _ s).trans (removeOverride_moves i p _))
      · exact .moved .refl
    · exact .moved .refl
  case quarantineTimerExpiry =>
    split
    · next due running silenced _ =>
      exact .moved ((((advanceTo_moves due s).tail (.own (.mode .probing running (.inr silenced)))).tail
        (.own (.books (t := { s.advanceTo due with mode := .probing, presencePending := true }) rfl (.inl running)))).tail
        (.own (.other rfl)))
    · exact .moved .refl
  case recentCommandExpiry p tag =>
    split
    · next x running _ => exact .moved ((advanceTo_moves _ s).tail (.own (.books rfl (.inl running))))
    · exact .moved .refl
  case restartBoundExpiry =>
    split
    · exact .restarted _ _
    · exact .moved .refl
  case digitalInputSample e levels =>
    split
    · exact .moved ((advance_moves e s).trans (foldl_chain _ (samplePin_moves levels) _ _))
    · exact .moved (advance_moves e s)
  case dominantLevelSeen change =>
    split
    · exact .moved ((advance_moves _ s).tail (.own (.other rfl)))
    · exact .moved (advance_moves _ s)

/-- A step idles or has the effect of its command on the state with the queue's rest (log 1). -/
theorem step_effect {s t : State} (run : step s = .next t) : t = s ∨ ∃ rest, Effect { s with pending := rest } t := by
  unfold step at run
  split at run
  · cases run; exact .inl rfl
  · exact .inr ⟨_, exec_effect run⟩

end Sys2Proof.Machine
end

