-- ==== Sys2Proof/Proofs/AnySteps.lean ====
section
/-!
SUPPORT. Moves as the laws of the OWNED half see them: small steps of the own half, and changes of mirrored entries, solicit list and roster, of
which only that they leave the OWNED half as it is, and the empty tables empty, matters.
-/

namespace Sys2Proof.Machine

open Sys2Proof.Safety

/-- A small step of the own half, or any change of the mirrored half. -/
inductive AnyStep : State → State → Prop
  | own {s t : State} (step : OwnStep s t) : AnyStep s t
  | mirror {s t : State} (only : t = { s with points := t.points, solicits := t.solicits, roster := t.roster })
      (owned : ownedHalf t.points = ownedHalf s.points)
      (roster : s.points ≠ [] ∨ s.station.live = true ∨ (s.roster = [] → t.roster = []))
      (solicits : s.station = .running ∨ (s.solicits = [] → t.solicits = [])) : AnyStep s t

abbrev AnySteps : State → State → Prop := Relation.ReflTransGen AnyStep

theorem OwnSteps.any {s t : State} (h : OwnSteps s t) : AnySteps s t :=
  Relation.ReflTransGen.mono (r := OwnStep) (p := AnyStep) (fun _ _ => AnyStep.own) s t h

theorem bump_any (k : CounterId) (s : State) : AnySteps s (s.bump k) := OwnSteps.any (bump_own k s)
theorem report_any (c : Condition) (b : Bool) (s : State) : AnySteps s (s.report c b) := OwnSteps.any (report_own c b s)
theorem judgeSource_any (s : State) : AnySteps s s.judgeSource := report_any _ _ s
theorem judgePeerLost_any (s : State) : AnySteps s s.judgePeerLost := report_any _ _ s
theorem evaluateSource_any (n : Nat) (s : State) : AnySteps s (s.evaluateSource n) := OwnSteps.any (evaluateSource_own n s)

/-! ## Mirrored entries, solicit list and roster -/

theorem updateMirrored_any (n : Nat) (f : Mirrored → Mirrored) (s : State) : AnySteps s (s.updateMirrored n f) :=
  .single (.mirror rfl (by rw [updateMirrored_points, ownedHalf_mapMirroredBy]) (.inr (.inr id)) (.inr id))

theorem updatePeer_any (p : Station) (f : Peer → Peer) (s : State) : AnySteps s (s.updatePeer p f) :=
  .single (.mirror rfl rfl (.inr (.inr fun h => by rw [State.updatePeer_roster, h]; rfl)) (.inr id))

theorem solicitMap_any (g : Solicit → Solicit) (s : State) : AnySteps s { s with solicits := s.solicits.map g } :=
  .single (.mirror rfl rfl (.inr (.inr id)) (.inr fun h => by simp [h]))

theorem removeSolicit_any (n : Nat) (s : State) : AnySteps s (s.removeSolicit n) :=
  .single (.mirror rfl rfl (.inr (.inr id)) (.inr fun h => by rw [State.removeSolicit_solicits, h]; rfl))

theorem fillSolicits_any (s : State) : AnySteps s s.fillSolicits := by
  unfold State.fillSolicits
  split
  · next running => exact .single (.mirror rfl rfl (.inr (.inr id)) (.inl running))
  · exact .refl

theorem solicitPoint_any (n : Nat) (s : State) : AnySteps s (s.solicitPoint n) := by
  unfold State.solicitPoint
  split
  · next running =>
    split
    · exact .single (.mirror rfl rfl (.inr (.inr id)) (.inl running))
    · exact .refl
  · exact .refl

theorem satisfy_any (n : Nat) (s : State) : AnySteps s (s.satisfy n) := by
  unfold State.satisfy
  split
  · exact (removeSolicit_any n s).trans (fillSolicits_any _)
  · exact .refl

theorem mustTrack_any (p : Station) {s : State} (live : s.points ≠ [] ∨ s.station.live = true) : AnySteps s (s.mustTrack p).1 := by
  have changed : ∀ l, AnySteps s { s with roster := l } := fun l =>
    .single (.mirror rfl rfl (live.imp_right .inl) (.inr id))
  rcases mustTrack_roster p s with ⟨-, e⟩ | ⟨-, -, e⟩ | ⟨v, -, -, e⟩ <;> rw [e]
  · exact changed _
  · exact (changed _).trans (judgePeerLost_any _)

theorem track_any (p : Station) {s : State} (live : s.points ≠ [] ∨ s.station.live = true) : AnySteps s (s.track p).1 := by
  rcases track_cases p s with ⟨x, -, e⟩ | ⟨-, -, e⟩ | ⟨-, -, e⟩ <;> rw [e]
  · exact mustTrack_any p live
  · exact (bump_any _ s).trans (report_any _ _ _)

theorem keepSourcesMark_any (p : Station) (s : State) : AnySteps s (s.keepSourcesMark p) :=
  (updatePeer_any p _ s).trans (judgePeerLost_any _)

theorem heard_any (p : Station) (s : State) : AnySteps s (s.heard p) := by
  unfold State.heard
  split
  · next live =>
    split
    · exact (updatePeer_any p _ s).trans (judgePeerLost_any _)
    · split
      · exact .single (.mirror rfl rfl (.inr (.inl live)) (.inr id))
      · split
        · exact mustTrack_any p (.inr live)
        · exact .refl
  · exact .refl

/-! ## Records -/

theorem acceptRecord_any (n : Nat) (k : Kind) (m : Mirrored) (r : Record) (s : State) : AnySteps s (s.acceptRecord n k m r) := by
  exact ((((OwnSteps.any (countMissed_own m.count r.count s)).trans (updateMirrored_any n (Mirrored.accept k s.clock r) _)).trans (judgeSource_any _)).trans (satisfy_any n _)).trans
    (evaluateSource_any n _)

theorem learn_any (n : Nat) (p : Station) {s : State} (held : s.points ≠ []) : AnySteps s (s.learn n p) := by
  have still : (s.updateMirrored n fun m => { m with source := some p }).points ≠ [] := by
    rw [updateMirrored_points]; simpa [mapMirroredBy] using held
  exact ((updateMirrored_any n (fun m => { m with source := some p }) s).trans (track_any p (.inl still))).trans
    (keepSourcesMark_any p _)

theorem ownershipConflict_own (p : Station) (n : Nat) (s : State) : OwnSteps s (s.ownershipConflict p n) := by
  have reported : OwnSteps s ((s.bump .conflicts).report .conflict true) := (bump_own _ s).trans (report_own _ _ _)
  unfold State.ownershipConflict
  dsimp only
  split
  · exact reported
  · split
    · exact reported.tail (.yielded n)
    · split
      · next running => exact reported.trans (claim_own n running)
      · exact reported

theorem takeRecord_any (p : Station) (r : Record) (s : State) : AnySteps s (s.takeRecord p r) := by
  rcases takeRecord_cases p s r with e | ⟨o, -, -, e⟩ | ⟨q, m, found, -, -, e⟩ | e <;> rw [e]
  · exact OwnSteps.any (ownershipConflict_own p _ s)
  · have held : s.points ≠ [] := List.ne_nil_of_mem (findPoint_mem found)
    rcases mirroredRecord_cases p r.point.toNat q.kind m r s with
      ⟨-, e⟩ | ⟨-, e⟩ | ⟨old, -, -, ⟨-, e⟩ | ⟨-, e⟩ | ⟨-, e⟩⟩ <;> rw [e]
    · exact (learn_any _ p held).trans (acceptRecord_any ..)
    · exact acceptRecord_any ..
    · exact (((bump_any _ s).trans (learn_any _ p held)).trans (keepSourcesMark_any old _)).trans (acceptRecord_any ..)
    · exact ((learn_any _ p held).trans (keepSourcesMark_any old _)).trans (acceptRecord_any ..)
    · exact bump_any _ s
  · exact bump_any _ s

/-! ## Moves -/

theorem Move.any {s t : State} (h : Move s t) : AnySteps s t := by
  cases h with
  | own step => exact .single (.own step)
  | tended p f => exact updatePeer_any p f s
  | heard p => exact heard_any p s
  | tracked p _ _ live => exact track_any p (.inr live)
  | record p r => exact takeRecord_any p r s
  | sourceLost n =>
    rcases sourceLost_cases n s with ⟨e, -⟩ | ⟨-, -, -, steps⟩
    · rw [e]
    · exact (updateMirrored_any n _ s).trans (OwnSteps.any steps)
  | sourceRestarted n =>
    cases entry : s.mirroredAt n with
    | none => simp only [State.sourceRestarted, entry]; exact .refl
    | some m =>
      rcases sourceRestarted_cases entry with ⟨-, e⟩ | ⟨-, u, hu, e⟩ <;> rw [e]
      · exact updateMirrored_any n _ s
      · rw [hu]
        exact (((updateMirrored_any n _ s).trans (judgeSource_any _)).trans (evaluateSource_any n _)).trans (solicitPoint_any n _)
  | overdue n => exact updateMirrored_any n _ s
  | solicitExpired x =>
    unfold State.solicitExpired
    split
    · exact solicitMap_any _ s
    · exact (((removeSolicit_any _ s).trans (bump_any _ _)).trans (updateMirrored_any _ _ _)).trans (fillSolicits_any _)
  | backoffEnded n => exact (updateMirrored_any n _ s).trans (fillSolicits_any _)
  | solicitMarks g => exact solicitMap_any g s

theorem Moves.any {s t : State} (h : Moves s t) : AnySteps s t := by
  induction h with
  | refl => exact .refl
  | tail _ last ih => exact ih.trans last.any

end Sys2Proof.Machine
end

