-- ==== Sys2Proof/Proofs/Events.lean ====
section
/-!
SUPPORT. The events that a law follows as a whole: the start burst, the end of a publication frame, the entries to RUNNING and HALTED and the
choice of a frame, each as far as the laws need it.
-/

namespace Sys2Proof.Machine

open Sys2Proof.Safety

/-- From `s` to `t` the entries change in OWNED fields only, and none of these is a configuration field (R5, R7). -/
def OnlyOwned (s t : State) : Prop :=
  ∃ g : Point → Owned → Owned, t.points = mapOwnedBy g s.points ∧ ∀ p o, fixedOwned (g p o) = fixedOwned o

theorem OnlyOwned.refl (s : State) : OnlyOwned s s := ⟨fun _ o => o, (mapOwnedBy_id _).symm, fun _ _ => rfl⟩

theorem OnlyOwned.trans {s t u : State} (h : OnlyOwned s t) (k : OnlyOwned t u) : OnlyOwned s u := by
  obtain ⟨g, e, fixed⟩ := h
  obtain ⟨g', e', fixed'⟩ := k
  exact ⟨_, by rw [e', e, mapOwnedBy_mapOwnedBy], fun p o => (fixed' _ _).trans (fixed p o)⟩

theorem OnlyOwned.numbers {s t : State} (h : OnlyOwned s t) : t.points.map Point.number = s.points.map Point.number := by
  obtain ⟨g, e, -⟩ := h
  rw [e, numbers_mapOwnedBy]

theorem OnlyOwned.half {s t : State} (h : OnlyOwned s t) : mirroredHalf t.points = mirroredHalf s.points := by
  obtain ⟨g, e, -⟩ := h
  rw [e, mirroredHalf_mapOwnedBy]

theorem updateOwned_onlyOwned (n : Nat) (f : Owned → Owned) (fixed : ∀ o, fixedOwned (f o) = fixedOwned o) (s : State) :
    OnlyOwned s (s.updateOwned n f) :=
  ⟨atNumber n f, updateOwned_points n f s, fun p o => by by_cases e : p.number = n <;> simp [atNumber, e, fixed]⟩

theorem joinUrgent_onlyOwned (n : Nat) (s : State) : OnlyOwned s (s.joinUrgent n) :=
  updateOwned_onlyOwned n (fun o => { o with sched := .urgent }) (fun _ => rfl) s

theorem leaveQueue_onlyOwned (n : Nat) (sched : Sched) (s : State) : OnlyOwned s (s.leaveQueue n sched) :=
  updateOwned_onlyOwned n (fun o => { o with sched := sched, inFlight := false, dirty := false }) (fun _ => rfl) s

theorem pointNotSent_onlyOwned (s : State) (n : Nat) : OnlyOwned s (s.pointNotSent n) :=
  updateOwned_onlyOwned n (fun o => { o with inFlight := false, dirty := false }) (fun _ => rfl) s

theorem complete12_points (n : Nat) (s : State) :
    (s.complete12 n).points = mapOwnedBy (fun p => atNumber n (Owned.completed p.kind s.clock) p) s.points :=
  List.map_congr_left fun p _ => by by_cases e : p.number = n <;> simp [atNumber, e]

theorem complete12_onlyOwned (n : Nat) (s : State) : OnlyOwned s (s.complete12 n) :=
  ⟨_, complete12_points n s, fun p o => by by_cases e : p.number = n <;> simp [atNumber, e, fixedOwned, Owned.completed]⟩

/-- Transmission complete for one point of the frame (R52). -/
theorem pointCompleted_cases (n : Nat) (s : State) :
    (s.pointCompleted n = s ∧ ∀ o, s.ownedAt n = some o → o.inFlight = false)
    ∨ ∃ o, s.ownedAt n = some o ∧ o.inFlight = true
      ∧ ((o.dirty = true ∧ s.pointCompleted n = ((s.complete12 n).leaveQueue n .quiet).joinUrgent n)
        ∨ (o.dirty = false ∧ s.pointCompleted n = (s.complete12 n).leaveQueue n .quiet)) := by
  unfold State.pointCompleted
  cases entry : s.ownedAt n with
  | none => exact .inl ⟨rfl, fun _ h => by cases h⟩
  | some o =>
    cases flying : o.inFlight with
    | false => exact .inl ⟨by simp [flying], fun _ h => by cases h; exact flying⟩
    | true =>
      refine .inr ⟨o, rfl, flying, ?_⟩
      cases dirty : o.dirty with
      | true => exact .inl ⟨rfl, by simp [flying, dirty, State.requeueDirty]⟩
      | false => exact .inr ⟨rfl, by simp [flying, dirty]⟩

theorem pointCompleted_onlyOwned (s : State) (n : Nat) : OnlyOwned s (s.pointCompleted n) := by
  have left : OnlyOwned s ((s.complete12 n).leaveQueue n .quiet) := (complete12_onlyOwned n s).trans (leaveQueue_onlyOwned n _ _)
  rcases pointCompleted_cases n s with ⟨e, -⟩ | ⟨o, -, -, ⟨-, e⟩ | ⟨-, e⟩⟩ <;> rw [e]
  · exact .refl s
  · exact left.trans (joinUrgent_onlyOwned n _)
  · exact left

theorem joinUrgent_queue (n : Nat) (s : State) : OnlyQueue s (s.joinUrgent n) := rfl

theorem pointCompleted_queue (s : State) (n : Nat) : OnlyQueue s (s.pointCompleted n) := by
  have left : OnlyQueue s ((s.complete12 n).leaveQueue n .quiet) := OnlyQueue.trans (t := s.complete12 n) rfl rfl
  rcases pointCompleted_cases n s with ⟨e, -⟩ | ⟨o, -, -, ⟨-, e⟩ | ⟨-, e⟩⟩ <;> rw [e]
  · exact .refl s
  · exact left.trans (joinUrgent_queue n _)
  · exact left

/-- A relation that holds of the handling of one point holds of the outcome of a publication frame. -/
theorem publicationOutcome_rel (R : State → State → Prop) (refl : ∀ s, R s s) (trans : ∀ {s t u}, R s t → R t u → R s u)
    (completed : ∀ s n, R s (s.pointCompleted n)) (notSent : ∀ s n, R s (s.pointNotSent n)) (records : List Record)
    (complete : Bool) (s : State) : R s (s.publicationOutcome records complete) := by
  unfold State.publicationOutcome
  refine foldl_rel R refl trans _ (fun s n => ?_) _ s
  cases complete
  · exact notSent s n
  · exact completed s n

theorem publicationOutcome_onlyOwned (records : List Record) (complete : Bool) (s : State) :
    OnlyOwned s (s.publicationOutcome records complete) :=
  publicationOutcome_rel OnlyOwned .refl .trans pointCompleted_onlyOwned pointNotSent_onlyOwned records complete s

theorem publicationOutcome_queue (records : List Record) (complete : Bool) (s : State) :
    OnlyQueue s (s.publicationOutcome records complete) :=
  publicationOutcome_rel OnlyQueue .refl .trans pointCompleted_queue (fun _ _ => rfl) records complete s

theorem startBurst_onlyOwned (s : State) : OnlyOwned s s.startBurst :=
  foldl_rel OnlyOwned .refl .trans _ (fun s n => joinUrgent_onlyOwned n s) _ s

theorem startBurst_queue (s : State) : OnlyQueue s s.startBurst :=
  foldl_rel OnlyQueue .refl .trans _ (fun s n => joinUrgent_queue n s) _ s

theorem markTaken_points (s : State) :
    s.markTaken.points = mapOwnedBy (fun p => if s.taken.contains p.number then Owned.take p.kind else fun o => o) s.points :=
  List.map_congr_left fun p _ => by by_cases e : s.taken.contains p.number = true <;> simp only [e, if_true, if_false, Bool.false_eq_true, Point.mapOwned_id]

theorem markTaken_onlyOwned (s : State) : OnlyOwned s s.markTaken :=
  ⟨_, markTaken_points s, fun p o => by split <;> rfl⟩

theorem clearMarks_points (s : State) :
    s.clearMarks.points = mapOwnedBy (fun _ o => { o with inFlight := false, dirty := false }) s.points := rfl

theorem enterHalted_onlyOwned (s : State) : OnlyOwned s s.enterHalted := ⟨_, clearMarks_points s, fun _ _ => rfl⟩

/-! ## The entry to RUNNING -/

/-- The station at the entry to RUNNING before the START burst (R185). -/
def State.atRunning (s : State) : State := { s with station := .running, joinTimer := none }

/-- The presence frames begin (R121, R123). -/
def State.beginPresence (s : State) : State :=
  { s with presencePending := true, presenceTimer := some (s.clock + s.period), bootCount := 0 }

/-- The entry to RUNNING, event by event (R185). -/
theorem enterRunning_eq (s : State) :
    s.enterRunning = s.atRunning.startBurst.startOverdueTimers.fillSolicits.beginPresence.evaluateWhere fun _ => true := rfl

theorem beginPresence_own {s : State} (running : s.station = .running) : OwnSteps s s.beginPresence :=
  .tail (.single (.books (t := { s with presencePending := true }) rfl (.inl running))) (.other rfl)

/-- What follows the START burst at the entry to RUNNING: overdue timers, solicit entries, presence, evaluation (R185). -/
theorem enterRunning_any (s : State) : AnySteps s.atRunning.startBurst s.enterRunning := by
  have timed : AnySteps s.atRunning.startBurst s.atRunning.startBurst.startOverdueTimers :=
    .single (.mirror rfl (ownedHalf_mapMirroredBy (fun _ m => _) _) (.inr (.inr id)) (.inr id))
  have running : s.atRunning.startBurst.startOverdueTimers.fillSolicits.station = .running :=
    (fillSolicits_tables _).station.trans (startBurst_queue s.atRunning).status.tables.station
  rw [enterRunning_eq]
  exact ((timed.trans (fillSolicits_any _)).trans (OwnSteps.any (beginPresence_own running))).trans
    (OwnSteps.any (evaluateWhere_own _ _))

/-! ## The choice of a frame -/

/-- The selector chooses in RUNNING, or a reply in UNCONFIGURED; in PROBING a presence frame, and in SILENCED nothing (R79, R80). -/
theorem choice_cases {s : State} {cls : FrameClass} (chosen : s.choice = some cls) :
    (s.station = .unconfigured ∧ cls = .reply)
    ∨ (s.station = .running ∧ (s.mode = .active ∨ (s.mode = .probing ∧ cls = .presence))) := by
  unfold State.choice at chosen
  split at chosen
  · next running active => exact .inr ⟨running, .inl active⟩
  · next running probing =>
    split at chosen
    · cases chosen; exact .inr ⟨running, .inr ⟨probing, rfl⟩⟩
    · cases chosen
  · cases chosen
  · next unconfigured =>
    split at chosen <;> cases chosen
    exact .inl ⟨unconfigured, rfl⟩
  · cases chosen
  · cases chosen
  · cases chosen

/-- What the selector's choice comes to: no frame, a publication frame, or one of another class (R50, R70, R79). -/
theorem transmit_cases (s : State) :
    s.transmit = s
    ∨ (∃ urgent, s.choice = some (TxContent.publication urgent s.nextRecords).cls
      ∧ s.transmit = s.markTaken.startFrame (.publication urgent s.nextRecords))
    ∨ ∃ content u, s.choice = some content.cls ∧ (∀ urgent records, content ≠ .publication urgent records)
      ∧ Moves s u ∧ s.transmit = u.startFrame content := by
  unfold State.transmit
  split
  · next chosen => exact .inr (.inl ⟨true, chosen, rfl⟩)
  · next chosen => exact .inr (.inl ⟨false, chosen, rfl⟩)
  · next chosen =>
    split
    · next r _ => exact .inr (.inr ⟨.reply r, s, chosen, fun _ _ h => by (cases h), .refl, rfl⟩)
    · exact .inl rfl
  · next chosen =>
    refine .inr (.inr ⟨.solicit s.nextSolicited, s.markSolicited, chosen, fun _ _ h => by (cases h), ?_, rfl⟩)
    exact (Move.solicitMarks (fun x => if x.ready && s.nextSolicited.contains x.point then { x with state := .waiting true } else x)
      (fun x => by split <;> rfl) (fun x => by split <;> rfl)).one
  · next chosen => exact .inr (.inr ⟨.presence s.presenceContent, s, chosen, fun _ _ h => by (cases h), .refl, rfl⟩)
  · exact .inl rfl
  · exact .inl rfl
  · exact .inl rfl

end Sys2Proof.Machine
end

