-- ==== Sys2Proof/Proofs/Configuration.lean ====
section
/-!
THEOREM. The configuration stays as the image gave it until the next restart (O15).
-/

namespace Sys2Proof.Machine

open Sys2Proof.Safety

/-- `t` has the configuration of `s` (R5, R22, R139, R182). -/
structure SameConfiguration (s t : State) : Prop where
  points : t.points.map fixedPoint = s.points.map fixedPoint
  pins : t.pins.map fixedPin = s.pins.map fixedPin
  outputs : t.outputs.map fixedOutput = s.outputs.map fixedOutput
  number : t.number = s.number
  straps : t.straps = s.straps
  header : t.header = s.header
  lineRate : t.lineRate = s.lineRate
  error : t.error = s.error

theorem SameConfiguration.refl (s : State) : SameConfiguration s s := ⟨rfl, rfl, rfl, rfl, rfl, rfl, rfl, rfl⟩

theorem SameConfiguration.trans {s t u : State} (h : SameConfiguration s t) (k : SameConfiguration t u) : SameConfiguration s u :=
  ⟨k.points.trans h.points, k.pins.trans h.pins, k.outputs.trans h.outputs, k.number.trans h.number, k.straps.trans h.straps,
    k.header.trans h.header, k.lineRate.trans h.lineRate, k.error.trans h.error⟩

theorem OnlyOwned.fixedPoints {s t : State} (h : OnlyOwned s t) : t.points.map fixedPoint = s.points.map fixedPoint := by
  obtain ⟨g, e, fixed⟩ := h
  rw [e, mapOwnedBy, List.map_map]
  refine List.map_congr_left fun p _ => ?_
  simp only [fixedOwned] at fixed
  simp [fixedPoint, Function.comp_def, fixed]

theorem fixedPoints_of_ownedHalf {l k : List Point} (h : ownedHalf k = ownedHalf l) : k.map fixedPoint = l.map fixedPoint := by
  let f (x : Nat × Kind × Option Owned) := (x.1, x.2.1, x.2.2.map fun o => (o.source, o.refreshClass, o.deadband, o.threshold))
  have read : ∀ l : List Point, l.map fixedPoint = (ownedHalf l).map f := fun l => by
    simp [ownedHalf, f, Function.comp_def, fixedPoint]
  rw [read, read, h]

/-- Only the points change in their OWNED fields, in the queue and in nothing else that is configuration. -/
theorem SameConfiguration.of_queue {s t : State} (only : OnlyQueue s t) (owned : OnlyOwned s t) : SameConfiguration s t := by
  have points := owned.fixedPoints
  exact ⟨points, by rw [only], by rw [only], by rw [only], by rw [only], by rw [only], by rw [only], by rw [only]⟩

theorem OwnStep.sameConfiguration {s t : State} (h : OwnStep s t) : SameConfiguration s t := by
  have points : t.points.map fixedPoint = s.points.map fixedPoint := OnlyOwned.fixedPoints h.points
  cases h with
  | other only => exact ⟨points, by rw [only], by rw [only], by rw [only], by rw [only], by rw [only], by rw [only], by rw [only]⟩
  | books only => exact ⟨points, by rw [only], by rw [only], by rw [only], by rw [only], by rw [only], by rw [only], by rw [only]⟩
  | outputs only fixed => exact ⟨points, by rw [only], fixed, by rw [only], by rw [only], by rw [only], by rw [only], by rw [only]⟩
  | pins only fixed => exact ⟨points, fixed, by rw [only], by rw [only], by rw [only], by rw [only], by rw [only], by rw [only]⟩
  | touched g only => exact ⟨points, by rw [only], by rw [only], by rw [only], by rw [only], by rw [only], by rw [only], by rw [only]⟩
  | released => exact ⟨points, rfl, rfl, rfl, rfl, rfl, rfl, rfl⟩
  | mode => exact ⟨points, rfl, rfl, rfl, rfl, rfl, rfl, rfl⟩
  | joinUrgent | joinRoutine | promote | setDirty | yielded => exact ⟨points, rfl, rfl, rfl, rfl, rfl, rfl, rfl⟩

theorem AnyStep.sameConfiguration {s t : State} (h : AnyStep s t) : SameConfiguration s t := by
  cases h with
  | own step => exact step.sameConfiguration
  | mirror only owned =>
    have points := fixedPoints_of_ownedHalf owned
    exact ⟨points, by rw [only], by rw [only], by rw [only], by rw [only], by rw [only], by rw [only], by rw [only]⟩

theorem AnySteps.sameConfiguration {s t : State} (h : AnySteps s t) : SameConfiguration s t :=
  chain_keeps (fun step kept => kept.trans step.sameConfiguration) h (.refl s)

theorem startFrame_sameConfiguration (content : TxContent) (s : State) : SameConfiguration s (s.startFrame content) :=
  ⟨rfl, rfl, rfl, rfl, rfl, rfl, rfl, rfl⟩

theorem transmit_sameConfiguration (s : State) : SameConfiguration s s.transmit := by
  rcases transmit_cases s with e | ⟨urgent, -, e⟩ | ⟨content, u, -, -, moves, e⟩ <;> rw [e]
  · exact .refl s
  · exact (SameConfiguration.of_queue (t := s.markTaken) rfl (markTaken_onlyOwned s)).trans (startFrame_sameConfiguration _ _)
  · exact (AnySteps.sameConfiguration (Moves.any moves)).trans (startFrame_sameConfiguration _ _)

theorem enterRunning_sameConfiguration (s : State) : SameConfiguration s s.enterRunning :=
  have running : SameConfiguration s s.atRunning := ⟨rfl, rfl, rfl, rfl, rfl, rfl, rfl, rfl⟩
  (running.trans (.of_queue (startBurst_queue _) (startBurst_onlyOwned _))).trans (AnySteps.sameConfiguration (enterRunning_any s))

theorem enterHalted_sameConfiguration (s : State) : SameConfiguration s s.enterHalted where
  points := (enterHalted_onlyOwned s).fixedPoints
  pins := by simp [State.enterHalted, Function.comp_def, fixedPin]
  outputs := rfl
  number := rfl
  straps := rfl
  header := rfl
  lineRate := rfl
  error := rfl

/-- An effect that neither ends a load nor restarts keeps the configuration. -/
theorem Effect.sameConfiguration {s t : State} (h : Effect s t) (unloaded : s.loading = false) (left : t.station ≠ .starting) :
    SameConfiguration s t := by
  have silent : SameConfiguration s { s with inFlight := none } := ⟨rfl, rfl, rfl, rfl, rfl, rfl, rfl, rfl⟩
  cases h with
  | moved moves => exact AnySteps.sameConfiguration (Moves.any moves)
  | restarted u cause => exact absurd rfl left
  | failedLoad _ _ _ loading => rw [unloaded] at loading; cases loading
  | loaded _ _ _ _ loading => rw [unloaded] at loading; cases loading
  | entered due =>
    exact (AnySteps.sameConfiguration (OwnSteps.any (advanceTo_own due s))).trans (enterRunning_sameConfiguration _)
  | halted moves => exact (AnySteps.sameConfiguration (Moves.any moves)).trans (enterHalted_sameConfiguration _)
  | transmitted moves => exact (AnySteps.sameConfiguration (Moves.any moves)).trans (transmit_sameConfiguration _)
  | publicationEnded f urgent records complete _ _ moves =>
    exact (silent.trans (AnySteps.sameConfiguration (Moves.any moves))).trans
      (.of_queue (publicationOutcome_queue records complete _) (publicationOutcome_onlyOwned records complete _))
  | frameEnded f _ _ moves => exact silent.trans (AnySteps.sameConfiguration (Moves.any moves))
  | peerLost p before live moves =>
    exact ((AnySteps.sameConfiguration (Moves.any before)).trans (AnySteps.sameConfiguration (updatePeer_any p _ _))).trans
      (AnySteps.sameConfiguration (Moves.any moves))

/-- Settles O15: every effect of a command but a load and a restart keeps the configuration. -/
theorem configurationIsFixed : Obligations.ConfigurationIsFixed := by
  intro c s t run _ unloaded left
  have same := (exec_effect run).sameConfiguration unloaded left
  exact ⟨same.points, same.pins, same.outputs, same.number, same.straps, same.header, same.lineRate, same.error⟩

end Sys2Proof.Machine
end

