-- ==== Sys2Proof/Proofs/Stations.lean ====
section
/-!
THEOREM. Every step keeps the contents and the transmissions that each station state allows (O3).
-/

namespace Sys2Proof.Machine

open Sys2Proof.Safety

/-! ## The contents of a station state -/

/-- What keeps `StationLawful`: the station's own fields stay, empty tables stay empty, and outside RUNNING so do the lists that fill in
RUNNING only. -/
structure StationStays (s t : State) : Prop where
  station : t.station = s.station
  number : t.number = s.number
  joinTimer : t.joinTimer = s.joinTimer
  loading : t.loading = s.loading
  supplyAbove : t.supplyAbove = s.supplyAbove
  resetHigh : t.resetHigh = s.resetHigh
  points : s.points = [] → t.points = []
  pins : s.pins = [] → t.pins = []
  outputs : s.outputs = [] → t.outputs = []
  roster : s.points = [] → s.station.live = false → s.roster = [] → t.roster = []
  queue : s.station ≠ .running → s.station ≠ .halted → s.queue = [] → t.queue = []
  solicits : s.station ≠ .running → s.solicits = [] → t.solicits = []
  recent : s.station ≠ .running → t.recent = s.recent
  pendingRestart : s.station ≠ .running → t.pendingRestart = s.pendingRestart
  presencePending : s.station ≠ .running → s.presencePending = false → t.presencePending = false
  mode : s.station ≠ .running → t.mode = s.mode
  off : s.station ≠ .running → OutputsOff s.outputs → OutputsOff t.outputs

theorem StationStays.lawful {s t : State} (h : StationStays s t) (lawful : StationLawful s) : StationLawful t := by
  obtain ⟨empty, quiet, numbered, joining, load⟩ := lawful
  refine ⟨fun st => ?_, fun notRunning notHalted => ?_, fun st => ?_, ?_, fun loading => ?_⟩
  · rw [h.station] at st
    obtain ⟨points, pins, outputs, roster⟩ := empty st
    have dead : s.station.live = false := by rcases st with e | e <;> rw [e] <;> rfl
    exact ⟨h.points points, h.pins pins, h.outputs outputs, h.roster points dead roster⟩
  · rw [h.station] at notRunning notHalted
    obtain ⟨queue, solicits, recent, pendingRestart, presencePending, mode, off⟩ := quiet notRunning notHalted
    exact ⟨h.queue notRunning notHalted queue, h.solicits notRunning solicits, (h.recent notRunning).trans recent,
      (h.pendingRestart notRunning).trans pendingRestart, h.presencePending notRunning presencePending,
      (h.mode notRunning).trans mode, h.off notRunning off⟩
  · rw [h.station] at st; rw [h.number]; exact numbered st
  · rw [h.station, h.joinTimer]; exact joining
  · rw [h.loading] at loading; rw [h.station, h.supplyAbove, h.resetHigh]; exact load loading

theorem StationStays.refl (s : State) : StationStays s s :=
  ⟨rfl, rfl, rfl, rfl, rfl, rfl, id, id, id, fun _ _ => id, fun _ _ => id, fun _ => id, fun _ => rfl, fun _ => rfl, fun _ => id,
    fun _ => rfl, fun _ => id⟩

theorem OnlyOwned.empty {s t : State} (h : OnlyOwned s t) (empty : s.points = []) : t.points = [] := by
  obtain ⟨g, e, -⟩ := h
  rw [e, empty]; rfl

/-- A change of owned entries and of the queue, the queue empty where it was or the station RUNNING. -/
theorem StationStays.of_queue {s t : State} (only : OnlyQueue s t) (owned : OnlyOwned s t)
    (queue : s.station ≠ .running → s.station ≠ .halted → s.queue = [] → t.queue = []) : StationStays s t :=
  { StationStays.refl s with
    station := by rw [only], number := by rw [only], joinTimer := by rw [only], loading := by rw [only]
    supplyAbove := by rw [only], resetHigh := by rw [only]
    points := owned.empty, queue
    pins := fun h => by rw [only]; exact h
    outputs := fun h => by rw [only]; exact h
    roster := fun _ _ h => by rw [only]; exact h
    solicits := fun _ h => by rw [only]; exact h
    recent := fun _ => by rw [only]
    pendingRestart := fun _ => by rw [only]
    presencePending := fun _ h => by rw [only]; exact h
    mode := fun _ => by rw [only]
    off := fun _ h => by rw [only]; exact h }

theorem queue_eq_nil {s : State} : s.queue = [] ↔ s.urgent = [] ∧ s.routine = [] := by simp [State.queue]

theorem queue_leaveQueue (n : Nat) (sched : Sched) (s : State) (h : s.queue = []) : (s.leaveQueue n sched).queue = [] := by
  obtain ⟨urgent, routine⟩ := queue_eq_nil.mp h
  exact queue_eq_nil.mpr ⟨by rw [State.leaveQueue_urgent, urgent]; rfl, by rw [State.leaveQueue_routine, routine]; rfl⟩

theorem OwnStep.stationLawful {s t : State} (h : OwnStep s t) (lawful : StationLawful s) : StationLawful t := by
  have owned : OnlyOwned s t := h.points
  have inRunning : OnlyQueue s t → s.station = .running → StationStays s t := fun only running =>
    .of_queue only owned fun notRunning => absurd running notRunning
  cases h with
  | other only =>
    refine StationStays.lawful ?_ lawful
    rw [only]
    exact { StationStays.refl s with }
  | books only running =>
    refine StationStays.lawful ?_ lawful
    rcases running with running | ⟨pending, recent, restart⟩
    · rw [only]
      exact { StationStays.refl s with
        recent := absurd running, pendingRestart := absurd running, presencePending := absurd running }
    · rw [only]
      exact { StationStays.refl s with
        recent := fun _ => recent, pendingRestart := fun _ => restart, presencePending := fun _ _ => pending }
  | released low =>
    obtain ⟨empty, quiet, numbered, joining, load⟩ := lawful
    refine ⟨empty, quiet, numbered, joining, fun loading => ?_⟩
    rcases Bool.or_eq_true_iff.mp loading with old | new
    · exact absurd (load old).2.2 (by simp [low])
    · obtain ⟨starting, supply⟩ := Bool.and_eq_true_iff.mp new
      exact ⟨by simpa using starting, supply, rfl⟩
  | mode m running =>
    exact StationStays.lawful { StationStays.refl s with mode := absurd running } lawful
  | outputs only fixed off =>
    refine StationStays.lawful ?_ lawful
    have empty : s.outputs = [] → t.outputs = [] := fun h => by
      rw [h, List.map_nil, List.map_eq_nil_iff] at fixed; exact fixed
    rw [only]
    exact { StationStays.refl s with
      outputs := empty
      off := fun notRunning => off.elim (fun running => absurd running notRunning) id }
  | pins only fixed =>
    refine StationStays.lawful ?_ lawful
    have empty : s.pins = [] → t.pins = [] := fun h => by
      rw [h, List.map_nil, List.map_eq_nil_iff] at fixed; exact fixed
    rw [only]
    exact { StationStays.refl s with pins := empty }
  | touched g only =>
    exact StationStays.lawful (.of_queue (by rw [only]; rfl) owned fun _ _ h => by rw [only]; exact h) lawful
  | joinUrgent n o running => exact (inRunning rfl running).lawful lawful
  | joinRoutine n o running => exact (inRunning rfl running).lawful lawful
  | promote n o running => exact (inRunning rfl running).lawful lawful
  | setDirty n => exact (StationStays.of_queue (t := s.setDirty n) rfl owned fun _ _ h => h).lawful lawful
  | yielded n =>
    exact (StationStays.of_queue (yieldPoint_queue n s) owned fun _ _ => queue_leaveQueue n .yielded s).lawful lawful

theorem AnyStep.stationLawful {s t : State} (h : AnyStep s t) (lawful : StationLawful s) : StationLawful t := by
  cases h with
  | own step => exact step.stationLawful lawful
  | mirror only owned roster solicits =>
    refine StationStays.lawful ?_ lawful
    have empty : s.points = [] → t.points = [] := eq_nil_of_ownedHalf owned
    have emptyRoster : s.points = [] → s.station.live = false → s.roster = [] → t.roster = [] := fun points dead =>
      roster.elim (absurd points) (Or.rec (fun live => by rw [dead] at live; cases live) id)
    rw [only]
    exact { StationStays.refl s with
      points := empty, roster := emptyRoster
      solicits := fun notRunning => solicits.elim (fun running => absurd running notRunning) id }

theorem AnySteps.stationLawful {s t : State} (h : AnySteps s t) : StationLawful s → StationLawful t :=
  chain_keeps (P := StationLawful) AnyStep.stationLawful h

/-! ## The frame on the line -/

/-- The station state and the line mode allow a frame of this content (R67, R80). -/
def Allowed (station : StationState) (mode : LineMode) (content : TxContent) : Prop :=
  (station = .unconfigured ∧ content.cls = .reply)
  ∨ (station = .running ∧ (mode = .active ∨ (mode = .probing ∧ content.cls = .presence)))

/-- The law of the frame on the line, in one line. -/
theorem transmitLawful_iff (s : State) :
    TransmitLawful s ↔ ∀ f, s.inFlight = some f → s.number = some f.sender ∧ Allowed s.station s.mode f.content := by
  unfold TransmitLawful Allowed
  refine forall_congr' fun f => imp_congr_right fun _ => and_congr_right fun _ => ?_
  cases s.station <;> cases s.mode <;> simp

theorem transmitLawful_of_idle {s : State} (idle : s.inFlight = none) : TransmitLawful s := fun f flying => by
  rw [idle] at flying; cases flying

theorem OwnStep.transmitLawful {s t : State} (h : OwnStep s t) (lawful : TransmitLawful s) : TransmitLawful t := by
  have same := h.sameMirror
  have still : t.mode = s.mode → TransmitLawful t := fun mode => by
    rw [transmitLawful_iff] at lawful ⊢
    rw [same.station, same.inFlight, same.number, mode]
    exact lawful
  cases h with
  | other only => exact still (by rw [only])
  | books only => exact still (by rw [only])
  | outputs only => exact still (by rw [only])
  | pins only => exact still (by rw [only])
  | touched g only => exact still (by rw [only])
  | mode m running quiet =>
    rcases quiet with idle | silenced
    · exact transmitLawful_of_idle idle
    · refine transmitLawful_of_idle ?_
      rw [transmitLawful_iff] at lawful
      refine Option.eq_none_iff_forall_ne_some.mpr fun f flying => ?_
      have := (lawful f flying).2
      simp [Allowed, running, silenced] at this
  | released | joinUrgent | joinRoutine | promote | setDirty | yielded => exact still rfl

theorem AnyStep.transmitLawful {s t : State} (h : AnyStep s t) (lawful : TransmitLawful s) : TransmitLawful t := by
  cases h with
  | own step => exact step.transmitLawful lawful
  | mirror only => rw [only]; exact lawful

theorem AnySteps.transmitLawful {s t : State} (h : AnySteps s t) : TransmitLawful s → TransmitLawful t :=
  chain_keeps (P := TransmitLawful) AnyStep.transmitLawful h

/-- The small steps keep the station state. -/
theorem AnyStep.sameStation {s t : State} (h : AnyStep s t) :
    t.station = s.station ∧ t.number = s.number ∧ t.inFlight = s.inFlight := by
  cases h with
  | own step => exact ⟨step.sameMirror.station, step.sameMirror.number, step.sameMirror.inFlight⟩
  | mirror only => rw [only]; exact ⟨rfl, rfl, rfl⟩

theorem AnySteps.sameStation {s t : State} (h : AnySteps s t) :
    t.station = s.station ∧ t.number = s.number ∧ t.inFlight = s.inFlight :=
  chain_keeps (P := fun u => u.station = s.station ∧ u.number = s.number ∧ u.inFlight = s.inFlight)
    (fun step ⟨station, number, flight⟩ => by
      obtain ⟨station', number', flight'⟩ := step.sameStation
      exact ⟨station'.trans station, number'.trans number, flight'.trans flight⟩) h ⟨rfl, rfl, rfl⟩

/-! ## Restart and load -/

theorem stationLawful_restart (cause : Cause) (s : State) : StationLawful (s.restart cause) := by
  refine ⟨fun _ => ⟨rfl, rfl, rfl, rfl⟩, fun _ _ => ⟨rfl, rfl, rfl, rfl, rfl, rfl, fun _ h => (by cases h)⟩, fun st => ?_, ?_, fun load => ?_⟩
  · rcases st with e | e | e <;> cases e
  · exact ⟨fun e => (by cases e), fun e => (by cases e)⟩
  · obtain ⟨supply, high⟩ := Bool.and_eq_true_iff.mp load
    exact ⟨rfl, supply, high⟩

theorem outputsOff_fill (im : Image) : OutputsOff (fillOutputs im) := by
  intro o ho
  obtain ⟨i, -, rfl⟩ := List.mem_map.mp ho
  exact ⟨rfl, rfl, rfl⟩

/-- Where a load is in progress the station is STARTING and holds nothing (R178, R179). -/
theorem loading_empty {s : State} (lawful : StationLawful s) (loading : s.loading = true) :
    s.station = .starting ∧ (s.points = [] ∧ s.pins = [] ∧ s.outputs = [] ∧ s.roster = [])
      ∧ s.queue = [] ∧ s.solicits = [] ∧ s.recent = [] ∧ s.pendingRestart = none ∧ s.presencePending = false ∧ s.mode = .active
      ∧ s.joinTimer = none := by
  obtain ⟨empty, quiet, -, joining, load⟩ := lawful
  have starting := (load loading).1
  obtain ⟨queue, solicits, recent, restart, pending, mode, -⟩ := quiet (by simp [starting]) (by simp [starting])
  have noJoin : s.joinTimer = none := by
    rw [starting] at joining
    simpa using joining
  exact ⟨starting, empty (.inl starting), queue, solicits, recent, restart, pending, mode, noJoin⟩

theorem starting_idle {s : State} (lawful : TransmitLawful s) (starting : s.station = .starting) : s.inFlight = none := by
  rw [transmitLawful_iff] at lawful
  refine Option.eq_none_iff_forall_ne_some.mpr fun f flying => ?_
  have := (lawful f flying).2
  simp [Allowed, starting] at this

theorem stationLawful_noImage (error : ConfigError) (straps : Station) {s : State} (lawful : StationLawful s)
    (loading : s.loading = true) : StationLawful (s.noImage error straps) := by
  obtain ⟨starting, ⟨points, pins, outputs, roster⟩, queue, solicits, recent, restart, pending, mode, noJoin⟩ :=
    loading_empty lawful loading
  have quiet : (s.noImage error straps).queue = [] ∧ s.solicits = [] ∧ s.recent = [] ∧ s.pendingRestart = none
      ∧ s.presencePending = false ∧ s.mode = .active ∧ OutputsOff s.outputs :=
    ⟨queue, solicits, recent, restart, pending, mode, fun o ho => by rw [outputs] at ho; cases ho⟩
  cases number : usableNumber straps with
  | none =>
    have e : s.noImage error straps = State.leaveStarting straps none .kbit50 .halted { s with error := error } := by
      simp [State.noImage, number]
    rw [e]
    refine ⟨fun st => ?_, fun _ h => absurd rfl h, fun st => ?_, ?_, fun h => by cases h⟩
    · rcases st with e | e <;> cases e
    · rcases st with e | e | e <;> cases e
    · rw [show (State.leaveStarting straps none .kbit50 .halted { s with error := error }).joinTimer = none from noJoin]
      exact ⟨fun e => (by cases e), fun e => (by cases e)⟩
  | some p =>
    have e : s.noImage error straps = State.leaveStarting straps (some p) .kbit50 .unconfigured { s with error := error } := by
      simp [State.noImage, number]
    rw [e] at quiet ⊢
    refine ⟨fun _ => ⟨points, pins, outputs, roster⟩, fun _ _ => quiet, fun _ => rfl, ?_, fun h => by cases h⟩
    rw [show (State.leaveStarting straps (some p) .kbit50 .unconfigured { s with error := error }).joinTimer = none from noJoin]
    exact ⟨fun e => (by cases e), fun e => (by cases e)⟩

theorem stationLawful_validImage (im : Image) (straps : Station) (inputs : PinInputs) {s : State} (lawful : StationLawful s)
    (loading : s.loading = true) : StationLawful (s.validImage im straps inputs) := by
  obtain ⟨-, -, queue, solicits, recent, restart, pending, mode, noJoin⟩ := loading_empty lawful loading
  unfold State.validImage
  dsimp only
  split
  · refine ⟨fun st => ?_, fun _ h => absurd rfl h, fun st => ?_, ⟨fun e => ?_, fun e => ?_⟩, fun h => ?_⟩
    · rcases st with e | e <;> cases e
    · rcases st with e | e | e <;> cases e
    · cases e
    · change s.joinTimer.isSome = true at e
      rw [noJoin] at e; cases e
    · cases h
  · refine ⟨fun st => ?_, fun _ _ => ⟨queue, solicits, recent, restart, pending, mode, outputsOff_fill im⟩, fun _ => rfl,
      ⟨fun _ => rfl, fun _ => rfl⟩, fun h => by cases h⟩
    rcases st with e | e <;> cases e

theorem inFlight_noImage (error : ConfigError) (straps : Station) (s : State) : (s.noImage error straps).inFlight = s.inFlight := rfl

theorem inFlight_validImage (im : Image) (straps : Station) (inputs : PinInputs) (s : State) :
    (s.validImage im straps inputs).inFlight = s.inFlight := by
  unfold State.validImage
  dsimp only
  split <;> rfl

/-! ## The entries to RUNNING and HALTED, and the choice of a frame -/

theorem stationLawful_atRunning {s : State} (lawful : StationLawful s) (joining : s.station = .joining) :
    StationLawful s.atRunning := by
  obtain ⟨-, -, numbered, -, load⟩ := lawful
  refine ⟨fun st => ?_, fun h => absurd rfl h, fun _ => numbered (.inl joining), ⟨fun e => ?_, fun e => ?_⟩, fun loading => ?_⟩
  · rcases st with e | e <;> cases e
  · cases e
  · cases e
  · have := (load loading).1
    rw [joining] at this; cases this

theorem stationLawful_enterRunning {s : State} (lawful : StationLawful s) (joining : s.station = .joining) :
    StationLawful s.enterRunning := by
  have burst : StationStays s.atRunning s.atRunning.startBurst :=
    .of_queue (startBurst_queue _) (startBurst_onlyOwned _) fun h => absurd rfl h
  exact AnySteps.stationLawful (enterRunning_any s) (burst.lawful (stationLawful_atRunning lawful joining))

theorem stationLawful_enterHalted {s : State} (lawful : StationLawful s) (dispatches : s.station.dispatches = true) :
    StationLawful s.enterHalted := by
  obtain ⟨-, -, -, -, load⟩ := lawful
  refine ⟨fun st => ?_, fun _ h => absurd rfl h, fun st => ?_, ⟨fun e => ?_, fun e => ?_⟩, fun loading => ?_⟩
  · rcases st with e | e <;> cases e
  · rcases st with e | e | e <;> cases e
  · cases e
  · cases e
  · have := (load loading).1
    rw [this] at dispatches; cases dispatches

theorem startFrame_stays (content : TxContent) (s : State) : StationStays s (s.startFrame content) :=
  { StationStays.refl s with }

theorem stationLawful_transmit {s : State} (lawful : StationLawful s) : StationLawful s.transmit := by
  rcases transmit_cases s with e | ⟨urgent, -, e⟩ | ⟨content, u, -, -, moves, e⟩ <;> rw [e]
  · exact lawful
  · have marked : StationStays s s.markTaken := .of_queue rfl (markTaken_onlyOwned s) fun _ _ h => h
    exact (startFrame_stays _ _).lawful (marked.lawful lawful)
  · exact (startFrame_stays _ _).lawful (AnySteps.stationLawful (Moves.any moves) lawful)

/-- A station that chooses a frame has a number (R178, R182), and sends under it. -/
theorem transmitLawful_startFrame {s u : State} (lawful : StationLawful s) {content : TxContent} (chosen : s.choice = some content.cls)
    (station : u.station = s.station) (number : u.number = s.number) (mode : u.mode = s.mode) :
    TransmitLawful (u.startFrame content) := by
  obtain ⟨-, -, numbered, -, -⟩ := lawful
  have allowed : Allowed s.station s.mode content := (choice_cases chosen).imp_left id
  have has : s.number.isSome = true := by
    rcases allowed with ⟨e, -⟩ | ⟨e, -⟩
    · exact numbered (.inr (.inr e))
    · exact numbered (.inr (.inl e))
  rw [transmitLawful_iff]
  rintro f flying
  obtain rfl : { sender := u.number.getD 0, content := content } = f := by simpa [State.startFrame] using flying
  refine ⟨?_, ?_⟩
  · obtain ⟨p, hp⟩ := Option.isSome_iff_exists.mp has
    simp [State.startFrame, number, hp]
  · simpa [State.startFrame, station, mode] using allowed

theorem OnlyTables.mode {s t : State} (h : OnlyTables s t) : t.mode = s.mode := by rw [h]

theorem transmitLawful_transmit {s : State} (station : StationLawful s) (idle : s.inFlight = none) : TransmitLawful s.transmit := by
  unfold State.transmit
  split
  · next chosen => exact transmitLawful_startFrame station (content := .publication true _) chosen rfl rfl rfl
  · next chosen => exact transmitLawful_startFrame station (content := .publication false _) chosen rfl rfl rfl
  · next chosen =>
    split
    · next r _ => exact transmitLawful_startFrame station (content := .reply r) chosen rfl rfl rfl
    · exact transmitLawful_of_idle idle
  · next chosen => exact transmitLawful_startFrame station (content := .solicit _) chosen rfl rfl rfl
  · next chosen => exact transmitLawful_startFrame station (content := .presence _) chosen rfl rfl rfl
  · exact transmitLawful_of_idle idle
  · exact transmitLawful_of_idle idle
  · exact transmitLawful_of_idle idle

/-! ## Every effect -/

/-- Every effect keeps the contents of the station states, if an ended publication frame leaves an empty queue empty: in RUNNING there is
nothing to keep, and elsewhere no point carries the in-flight mark. -/
theorem Effect.stationLawful {s t : State} (h : Effect s t) (lawful : StationLawful s)
    (ended : ∀ f urgent records complete u, s.inFlight = some f → f.content = .publication urgent records →
      AnySteps { s with inFlight := none } u → u.station ≠ .running → u.station ≠ .halted → u.queue = [] →
      (u.publicationOutcome records complete).queue = []) : StationLawful t := by
  have kept : ∀ {u v : State}, Moves u v → StationLawful u → StationLawful v := fun moves =>
    AnySteps.stationLawful (Moves.any moves)
  cases h with
  | moved moves => exact kept moves lawful
  | restarted u cause => exact stationLawful_restart cause u
  | failedLoad e error straps loading => exact stationLawful_noImage error straps (kept (advance_moves e s) lawful) loading
  | loaded e im straps inputs loading => exact stationLawful_validImage im straps inputs (kept (advance_moves e s) lawful) loading
  | entered due joining => exact stationLawful_enterRunning (kept (advanceTo_moves due s) lawful) joining
  | halted moves dispatches => exact stationLawful_enterHalted (kept moves lawful) dispatches
  | transmitted moves => exact stationLawful_transmit (kept moves lawful)
  | publicationEnded f urgent records complete flying content moves =>
    exact StationStays.lawful (.of_queue (publicationOutcome_queue records complete _)
      (publicationOutcome_onlyOwned records complete _)
      (ended f urgent records complete _ flying content (Moves.any moves))) (kept moves lawful)
  | frameEnded f _ _ moves => exact kept moves lawful
  | peerLost p before _ moves =>
    exact kept moves (AnySteps.stationLawful (updatePeer_any p _ _) (kept before lawful))

theorem Effect.transmitLawful {s t : State} (h : Effect s t) (station : StationLawful s) (lawful : TransmitLawful s) :
    TransmitLawful t := by
  have kept : ∀ {u v : State}, Moves u v → TransmitLawful u → TransmitLawful v := fun moves =>
    AnySteps.transmitLawful (Moves.any moves)
  have idleKept : ∀ {u v : State}, Moves u v → u.inFlight = none → v.inFlight = none := fun moves idle =>
    (AnySteps.sameStation (Moves.any moves)).2.2.trans idle
  cases h with
  | moved moves => exact kept moves lawful
  | restarted u cause => exact transmitLawful_of_idle rfl
  | failedLoad e error straps loading =>
    exact transmitLawful_of_idle (s := (s.advance e).noImage error straps)
      (starting_idle (s := s) lawful (loading_empty station loading).1)
  | loaded e im straps inputs loading =>
    exact transmitLawful_of_idle ((inFlight_validImage im straps inputs _).trans
      (starting_idle lawful (loading_empty station loading).1))
  | entered due joining =>
    have idle : s.inFlight = none := by
      rw [transmitLawful_iff] at lawful
      refine Option.eq_none_iff_forall_ne_some.mpr fun f flying => ?_
      have := (lawful f flying).2
      simp [Allowed, joining] at this
    refine transmitLawful_of_idle ((AnySteps.sameStation (enterRunning_any _)).2.2.trans ?_)
    rw [startBurst_queue]
    exact idle
  | halted => exact transmitLawful_of_idle rfl
  | transmitted moves idle =>
    exact transmitLawful_transmit (AnySteps.stationLawful (Moves.any moves) station) idle
  | publicationEnded f urgent records complete _ _ moves =>
    exact transmitLawful_of_idle ((publicationOutcome_queue records complete _).status.tables.inFlight.trans
      (idleKept moves rfl))
  | frameEnded f _ _ moves => exact transmitLawful_of_idle (idleKept moves rfl)
  | peerLost p before _ moves =>
    exact kept moves (AnySteps.transmitLawful (updatePeer_any p _ _) (kept before lawful))

/-- Settles O3: a publication frame is on the line in RUNNING only, so every effect keeps both laws. -/
theorem stepKeepsStations : Obligations.StepKeepsStations := by
  intro s t station transmit run
  rcases step_effect run with rfl | ⟨rest, effect⟩
  · exact ⟨station, transmit⟩
  · refine ⟨effect.stationLawful station fun f urgent records complete u flying content steps notRunning => ?_,
      effect.transmitLawful station transmit⟩
    have allowed := ((transmitLawful_iff s).mp transmit f flying).2
    rcases allowed with ⟨-, reply⟩ | ⟨running, -⟩
    · rw [content] at reply
      cases urgent <;> cases reply
    · exact absurd ((AnySteps.sameStation steps).1.trans running) notRunning

end Sys2Proof.Machine
end

