-- ==== Sys2Proof/Proofs/Yielded.lean ====
section
/-!
THEOREM. A YIELDED point stays YIELDED and out of the queue until a restart (O17).
-/

namespace Sys2Proof.Machine

open Sys2Proof.Safety

/-- Point n of a table of distinct numbers is YIELDED and out of the queue, without a mark in flight, with a stopped refresh timer and the given
compare base (R12). -/
structure YieldedAt (n : Nat) (base : Option Byte) (s : State) : Prop where
  distinct : (s.points.map Point.number).Nodup
  out : n ∉ s.queue
  entry : ∃ o, s.ownedAt n = some o ∧ o.sched = .yielded ∧ o.inFlight = false ∧ o.refreshTimer = none ∧ o.compareBase = base

/-- A state with the same points and queue. -/
theorem YieldedAt.of_same {n : Nat} {base : Option Byte} {s t : State} (h : YieldedAt n base s) (points : t.points = s.points)
    (queue : t.queue = s.queue) : YieldedAt n base t where
  distinct := points ▸ h.distinct
  out := queue ▸ h.out
  entry := by rw [ownedAt_congr (s := s) (by rw [points]) n]; exact h.entry

/-- A change of the OWNED fields of a number that is not n or keeps what n shows. -/
theorem YieldedAt.of_entries {n : Nat} {base : Option Byte} {s t : State} (h : YieldedAt n base s) (owned : OnlyOwned s t)
    (out : n ∉ t.queue)
    (entry : ∀ o, s.ownedAt n = some o → o.sched = .yielded → o.inFlight = false → o.refreshTimer = none →
      ∃ o', t.ownedAt n = some o' ∧ o'.sched = .yielded ∧ o'.inFlight = false ∧ o'.refreshTimer = none
        ∧ o'.compareBase = o.compareBase) : YieldedAt n base t := by
  obtain ⟨o, at_n, yielded, idle, stopped, based⟩ := h.entry
  obtain ⟨o', at_n', yielded', idle', stopped', based'⟩ := entry o at_n yielded idle stopped
  exact ⟨owned.numbers ▸ h.distinct, out, o', at_n', yielded', idle', stopped', based'.trans based⟩

theorem not_mem_queue {n : Nat} {s : State} : n ∉ s.queue ↔ n ∉ s.urgent ∧ n ∉ s.routine := by simp [State.queue]

/-- Another number of the queue moves. -/
theorem YieldedAt.ne_of_sched {n k : Nat} {base : Option Byte} {s : State} (h : YieldedAt n base s) {o : Owned}
    (entry : s.ownedAt k = some o) (other : o.sched ≠ .yielded) : n ≠ k := by
  rintro rfl
  obtain ⟨o', at_n, yielded, -⟩ := h.entry
  rw [entry] at at_n; cases at_n
  exact other yielded

theorem OwnStep.yieldedAt {n : Nat} {base : Option Byte} {s t : State} (step : OwnStep s t) (h : YieldedAt n base s) :
    YieldedAt n base t := by
  have owned : OnlyOwned s t := step.points
  have ⟨notUrgent, notRoutine⟩ := not_mem_queue.mp h.out
  cases step with
  | other only => exact h.of_same (by rw [only]) (by rw [only]; rfl)
  | books only => exact h.of_same (by rw [only]) (by rw [only]; rfl)
  | outputs only => exact h.of_same (by rw [only]) (by rw [only]; rfl)
  | pins only => exact h.of_same (by rw [only]) (by rw [only]; rfl)
  | released => exact h.of_same rfl rfl
  | mode => exact h.of_same rfl rfl
  | touched g only fields timer =>
    refine h.of_entries owned (by rw [only]; exact h.out) fun o entry yielded idle stopped => ?_
    obtain ⟨p, found, -, -, ho⟩ := ownedAt_entry entry
    refine ⟨g p o, by rw [ownedAt_mapOwnedBy (by rw [only]), found]; simp [ho], ?_⟩
    have timer := timer p o
    rw [stopped, or_self] at timer
    refine ⟨?_, ?_, timer, ?_⟩
    · rw [fields]; exact yielded
    · rw [fields]; exact idle
    · rw [fields]
  | joinUrgent k o _ entry quiet =>
    have other := h.ne_of_sched entry (by simp [quiet])
    refine h.of_entries owned (not_mem_queue.mpr ⟨by simp [notUrgent, other], notRoutine⟩) fun o' at_n yielded idle stopped => ?_
    exact ⟨o', by simp [ownedAt_joinUrgent, at_n, other], yielded, idle, stopped, rfl⟩
  | joinRoutine k o _ entry quiet =>
    have other := h.ne_of_sched entry (by simp [quiet])
    refine h.of_entries owned (not_mem_queue.mpr ⟨notUrgent, by simp [notRoutine, other]⟩) fun o' at_n yielded idle stopped => ?_
    exact ⟨o', by simp [ownedAt_joinRoutine, at_n, other], yielded, idle, stopped, rfl⟩
  | promote k o _ entry routine =>
    have other := h.ne_of_sched entry (by simp [routine])
    refine h.of_entries owned (not_mem_queue.mpr ⟨by simp [notUrgent, other], by simp [notRoutine]⟩) fun o' at_n yielded idle stopped => ?_
    exact ⟨o', by simp [ownedAt_promote, at_n, other], yielded, idle, stopped, rfl⟩
  | setDirty k o entry urgent =>
    have other := h.ne_of_sched entry (by simp [urgent])
    refine h.of_entries owned h.out fun o' at_n yielded idle stopped => ?_
    exact ⟨o', by simp [ownedAt_setDirty, at_n, other], yielded, idle, stopped, rfl⟩
  | yielded k =>
    refine h.of_entries owned (not_mem_queue.mpr ⟨by simp [notUrgent], by simp [notRoutine]⟩) fun o' at_n yielded idle stopped => ?_
    rw [ownedAt_yieldPoint, at_n]
    by_cases e : n = k
    · exact ⟨{ o' with sched := .yielded, inFlight := false, dirty := false, refreshTimer := none }, by simp [e],
        rfl, rfl, rfl, rfl⟩
    · exact ⟨o', by simp [e], yielded, idle, stopped, rfl⟩

theorem AnyStep.yieldedAt {n : Nat} {base : Option Byte} {s t : State} (step : AnyStep s t) (h : YieldedAt n base s) :
    YieldedAt n base t := by
  cases step with
  | own step => exact step.yieldedAt h
  | mirror only owned =>
    refine ⟨numbers_of_ownedHalf owned ▸ h.distinct, by rw [only]; exact h.out, ?_⟩
    rw [ownedAt_congr owned]
    exact h.entry

theorem AnySteps.yieldedAt {n : Nat} {base : Option Byte} {s t : State} (steps : AnySteps s t) :
    YieldedAt n base s → YieldedAt n base t := chain_keeps (P := YieldedAt n base) AnyStep.yieldedAt steps

theorem Moves.yieldedAt {n : Nat} {base : Option Byte} {s t : State} (moves : Moves s t) :
    YieldedAt n base s → YieldedAt n base t := AnySteps.yieldedAt (Moves.any moves)

/-! ## The events -/

/-- The START burst passes a YIELDED point by (R58). -/
theorem not_mem_startPoints {n : Nat} {base : Option Byte} {s : State} (h : YieldedAt n base s) : n ∉ startPoints s.points := by
  intro listed
  obtain ⟨p, hp, rfl⟩ := List.mem_map.mp listed
  obtain ⟨hp, awake⟩ := List.mem_filter.mp hp
  obtain ⟨o, entry, yielded, -⟩ := h.entry
  rw [ownedAt_of_mem h.distinct hp] at entry
  simp [entry, yielded] at awake

theorem startBurst_yieldedAt {n : Nat} {base : Option Byte} {s : State} (h : YieldedAt n base s) : YieldedAt n base s.startBurst := by
  have fold : ∀ (l : List Nat), n ∉ l → ∀ s : State, YieldedAt n base s →
      YieldedAt n base (l.foldl (fun s k => s.joinUrgent k) s) := by
    intro l
    induction l with
    | nil => exact fun _ _ h => h
    | cons k l ih =>
      intro unlisted s h
      obtain ⟨other, unlisted⟩ := not_or.mp (List.mem_cons.not.mp unlisted)
      have ⟨notUrgent, notRoutine⟩ := not_mem_queue.mp h.out
      refine ih unlisted _ (h.of_entries (joinUrgent_onlyOwned k s)
        (not_mem_queue.mpr ⟨by simp [notUrgent, other], notRoutine⟩) fun o at_n yielded idle stopped => ?_)
      exact ⟨o, by simp [ownedAt_joinUrgent, at_n, other], yielded, idle, stopped, rfl⟩
  exact fold _ (not_mem_startPoints h) s h

theorem enterHalted_yieldedAt {n : Nat} {base : Option Byte} {s : State} (h : YieldedAt n base s) : YieldedAt n base s.enterHalted := by
  refine h.of_entries (enterHalted_onlyOwned s) h.out fun o at_n yielded _ stopped => ?_
  obtain ⟨p, found, -, -, ho⟩ := ownedAt_entry at_n
  exact ⟨{ o with inFlight := false, dirty := false },
    by rw [ownedAt_mapOwnedBy (s := s) (t := s.enterHalted) (clearMarks_points s), found]; simp [ho], yielded, rfl, stopped, rfl⟩

theorem mem_of_mem_taken {n : Nat} {s : State} (h : n ∈ s.taken) : n ∈ s.queue := List.mem_of_mem_take h

theorem markTaken_yieldedAt {n : Nat} {base : Option Byte} {s : State} (h : YieldedAt n base s) : YieldedAt n base s.markTaken := by
  refine h.of_entries (markTaken_onlyOwned s) h.out fun o at_n yielded idle stopped => ?_
  obtain ⟨p, found, -, number, ho⟩ := ownedAt_entry at_n
  have untaken : p.number ∉ s.taken := fun taken => h.out (number ▸ mem_of_mem_taken taken)
  exact ⟨o, by rw [ownedAt_mapOwnedBy (markTaken_points s), found]; simp [ho, untaken], yielded, idle, stopped, rfl⟩

theorem transmit_yieldedAt {n : Nat} {base : Option Byte} {s : State} (h : YieldedAt n base s) : YieldedAt n base s.transmit := by
  rcases transmit_cases s with e | ⟨urgent, -, e⟩ | ⟨content, u, -, -, moves, e⟩ <;> rw [e]
  · exact h
  · exact (markTaken_yieldedAt h).of_same rfl rfl
  · exact (Moves.yieldedAt moves h).of_same rfl rfl

theorem ownedAt_complete12 (n k : Nat) (s : State) :
    (s.complete12 n).ownedAt k = (findPoint k s.points).bind fun p => p.owned?.map fun o =>
      if k = n then o.completed p.kind s.clock else o := by
  rw [ownedAt_mapOwnedBy (complete12_points n s)]
  cases found : findPoint k s.points with
  | none => rfl
  | some p =>
    have number := findPoint_number found
    by_cases e : k = n <;> simp [atNumber, number, e]

theorem ownedAt_complete12_ne {n k : Nat} (other : k ≠ n) (s : State) : (s.complete12 n).ownedAt k = s.ownedAt k := by
  rw [ownedAt_complete12, State.ownedAt]
  simp [other]

theorem pointCompleted_yieldedAt {n : Nat} {base : Option Byte} (s : State) (k : Nat) (h : YieldedAt n base s) :
    YieldedAt n base (s.pointCompleted k) := by
  have ⟨notUrgent, notRoutine⟩ := not_mem_queue.mp h.out
  rcases pointCompleted_cases k s with ⟨e, -⟩ | ⟨o, entry, flying, e⟩
  · rw [e]; exact h
  · have other : n ≠ k := by
      rintro rfl
      obtain ⟨o', at_n, -, idle, -⟩ := h.entry
      rw [entry] at at_n; cases at_n
      rw [flying] at idle; cases idle
    have at_n : ∀ o, s.ownedAt n = some o → (s.pointCompleted k).ownedAt n = some o := fun o' at_n => by
      rcases e with ⟨-, e⟩ | ⟨-, e⟩ <;>
        simp [e, ownedAt_joinUrgent, ownedAt_leaveQueue, ownedAt_complete12_ne other, other, at_n]
    refine h.of_entries (pointCompleted_onlyOwned s k) ?_ fun o' at_n' yielded idle stopped =>
      ⟨o', at_n o' at_n', yielded, idle, stopped, rfl⟩
    rcases e with ⟨-, e⟩ | ⟨-, e⟩ <;> rw [e, not_mem_queue] <;> simp [notUrgent, notRoutine, other]

theorem pointNotSent_yieldedAt {n : Nat} {base : Option Byte} (s : State) (k : Nat) (h : YieldedAt n base s) :
    YieldedAt n base (s.pointNotSent k) := by
  refine h.of_entries (pointNotSent_onlyOwned s k) h.out fun o at_n yielded idle stopped => ?_
  rw [State.pointNotSent, ownedAt_updateOwned, at_n]
  by_cases e : n = k
  · exact ⟨{ o with inFlight := false, dirty := false }, by simp [e], yielded, rfl, stopped, rfl⟩
  · exact ⟨o, by simp [e], yielded, idle, stopped, rfl⟩

theorem publicationOutcome_yieldedAt {n : Nat} {base : Option Byte} (records : List Record) (complete : Bool) {s : State}
    (h : YieldedAt n base s) : YieldedAt n base (s.publicationOutcome records complete) :=
  publicationOutcome_rel (fun s t => YieldedAt n base s → YieldedAt n base t) (fun _ => id) (fun h k => k ∘ h)
    pointCompleted_yieldedAt pointNotSent_yieldedAt records complete s h

/-- An effect that neither ends a load nor restarts leaves a YIELDED point as it is. -/
theorem Effect.yieldedAt {n : Nat} {base : Option Byte} {s t : State} (effect : Effect s t) (h : YieldedAt n base s)
    (unloaded : s.loading = false) (left : t.station ≠ .starting) : YieldedAt n base t := by
  have silent : YieldedAt n base { s with inFlight := none } := h.of_same rfl rfl
  cases effect with
  | moved moves => exact Moves.yieldedAt moves h
  | restarted u cause => exact absurd rfl left
  | failedLoad _ _ _ loading => rw [unloaded] at loading; cases loading
  | loaded _ _ _ _ loading => rw [unloaded] at loading; cases loading
  | entered due =>
    have joined : YieldedAt n base (s.advanceTo due).atRunning := h.of_same rfl rfl
    exact AnySteps.yieldedAt (enterRunning_any _) (startBurst_yieldedAt joined)
  | halted moves => exact enterHalted_yieldedAt (Moves.yieldedAt moves h)
  | transmitted moves => exact transmit_yieldedAt (Moves.yieldedAt moves h)
  | publicationEnded f urgent records complete _ _ moves =>
    exact publicationOutcome_yieldedAt records complete (Moves.yieldedAt moves silent)
  | frameEnded f _ _ moves => exact Moves.yieldedAt moves silent
  | peerLost p before _ moves =>
    exact Moves.yieldedAt moves (AnySteps.yieldedAt (updatePeer_any p _ _) (Moves.yieldedAt before h))

/-- Settles O17: what a YIELDED point shows, with its place out of the queue, is an invariant between restarts. -/
theorem yieldedStays : Obligations.YieldedStays := by
  intro c s t n o table owned unloaded entry yielded out run left
  obtain ⟨-, -, distinct, -⟩ := table
  obtain ⟨p, -, hp, -, ho⟩ := ownedAt_entry entry
  obtain ⟨⟨-, -, flying, -, timer⟩, -⟩ := owned p hp o ho
  have idle : o.inFlight = false := by
    cases flies : o.inFlight with
    | false => rfl
    | true => rcases flying flies with e | e <;> rw [yielded] at e <;> cases e
  have after := (exec_effect run).yieldedAt (n := n) (base := o.compareBase)
    ⟨distinct, out, o, entry, yielded, idle, timer yielded, rfl⟩ unloaded left
  obtain ⟨o', entry', yielded', -, stopped', based'⟩ := after.entry
  exact ⟨after.out, o', entry', yielded', based', stopped'⟩

end Sys2Proof.Machine
end

