-- ==== Sys2Proof/Proofs/Publication.lean ====
section
/-!
THEOREM. Every step keeps the laws of the Publication Queue and of the owned entries (O4).
-/

namespace Sys2Proof.Machine

open Sys2Proof.Safety

/-! ## The size of the table -/

theorem ownedCount_eq (s : State) : s.ownedCount = (s.points.map fun p => p.owned?.isSome).count true := by
  unfold State.ownedCount
  rw [← List.countP_eq_length_filter, List.count, List.countP_map]
  exact List.countP_congr fun p _ => by simp

/-- The size and the numbers of the table, as a law of what the OWNED half shows of it (R5). -/
theorem tableLawful_of_same {s t : State} (h : TableLawful s) (numbers : t.points.map Point.number = s.points.map Point.number)
    (roles : (t.points.map fun p => p.owned?.isSome) = s.points.map fun p => p.owned?.isSome) : TableLawful t := by
  obtain ⟨size, owned, distinct, range⟩ := h
  refine ⟨?_, ?_, numbers ▸ distinct, fun p hp => ?_⟩
  · have := congrArg List.length numbers
    rw [List.length_map, List.length_map] at this
    rwa [this]
  · rw [ownedCount_eq, roles, ← ownedCount_eq]; exact owned
  · have : p.number ∈ s.points.map Point.number := numbers ▸ List.mem_map_of_mem hp
    obtain ⟨q, hq, e⟩ := List.mem_map.mp this
    rw [← e]; exact range q hq

theorem OnlyOwned.tableLawful {s t : State} (h : OnlyOwned s t) (lawful : TableLawful s) : TableLawful t := by
  refine tableLawful_of_same lawful h.numbers ?_
  obtain ⟨g, e, -⟩ := h
  simp [e, mapOwnedBy, Function.comp_def]

theorem tableLawful_of_ownedHalf {s t : State} (h : ownedHalf t.points = ownedHalf s.points) (lawful : TableLawful s) :
    TableLawful t := by
  refine tableLawful_of_same lawful (numbers_of_ownedHalf h) ?_
  simpa [ownedHalf, Function.comp_def] using congrArg (List.map fun x : Nat × Kind × Option Owned => x.2.2.isSome) h

/-! ## The owned entries -/

theorem ownedTable_of_ownedHalf {s t : State} (h : ownedHalf t.points = ownedHalf s.points) (lawful : OwnedTableLawful s) :
    OwnedTableLawful t := by
  intro p hp o ho
  obtain ⟨q, hq, -, kind, owned⟩ := mem_of_ownedHalf h hp
  rw [← kind]
  exact lawful q hq o (owned.trans ho)

/-- A change of OWNED fields that keeps the law of each entry it meets keeps the law of the table. -/
theorem ownedTable_of_entries {s t : State} {g : Point → Owned → Owned} (points : t.points = mapOwnedBy g s.points)
    (lawful : OwnedTableLawful s)
    (entry : ∀ p ∈ s.points, ∀ o, p.owned? = some o → OwnedLawful p.kind o → InKind p.kind o.current →
      OwnedLawful p.kind (g p o) ∧ InKind p.kind (g p o).current) : OwnedTableLawful t := by
  intro p hp o ho
  rw [points] at hp
  obtain ⟨q, hq, rfl⟩ := List.mem_map.mp hp
  rw [Point.owned?_mapOwned] at ho
  obtain ⟨o', ho', rfl⟩ := Option.map_eq_some_iff.mp ho
  obtain ⟨fields, value⟩ := lawful q hq o' ho'
  rw [Point.mapOwned_kind]
  exact entry q hq o' ho' fields value

/-- The same for a change at one number, in a table of distinct numbers: the entry met is the one the number finds. -/
theorem ownedTable_updateOwned {n : Nat} {f : Owned → Owned} {s t : State} (points : t.points = (s.updateOwned n f).points)
    (distinct : (s.points.map Point.number).Nodup) (lawful : OwnedTableLawful s)
    (entry : ∀ k o, s.ownedAt n = some o → OwnedLawful k o → OwnedLawful k (f o) ∧ (f o).current = o.current) :
    OwnedTableLawful t := by
  refine ownedTable_of_entries (points.trans (updateOwned_points n f s)) lawful fun p hp o ho fields value => ?_
  by_cases e : p.number = n
  · obtain ⟨kept, same⟩ := entry p.kind o (by rw [← e, ownedAt_of_mem distinct hp, ho]) fields
    simp only [atNumber, e, if_true]
    exact ⟨kept, same ▸ value⟩
  · simp only [atNumber, e, if_false]
    exact ⟨fields, value⟩

theorem ownedAt_lawful {s : State} (lawful : OwnedTableLawful s) {n : Nat} {o : Owned} (entry : s.ownedAt n = some o) :
    ∃ k, OwnedLawful k o := by
  obtain ⟨p, -, hp, -, ho⟩ := ownedAt_entry entry
  exact ⟨p.kind, (lawful p hp o ho).1⟩

/-- A QUIET or YIELDED point carries no mark (R11, R40). -/
theorem unmarked_of_outside {k : Kind} {o : Owned} (h : OwnedLawful k o) (outside : o.sched = .quiet ∨ o.sched = .yielded) :
    o.inFlight = false ∧ o.dirty = false := by
  obtain ⟨-, -, flying, dirty, -⟩ := h
  have idle : o.inFlight = false := by
    cases flies : o.inFlight with
    | false => rfl
    | true => rcases flying flies with e | e <;> rw [e] at outside <;> simp at outside
  refine ⟨idle, ?_⟩
  cases d : o.dirty with
  | false => rfl
  | true => rw [(dirty d).1] at idle; cases idle

/-! ## The queue -/

/-- The first law of the queue by scheduler states. -/
theorem queueLawful_iff (s : State) : QueueLawful s ↔
    s.queue.Nodup ∧ ∀ n, (n ∈ s.urgent ↔ (s.ownedAt n).map Owned.sched = some .urgent)
      ∧ (n ∈ s.routine ↔ (s.ownedAt n).map Owned.sched = some .routine) := by
  simp only [QueueLawful, Option.map_eq_some_iff, forall_and]

theorem queueLawful_of_same {s t : State} (h : QueueLawful s) (urgent : t.urgent = s.urgent) (routine : t.routine = s.routine)
    (sched : ∀ n, (t.ownedAt n).map Owned.sched = (s.ownedAt n).map Owned.sched) : QueueLawful t := by
  rw [queueLawful_iff] at h ⊢
  simpa only [State.queue, urgent, routine, sched] using h

theorem sched_of_changed {t s : State} {n : Nat} {f : Owned → Owned}
    (entry : ∀ k, t.ownedAt k = (s.ownedAt k).map fun o => if k = n then f o else o) {o : Owned} (found : s.ownedAt n = some o) (k : Nat) :
    (t.ownedAt k).map Owned.sched = if k = n then some (f o).sched else (s.ownedAt k).map Owned.sched := by
  rw [entry]
  by_cases e : k = n
  · simp [e, found]
  · simp [e]

/-- A point outside the queue joins the tail of the urgent band. -/
theorem queueLawful_joinUrgent {s : State} {n : Nat} {o : Owned} (h : QueueLawful s) (entry : s.ownedAt n = some o)
    (quiet : o.sched = .quiet) : QueueLawful (s.joinUrgent n) := by
  have sched := sched_of_changed (fun k => ownedAt_joinUrgent n k s) entry
  rw [queueLawful_iff] at h ⊢
  obtain ⟨nodup, bands⟩ := h
  have notUrgent : n ∉ s.urgent := by rw [(bands n).1]; simp [entry, quiet]
  have notRoutine : n ∉ s.routine := by rw [(bands n).2]; simp [entry, quiet]
  refine ⟨?_, fun k => ?_⟩
  · simp only [State.queue, State.joinUrgent_urgent, State.joinUrgent_routine, List.append_assoc, List.singleton_append]
    exact (List.nodup_middle (l₁ := s.urgent) (l₂ := s.routine)).mpr (List.nodup_cons.mpr ⟨by simp [notUrgent, notRoutine], nodup⟩)
  · by_cases e : k = n
    · simp [sched, e, notRoutine]
    · simp [sched, e, bands k]

theorem queueLawful_joinRoutine {s : State} {n : Nat} {o : Owned} (h : QueueLawful s) (entry : s.ownedAt n = some o)
    (quiet : o.sched = .quiet) : QueueLawful (s.joinRoutine n) := by
  have sched := sched_of_changed (fun k => ownedAt_joinRoutine n k s) entry
  rw [queueLawful_iff] at h ⊢
  obtain ⟨nodup, bands⟩ := h
  have notUrgent : n ∉ s.urgent := by rw [(bands n).1]; simp [entry, quiet]
  have notRoutine : n ∉ s.routine := by rw [(bands n).2]; simp [entry, quiet]
  refine ⟨?_, fun k => ?_⟩
  · simp only [State.queue, State.joinRoutine_urgent, State.joinRoutine_routine, ← List.append_assoc]
    exact List.nodup_append_comm.mp (List.nodup_cons.mpr ⟨by simp [notUrgent, notRoutine], nodup⟩)
  · by_cases e : k = n
    · simp [sched, e, notUrgent]
    · simp [sched, e, bands k]

/-- A point leaves the queue, QUIET or YIELDED. -/
theorem queueLawful_leaveQueue {s : State} (h : QueueLawful s) (n : Nat) {sched : Sched} (outside : sched = .quiet ∨ sched = .yielded) :
    QueueLawful (s.leaveQueue n sched) := by
  rw [queueLawful_iff] at h ⊢
  obtain ⟨nodup, bands⟩ := h
  have left : (s.leaveQueue n sched).queue = s.queue.filter fun k => k != n := by
    simp [State.queue, without]
  refine ⟨left ▸ nodup.filter _, fun k => ?_⟩
  rw [ownedAt_leaveQueue]
  by_cases e : k = n
  · subst e
    cases s.ownedAt k with
    | none => simp
    | some o => rcases outside with rfl | rfl <;> simp
  · simp [e, bands k]

/-- A ROUTINE point moves to the tail of the urgent band. -/
theorem queueLawful_promote {s : State} {n : Nat} {o : Owned} (h : QueueLawful s) (entry : s.ownedAt n = some o)
    (routine : o.sched = .routine) : QueueLawful (s.promote n) := by
  have sched := sched_of_changed (fun k => ownedAt_promote n k s) entry
  rw [queueLawful_iff] at h ⊢
  obtain ⟨nodup, bands⟩ := h
  have notUrgent : n ∉ s.urgent := by rw [(bands n).1]; simp [entry, routine]
  refine ⟨?_, fun k => ?_⟩
  · have rest : (s.urgent ++ without n s.routine).Nodup := by
      have : (s.queue.filter fun k => k != n).Nodup := nodup.filter _
      have kept : (s.urgent.filter fun k => k != n) = s.urgent :=
        List.filter_eq_self.mpr fun k hk => bne_iff_ne.mpr fun e => notUrgent (e ▸ hk)
      rwa [State.queue, List.filter_append, kept] at this
    simp only [State.queue, State.promote_urgent, State.promote_routine, List.append_assoc, List.singleton_append]
    exact (List.nodup_middle (l₁ := s.urgent)).mpr (List.nodup_cons.mpr ⟨by simp [notUrgent], rest⟩)
  · by_cases e : k = n
    · simp [sched, e]
    · simp [sched, e, bands k]

/-! ## The laws that small steps keep -/

/-- Every mark in flight stands on one of the given points (R40). -/
def MarksIn (flown : List Nat) (s : State) : Prop := ∀ n o, s.ownedAt n = some o → o.inFlight = true → n ∈ flown

/-- The owned entries and the queue, with the marks in flight on the given points. -/
structure QueueKept (flown : List Nat) (s : State) : Prop where
  table : TableLawful s
  owned : OwnedTableLawful s
  queue : QueueLawful s
  marks : MarksIn flown s

theorem QueueKept.distinct {flown : List Nat} {s : State} (h : QueueKept flown s) : (s.points.map Point.number).Nodup := h.table.2.2.1

theorem MarksIn.of_entries {flown : List Nat} {s t : State} (h : MarksIn flown s)
    (entry : ∀ n o, t.ownedAt n = some o → o.inFlight = true → ∃ o', s.ownedAt n = some o' ∧ o'.inFlight = true) :
    MarksIn flown t := fun n o at_n flies => by
  obtain ⟨o', at_n', flies'⟩ := entry n o at_n flies
  exact h n o' at_n' flies'

/-- The points of a changed number carry a mark in flight only if they did. -/
theorem MarksIn.of_changed {flown : List Nat} {s t : State} (h : MarksIn flown s) {n : Nat} {f : Owned → Owned}
    (entry : ∀ k, t.ownedAt k = (s.ownedAt k).map fun o => if k = n then f o else o)
    (mark : ∀ o, (f o).inFlight = true → o.inFlight = true) : MarksIn flown t :=
  h.of_entries fun k o at_k flies => by
    rw [entry] at at_k
    obtain ⟨o', at_k', rfl⟩ := Option.map_eq_some_iff.mp at_k
    refine ⟨o', at_k', ?_⟩
    by_cases e : k = n
    · rw [if_pos e] at flies; exact mark o' flies
    · rwa [if_neg e] at flies

theorem QueueKept.of_ownedHalf {flown : List Nat} {s t : State} (h : QueueKept flown s) (half : ownedHalf t.points = ownedHalf s.points)
    (urgent : t.urgent = s.urgent) (routine : t.routine = s.routine) : QueueKept flown t where
  table := tableLawful_of_ownedHalf half h.table
  owned := ownedTable_of_ownedHalf half h.owned
  queue := queueLawful_of_same h.queue urgent routine fun n => by rw [ownedAt_congr half]
  marks := fun n o at_n => h.marks n o ((ownedAt_congr half n).symm.trans at_n)

theorem ownedLawful_joined {k : Kind} {o : Owned} (h : OwnedLawful k o) (quiet : o.sched = .quiet) {band : Sched}
    (queued : band ≠ .yielded) : OwnedLawful k { o with sched := band } := by
  obtain ⟨idle, clean⟩ := unmarked_of_outside h (.inl quiet)
  obtain ⟨level, binary, -, -, -⟩ := h
  exact ⟨level, binary, fun flies => by simp [idle] at flies, fun dirty => by simp [clean] at dirty, fun e => absurd e queued⟩

theorem ownedLawful_promoted {k : Kind} {o : Owned} (h : OwnedLawful k o) : OwnedLawful k { o with sched := .urgent } := by
  obtain ⟨level, binary, -, dirty, -⟩ := h
  exact ⟨level, binary, fun _ => .inr rfl, fun d => ⟨(dirty d).1, rfl⟩, fun e => (by cases e)⟩

theorem ownedLawful_marked {k : Kind} {o : Owned} (h : OwnedLawful k o) (urgent : o.sched = .urgent) (flies : o.inFlight = true) :
    OwnedLawful k { o with dirty := true } := by
  obtain ⟨level, binary, flying, -, timer⟩ := h
  exact ⟨level, binary, flying, fun _ => ⟨flies, urgent⟩, timer⟩

/-- Without marks an entry may stand anywhere, its timer stopped where it yields. -/
theorem ownedLawful_left {k : Kind} {o : Owned} (h : OwnedLawful k o) {sched : Sched} {timer : Option Time}
    (stopped : sched = .yielded → timer = none) :
    OwnedLawful k { o with sched := sched, inFlight := false, dirty := false, refreshTimer := timer } := by
  obtain ⟨level, binary, -, -, -⟩ := h
  exact ⟨level, binary, fun e => (by cases e), fun e => (by cases e), stopped⟩

theorem OwnStep.queueKept {flown : List Nat} {s t : State} (step : OwnStep s t) (h : QueueKept flown s) : QueueKept flown t := by
  have table : TableLawful t := OnlyOwned.tableLawful step.points h.table
  have same : t.points = s.points → t.urgent = s.urgent → t.routine = s.routine → QueueKept flown t := fun points =>
    h.of_ownedHalf (by rw [points])
  cases step with
  | other only => exact same (by rw [only]) (by rw [only]) (by rw [only])
  | books only => exact same (by rw [only]) (by rw [only]) (by rw [only])
  | outputs only => exact same (by rw [only]) (by rw [only]) (by rw [only])
  | pins only => exact same (by rw [only]) (by rw [only]) (by rw [only])
  | released => exact same rfl rfl rfl
  | mode => exact same rfl rfl rfl
  | touched g only fields timer value =>
    have points : t.points = mapOwnedBy g s.points := by rw [only]
    have entry : ∀ n, t.ownedAt n = (findPoint n s.points).bind fun p => p.owned?.map (g p) := ownedAt_mapOwnedBy points
    have sched : ∀ p o, (g p o).sched = o.sched := fun p o => by rw [fields]
    have flying : ∀ p o, (g p o).inFlight = o.inFlight := fun p o => by rw [fields]
    refine ⟨table, ownedTable_of_entries points h.owned fun p hp o _ lawful inKind => ?_,
      queueLawful_of_same h.queue (by rw [only]) (by rw [only]) fun n => ?_, h.marks.of_entries fun n o at_n flies => ?_⟩
    · obtain ⟨level, binary, flight, dirty, stopped⟩ := lawful
      refine ⟨?_, value h.distinct p hp o inKind⟩
      have timer := timer p o
      rw [fields]
      refine ⟨level, binary, flight, dirty, fun yielded => ?_⟩
      rcases timer with e | e
      · exact e.trans (stopped yielded)
      · exact e
    · rw [entry, State.ownedAt]
      cases findPoint n s.points with
      | none => rfl
      | some p => simp [Function.comp_def, sched]
    · rw [entry] at at_n
      obtain ⟨p, found, at_p⟩ := Option.bind_eq_some_iff.mp at_n
      obtain ⟨o', ho', rfl⟩ := Option.map_eq_some_iff.mp at_p
      exact ⟨o', by simp [State.ownedAt, found, ho'], by rwa [flying] at flies⟩
  | joinUrgent n o _ entry quiet =>
    exact ⟨table, ownedTable_updateOwned rfl h.distinct h.owned fun k o' at_n lawful =>
        ⟨ownedLawful_joined lawful (by rw [entry] at at_n; cases at_n; exact quiet) (by simp), rfl⟩,
      queueLawful_joinUrgent h.queue entry quiet, h.marks.of_changed (fun k => ownedAt_joinUrgent n k s) fun _ => id⟩
  | joinRoutine n o _ entry quiet =>
    exact ⟨table, ownedTable_updateOwned rfl h.distinct h.owned fun k o' at_n lawful =>
        ⟨ownedLawful_joined lawful (by rw [entry] at at_n; cases at_n; exact quiet) (by simp), rfl⟩,
      queueLawful_joinRoutine h.queue entry quiet, h.marks.of_changed (fun k => ownedAt_joinRoutine n k s) fun _ => id⟩
  | promote n o _ entry routine =>
    exact ⟨table, ownedTable_updateOwned rfl h.distinct h.owned fun _ _ _ lawful => ⟨ownedLawful_promoted lawful, rfl⟩,
      queueLawful_promote h.queue entry routine, h.marks.of_changed (fun k => ownedAt_promote n k s) fun _ => id⟩
  | setDirty n o entry urgent flies =>
    refine ⟨table, ownedTable_updateOwned rfl h.distinct h.owned fun k o' at_n lawful => ?_,
      queueLawful_of_same h.queue rfl rfl fun k => ?_, h.marks.of_changed (fun k => ownedAt_setDirty n k s) fun _ => id⟩
    · rw [entry] at at_n; cases at_n
      exact ⟨ownedLawful_marked lawful urgent flies, rfl⟩
    · rw [sched_of_changed (fun k => ownedAt_setDirty n k s) entry]
      by_cases e : k = n <;> simp [e, entry]
  | yielded n =>
    have left : QueueLawful (s.leaveQueue n .yielded) := queueLawful_leaveQueue h.queue n (.inr rfl)
    refine ⟨table, ownedTable_of_entries (g := atNumber n fun o =>
        { o with sched := .yielded, inFlight := false, dirty := false, refreshTimer := none }) ?_ h.owned ?_,
      queueLawful_of_same left rfl rfl fun k => ?_, h.marks.of_changed (fun k => ownedAt_yieldPoint n k s) fun _ e => by cases e⟩
    · rw [State.yieldPoint, updateOwned_points, State.leaveQueue_points, updateOwned_points, mapOwnedBy_mapOwnedBy]
      refine congrArg (fun g => mapOwnedBy g s.points) ?_
      funext p o
      by_cases e : p.number = n <;> simp [atNumber, e]
    · intro p hp o ho lawful inKind
      by_cases e : p.number = n
      · simp only [atNumber, e, if_true]
        exact ⟨ownedLawful_left lawful fun _ => rfl, inKind⟩
      · simp only [atNumber, e, if_false]
        exact ⟨lawful, inKind⟩
    · rw [ownedAt_yieldPoint, ownedAt_leaveQueue]
      cases s.ownedAt k with
      | none => rfl
      | some o => by_cases e : k = n <;> simp [e]

theorem AnyStep.queueKept {flown : List Nat} {s t : State} (step : AnyStep s t) (h : QueueKept flown s) : QueueKept flown t := by
  cases step with
  | own step => exact step.queueKept h
  | mirror only owned => exact h.of_ownedHalf owned (by rw [only]) (by rw [only])

theorem AnySteps.queueKept {flown : List Nat} {s t : State} (steps : AnySteps s t) : QueueKept flown s → QueueKept flown t :=
  chain_keeps (P := QueueKept flown) AnyStep.queueKept steps

theorem Moves.queueKept {flown : List Nat} {s t : State} (moves : Moves s t) : QueueKept flown s → QueueKept flown t :=
  AnySteps.queueKept (Moves.any moves)

/-! ## A frame ends -/

theorem ownedAt_pointCompleted (n k : Nat) (s : State) :
    ∀ o, (s.pointCompleted n).ownedAt k = some o → ∃ o', s.ownedAt k = some o' ∧ (o.inFlight = true → k ≠ n ∧ o'.inFlight = true) := by
  intro o at_k
  rcases pointCompleted_cases n s with ⟨e, idle⟩ | ⟨_, -, -, e⟩
  · rw [e] at at_k
    refine ⟨o, at_k, fun flies => ⟨?_, flies⟩⟩
    rintro rfl
    rw [idle o at_k] at flies; cases flies
  · by_cases same : k = n
    · subst same
      rcases e with ⟨-, e⟩ | ⟨-, e⟩ <;>
        simp only [e, ownedAt_joinUrgent, ownedAt_leaveQueue, ownedAt_complete12, if_true, Option.map_bind, Option.map_map,
          Option.bind_eq_some_iff, Function.comp_apply, Option.map_eq_some_iff] at at_k <;>
        obtain ⟨p, found, o', ho', rfl⟩ := at_k <;>
        exact ⟨o', by simp [State.ownedAt, found, ho'], fun flies => by cases flies⟩
    · refine ⟨o, ?_, fun flies => ⟨same, flies⟩⟩
      rcases e with ⟨-, e⟩ | ⟨-, e⟩ <;>
        simpa [e, ownedAt_joinUrgent, ownedAt_leaveQueue, ownedAt_complete12_ne same, same] using at_k

theorem ownedLawful_completed {k : Kind} {o : Owned} (h : OwnedLawful k o) (now : Time) {sched : Sched} (awake : sched ≠ .yielded) :
    OwnedLawful k { o.completed k now with sched := sched, inFlight := false, dirty := false } := by
  obtain ⟨level, binary, -, -, -⟩ := h
  refine ⟨fun pin => ?_, binary, fun e => (by cases e), fun e => (by cases e), fun e => absurd e awake⟩
  have other : isLevelFromPin k o = false := pin
  obtain ⟨band, base, carried⟩ := level other
  exact ⟨band, by simp [Owned.completed, other, base], carried⟩

theorem complete12_leaveQueue_points (n : Nat) (s : State) :
    ((s.complete12 n).leaveQueue n .quiet).points = mapOwnedBy (fun p => atNumber n (fun o =>
      { o.completed p.kind s.clock with sched := .quiet, inFlight := false, dirty := false }) p) s.points := by
  rw [State.leaveQueue_points, updateOwned_points, complete12_points, mapOwnedBy_mapOwnedBy]
  refine congrArg (fun g => mapOwnedBy g s.points) ?_
  funext p o
  by_cases e : p.number = n <;> simp [atNumber, e]

theorem requeueDirty_points (n : Nat) (s : State) :
    (((s.complete12 n).leaveQueue n .quiet).joinUrgent n).points = mapOwnedBy (fun p => atNumber n (fun o =>
      { o.completed p.kind s.clock with sched := .urgent, inFlight := false, dirty := false }) p) s.points := by
  rw [State.joinUrgent_points, updateOwned_points, complete12_leaveQueue_points, mapOwnedBy_mapOwnedBy]
  refine congrArg (fun g => mapOwnedBy g s.points) ?_
  funext p o
  by_cases e : p.number = n <;> simp [atNumber, e]

theorem queueLawful_complete12 {s : State} (h : QueueLawful s) (n : Nat) : QueueLawful (s.complete12 n) :=
  queueLawful_of_same h rfl rfl fun k => by
    rw [ownedAt_complete12, State.ownedAt]
    cases findPoint k s.points with
    | none => rfl
    | some p => by_cases e : k = n <;> simp [e, Function.comp_def, Owned.completed]

/-- One point of a completed frame: its mark is cleared, in or out of the queue (R52). -/
theorem pointCompleted_queueKept {n : Nat} {flown : List Nat} {s : State} (h : QueueKept (n :: flown) s) :
    QueueKept flown (s.pointCompleted n) := by
  have marks : MarksIn flown (s.pointCompleted n) := fun k o at_k flies => by
    obtain ⟨o', at_k', back⟩ := ownedAt_pointCompleted n k s o at_k
    obtain ⟨other, flies'⟩ := back flies
    exact (List.mem_cons.mp (h.marks k o' at_k' flies')).resolve_left other
  have table := (pointCompleted_onlyOwned s n).tableLawful h.table
  have entries : ∀ sched : Sched, sched ≠ .yielded → ∀ p ∈ s.points, ∀ o, p.owned? = some o → OwnedLawful p.kind o →
      InKind p.kind o.current →
      OwnedLawful p.kind (atNumber n (fun o : Owned =>
        { o.completed p.kind s.clock with sched := sched, inFlight := false, dirty := false }) p o)
      ∧ InKind p.kind (atNumber n (fun o : Owned =>
        { o.completed p.kind s.clock with sched := sched, inFlight := false, dirty := false }) p o).current :=
    fun sched awake p _ o _ lawful value => by
      by_cases e : p.number = n
      · simp only [atNumber, e, if_true]
        exact ⟨ownedLawful_completed lawful s.clock awake, value⟩
      · simp only [atNumber, e, if_false]
        exact ⟨lawful, value⟩
  have left : QueueLawful ((s.complete12 n).leaveQueue n .quiet) :=
    queueLawful_leaveQueue (queueLawful_complete12 h.queue n) n (.inl rfl)
  rcases pointCompleted_cases n s with ⟨e, -⟩ | ⟨o, entry, -, ⟨-, e⟩ | ⟨-, e⟩⟩ <;> rw [e] at marks table ⊢
  · exact ⟨table, h.owned, h.queue, marks⟩
  · obtain ⟨p, found, -, -, ho⟩ := ownedAt_entry entry
    have quiet : ((s.complete12 n).leaveQueue n .quiet).ownedAt n =
        some { o.completed p.kind s.clock with sched := .quiet, inFlight := false, dirty := false } := by
      simp [ownedAt_leaveQueue, ownedAt_complete12, found, ho]
    exact ⟨table, ownedTable_of_entries (requeueDirty_points n s) h.owned (entries .urgent (by simp)),
      queueLawful_joinUrgent left quiet rfl, marks⟩
  · exact ⟨table, ownedTable_of_entries (complete12_leaveQueue_points n s) h.owned (entries .quiet (by simp)), left, marks⟩

/-- One point of a frame that was not sent: both marks are cleared (R53). -/
theorem pointNotSent_queueKept {n : Nat} {flown : List Nat} {s : State} (h : QueueKept (n :: flown) s) :
    QueueKept flown (s.pointNotSent n) := by
  have entry : ∀ k, (s.pointNotSent n).ownedAt k =
      (s.ownedAt k).map fun o => if k = n then { o with inFlight := false, dirty := false } else o :=
    fun k => ownedAt_updateOwned n k _ s
  refine ⟨(pointNotSent_onlyOwned s n).tableLawful h.table,
    ownedTable_updateOwned rfl h.distinct h.owned fun k o _ ⟨level, binary, _, _, timer⟩ =>
      ⟨⟨level, binary, fun e => (by cases e), fun e => (by cases e), timer⟩, rfl⟩,
    queueLawful_of_same h.queue rfl rfl fun k => ?_, fun k o at_k flies => ?_⟩
  · rw [entry]
    cases s.ownedAt k with
    | none => rfl
    | some o => by_cases e : k = n <;> simp [e]
  · rw [entry] at at_k
    obtain ⟨o', at_k', rfl⟩ := Option.map_eq_some_iff.mp at_k
    by_cases e : k = n
    · rw [if_pos e] at flies; cases flies
    · rw [if_neg e] at flies
      exact (List.mem_cons.mp (h.marks k o' at_k' flies)).resolve_left e

/-- The points of the frame are taken one by one, and no mark in flight is left. -/
theorem publicationOutcome_queueKept (records : List Record) (complete : Bool) {s : State}
    (h : QueueKept (recordPoints records) s) : QueueKept [] (s.publicationOutcome records complete) := by
  unfold State.publicationOutcome
  generalize recordPoints records = flown at h
  induction flown generalizing s with
  | nil => exact h
  | cons n flown ih =>
    refine ih ?_
    cases complete
    · exact pointNotSent_queueKept h
    · exact pointCompleted_queueKept h

/-- An empty queue stays empty where no point carries a mark in flight. -/
theorem publicationOutcome_queue_nil (records : List Record) (complete : Bool) {s : State} (marks : MarksIn [] s)
    (empty : s.queue = []) : (s.publicationOutcome records complete).queue = [] := by
  unfold State.publicationOutcome
  generalize recordPoints records = flown
  induction flown generalizing s with
  | nil => exact empty
  | cons n flown ih =>
    cases complete with
    | false =>
      refine ih (s := s.pointNotSent n) (marks.of_changed (fun k => ownedAt_updateOwned n k _ s) fun o e => ?_) empty
      cases e
    | true =>
      have same : s.pointCompleted n = s := by
        rcases pointCompleted_cases n s with ⟨e, -⟩ | ⟨o, entry, flies, -⟩
        · exact e
        · exact absurd (marks n o entry flies) (by simp)
      simp only [if_true, List.foldl_cons, same] at ih ⊢
      exact ih marks empty

/-! ## The entries to RUNNING and HALTED -/

/-- Outside the bands a point carries no mark in flight (R11). -/
theorem marksIn_nil_of_empty {s : State} (owned : OwnedTableLawful s) (queue : QueueLawful s) (empty : s.queue = []) :
    MarksIn [] s := by
  intro n o entry flies
  obtain ⟨k, -, -, flying, -⟩ := ownedAt_lawful owned entry
  obtain ⟨urgent, routine⟩ := queue_eq_nil.mp empty
  obtain ⟨-, inUrgent, inRoutine⟩ := queue
  rcases flying flies with e | e
  · have := (inRoutine n).mpr ⟨o, entry, e⟩
    rw [routine] at this; cases this
  · have := (inUrgent n).mpr ⟨o, entry, e⟩
    rw [urgent] at this; cases this

/-- The START burst takes QUIET points into the queue one by one (R58). -/
theorem startBurst_queueKept {flown : List Nat} {s : State} (h : QueueKept flown s) (empty : s.queue = []) :
    QueueKept flown s.startBurst := by
  have fold : ∀ (l : List Nat), l.Nodup → ∀ s : State, QueueKept flown s →
      (∀ n ∈ l, ∃ o, s.ownedAt n = some o ∧ o.sched = .quiet) → QueueKept flown (l.foldl (fun s n => s.joinUrgent n) s) := by
    intro l
    induction l with
    | nil => exact fun _ _ h _ => h
    | cons n l ih =>
      intro nodup s h quiet
      obtain ⟨unlisted, nodup⟩ := List.nodup_cons.mp nodup
      obtain ⟨o, entry, asleep⟩ := quiet n List.mem_cons_self
      refine ih nodup _ ⟨(joinUrgent_onlyOwned n s).tableLawful h.table,
        ownedTable_updateOwned rfl h.distinct h.owned fun k o' at_n lawful =>
          ⟨ownedLawful_joined lawful (by rw [entry] at at_n; cases at_n; exact asleep) (by simp), rfl⟩,
        queueLawful_joinUrgent h.queue entry asleep, h.marks.of_changed (fun k => ownedAt_joinUrgent n k s) fun _ => id⟩
        fun k hk => ?_
      obtain ⟨o', entry', asleep'⟩ := quiet k (List.mem_cons_of_mem _ hk)
      have other : k ≠ n := fun e => unlisted (e ▸ hk)
      exact ⟨o', by simp [ownedAt_joinUrgent, entry', other], asleep'⟩
  have nodup : (startPoints s.points).Nodup := h.distinct.sublist ((List.filter_sublist (l := s.points)).map _)
  refine fold _ nodup s h fun n hn => ?_
  obtain ⟨p, hp, rfl⟩ := List.mem_map.mp hn
  obtain ⟨hp, awake⟩ := List.mem_filter.mp hp
  cases ho : p.owned? with
  | none => simp [ho] at awake
  | some o =>
    have entry : s.ownedAt p.number = some o := (ownedAt_of_mem h.distinct hp).trans ho
    refine ⟨o, entry, ?_⟩
    obtain ⟨urgent, routine⟩ := queue_eq_nil.mp empty
    obtain ⟨-, inUrgent, inRoutine⟩ := h.queue
    cases sched : o.sched with
    | quiet => rfl
    | routine =>
      have := (inRoutine p.number).mpr ⟨o, entry, sched⟩
      rw [routine] at this; cases this
    | urgent =>
      have := (inUrgent p.number).mpr ⟨o, entry, sched⟩
      rw [urgent] at this; cases this
    | yielded => simp [ho, sched] at awake

theorem enterHalted_queueKept {flown : List Nat} {s : State} (h : QueueKept flown s) : QueueKept [] s.enterHalted := by
  have points : s.enterHalted.points = mapOwnedBy (fun _ o => { o with inFlight := false, dirty := false }) s.points :=
    clearMarks_points s
  refine ⟨(enterHalted_onlyOwned s).tableLawful h.table,
    ownedTable_of_entries points h.owned fun p _ o _ ⟨level, binary, _, _, timer⟩ value =>
      ⟨⟨level, binary, fun e => (by cases e), fun e => (by cases e), timer⟩, value⟩,
    queueLawful_of_same h.queue rfl rfl fun n => ?_, fun n o entry flies => ?_⟩
  · rw [ownedAt_mapOwnedBy points, State.ownedAt]
    cases findPoint n s.points with
    | none => rfl
    | some p => simp [Function.comp_def]
  · rw [ownedAt_mapOwnedBy points] at entry
    obtain ⟨p, -, ho⟩ := Option.bind_eq_some_iff.mp entry
    obtain ⟨o', -, rfl⟩ := Option.map_eq_some_iff.mp ho
    cases flies

/-! ## A frame begins -/

/-- The points taken by an assembly stand in the frame's records (R50, R51). -/
theorem taken_subset_records {flown : List Nat} {s : State} (h : QueueKept flown s) {n : Nat} (taken : n ∈ s.taken) :
    n ∈ recordPoints s.nextRecords := by
  have queued : n ∈ s.urgent ∨ n ∈ s.routine := List.mem_append.mp (mem_of_mem_taken taken)
  obtain ⟨-, inUrgent, inRoutine⟩ := h.queue
  obtain ⟨o, entry, -⟩ : ∃ o, s.ownedAt n = some o ∧ (o.sched = .urgent ∨ o.sched = .routine) := by
    rcases queued with q | q
    · obtain ⟨o, entry, e⟩ := (inUrgent n).mp q; exact ⟨o, entry, .inl e⟩
    · obtain ⟨o, entry, e⟩ := (inRoutine n).mp q; exact ⟨o, entry, .inr e⟩
  obtain ⟨p, found, hp, number, ho⟩ := ownedAt_entry entry
  obtain ⟨-, -, -, range⟩ := h.table
  have small : n < 1024 := by have := range p hp; omega
  unfold recordPoints State.nextRecords
  rw [List.map_filterMap]
  refine List.mem_filterMap.mpr ⟨n, taken, ?_⟩
  simp [found, Point.record, ho, number, Nat.mod_eq_of_lt small]

theorem markTaken_queueKept {s : State} (h : QueueKept [] s) : QueueKept (recordPoints s.nextRecords) s.markTaken := by
  have entry : ∀ n, s.markTaken.ownedAt n = (findPoint n s.points).bind fun p => p.owned?.map fun o =>
      if n ∈ s.taken then o.take p.kind else o := fun n => by
    rw [ownedAt_mapOwnedBy (markTaken_points s)]
    cases found : findPoint n s.points with
    | none => rfl
    | some p =>
      have number := findPoint_number found
      by_cases taken : n ∈ s.taken <;> simp [number, taken]
  have queued : ∀ n ∈ s.taken, ∀ o, s.ownedAt n = some o → o.sched = .routine ∨ o.sched = .urgent := fun n taken o at_n => by
    obtain ⟨-, inUrgent, inRoutine⟩ := h.queue
    rcases List.mem_append.mp (mem_of_mem_taken taken) with q | q
    · obtain ⟨o', at_n', e⟩ := (inUrgent n).mp q
      rw [at_n] at at_n'; cases at_n'; exact .inr e
    · obtain ⟨o', at_n', e⟩ := (inRoutine n).mp q
      rw [at_n] at at_n'; cases at_n'; exact .inl e
  refine ⟨(markTaken_onlyOwned s).tableLawful h.table, ownedTable_of_entries (markTaken_points s) h.owned ?_,
    queueLawful_of_same h.queue rfl rfl fun n => ?_, fun n o at_n flies => ?_⟩
  · intro p hp o ho lawful value
    by_cases taken : p.number ∈ s.taken
    · have awake := queued p.number taken o ((ownedAt_of_mem h.distinct hp).trans ho)
      obtain ⟨level, binary, flying, dirty, timer⟩ := lawful
      have marks := h.marks p.number o ((ownedAt_of_mem h.distinct hp).trans ho)
      simp only [List.contains_iff_mem.mpr taken, if_true]
      refine ⟨⟨fun pin => ?_, binary, fun _ => awake, fun d => absurd (marks (dirty d).1) (by simp), timer⟩, value⟩
      have other : isLevelFromPin p.kind o = false := pin
      obtain ⟨band, base, carried⟩ := level other
      exact ⟨band, base, by simp [Owned.take, other, carried]⟩
    · simp only [List.contains_iff_mem, taken, if_false]
      exact ⟨lawful, value⟩
  · rw [entry, State.ownedAt]
    cases findPoint n s.points with
    | none => rfl
    | some p => by_cases taken : n ∈ s.taken <;> simp [taken, Function.comp_def, Owned.take]
  · rw [entry] at at_n
    obtain ⟨p, found, ho⟩ := Option.bind_eq_some_iff.mp at_n
    obtain ⟨o', ho', rfl⟩ := Option.map_eq_some_iff.mp ho
    by_cases taken : n ∈ s.taken
    · exact taken_subset_records h taken
    · rw [if_neg taken] at flies
      exact absurd (h.marks n o' (by simp [State.ownedAt, found, ho']) flies) (by simp)

/-! ## The points in flight -/

/-- The points named in the publication frame on the line (R40). -/
def State.flownPoints (s : State) : List Nat :=
  match s.inFlight.map TxFrame.content with
  | some (.publication _ records) => recordPoints records
  | _ => []

theorem flightLawful_iff (s : State) : FlightLawful s ↔ MarksIn s.flownPoints s := by
  unfold FlightLawful MarksIn State.flownPoints
  refine forall_congr' fun n => forall_congr' fun o => imp_congr_right fun _ => imp_congr_right fun _ => ?_
  cases flying : s.inFlight with
  | none => simp
  | some f =>
    cases content : f.content with
    | publication urgent => cases urgent <;> simp [content]
    | _ => simp [content]

theorem flownPoints_eq {s : State} {f : TxFrame} {urgent : Bool} {records : List Record} (flying : s.inFlight = some f)
    (content : f.content = .publication urgent records) : s.flownPoints = recordPoints records := by
  simp [State.flownPoints, flying, content]

theorem flownPoints_eq_nil {s : State} (h : ∀ f urgent records, s.inFlight = some f → f.content ≠ .publication urgent records) :
    s.flownPoints = [] := by
  unfold State.flownPoints
  split
  · next urgent records e =>
    obtain ⟨f, flying, content⟩ := Option.map_eq_some_iff.mp e
    exact absurd content (h f urgent records flying)
  · rfl

theorem flownPoints_idle {s : State} (idle : s.inFlight = none) : s.flownPoints = [] :=
  flownPoints_eq_nil fun f _ _ flying => by rw [idle] at flying; cases flying

theorem transmit_queueKept {s : State} (h : QueueKept [] s) (idle : s.inFlight = none) : QueueKept s.transmit.flownPoints s.transmit := by
  rcases transmit_cases s with e | ⟨urgent, -, e⟩ | ⟨content, u, -, other, moves, e⟩ <;> rw [e]
  · rw [flownPoints_idle idle]; exact h
  · exact (markTaken_queueKept h).of_ownedHalf rfl rfl rfl
  · have : (u.startFrame content).flownPoints = [] := flownPoints_eq_nil fun f urgent records flying content' => by
      cases flying; exact other _ _ content'
    rw [this]
    exact (Moves.queueKept moves h).of_ownedHalf rfl rfl rfl

/-! ## Load -/

/-- A table without an owned point in the queue. -/
theorem queueKept_of_quiet {flown : List Nat} {s : State} (table : TableLawful s) (owned : OwnedTableLawful s) (empty : s.queue = [])
    (quiet : ∀ n o, s.ownedAt n = some o → o.sched = .quiet) : QueueKept flown s := by
  obtain ⟨urgent, routine⟩ := queue_eq_nil.mp empty
  refine ⟨table, owned, (queueLawful_iff s).mpr ⟨by simp [empty], fun n => ?_⟩, fun n o entry flies => ?_⟩
  · rw [urgent, routine]
    cases entry : s.ownedAt n with
    | none => simp
    | some o => simp [quiet n o entry]
  · obtain ⟨k, -, -, flying, -⟩ := ownedAt_lawful owned entry
    rcases flying flies with e | e <;> rw [quiet n o entry] at e <;> cases e

theorem queueKept_of_empty {flown : List Nat} {s : State} (points : s.points = []) (empty : s.queue = []) : QueueKept flown s :=
  queueKept_of_quiet
    ⟨by simp [points], by simp [State.ownedCount, points], by simp [points], fun p hp => by rw [points] at hp; cases hp⟩
    (fun p hp => by rw [points] at hp; cases hp) empty
    (fun n o entry => by simp [State.ownedAt, points, findPoint] at entry)

/-- What a valid image says of its points (R181). -/
theorem validPoints {im : Image} (valid : im.validate = .none) :
    (∀ p ∈ im.points, 1 ≤ p.number ∧ p.number ≤ 1023) ∧ (im.points.map ImagePoint.number).Nodup
      ∧ im.owned.length ≤ Config.maxOwned ∧ im.pointCount ≤ Config.maxPoints := by
  unfold Image.validate at valid
  split_ifs at valid with _ number duplicate many
  refine ⟨fun p hp => ?_, by simpa [Image.duplicatePointBad] using duplicate, ?_⟩
  · have := List.any_eq_false.mp (Bool.eq_false_iff.mpr number) p hp
    simp only [Bool.or_eq_true, beq_iff_eq, decide_eq_true_eq, not_or] at this
    omega
  · have : ¬ (Config.maxOwned < im.owned.length ∨ Config.maxPoints < im.pointCount) := by
      simpa [Image.tooManyPointsBad] using many
    omega

theorem fillPoint_owned {im : Image} {inputs : PinInputs} {f : FaultSummary} {p : ImagePoint} {o : Owned}
    (h : (fillPoint im inputs f p).owned? = some o) : p.mirrored = false ∧ o = fillOwned im inputs f p := by
  cases mirrored : p.mirrored with
  | true => simp [fillPoint, Point.owned?, mirrored] at h
  | false => exact ⟨rfl, by simpa [fillPoint, Point.owned?, mirrored] using h.symm⟩

theorem kindOfBit_eq (b : Bool) : kindOfBit b = if b then .level else .binary := rfl

theorem fillOwned_lawful (im : Image) (inputs : PinInputs) (f : FaultSummary) (p : ImagePoint) :
    OwnedLawful (kindOfBit p.level) (fillOwned im inputs f p) ∧ InKind (kindOfBit p.level) (fillOwned im inputs f p).current := by
  have source : (fillOwned im inputs f p).source = if p.source < 16 then .pin (Fin.ofNat 16 p.source) else .status := rfl
  refine ⟨⟨fun pin => ⟨?_, rfl, rfl⟩, fun pin => ?_, fun e => (by cases e), fun e => (by cases e), fun e => by cases e⟩, fun binary => ?_⟩
  · cases level : p.level <;> by_cases small : p.source < 16 <;>
      simp_all [fillOwned, isLevelFromPin, kindOfBit, ImagePoint.fromPin]
  · cases level : p.level <;> by_cases small : p.source < 16 <;>
      simp_all [fillOwned, isBinaryFromPin, kindOfBit, ImagePoint.fromPin]
  · have notLevel : p.level = false := by
      cases level : p.level with
      | false => rfl
      | true => rw [level] at binary; cases binary
    have bit : ∀ b, bitAt 0 b = 0 ∨ bitAt 0 b = 1 := fun b => bitAt_zero_inKind .binary b rfl
    simp only [fillOwned, fillValue, notLevel, Bool.false_eq_true, if_false]
    split
    · split
      · exact bit _
      · exact bit _
    · exact bit _

theorem fill_queueKept {flown : List Nat} {im : Image} (inputs : PinInputs) (f : FaultSummary) {s : State}
    (valid : im.validate = .none) (counted : im.points.length = im.pointCount)
    (points : s.points = im.points.map (fillPoint im inputs f)) (empty : s.queue = []) : QueueKept flown s := by
  obtain ⟨range, distinct, owned, count⟩ := validPoints valid
  have numbers : (s.points.map Point.number) = im.points.map ImagePoint.number := by
    simp [points, Function.comp_def, fillPoint]
  have entries : ∀ p ∈ s.points, ∀ o, p.owned? = some o → OwnedLawful p.kind o ∧ InKind p.kind o.current ∧ o.sched = .quiet := by
    intro p hp o ho
    rw [points] at hp
    obtain ⟨q, -, rfl⟩ := List.mem_map.mp hp
    obtain ⟨-, rfl⟩ := fillPoint_owned ho
    obtain ⟨lawful, value⟩ := fillOwned_lawful im inputs f q
    exact ⟨lawful, value, rfl⟩
  refine queueKept_of_quiet ⟨?_, ?_, numbers ▸ distinct, fun p hp => ?_⟩ (fun p hp o ho => ?_) empty fun n o entry => ?_
  · rw [points, List.length_map, counted]; exact count
  · have filled : s.ownedCount = im.owned.length := by
      rw [State.ownedCount, points, List.filter_map, List.length_map, Image.owned]
      congr 2
      funext q
      cases mirrored : q.mirrored <;> simp [fillPoint, Point.owned?, mirrored]
    rw [filled]; exact owned
  · have : p.number ∈ im.points.map ImagePoint.number := numbers ▸ List.mem_map_of_mem hp
    obtain ⟨q, hq, e⟩ := List.mem_map.mp this
    rw [← e]; exact range q hq
  · obtain ⟨lawful, value, -⟩ := entries p hp o ho
    exact ⟨lawful, value⟩
  · obtain ⟨p, -, hp, -, ho⟩ := ownedAt_entry entry
    exact (entries p hp o ho).2.2

/-- The points and the queue after a load with a valid image. -/
theorem validImage_points (im : Image) (straps : Station) (inputs : PinInputs) (s : State) :
    ∃ f, (s.validImage im straps inputs).points = im.points.map (fillPoint im inputs f) := by
  unfold State.validImage
  dsimp only
  split
  · exact ⟨_, rfl⟩
  · exact ⟨_, rfl⟩

theorem validImage_queue (im : Image) (straps : Station) (inputs : PinInputs) (s : State) :
    (s.validImage im straps inputs).queue = s.queue := by
  unfold State.validImage
  dsimp only
  split <;> rfl

/-! ## Every effect -/

theorem Effect.queueKept {s t : State} (effect : Effect s t) (station : StationLawful s) (h : QueueKept s.flownPoints s) :
    QueueKept t.flownPoints t := by
  have silent : QueueKept s.flownPoints { s with inFlight := none } := h.of_ownedHalf rfl rfl rfl
  have flight : ∀ {u v : State}, AnySteps u v → v.flownPoints = u.flownPoints := fun steps => by
    rw [State.flownPoints, (AnySteps.sameStation steps).2.2]; rfl
  have kept : ∀ {u v : State}, Moves u v → QueueKept u.flownPoints u → QueueKept v.flownPoints v := fun moves hu => by
    rw [flight (Moves.any moves)]; exact Moves.queueKept moves hu
  cases effect with
  | moved moves => exact kept moves h
  | restarted u cause => exact queueKept_of_empty rfl rfl
  | failedLoad e error straps loading =>
    obtain ⟨-, ⟨points, -⟩, queue, -⟩ := loading_empty station loading
    exact queueKept_of_empty points queue
  | loaded e im straps inputs loading valid counted =>
    obtain ⟨-, -, queue, -⟩ := loading_empty station loading
    obtain ⟨f, points⟩ := validImage_points im straps inputs (s.advance e)
    exact fill_queueKept inputs f valid counted points ((validImage_queue im straps inputs _).trans queue)
  | entered due joining =>
    obtain ⟨-, quiet, -⟩ := station
    obtain ⟨queue, -⟩ := quiet (by simp [joining]) (by simp [joining])
    have burst : QueueKept s.flownPoints (s.advanceTo due).atRunning.startBurst :=
      startBurst_queueKept (h.of_ownedHalf rfl rfl rfl) queue
    have flown : (s.advanceTo due).enterRunning.flownPoints = s.flownPoints := by
      rw [flight (enterRunning_any _), State.flownPoints, startBurst_queue]; rfl
    rw [flown]
    exact AnySteps.queueKept (enterRunning_any _) burst
  | halted moves =>
    exact enterHalted_queueKept (kept moves h)
  | transmitted moves idle =>
    have before := kept moves h
    rw [flownPoints_idle idle] at before
    exact transmit_queueKept before idle
  | publicationEnded f urgent records complete flying content moves =>
    rw [flownPoints_eq flying content] at silent
    have idle := (AnySteps.sameStation (Moves.any moves)).2.2
    have ended := (publicationOutcome_queue records complete _).status.tables.inFlight.trans idle
    rw [flownPoints_idle ended]
    exact publicationOutcome_queueKept records complete (Moves.queueKept moves silent)
  | frameEnded f flying content moves =>
    have none : s.flownPoints = [] := flownPoints_eq_nil fun f' urgent records flying' content' => by
      rw [flying] at flying'; cases flying'
      exact content urgent records content'
    rw [none] at silent
    rw [flownPoints_idle (AnySteps.sameStation (Moves.any moves)).2.2]
    exact Moves.queueKept moves silent
  | peerLost p before _ moves =>
    refine kept moves ?_
    rw [flight (updatePeer_any p _ _)]
    exact AnySteps.queueKept (updatePeer_any p _ _) (kept before h)

/-- Settles O4: every effect keeps the owned entries and the queue, with the marks in flight on the points of the frame on the line. -/
theorem stepKeepsPublication : Obligations.StepKeepsPublication := by
  intro s t lawful run
  rcases step_effect run with rfl | ⟨rest, effect⟩
  · exact lawful
  have before : QueueKept s.flownPoints { s with pending := rest } :=
    ⟨lawful.table, lawful.owned, lawful.queue, (flightLawful_iff s).mp lawful.flight⟩
  have after := effect.queueKept lawful.station before
  have station : StationLawful t := effect.stationLawful lawful.station
    fun f urgent records complete u _ _ steps notRunning notHalted empty => by
      have stationU := (AnySteps.sameStation steps).1
      obtain ⟨-, quiet, -⟩ := lawful.station
      obtain ⟨queue, -⟩ := quiet (fun e => notRunning (stationU.trans e)) (fun e => notHalted (stationU.trans e))
      have unmarked : QueueKept [] { s with pending := rest, inFlight := none } :=
        ⟨before.table, before.owned, before.queue, marksIn_nil_of_empty lawful.owned lawful.queue queue⟩
      exact publicationOutcome_queue_nil records complete (AnySteps.queueKept steps unmarked).marks empty
  exact ⟨station, after.table, after.owned, after.queue, (flightLawful_iff t).mpr after.marks⟩

end Sys2Proof.Machine
end

