-- ==== Sys2Proof/Proofs/Mirroring.lean ====
section
/-!
THEOREM. Every step keeps the mirrored entries and the solicit list lawful (O5).
-/

namespace Sys2Proof.Machine

open Sys2Proof.Safety

/-! ## The laws, with the exceptions that hold between two small steps -/

/-- The entry may be given a solicit entry (R109, R114). -/
def Asks (m : Mirrored) : Prop := m.state = .unknown ∧ m.backoff = none

/-- The value, if there is one, is within the range of the kind (R3). -/
def ValueInKind (k : Kind) (m : Mirrored) : Prop := ∀ v, m.value = some v → InKind k v

theorem solicitable_iff (p : Point) : p.solicitable = true ↔ ∃ m, p.mirrored? = some m ∧ Asks m := by
  unfold Point.solicitable Asks
  cases p.mirrored? <;> simp

theorem hasSolicit_iff (n : Nat) (l : List Solicit) : hasSolicit n l = true ↔ n ∈ l.map Solicit.point := by
  simp only [hasSolicit, List.any_eq_true, beq_iff_eq, List.mem_map]

/-- The laws of the mirrored entries and the solicit list. A satisfied point may have an entry that is about to leave, and a point in wait
one that is about to be made. -/
structure Mirrors (satisfied waits : Nat → Prop) (s : State) : Prop where
  numbers : (s.points.map Point.number).Nodup
  mirrored : MirroredTableLawful s
  short : s.solicits.length ≤ Config.maxSolicits
  distinct : (s.solicits.map Solicit.point).Nodup
  attempts : ∀ e ∈ s.solicits, e.attempts < Config.maxAttempts
  listed : ∀ n ∈ s.solicits.map Solicit.point, ¬ satisfied n → ∃ m, s.mirroredAt n = some m ∧ Asks m
  waiting : s.station = .running → ∀ n m, s.mirroredAt n = some m → Asks m → ¬ waits n →
    n ∈ s.solicits.map Solicit.point ∨ s.solicits.length = Config.maxSolicits

def nobody : Nat → Prop := fun _ => False

def everybody : Nat → Prop := fun _ => True

theorem mirrors_of_lawful {s : State} (h : MirroringLawful s) : Mirrors nobody nobody s := by
  obtain ⟨-, -, numbers, mirrored, ⟨short, distinct, entries⟩, waiting⟩ := h
  refine ⟨numbers, mirrored, short, distinct, fun e he => (entries e he).1, fun n hn _ => ?_, fun running n m entry asks _ => ?_⟩
  · obtain ⟨e, he, rfl⟩ := List.mem_map.mp hn
    exact (entries e he).2
  · obtain ⟨p, -, hp, rfl, hm⟩ := mirroredAt_entry entry
    rw [← hasSolicit_iff]
    exact waiting running p hp ((solicitable_iff p).mpr ⟨m, hm, asks⟩)

theorem Mirrors.lawful {s : State} (h : Mirrors nobody nobody s) (station : StationLawful s) (transmit : TransmitLawful s) :
    MirroringLawful s where
  station := station
  transmit := transmit
  numbers := h.numbers
  mirrored := h.mirrored
  solicits := ⟨h.short, h.distinct, fun e he => ⟨h.attempts e he, h.listed e.point (List.mem_map_of_mem he) id⟩⟩
  waiting running p hp asks := by
    obtain ⟨m, hm, asks⟩ := (solicitable_iff p).mp asks
    rw [hasSolicit_iff]
    exact h.waiting running p.number m ((mirroredAt_of_mem h.numbers hp).trans hm) asks id

theorem mirrors_of_empty {a b : Nat → Prop} {s : State} (points : s.points = []) (solicits : s.solicits = []) : Mirrors a b s where
  numbers := by simp [points]
  mirrored p hp := by rw [points] at hp; cases hp
  short := by simp [solicits]
  distinct := by simp [solicits]
  attempts e he := by rw [solicits] at he; cases he
  listed n hn := by rw [solicits] at hn; cases hn
  waiting _ n m entry := by simp [State.mirroredAt, findPoint, points] at entry

/-! ## What the laws speak of -/

/-- The station state, the MIRRORED half of the table and the solicit list stay. -/
structure SameMirroring (s t : State) : Prop where
  station : t.station = s.station
  half : mirroredHalf t.points = mirroredHalf s.points
  solicits : t.solicits = s.solicits

theorem SameMirroring.refl (s : State) : SameMirroring s s := ⟨rfl, rfl, rfl⟩

theorem SameMirroring.trans {s t u : State} (h : SameMirroring s t) (k : SameMirroring t u) : SameMirroring s u :=
  ⟨k.station.trans h.station, k.half.trans h.half, k.solicits.trans h.solicits⟩

theorem OwnSteps.sameMirroring {s t : State} (h : OwnSteps s t) : SameMirroring s t :=
  ⟨(OwnSteps.sameMirror h).station, (OwnSteps.sameMirror h).half, (OwnSteps.sameMirror h).solicits⟩

theorem mirroredTable_of_half {s t : State} (half : mirroredHalf t.points = mirroredHalf s.points) (h : MirroredTableLawful s) :
    MirroredTableLawful t := fun p hp m hm => by
  obtain ⟨q, hq, -, kind, same⟩ := mem_of_mirroredHalf half hp
  rw [← kind]
  exact h q hq m (same.trans hm)

theorem SameMirroring.mirrors {a b : Nat → Prop} {s t : State} (same : SameMirroring s t) (h : Mirrors a b s) : Mirrors a b t where
  numbers := numbers_of_mirroredHalf same.half ▸ h.numbers
  mirrored := mirroredTable_of_half same.half h.mirrored
  short := same.solicits ▸ h.short
  distinct := same.solicits ▸ h.distinct
  attempts := same.solicits ▸ h.attempts
  listed := by simpa only [same.solicits, mirroredAt_congr same.half] using h.listed
  waiting := by simpa only [same.solicits, same.station, mirroredAt_congr same.half] using h.waiting

/-- The roster does not reach the mirrored entries. -/
theorem mustTrack_sameMirroring (p : Station) (s : State) : SameMirroring s (s.mustTrack p).1 := by
  rcases mustTrack_roster p s with ⟨-, e⟩ | ⟨-, -, e⟩ | ⟨v, -, -, e⟩ <;> rw [e]
  · exact ⟨rfl, rfl, rfl⟩
  · exact .refl s
  · exact SameMirroring.trans (t := { s with
      roster := s.roster.map fun x => if x.station = v.station then newPeer p s.clock (namesSource p s.points) else x }) ⟨rfl, rfl, rfl⟩
      (OwnSteps.sameMirroring (judgePeerLost_own _))

theorem track_sameMirroring (p : Station) (s : State) : SameMirroring s (s.track p).1 := by
  rcases track_cases p s with ⟨x, -, e⟩ | ⟨-, -, e⟩ | ⟨-, -, e⟩ <;> rw [e]
  · exact .refl s
  · exact mustTrack_sameMirroring p s
  · exact OwnSteps.sameMirroring ((bump_own _ s).trans (report_own _ _ _))

theorem updatePeer_sameMirroring (p : Station) (f : Peer → Peer) (s : State) : SameMirroring s (s.updatePeer p f) := ⟨rfl, rfl, rfl⟩

theorem keepSourcesMark_sameMirroring (p : Station) (s : State) : SameMirroring s (s.keepSourcesMark p) :=
  (updatePeer_sameMirroring p _ s).trans (OwnSteps.sameMirroring (judgePeerLost_own _))

theorem heard_sameMirroring (p : Station) (s : State) : SameMirroring s (s.heard p) := by
  unfold State.heard
  split
  · split
    · exact (updatePeer_sameMirroring p _ s).trans (OwnSteps.sameMirroring (judgePeerLost_own _))
    · split
      · exact ⟨rfl, rfl, rfl⟩
      · split
        · exact mustTrack_sameMirroring p s
        · exact .refl s
  · exact .refl s

/-! ## A change of one entry -/

theorem updateMirrored_half {n : Nat} {f : Mirrored → Mirrored} {s u : State} (half : mirroredHalf u.points = mirroredHalf s.points) :
    mirroredHalf (u.updateMirrored n f).points = mirroredHalf (s.updateMirrored n f).points := by
  have read : ∀ l : List Point, mirroredHalf (mapMirroredBy (atNumber n f) l)
      = (mirroredHalf l).map fun x => (x.1, x.2.1, if x.1 = n then x.2.2.map f else x.2.2) := fun l => by
    simp only [mirroredHalf, mapMirroredBy, List.map_map]
    refine List.map_congr_left fun p _ => ?_
    by_cases e : p.number = n <;> simp [atNumber, e]
  rw [updateMirrored_points, updateMirrored_points, read, read, half]

/-- A change of the entry of one number, the solicit list kept: a satisfied entry may stop asking, a point in wait may begin to ask. -/
theorem Mirrors.update {a b : Nat → Prop} {s t : State} {n : Nat} {f : Mirrored → Mirrored} (h : Mirrors nobody nobody s)
    (half : mirroredHalf t.points = mirroredHalf (s.updateMirrored n f).points) (station : t.station = s.station)
    (solicits : t.solicits = s.solicits)
    (entry : ∀ p m, findPoint n s.points = some p → p.mirrored? = some m → MirroredLawful m → ValueInKind p.kind m →
      MirroredLawful (f m) ∧ ValueInKind p.kind (f m))
    (listed : a n ∨ ∀ m, s.mirroredAt n = some m → Asks m → Asks (f m))
    (waits : b n ∨ ∀ m, s.mirroredAt n = some m → Asks (f m) → Asks m) : Mirrors a b t := by
  have at_k : ∀ k, t.mirroredAt k = (s.mirroredAt k).map fun m => if k = n then f m else m := fun k => by
    rw [mirroredAt_congr half, mirroredAt_updateMirrored]
  refine ⟨?_, ?_, solicits ▸ h.short, solicits ▸ h.distinct, solicits ▸ h.attempts, fun k hk unsatisfied => ?_,
    fun running k m found asks still => ?_⟩
  · rw [numbers_of_mirroredHalf half, updateMirrored_points, numbers_mapMirroredBy]; exact h.numbers
  · refine mirroredTable_of_half half fun p hp m hm => ?_
    rw [updateMirrored_points] at hp
    obtain ⟨q, hq, rfl⟩ := List.mem_map.mp hp
    rw [Point.mirrored?_mapMirrored] at hm
    obtain ⟨m', hm', rfl⟩ := Option.map_eq_some_iff.mp hm
    obtain ⟨pattern, value⟩ := h.mirrored q hq m' hm'
    rw [Point.mapMirrored_kind]
    by_cases e : q.number = n
    · simp only [atNumber, e, if_true]
      exact entry q m' (e ▸ findPoint_of_mem h.numbers hq) hm' pattern value
    · simp only [atNumber, e, if_false]
      exact ⟨pattern, value⟩
  · rw [solicits] at hk
    obtain ⟨m, found, asks⟩ := h.listed k hk id
    refine ⟨_, (at_k k).trans (congrArg _ found), ?_⟩
    by_cases e : k = n
    · subst e
      simpa using (listed.resolve_left unsatisfied) m found asks
    · simpa [e] using asks
  · rw [at_k] at found
    obtain ⟨m', found', rfl⟩ := Option.map_eq_some_iff.mp found
    rw [solicits]
    refine h.waiting (station ▸ running) k m' found' ?_ id
    by_cases e : k = n
    · subst e
      rw [if_pos rfl] at asks
      exact waits.resolve_left still m' found' asks
    · simpa [e] using asks

/-- A change that touches neither the state of an entry nor its backoff mark. -/
theorem Mirrors.touch {s : State} {n : Nat} {f : Mirrored → Mirrored} (h : Mirrors nobody nobody s)
    (entry : ∀ m, s.mirroredAt n = some m → MirroredLawful m → MirroredLawful (f m) ∧ (f m).value = m.value)
    (asks : ∀ m, Asks (f m) ↔ Asks m) : Mirrors nobody nobody (s.updateMirrored n f) :=
  h.update rfl rfl rfl
    (fun p m found hm pattern value => by
      obtain ⟨kept, same⟩ := entry m (by simp [State.mirroredAt, found, hm]) pattern
      exact ⟨kept, fun v hv => value v (same ▸ hv)⟩)
    (.inr fun m _ => (asks m).mpr) (.inr fun m _ => (asks m).mp)

/-! ## The solicit list is filled -/

/-- The point has an entry, or the list is full. -/
def Served (n : Nat) (l : List Solicit) : Prop := n ∈ l.map Solicit.point ∨ l.length = Config.maxSolicits

theorem addSolicit_cases (l : List Solicit) (p : Point) :
    (addSolicit l p = l ∧ (p.solicitable = true → p.number ∈ l.map Solicit.point ∨ Config.maxSolicits ≤ l.length))
    ∨ (addSolicit l p = l ++ [newSolicit p.number] ∧ p.solicitable = true ∧ p.number ∉ l.map Solicit.point
      ∧ l.length < Config.maxSolicits) := by
  unfold addSolicit
  split
  · next added =>
    simp only [Bool.and_eq_true, decide_eq_true_eq, Bool.not_eq_true', ← Bool.not_eq_true, hasSolicit_iff] at added
    obtain ⟨⟨asks, new⟩, room⟩ := added
    exact .inr ⟨rfl, asks, new, room⟩
  · next kept =>
    refine .inl ⟨rfl, fun asks => ?_⟩
    simp only [asks, Bool.true_and, Bool.and_eq_true, decide_eq_true_eq, Bool.not_eq_true', ← Bool.not_eq_true, hasSolicit_iff] at kept
    by_cases listed : p.number ∈ l.map Solicit.point
    · exact .inl listed
    · exact .inr (Nat.le_of_not_lt fun room => kept ⟨listed, room⟩)

theorem addSolicit_short {l : List Solicit} (short : l.length ≤ Config.maxSolicits) (p : Point) :
    (addSolicit l p).length ≤ Config.maxSolicits := by
  rcases addSolicit_cases l p with ⟨e, -⟩ | ⟨e, -, -, room⟩ <;> rw [e]
  · exact short
  · simpa using room

theorem served_addSolicit {n : Nat} {l : List Solicit} (served : Served n l) (p : Point) : Served n (addSolicit l p) := by
  rcases addSolicit_cases l p with ⟨e, -⟩ | ⟨e, -, -, room⟩ <;> rw [e]
  · exact served
  · refine served.elim (fun listed => .inl ?_) fun full => absurd full (Nat.ne_of_lt room)
    rw [List.map_append]
    exact List.mem_append_left _ listed

theorem served_addSolicit_self {l : List Solicit} (short : l.length ≤ Config.maxSolicits) {p : Point} (asks : p.solicitable = true) :
    Served p.number (addSolicit l p) := by
  rcases addSolicit_cases l p with ⟨e, kept⟩ | ⟨e, -, -, -⟩ <;> rw [e]
  · exact (kept asks).imp_right fun full => Nat.le_antisymm short full
  · exact .inl (by simp [newSolicit])

/-- An entry is made for a point of the table that may have one. -/
theorem Mirrors.addSolicit {b : Nat → Prop} {s : State} (h : Mirrors nobody b s) {p : Point} (hp : p ∈ s.points) :
    Mirrors nobody (fun n => b n ∧ n ≠ p.number) { s with solicits := addSolicit s.solicits p } := by
  have waiting : s.station = .running → ∀ n m, s.mirroredAt n = some m → Asks m → ¬ (b n ∧ n ≠ p.number) →
      Served n (Machine.addSolicit s.solicits p) := fun running n m found asks still => by
    by_cases same : n = p.number
    · subst same
      rw [mirroredAt_of_mem h.numbers hp] at found
      exact served_addSolicit_self h.short ((solicitable_iff p).mpr ⟨m, found, asks⟩)
    · exact served_addSolicit (h.waiting running n m found asks fun hb => still ⟨hb, same⟩) p
  refine ⟨h.numbers, h.mirrored, addSolicit_short h.short p, ?_, ?_, ?_, waiting⟩
  all_goals rcases addSolicit_cases s.solicits p with ⟨e, -⟩ | ⟨e, asks, new, -⟩ <;> simp only [e]
  · exact h.distinct
  · rw [List.map_append]
    exact List.nodup_append_comm.mp (List.nodup_cons.mpr ⟨new, h.distinct⟩)
  · exact h.attempts
  · intro x hx
    rcases List.mem_append.mp hx with hx | hx
    · exact h.attempts x hx
    · rw [List.mem_singleton.mp hx]; exact Nat.zero_lt_succ _
  · exact h.listed
  · intro n hn _
    rw [List.map_append] at hn
    rcases List.mem_append.mp hn with hn | hn
    · exact h.listed n hn id
    · obtain rfl : n = p.number := by simpa [newSolicit] using hn
      obtain ⟨m, hm, asks⟩ := (solicitable_iff p).mp asks
      exact ⟨m, (mirroredAt_of_mem h.numbers hp).trans hm, asks⟩

theorem Mirrors.foldl_addSolicit {b : Nat → Prop} (l : List Point) : ∀ {s : State}, Mirrors nobody b s → (∀ p ∈ l, p ∈ s.points) →
    Mirrors nobody (fun n => b n ∧ ∀ p ∈ l, n ≠ p.number) { s with solicits := l.foldl Machine.addSolicit s.solicits } := by
  induction l generalizing b with
  | nil => exact fun h _ => by simpa using h
  | cons p l ih =>
    intro s h sub
    have := ih (h.addSolicit (sub p List.mem_cons_self)) fun q hq => sub q (List.mem_cons_of_mem _ hq)
    simpa [and_assoc] using this

theorem Mirrors.weaken {a b b' : Nat → Prop} {s : State} (h : Mirrors a b s) (fewer : ∀ n m, s.mirroredAt n = some m → b n → b' n) :
    Mirrors a b' s :=
  { h with waiting := fun running n m found asks still => h.waiting running n m found asks fun hb => still (fewer n m found hb) }

theorem Mirrors.idle {a b b' : Nat → Prop} {s : State} (h : Mirrors a b s) (other : s.station ≠ .running) : Mirrors a b' s :=
  { h with waiting := fun running => absurd running other }

/-- After a fill no point waits while there is room (R110). -/
theorem Mirrors.fill {b : Nat → Prop} {s : State} (h : Mirrors nobody b s) : Mirrors nobody nobody s.fillSolicits := by
  unfold State.fillSolicits
  split
  · refine (h.foldl_addSolicit s.points fun _ => id).weaken fun n m found still => ?_
    obtain ⟨p, -, hp, number, -⟩ := mirroredAt_entry found
    exact (still.2 p hp number.symm).elim
  · next other => exact h.idle other

theorem Mirrors.solicitPoint {n : Nat} {s : State} (h : Mirrors nobody (· = n) s) : Mirrors nobody nobody (s.solicitPoint n) := by
  unfold State.solicitPoint
  split
  · split
    · next p found =>
      exact (h.addSolicit (findPoint_mem found)).weaken fun k _ _ still => still.2 (still.1.trans (findPoint_number found).symm)
    · next none =>
      exact h.weaken fun k m found same => by rw [same, State.mirroredAt, none] at found; cases found
  · next other => exact h.idle other

theorem Mirrors.removeSolicit {n : Nat} {b : Nat → Prop} {s : State} (h : Mirrors (· = n) b s) :
    Mirrors nobody everybody (s.removeSolicit n) := by
  have kept : ∀ e ∈ (s.removeSolicit n).solicits, e ∈ s.solicits ∧ e.point ≠ n := fun e he => by
    simpa [State.removeSolicit] using he
  refine ⟨h.numbers, h.mirrored, (List.length_filter_le _ _).trans h.short, h.distinct.sublist (List.filter_sublist.map _),
    fun e he => h.attempts e (kept e he).1, fun k hk _ => ?_, fun _ _ _ _ _ still => absurd trivial still⟩
  obtain ⟨e, he, rfl⟩ := List.mem_map.mp hk
  exact h.listed e.point (List.mem_map_of_mem (kept e he).1) (kept e he).2

theorem Mirrors.satisfy {n : Nat} {s : State} (h : Mirrors (· = n) nobody s) : Mirrors nobody nobody (s.satisfy n) := by
  unfold State.satisfy
  split
  · exact h.removeSolicit.fill
  · next unlisted =>
    rw [hasSolicit_iff] at unlisted
    exact { h with listed := fun k hk _ => h.listed k hk fun same => unlisted (same ▸ hk) }

/-- The states and attempts of solicit entries change, their points do not. -/
theorem Mirrors.mark {a b : Nat → Prop} {s : State} {g : Solicit → Solicit} (h : Mirrors a b s) (point : ∀ x, (g x).point = x.point)
    (attempts : ∀ x ∈ s.solicits, (g x).attempts < Config.maxAttempts) : Mirrors a b { s with solicits := s.solicits.map g } := by
  have points : (s.solicits.map g).map Solicit.point = s.solicits.map Solicit.point := by simp [Function.comp_def, point]
  exact
    { numbers := h.numbers
      mirrored := h.mirrored
      short := by simpa using h.short
      distinct := points ▸ h.distinct
      attempts := fun x hx => by obtain ⟨y, hy, rfl⟩ := List.mem_map.mp hx; exact attempts y hy
      listed := points ▸ h.listed
      waiting := fun running n m found asks still => by
        rw [points, List.length_map]
        exact h.waiting running n m found asks still }

/-! ## Moves -/

/-- The patterns of an accepted record: FRESH with everything but a learned source, which it leaves (R15, R100). -/
theorem accept_lawful (k : Kind) (now : Time) (r : Record) {m : Mirrored} (learned : m.source.isSome) :
    MirroredLawful (m.accept k now r) ∧ ValueInKind k (m.accept k now r) ∧ ¬ Asks (m.accept k now r) := by
  refine ⟨by simpa [MirroredLawful, Mirrored.accept] using learned, fun v hv binary => ?_, fun asks => by cases asks.1⟩
  obtain rfl : k.store r.value = v := by simpa [Mirrored.accept] using hv
  subst binary
  by_cases zero : r.value = 0
  · exact .inl (by simp [Kind.store, zero])
  · exact .inr (by simpa [Kind.store] using zero)

/-- An acceptance after a change of the entry, as one change of the entry, then the judgement of SOURCE, the list and the outputs. -/
theorem acceptRecord_half {n : Nat} {k : Kind} {m : Mirrored} {r : Record} {f : Mirrored → Mirrored} {s u : State}
    (half : mirroredHalf u.points = mirroredHalf (s.updateMirrored n f).points) :
    mirroredHalf ((u.countMissed m.count r.count).updateMirrored n (Mirrored.accept k u.clock r)).points
      = mirroredHalf (s.updateMirrored n fun m => (f m).accept k u.clock r).points := by
  refine (updateMirrored_half ((OwnSteps.sameMirroring (countMissed_own m.count r.count u)).half.trans half)).trans ?_
  rw [updateMirrored_points n (Mirrored.accept k u.clock r) (s.updateMirrored n f), updateMirrored_points, updateMirrored_points]
  simp only [mapMirroredBy, List.map_map, Function.comp_def, Point.mapMirrored_mapMirrored]
  congr 1
  refine List.map_congr_left fun q _ => ?_
  by_cases e : q.number = n <;> simp [atNumber, e]

/-- A record is accepted in a state that differs from a lawful one at most in the learned source of its point (R97, R98, R100). -/
theorem Mirrors.accepted {n : Nat} {p : Point} {m m' : Mirrored} {f : Mirrored → Mirrored} {s u : State} (h : Mirrors nobody nobody s)
    (found : findPoint n s.points = some p) (entry : p.mirrored? = some m) (r : Record)
    (station : u.station = s.station) (half : mirroredHalf u.points = mirroredHalf (s.updateMirrored n f).points)
    (solicits : u.solicits = s.solicits) (learned : (f m).source.isSome) :
    Mirrors nobody nobody (u.acceptRecord n p.kind m' r) := by
  have missed := OwnSteps.sameMirroring (countMissed_own m'.count r.count u)
  let w := (u.countMissed m'.count r.count).updateMirrored n (Mirrored.accept p.kind u.clock r)
  have only : ∀ q m₁, findPoint n s.points = some q → q.mirrored? = some m₁ → q = p ∧ m₁ = m := fun q m₁ hq hm₁ => by
    rw [found] at hq; cases hq
    rw [entry] at hm₁; cases hm₁
    exact ⟨rfl, rfl⟩
  have at_n : ∀ m₁, s.mirroredAt n = some m₁ → m₁ = m := fun m₁ hm₁ => by
    obtain ⟨q, hq, -, -, hm₁⟩ := mirroredAt_entry hm₁
    exact (only q m₁ hq hm₁).2
  have accepted : Mirrors (· = n) nobody w := h.update (acceptRecord_half half) (missed.station.trans station)
    (missed.solicits.trans solicits)
    (fun q m₁ hq hm₁ _ _ => by
      obtain ⟨rfl, rfl⟩ := only q m₁ hq hm₁
      obtain ⟨pattern, value, -⟩ := accept_lawful q.kind u.clock r learned
      exact ⟨pattern, value⟩)
    (.inl rfl) (.inr fun m₁ hm₁ asks => by
      rw [at_n m₁ hm₁] at asks
      exact absurd asks (accept_lawful p.kind u.clock r learned).2.2)
  have judged : Mirrors (· = n) nobody w.judgeSource := (OwnSteps.sameMirroring (judgeSource_own w)).mirrors accepted
  exact (OwnSteps.sameMirroring (evaluateSource_own n _)).mirrors judged.satisfy

theorem learn_sameMirroring (n : Nat) (p : Station) (s : State) :
    SameMirroring (s.updateMirrored n fun m => { m with source := some p }) (s.learn n p) :=
  (track_sameMirroring p _).trans (keepSourcesMark_sameMirroring p _)

theorem updateMirrored_id (n : Nat) (s : State) : s.updateMirrored n (fun m => m) = s := by
  have : (s.updateMirrored n fun m => m).points = s.points := by
    rw [updateMirrored_points]
    refine (List.map_congr_left fun p _ => ?_).trans (List.map_id _)
    simp [atNumber, Point.mapMirrored_id]
  exact congrArg (fun l => { s with points := l }) this

theorem Mirrors.record {s : State} (h : Mirrors nobody nobody s) (p : Station) (r : Record) :
    Mirrors nobody nobody (s.takeRecord p r) := by
  rcases takeRecord_cases p s r with e | ⟨o, -, -, e⟩ | ⟨q, m, found, entry, -, e⟩ | e <;> rw [e]
  · exact h
  · exact (OwnSteps.sameMirroring (ownershipConflict_own ..)).mirrors h
  · have learned : ∀ u : State, SameMirroring (s.updateMirrored r.point.toNat fun m => { m with source := some p }) u →
        Mirrors nobody nobody (u.acceptRecord r.point.toNat q.kind m r) := fun u same =>
      h.accepted found entry r same.station same.half same.solicits rfl
    rcases mirroredRecord_cases p r.point.toNat q.kind m r s with
      ⟨-, e⟩ | ⟨own, e⟩ | ⟨old, -, -, ⟨-, e⟩ | ⟨-, e⟩ | ⟨-, e⟩⟩ <;> rw [e]
    · exact learned _ (learn_sameMirroring _ p s)
    · exact h.accepted (f := fun m => m) found entry r rfl (by rw [updateMirrored_id]) rfl (by simp [own])
    · exact learned _ (SameMirroring.trans (t := (s.bump .conflicts).learn r.point.toNat p)
        ((SameMirroring.trans (t := (s.bump .conflicts).updateMirrored r.point.toNat fun m => { m with source := some p }) ⟨rfl, rfl, rfl⟩
          (learn_sameMirroring _ p _))) (keepSourcesMark_sameMirroring old _))
    · exact learned _ ((learn_sameMirroring _ p s).trans (keepSourcesMark_sameMirroring old _))
    · exact (OwnSteps.sameMirroring (bump_own _ s)).mirrors h
  · exact (OwnSteps.sameMirroring (bump_own _ s)).mirrors h

theorem Mirrors.sourceLost {s : State} (h : Mirrors nobody nobody s) (n : Nat) : Mirrors nobody nobody (s.sourceLost n) := by
  rcases sourceLost_cases n s with ⟨e, -⟩ | ⟨m, entry, fresh, steps⟩
  · rwa [e]
  · refine (OwnSteps.sameMirroring steps).mirrors (h.update rfl rfl rfl (fun p m' found hm' pattern value => ?_)
      (.inr fun m' hm' asks => ?_) (.inr fun m' _ asks => by cases asks.1))
    · have : m' = m := by simpa [State.mirroredAt, found, hm'] using entry
      subst this
      refine ⟨?_, value⟩
      simp only [MirroredLawful, fresh] at pattern
      obtain ⟨hv, hc, hs, -, rest⟩ := pattern
      exact ⟨hv, hc, hs, rfl, rest⟩
    · rw [entry] at hm'; cases hm'
      rw [asks.1] at fresh; cases fresh

theorem goUnknown_lawful {m : Mirrored} (h : MirroredLawful m) (learned : m.source.isSome) : MirroredLawful m.goUnknown := by
  have value : m.value.isSome = true := by
    unfold MirroredLawful at h
    split at h
    · obtain ⟨-, -, value, source⟩ := h
      rw [value, ← source]; exact learned
    · exact h.1
    · exact h.1
  exact ⟨rfl, rfl, value, learned⟩

theorem startOverdue_lawful {m : Mirrored} (running : Bool) (due : Time) (h : MirroredLawful m.goUnknown) :
    MirroredLawful (m.goUnknown.startOverdue running due) := by
  rw [Mirrored.goUnknown_startOverdue]
  exact h

theorem Mirrors.sourceRestarted {s : State} (h : Mirrors nobody nobody s) (n : Nat)
    (learned : ∀ m, s.mirroredAt n = some m → m.source.isSome) : Mirrors nobody nobody (s.sourceRestarted n) := by
  have source : ∀ p m, findPoint n s.points = some p → p.mirrored? = some m → m.source.isSome := fun p m found hm =>
    learned m (by simp [State.mirroredAt, found, hm])
  cases entry : s.mirroredAt n with
  | none =>
    have : s.sourceRestarted n = s := by simp [State.sourceRestarted, entry]
    rwa [this]
  | some m =>
    rcases sourceRestarted_cases entry with ⟨unknown, e⟩ | ⟨known, t, ht, e⟩ <;> rw [e]
    · exact h.update rfl rfl rfl (fun p m found hm pattern value => ⟨goUnknown_lawful pattern (source p m found hm), value⟩)
        (.inr fun _ _ asks => ⟨rfl, asks.2⟩) (.inr fun m' hm' asks => by rw [entry] at hm'; cases hm'; exact ⟨unknown, asks.2⟩)
    · rw [ht]
      refine Mirrors.solicitPoint ((OwnSteps.sameMirroring ((judgeSource_own _).trans (evaluateSource_own n _))).mirrors
        (h.update rfl rfl rfl (fun p m found hm pattern value => ⟨?_, fun v hv => value v ?_⟩) (.inr fun m' hm' asks => ?_) (.inl rfl)))
      · exact startOverdue_lawful _ _ (goUnknown_lawful pattern (source p m found hm))
      · rwa [Mirrored.goUnknown_startOverdue] at hv
      · rw [entry] at hm'; cases hm'
        exact absurd asks.1 known

/-- A running overdue timer stands on an UNKNOWN entry only (R21). -/
theorem overdue_lawful {m : Mirrored} (h : MirroredLawful m) (timed : m.overdueTimer.isSome) :
    MirroredLawful { m with overdue := true, overdueTimer := none } := by
  cases state : m.state with
  | unknown => simp only [MirroredLawful, state] at h ⊢; exact h
  | fresh => simp only [MirroredLawful, state] at h; simp [h.2.2.2.2.2.2.2] at timed
  | stale => simp only [MirroredLawful, state] at h; simp [h.2.2.2.2.2.2.2] at timed

theorem Mirrors.solicitExpired {s : State} (h : Mirrors nobody nobody s) {x : Solicit} (listed : x ∈ s.solicits) :
    Mirrors nobody nobody (s.solicitExpired x) := by
  unfold State.solicitExpired
  split
  · next more =>
    refine h.mark (fun y => by split <;> rfl) fun y hy => ?_
    split
    · exact more
    · exact h.attempts y hy
  · obtain ⟨m, entry, unknown, -⟩ := h.listed x.point (List.mem_map_of_mem listed) id
    have marked : Mirrors (· = x.point) nobody (s.updateMirrored x.point fun m => { m with backoff := some (s.clock + Config.backoff) }) := by
      refine h.update rfl rfl rfl (fun p m' found hm' pattern value => ⟨?_, value⟩) (.inl rfl) (.inr fun m' _ asks => by cases asks.2)
      have : m' = m := by simpa [State.mirroredAt, found, hm'] using entry
      subst this
      simp only [MirroredLawful, unknown] at pattern ⊢
      exact pattern
    exact Mirrors.fill (SameMirroring.mirrors (s := ((s.updateMirrored x.point fun m =>
      { m with backoff := some (s.clock + Config.backoff) }).removeSolicit x.point)) ⟨rfl, rfl, rfl⟩ marked.removeSolicit)

theorem Mirrors.backoffEnded {s : State} (h : Mirrors nobody nobody s) (n : Nat) :
    Mirrors nobody nobody (s.updateMirrored n fun m => { m with backoff := none }).fillSolicits := by
  refine Mirrors.fill (b := (· = n)) (h.update rfl rfl rfl (fun p m _ _ pattern value => ⟨?_, value⟩) (.inr fun _ _ asks => ⟨asks.1, rfl⟩)
    (.inl rfl))
  cases state : m.state <;> simp_all [MirroredLawful]

theorem Move.mirrors {s t : State} (move : Move s t) (h : Mirrors nobody nobody s) : Mirrors nobody nobody t := by
  cases move with
  | own step => exact (OwnSteps.sameMirroring step.one).mirrors h
  | tended p f => exact (updatePeer_sameMirroring p f s).mirrors h
  | heard p => exact (heard_sameMirroring p s).mirrors h
  | tracked p => exact (track_sameMirroring p s).mirrors h
  | record p r => exact h.record p r
  | sourceLost n => exact h.sourceLost n
  | sourceRestarted n learned => exact h.sourceRestarted n (learned h.numbers)
  | overdue n m entry timed =>
    refine h.touch (fun m' hm' pattern => ⟨overdue_lawful pattern ?_, rfl⟩) fun _ => .rfl
    rw [entry] at hm'; cases hm'; exact timed
  | solicitExpired x _ listed => exact h.solicitExpired listed
  | backoffEnded n => exact h.backoffEnded n
  | solicitMarks g point attempts => exact h.mark point fun x hx => attempts x ▸ h.attempts x hx

theorem Moves.mirrors {s t : State} (moves : Moves s t) : Mirrors nobody nobody s → Mirrors nobody nobody t :=
  chain_keeps (P := Mirrors nobody nobody) Move.mirrors moves

/-! ## Effects -/

theorem sameMirroring_of_onlyOwned {s t : State} (h : OnlyOwned s t) (queue : OnlyQueue s t) : SameMirroring s t :=
  ⟨queue.status.tables.station, h.half, queue.status.solicits⟩

theorem mirrors_validImage (im : Image) (straps : Station) (inputs : PinInputs) {s : State} (solicits : s.solicits = [])
    (valid : im.validate = .none) : Mirrors nobody nobody (s.validImage im straps inputs) := by
  obtain ⟨f, points⟩ := validImage_points im straps inputs s
  obtain ⟨-, distinct, -⟩ := validPoints valid
  have empty : (s.validImage im straps inputs).solicits = [] ∧ (s.validImage im straps inputs).station ≠ .running := by
    unfold State.validImage
    dsimp only
    split
    · exact ⟨solicits, fun e => by cases e⟩
    · exact ⟨solicits, fun e => by cases e⟩
  refine ⟨?_, fun p hp m hm => ?_, by simp [empty.1], by simp [empty.1], fun e he => ?_, fun n hn => ?_, fun running => absurd running empty.2⟩
  · rw [points]; simpa [Function.comp_def, fillPoint] using distinct
  · rw [points] at hp
    obtain ⟨q, -, rfl⟩ := List.mem_map.mp hp
    obtain rfl : fillMirrored = m := by
      cases mirrored : q.mirrored with
      | true => simpa [fillPoint, Point.mirrored?, mirrored] using hm
      | false => simp [fillPoint, Point.mirrored?, mirrored] at hm
    exact ⟨⟨rfl, rfl, rfl, rfl⟩, fun v hv => by cases hv⟩
  · rw [empty.1] at he; cases he
  · rw [empty.1] at hn; cases hn

/-- At the entry to RUNNING every UNKNOWN point starts its overdue timer, and the solicit list is filled (R109, R185). -/
theorem mirrors_enterRunning {s : State} (h : Mirrors nobody nobody s) (solicits : s.solicits = []) :
    Mirrors nobody nobody s.enterRunning := by
  have burst : Mirrors nobody everybody s.atRunning.startBurst := by
    refine (sameMirroring_of_onlyOwned (startBurst_onlyOwned _) (startBurst_queue _)).mirrors ?_
    exact { h with waiting := fun _ _ _ _ _ still => absurd trivial still }
  have none : s.atRunning.startBurst.solicits = [] := (startBurst_queue s.atRunning).status.solicits.trans solicits
  have timed : Mirrors nobody everybody s.atRunning.startBurst.startOverdueTimers := by
    refine ⟨?_, fun p hp m hm => ?_, burst.short, burst.distinct, burst.attempts, fun n hn => ?_, fun _ _ _ _ _ still => absurd trivial still⟩
    · simpa [State.startOverdueTimers, Function.comp_def] using burst.numbers
    · obtain ⟨q, hq, rfl⟩ := List.mem_map.mp hp
      rw [Point.mirrored?_mapMirrored] at hm
      obtain ⟨m', hm', rfl⟩ := Option.map_eq_some_iff.mp hm
      obtain ⟨pattern, value⟩ := burst.mirrored q hq m' hm'
      rw [Point.mapMirrored_kind]
      split
      · next unknown =>
        refine ⟨?_, value⟩
        simp only [MirroredLawful, unknown] at pattern ⊢
        exact pattern
      · exact ⟨pattern, value⟩
    · rw [State.startOverdueTimers, none] at hn; cases hn
  have filled := timed.fill
  have running : s.atRunning.startBurst.startOverdueTimers.fillSolicits.station = .running :=
    (fillSolicits_tables _).station.trans (startBurst_queue s.atRunning).status.tables.station
  rw [enterRunning_eq]
  exact (OwnSteps.sameMirroring ((beginPresence_own running).trans (evaluateWhere_own _ _))).mirrors filled

theorem mirrors_enterHalted {s : State} (h : Mirrors nobody nobody s) : Mirrors nobody nobody s.enterHalted := by
  have unmarked := h.mark (g := Solicit.unmark) (fun x => by unfold Solicit.unmark; split <;> rfl)
    fun x hx => by unfold Solicit.unmark; split <;> exact h.attempts x hx
  have same := (enterHalted_onlyOwned s).half
  exact
    { numbers := numbers_of_mirroredHalf same ▸ h.numbers
      mirrored := mirroredTable_of_half same h.mirrored
      short := unmarked.short
      distinct := unmarked.distinct
      attempts := unmarked.attempts
      listed := fun n hn away => by
        rw [mirroredAt_congr same]
        exact unmarked.listed n hn away
      waiting := fun running => by cases running }

theorem Effect.mirrors {s t : State} (effect : Effect s t) (station : StationLawful s) (h : Mirrors nobody nobody s) :
    Mirrors nobody nobody t := by
  have silent : Mirrors nobody nobody { s with inFlight := none } := SameMirroring.mirrors (s := s) ⟨rfl, rfl, rfl⟩ h
  cases effect with
  | moved moves => exact Moves.mirrors moves h
  | restarted u cause => exact mirrors_of_empty rfl rfl
  | failedLoad e error straps loading =>
    obtain ⟨-, ⟨points, -⟩, -, solicits, -⟩ := loading_empty station loading
    exact mirrors_of_empty points solicits
  | loaded e im straps inputs loading valid =>
    obtain ⟨-, -, -, solicits, -⟩ := loading_empty station loading
    exact mirrors_validImage im straps inputs (s := s.advance e) solicits valid
  | entered due joining =>
    obtain ⟨-, quiet, -⟩ := station
    obtain ⟨-, solicits, -⟩ := quiet (by simp [joining]) (by simp [joining])
    exact mirrors_enterRunning (Moves.mirrors (advanceTo_moves due s) h) solicits
  | halted moves => exact mirrors_enterHalted (Moves.mirrors moves h)
  | @transmitted u moves =>
    have before := Moves.mirrors moves h
    rcases transmit_cases u with e | ⟨urgent, -, e⟩ | ⟨content, v, -, -, moves', e⟩ <;> rw [e]
    · exact before
    · exact SameMirroring.mirrors (s := u) ⟨rfl, (markTaken_onlyOwned u).half, rfl⟩ before
    · exact SameMirroring.mirrors (s := v) ⟨rfl, rfl, rfl⟩ (Moves.mirrors moves' before)
  | publicationEnded f urgent records complete _ _ moves =>
    exact (sameMirroring_of_onlyOwned (publicationOutcome_onlyOwned records complete _)
      (publicationOutcome_queue records complete _)).mirrors
      (Moves.mirrors moves silent)
  | frameEnded f _ _ moves => exact Moves.mirrors moves silent
  | peerLost p before _ moves =>
    exact Moves.mirrors moves ((updatePeer_sameMirroring p _ _).mirrors (Moves.mirrors before h))

/-- Settles O5: every effect keeps the patterns of the mirrored entries and the solicit list; the station states are O3's. -/
theorem stepKeepsMirroring : Obligations.StepKeepsMirroring := by
  intro s t lawful run
  obtain ⟨station, transmit⟩ := stepKeepsStations s t lawful.station lawful.transmit run
  rcases step_effect run with rfl | ⟨rest, effect⟩
  · exact lawful
  · have before : Mirrors nobody nobody { s with pending := rest } := SameMirroring.mirrors (s := s) ⟨rfl, rfl, rfl⟩ (mirrors_of_lawful lawful)
    exact (effect.mirrors lawful.station before).lawful station transmit

end Sys2Proof.Machine
end

