-- ==== Sys2Proof/Proofs/Sources.lean ====
section
/-!
THEOREM. Every step keeps FRESH points away from LOST sources, and the roster lawful (O6).
-/

namespace Sys2Proof.Machine

open Sys2Proof.Safety

/-! ## The roster -/

theorem rosterLawful_of_eq {s t : State} (h : RosterLawful s) (roster : t.roster = s.roster) (number : t.number = s.number) :
    RosterLawful t := by
  unfold RosterLawful
  rw [roster, number]
  exact h

/-- The stations of the roster decide its law. -/
theorem rosterLawful_of_stations {s t : State} (h : RosterLawful s)
    (stations : t.roster.map Peer.station = s.roster.map Peer.station) (number : t.number = s.number) : RosterLawful t := by
  obtain ⟨short, distinct, entries⟩ := h
  refine ⟨?_, stations ▸ distinct, fun x hx => ?_⟩
  · have := congrArg List.length stations
    rw [List.length_map, List.length_map] at this
    rwa [this]
  · have : x.station ∈ s.roster.map Peer.station := stations ▸ List.mem_map_of_mem hx
    obtain ⟨y, hy, e⟩ := List.mem_map.mp this
    rw [← e, number]
    exact entries y hy

theorem updatePeer_stations (p : Station) (f : Peer → Peer) (s : State) (station : ∀ x, (f x).station = x.station) :
    (s.updatePeer p f).roster.map Peer.station = s.roster.map Peer.station := by
  simp only [State.updatePeer, List.map_map]
  refine List.map_congr_left fun x _ => ?_
  by_cases e : x.station = p <;> simp [e, station]

theorem rosterLawful_updatePeer {s : State} (h : RosterLawful s) (p : Station) (f : Peer → Peer)
    (station : ∀ x, (f x).station = x.station) : RosterLawful (s.updatePeer p f) :=
  rosterLawful_of_stations h (updatePeer_stations p f s station) rfl

theorem peerAt_eq_none {p : Station} {s : State} : s.peerAt p = none ↔ p ∉ s.roster.map Peer.station := by
  simp [State.peerAt]

/-- A station of the right range that has no entry takes a place (R128). -/
theorem rosterLawful_append {s : State} (h : RosterLawful s) {x : Peer} (room : s.roster.length < Config.maxPeers)
    (absent : s.peerAt x.station = none) (ok : stationOk x.station = true) (other : s.number ≠ some x.station) :
    RosterLawful { s with roster := s.roster ++ [x] } := by
  obtain ⟨-, distinct, entries⟩ := h
  refine ⟨by simpa using room, ?_, fun y hy => ?_⟩
  · rw [List.map_append]
    exact List.nodup_append_comm.mp (List.nodup_cons.mpr ⟨peerAt_eq_none.mp absent, distinct⟩)
  · rcases List.mem_append.mp hy with hy | hy
    · exact entries y hy
    · rw [List.mem_singleton.mp hy]; exact ⟨ok, other⟩

/-- A station of the right range that has no entry replaces another one (R128). -/
theorem rosterLawful_replace {s : State} (h : RosterLawful s) {x : Peer} (v : Station)
    (absent : s.peerAt x.station = none) (ok : stationOk x.station = true) (other : s.number ≠ some x.station) :
    RosterLawful { s with roster := s.roster.map fun y => if y.station = v then x else y } := by
  obtain ⟨short, distinct, entries⟩ := h
  refine ⟨by simpa using short, ?_, fun y hy => ?_⟩
  · have stations : (s.roster.map fun y => if y.station = v then x else y).map Peer.station
        = (s.roster.map Peer.station).map fun q => if q = v then x.station else q := by
      simp only [List.map_map]
      refine List.map_congr_left fun y _ => ?_
      by_cases e : y.station = v <;> simp [e]
    rw [stations]
    refine distinct.map_on fun a ha b hb same => ?_
    have unlisted := peerAt_eq_none.mp absent
    by_cases ea : a = v <;> by_cases eb : b = v <;> simp only [ea, eb, if_true, if_false] at same
    · rw [ea, eb]
    · exact absurd (same ▸ hb) unlisted
    · exact absurd (same ▸ ha) unlisted
    · exact same
  · obtain ⟨z, hz, rfl⟩ := List.mem_map.mp hy
    split
    · exact ⟨ok, other⟩
    · exact entries z hz

theorem rosterLawful_mustTrack {s : State} (h : RosterLawful s) {p : Station} (absent : s.peerAt p = none) (ok : stationOk p = true)
    (other : s.number ≠ some p) : RosterLawful (s.mustTrack p).1 := by
  rcases mustTrack_roster p s with ⟨room, e⟩ | ⟨-, -, e⟩ | ⟨v, -, -, e⟩ <;> rw [e]
  · exact rosterLawful_append h room absent ok other
  · exact h
  · have replaced := rosterLawful_replace h (x := newPeer p s.clock (namesSource p s.points)) v.station absent ok other
    exact rosterLawful_of_eq replaced (judgePeerLost_status _).roster (judgePeerLost_status _).tables.number

theorem rosterLawful_track {s : State} (h : RosterLawful s) {p : Station} (ok : stationOk p = true) (other : s.number ≠ some p) :
    RosterLawful (s.track p).1 := by
  rcases track_cases p s with ⟨x, -, e⟩ | ⟨absent, -, e⟩ | ⟨-, -, e⟩ <;> rw [e]
  · exact h
  · exact rosterLawful_mustTrack h absent ok other
  · exact rosterLawful_of_eq (s := s) h ((report_status _ _ _).roster.trans rfl) ((report_status _ _ _).tables.number.trans rfl)

theorem rosterLawful_keepSourcesMark {s : State} (h : RosterLawful s) (p : Station) : RosterLawful (s.keepSourcesMark p) :=
  rosterLawful_of_eq (rosterLawful_updatePeer h p (fun x => { x with sourcesPoints := namesSource p s.points }) fun _ => rfl)
    (judgePeerLost_status _).roster (judgePeerLost_status _).tables.number

theorem rosterLawful_learn {s : State} (h : RosterLawful s) (n : Nat) {p : Station} (ok : stationOk p = true)
    (other : s.number ≠ some p) : RosterLawful (s.learn n p) :=
  rosterLawful_keepSourcesMark
    (rosterLawful_track (s := s.updateMirrored n fun m => { m with source := some p }) h ok other) p

/-- What a frame heard does to the roster (R127, R128). -/
theorem heard_cases (p : Station) (s : State) :
    s.heard p = s
    ∨ (∃ x, s.peerAt p = some x ∧ ∃ f : Peer → Peer, (∀ x, (f x).station = x.station) ∧ (∀ x, (f x).state ≠ .lost)
      ∧ s.heard p = (s.updatePeer p f).judgePeerLost)
    ∨ (s.peerAt p = none ∧ s.roster.length < Config.maxPeers
      ∧ s.heard p = { s with roster := s.roster ++ [newPeer p s.clock (namesSource p s.points)] })
    ∨ (s.peerAt p = none ∧ s.heard p = (s.mustTrack p).1) := by
  unfold State.heard
  split
  · split
    · next x held =>
      exact .inr (.inl ⟨x, held, Peer.hear s.clock, fun _ => rfl, fun _ e => (by cases e), rfl⟩)
    · next absent =>
      split
      · next room => exact .inr (.inr (.inl ⟨absent, room, rfl⟩))
      · split
        · exact .inr (.inr (.inr ⟨absent, rfl⟩))
        · exact .inl rfl
  · exact .inl rfl

theorem rosterLawful_heard {s : State} (h : RosterLawful s) {p : Station} (ok : stationOk p = true) (other : s.number ≠ some p) :
    RosterLawful (s.heard p) := by
  rcases heard_cases p s with e | ⟨x, -, f, station, -, e⟩ | ⟨absent, room, e⟩ | ⟨absent, e⟩ <;> rw [e]
  · exact h
  · exact rosterLawful_of_eq (rosterLawful_updatePeer h p f station) (judgePeerLost_status _).roster (judgePeerLost_status _).tables.number
  · exact rosterLawful_append h room absent ok other
  · exact rosterLawful_mustTrack h absent ok other

theorem heard_noneNewlyLost (p : Station) (s : State) : NoneNewlyLost s (s.heard p) := by
  rcases heard_cases p s with e | ⟨x, -, f, station, sounds, e⟩ | ⟨-, -, e⟩ | ⟨-, e⟩ <;> rw [e]
  · exact .refl s
  · exact (updatePeer_noneNewlyLost p f s station fun x lost => absurd lost (sounds x)).trans (.of_eq (judgePeerLost_status _).roster)
  · intro x hx lost
    rcases List.mem_append.mp hx with hx | hx
    · exact ⟨x, hx, rfl, lost⟩
    · rw [List.mem_singleton.mp hx] at lost; cases lost
  · exact mustTrack_noneNewlyLost p s

theorem rosterLawful_record {s : State} (h : RosterLawful s) {p : Station} (ok : stationOk p = true) (other : s.number ≠ some p)
    (r : Record) : RosterLawful (s.takeRecord p r) := by
  have number := (takeRecord_tables p s r).number
  have kept : ∀ {u v : State}, RosterLawful u → u.number = s.number → v.roster = u.roster → v.number = s.number → RosterLawful v :=
    fun hu eu roster ev => rosterLawful_of_eq hu roster (ev.trans eu.symm)
  rcases takeRecord_cases p s r with e | ⟨o, -, -, e⟩ | ⟨q, m, -, -, -, e⟩ | e <;> rw [e] at number ⊢
  · exact h
  · exact kept h rfl (ownershipConflict_roster ..) number
  · rcases mirroredRecord_cases p r.point.toNat q.kind m r s with
      ⟨-, e⟩ | ⟨-, e⟩ | ⟨old, -, -, ⟨-, e⟩ | ⟨-, e⟩ | ⟨-, e⟩⟩ <;> rw [e] at number ⊢
    · have learned := rosterLawful_learn h r.point.toNat ok other
      exact rosterLawful_of_eq learned (acceptRecord_roster ..) ((acceptRecord_tables ..).number)
    · exact kept h rfl (acceptRecord_roster ..) number
    · have learned := rosterLawful_keepSourcesMark (rosterLawful_learn (s := s.bump .conflicts) h r.point.toNat ok other) old
      exact rosterLawful_of_eq learned (acceptRecord_roster ..) ((acceptRecord_tables ..).number)
    · have learned := rosterLawful_keepSourcesMark (rosterLawful_learn h r.point.toNat ok other) old
      exact rosterLawful_of_eq learned (acceptRecord_roster ..) ((acceptRecord_tables ..).number)
    · exact h
  · exact h

/-! ## The laws, with the stations excepted while they are being lost -/

/-- The laws of the roster and of the sources. A station that has just become LOST is excepted until its points have been taken. -/
structure Sources (excepted : Station → Prop) (s : State) : Prop where
  station : StationLawful s
  numbers : (s.points.map Point.number).Nodup
  roster : RosterLawful s
  fresh : ∀ n m, s.mirroredAt n = some m → m.state = .fresh →
    ∀ x ∈ s.roster, m.source = some x.station → x.state = .lost → excepted x.station

def noStation : Station → Prop := fun _ => False

theorem sources_of_lawful {s : State} (h : SourcesLawful s) : Sources noStation s where
  station := h.station
  numbers := h.numbers
  roster := h.roster
  fresh n m entry fresh x hx source := by
    obtain ⟨p, -, hp, -, hm⟩ := mirroredAt_entry entry
    exact h.fresh p hp m hm fresh x hx source

theorem Sources.lawful {s : State} (h : Sources noStation s) (transmit : TransmitLawful s) : SourcesLawful s where
  station := h.station
  transmit := transmit
  numbers := h.numbers
  roster := h.roster
  fresh p hp m hm fresh x hx source lost := h.fresh p.number m ((mirroredAt_of_mem h.numbers hp).trans hm) fresh x hx source lost

theorem AnySteps.numbers {s t : State} (h : AnySteps s t) : t.points.map Point.number = s.points.map Point.number := by
  have := congrArg (List.map Prod.fst) (AnySteps.sameConfiguration h).points
  simpa [Function.comp_def, fixedPoint] using this

/-- A change after which no entry is newly FRESH and no station is newly LOST. -/
theorem Sources.calm {a : Station → Prop} {s t : State} (h : Sources a s) (station : StationLawful t)
    (numbers : t.points.map Point.number = s.points.map Point.number) (roster : RosterLawful t) (sounds : NoneNewlyLost s t)
    (fresh : ∀ n m, t.mirroredAt n = some m → m.state = .fresh → ∃ m', s.mirroredAt n = some m' ∧ m'.state = .fresh ∧ m'.source = m.source) :
    Sources a t where
  station := station
  numbers := numbers ▸ h.numbers
  roster := roster
  fresh n m entry isFresh x hx source lost := by
    obtain ⟨m', entry', fresh', source'⟩ := fresh n m entry isFresh
    obtain ⟨y, hy, same, lost'⟩ := sounds x hx lost
    rw [← same]
    exact h.fresh n m' entry' fresh' y hy (by rw [source', source, same]) lost'

/-- What stays of the table where the MIRRORED half stays. -/
theorem fresh_of_half {s t : State} (half : mirroredHalf t.points = mirroredHalf s.points) (n : Nat) (m : Mirrored)
    (entry : t.mirroredAt n = some m) (fresh : m.state = .fresh) :
    ∃ m', s.mirroredAt n = some m' ∧ m'.state = .fresh ∧ m'.source = m.source :=
  ⟨m, (mirroredAt_congr half n).symm.trans entry, fresh, rfl⟩

/-- What stays of the table where no entry becomes FRESH and every FRESH one keeps its source. -/
theorem fresh_of_changed {s t : State} {f : Nat → Mirrored → Mirrored} (entry : ∀ k, t.mirroredAt k = (s.mirroredAt k).map (f k))
    (kept : ∀ k m, (f k m).state = .fresh → m.state = .fresh ∧ (f k m).source = m.source) (n : Nat) (m : Mirrored)
    (at_n : t.mirroredAt n = some m) (fresh : m.state = .fresh) :
    ∃ m', s.mirroredAt n = some m' ∧ m'.state = .fresh ∧ m'.source = m.source := by
  rw [entry] at at_n
  obtain ⟨m', at_n', rfl⟩ := Option.map_eq_some_iff.mp at_n
  obtain ⟨fresh', source⟩ := kept n m' fresh
  exact ⟨m', at_n', fresh', source.symm⟩

/-- A change of one entry after which it is not newly FRESH, in a roster that stays. -/
theorem Sources.touch {a : Station → Prop} {s t : State} {n : Nat} {f : Mirrored → Mirrored} (h : Sources a s) (station : StationLawful t)
    (half : mirroredHalf t.points = mirroredHalf (s.updateMirrored n f).points) (roster : t.roster = s.roster) (number : t.number = s.number)
    (kept : ∀ m, (f m).state = .fresh → m.state = .fresh ∧ (f m).source = m.source) : Sources a t := by
  refine h.calm station ?_ (rosterLawful_of_eq h.roster roster number) (.of_eq roster)
    (fresh_of_changed (f := fun k m => if k = n then f m else m) (fun k => ?_) fun k m fresh => ?_)
  · rw [numbers_of_mirroredHalf half, updateMirrored_points, numbers_mapMirroredBy]
  · rw [mirroredAt_congr half, mirroredAt_updateMirrored]
  · by_cases e : k = n
    · simp only [e, if_true] at fresh ⊢; exact kept m fresh
    · simp only [e, if_false] at fresh ⊢; exact ⟨fresh, trivial⟩

theorem Sources.sameMirror {a : Station → Prop} {s t : State} (h : Sources a s) (station : StationLawful t) (same : SameMirror s t) :
    Sources a t :=
  h.calm station (numbers_of_mirroredHalf same.half) (rosterLawful_of_eq h.roster same.roster same.number) (.of_eq same.roster)
    (fresh_of_half same.half)

theorem sources_of_empty {a : Station → Prop} {s : State} (station : StationLawful s) (numbers : (s.points.map Point.number).Nodup)
    (roster : s.roster = []) : Sources a s where
  station := station
  numbers := numbers
  roster := ⟨by simp [roster], by simp [roster], fun x hx => by rw [roster] at hx; cases hx⟩
  fresh _ _ _ _ x hx := by rw [roster] at hx; cases hx

/-! ## Moves -/

theorem fillSolicits_mirror (s : State) : s.fillSolicits.points = s.points ∧ s.fillSolicits.roster = s.roster
    ∧ s.fillSolicits.number = s.number := by
  unfold State.fillSolicits
  split <;> exact ⟨rfl, rfl, rfl⟩

theorem satisfy_points (n : Nat) (s : State) : (s.satisfy n).points = s.points := by
  unfold State.satisfy
  split
  · exact (fillSolicits_mirror _).1
  · rfl

/-- The MIRRORED half after an acceptance: the entry of the point accepts the record (R100). -/
theorem acceptRecord_mirror {n : Nat} {k : Kind} {m : Mirrored} {r : Record} {f : Mirrored → Mirrored} {s u : State}
    (half : mirroredHalf u.points = mirroredHalf (s.updateMirrored n f).points) :
    mirroredHalf (u.acceptRecord n k m r).points = mirroredHalf (s.updateMirrored n fun m => (f m).accept k u.clock r).points := by
  rw [State.acceptRecord, (OwnSteps.sameMirroring (evaluateSource_own _ _)).half, satisfy_points,
    (OwnSteps.sameMirroring (judgeSource_own _)).half, acceptRecord_half half]

/-- After a record every entry is as it was, but that of its point, which may be FRESH from the sender (R97, R98, R100). -/
theorem mirroredAt_takeRecord (p : Station) (s : State) (r : Record) (k : Nat) :
    (s.takeRecord p r).mirroredAt k = s.mirroredAt k
    ∨ (k = r.point.toNat ∧ ∃ q m, findPoint k s.points = some q ∧ q.mirrored? = some m
      ∧ (s.takeRecord p r).mirroredAt k = some (({ m with source := some p } : Mirrored).accept q.kind s.clock r)) := by
  rcases takeRecord_cases p s r with e | ⟨o, -, -, e⟩ | ⟨q, m, found, entry, -, e⟩ | e <;> rw [e]
  · exact .inl rfl
  · exact .inl (mirroredAt_congr (OwnSteps.sameMirroring (ownershipConflict_own ..)).half k)
  · have accepted : ∀ (f : Mirrored → Mirrored) (u : State), f m = { m with source := some p } → u.clock = s.clock →
        mirroredHalf u.points = mirroredHalf (s.updateMirrored r.point.toNat f).points →
        ∀ t, t = u.acceptRecord r.point.toNat q.kind m r → t.mirroredAt k = s.mirroredAt k
          ∨ (k = r.point.toNat ∧ ∃ q m, findPoint k s.points = some q ∧ q.mirrored? = some m
            ∧ t.mirroredAt k = some (({ m with source := some p } : Mirrored).accept q.kind s.clock r)) := by
      rintro f u learned clock half t rfl
      have read := mirroredAt_congr (acceptRecord_mirror (k := q.kind) (m := m) (r := r) half) k
      rw [mirroredAt_updateMirrored, clock] at read
      by_cases e : k = r.point.toNat
      · refine .inr ⟨e, q, m, e ▸ found, entry, ?_⟩
        have at_k : s.mirroredAt k = some m := by simp [State.mirroredAt, e, found, entry]
        rw [read, at_k, Option.map_some, if_pos e, learned]
      · refine .inl ?_
        rw [read]
        simp [e]
    have learn : ∀ v : State, (v.learn r.point.toNat p).clock = v.clock := fun v => (learn_tables _ _ v).clock
    rcases mirroredRecord_cases p r.point.toNat q.kind m r s with
      ⟨-, e⟩ | ⟨own, e⟩ | ⟨old, -, -, ⟨-, e⟩ | ⟨-, e⟩ | ⟨-, e⟩⟩
    · exact accepted _ _ rfl (learn s) (learn_sameMirroring _ p s).half _ e
    · exact accepted (fun m => m) s (by rw [← own]) rfl (by rw [updateMirrored_id]) _ e
    · exact accepted _ _ rfl ((keepSourcesMark_tables _ _).clock.trans (learn (s.bump .conflicts)))
        ((learn_sameMirroring _ p (s.bump .conflicts)).trans (keepSourcesMark_sameMirroring old _)).half _ e
    · exact accepted _ _ rfl ((keepSourcesMark_tables _ _).clock.trans (learn s))
        ((learn_sameMirroring _ p s).trans (keepSourcesMark_sameMirroring old _)).half _ e
    · rw [e]; exact .inl rfl
  · exact .inl rfl

theorem Sources.record {a : Station → Prop} {s : State} (h : Sources a s) {p : Station} (r : Record) (sent : TakenFrom p s)
    (station : StationLawful (s.takeRecord p r)) (numbers : (s.takeRecord p r).points.map Point.number = s.points.map Point.number) :
    Sources a (s.takeRecord p r) where
  station := station
  numbers := numbers ▸ h.numbers
  roster := rosterLawful_record h.roster sent.ok sent.other r
  fresh n m entry fresh x hx source lost := by
    obtain ⟨y, hy, same, lost'⟩ := takeRecord_noneNewlyLost p s r x hx lost
    rcases mirroredAt_takeRecord p s r n with e | ⟨-, q, m', found, -, e⟩ <;> rw [e] at entry
    · rw [← same]
      exact h.fresh n m entry fresh y hy (by rw [source, same]) lost'
    · cases entry
      have live : s.station.live = true := by
        obtain ⟨empty, -⟩ := h.station
        have dispatches := sent.dispatches
        have filled : s.points ≠ [] := List.ne_nil_of_mem (findPoint_mem found)
        cases state : s.station with
        | joining => rfl
        | running => rfl
        | starting => exact absurd (empty (.inl state)).1 filled
        | unconfigured => exact absurd (empty (.inr state)).1 filled
        | halted => rw [state] at dispatches; cases dispatches
      have : p = x.station := Option.some.inj source
      exact absurd lost' (sent.sounds live y hy (same.trans this.symm))

theorem sourceRestarted_roster (n : Nat) (s : State) :
    (s.sourceRestarted n).roster = s.roster ∧ (s.sourceRestarted n).number = s.number := by
  cases entry : s.mirroredAt n with
  | none => simp [State.sourceRestarted, entry]
  | some m =>
    rcases sourceRestarted_cases entry with ⟨-, e⟩ | ⟨-, t, ht, e⟩ <;> rw [e]
    · exact ⟨rfl, rfl⟩
    · have same := OwnSteps.sameMirror ((judgeSource_own (s.updateMirrored n fun m =>
        m.goUnknown.startOverdue (s.station == .running) (s.clock + s.joinLength))).trans (evaluateSource_own n _))
      rw [solicitPoint_roster, (solicitPoint_tables n t).number, ht]
      exact ⟨same.roster, same.number⟩

theorem Mirrored.restarted_unknown (running : Bool) (due : Time) (m : Mirrored) : (m.restarted running due).state = .unknown := by
  unfold Mirrored.restarted
  split
  · rfl
  · rw [goUnknown_startOverdue]; rfl
  · rw [goUnknown_startOverdue]; rfl

theorem Move.sources {a : Station → Prop} {s t : State} (move : Move s t) (h : Sources a s) : Sources a t := by
  have station : StationLawful t := AnySteps.stationLawful move.any h.station
  have numbers := AnySteps.numbers move.any
  cases move with
  | own step => exact h.sameMirror station step.sameMirror
  | tended p f same lost =>
    exact h.calm station rfl (rosterLawful_updatePeer h.roster p f same) (updatePeer_noneNewlyLost p f s same lost) (fresh_of_half rfl)
  | heard p ok other =>
    exact h.calm station numbers (rosterLawful_heard h.roster ok other) (heard_noneNewlyLost p s)
      (fresh_of_half (heard_sameMirroring p s).half)
  | tracked p ok other =>
    exact h.calm station numbers (rosterLawful_track h.roster ok other) (track_noneNewlyLost p s)
      (fresh_of_half (track_sameMirroring p s).half)
  | record p r sent => exact h.record r sent station numbers
  | sourceLost n =>
    rcases sourceLost_cases n s with ⟨e, -⟩ | ⟨-, -, -, steps⟩
    · rwa [e]
    · have same := OwnSteps.sameMirror steps
      exact h.touch station same.half same.roster same.number fun _ fresh => by cases fresh
  | sourceRestarted n =>
    obtain ⟨roster, number⟩ := sourceRestarted_roster n s
    refine h.calm station numbers (rosterLawful_of_eq h.roster roster number) (.of_eq roster)
      (fresh_of_changed (fun k => mirroredAt_sourceRestarted n k s) fun k m fresh => ?_)
    split at fresh
    · rw [Mirrored.restarted_unknown] at fresh; cases fresh
    · next other => rw [if_neg other]; exact ⟨fresh, rfl⟩
  | overdue n => exact h.touch station rfl rfl rfl fun _ fresh => ⟨fresh, rfl⟩
  | solicitExpired x =>
    unfold State.solicitExpired at station numbers ⊢
    split at station <;> rename_i more
    · rw [if_pos more]
      exact h.calm station rfl h.roster (.of_eq rfl) (fresh_of_half rfl)
    · rw [if_neg more]
      obtain ⟨points, roster, number⟩ := fillSolicits_mirror (((s.removeSolicit x.point).bump .solicitsUnanswered).updateMirrored x.point
        fun m => { m with backoff := some (s.clock + Config.backoff) })
      exact h.touch (f := fun m => { m with backoff := some (s.clock + Config.backoff) }) station (by rw [points]; rfl) roster number
        fun _ fresh => ⟨fresh, rfl⟩
  | backoffEnded n =>
    obtain ⟨points, roster, number⟩ := fillSolicits_mirror (s.updateMirrored n fun m => { m with backoff := none })
    exact h.touch station (congrArg mirroredHalf points) roster number fun _ fresh => ⟨fresh, rfl⟩
  | solicitMarks g => exact h.calm station rfl h.roster (.of_eq rfl) (fresh_of_half rfl)

theorem Moves.sources {a : Station → Prop} {s t : State} (moves : Moves s t) : Sources a s → Sources a t :=
  chain_keeps (P := Sources a) Move.sources moves

/-! ## Effects -/

theorem validImage_roster (im : Image) (straps : Station) (inputs : PinInputs) (s : State) :
    (s.validImage im straps inputs).roster = s.roster := by
  unfold State.validImage
  dsimp only
  split <;> rfl

theorem enterRunning_sources {s : State} (h : Sources noStation s) (joining : s.station = .joining) : Sources noStation s.enterRunning := by
  have burst : SameMirror s.atRunning s.atRunning.startBurst := by
    have queue := startBurst_queue s.atRunning
    exact ⟨queue.status.tables.station, queue.status.tables.number, queue.status.tables.inFlight, (startBurst_onlyOwned _).half,
      queue.status.solicits, queue.status.roster⟩
  have running : s.atRunning.startBurst.startOverdueTimers.fillSolicits.station = .running :=
    (fillSolicits_tables _).station.trans burst.station
  obtain ⟨points, roster, number⟩ := fillSolicits_mirror s.atRunning.startBurst.startOverdueTimers
  have ends := OwnSteps.sameMirror ((beginPresence_own running).trans
    (evaluateWhere_own (fun _ => true) s.atRunning.startBurst.startOverdueTimers.fillSolicits.beginPresence))
  rw [← enterRunning_eq] at ends
  have sameRoster : s.enterRunning.roster = s.roster := ends.roster.trans (roster.trans burst.roster)
  have entry : ∀ k, s.enterRunning.mirroredAt k = (s.mirroredAt k).map fun m =>
      if m.state = .unknown then { m with overdueTimer := some (s.atRunning.startBurst.clock + s.atRunning.startBurst.joinLength) } else m :=
    fun k => by
      rw [mirroredAt_congr ends.half, State.mirroredAt, points, ← State.mirroredAt]
      have before : s.atRunning.startBurst.mirroredAt k = s.mirroredAt k := mirroredAt_congr burst.half k
      rw [← before, State.mirroredAt, State.mirroredAt]
      simp only [State.startOverdueTimers]
      rw [findPoint_map _ fun p => Point.mapMirrored_number _ p]
      cases findPoint k s.atRunning.startBurst.points <;> simp
  refine h.calm (stationLawful_enterRunning h.station joining) ?_ (rosterLawful_of_eq h.roster sameRoster ?_) (.of_eq sameRoster)
    (fresh_of_changed entry fun _ m fresh => ?_)
  · have := congrArg (List.map Prod.fst) (enterRunning_sameConfiguration s).points
    simpa [Function.comp_def, fixedPoint] using this
  · exact (enterRunning_sameConfiguration s).number
  · by_cases unknown : m.state = .unknown
    · rw [if_pos unknown] at fresh
      exact absurd (unknown.symm.trans fresh) (by decide)
    · rw [if_neg unknown] at fresh ⊢; exact ⟨fresh, rfl⟩

theorem Effect.sources {s t : State} (effect : Effect s t) (station : StationLawful t) (h : Sources noStation s) : Sources noStation t := by
  have silent : Sources noStation { s with inFlight := none } :=
    h.calm (t := { s with inFlight := none }) h.station rfl h.roster (.of_eq rfl) (fresh_of_half rfl)
  cases effect with
  | moved moves => exact Moves.sources moves h
  | restarted u cause => exact sources_of_empty station List.nodup_nil rfl
  | failedLoad e error straps loading =>
    obtain ⟨-, ⟨points, -, -, roster⟩, -⟩ := loading_empty h.station loading
    exact sources_of_empty station (by simp [State.noImage, State.leaveStarting, points]) roster
  | loaded e im straps inputs loading valid =>
    obtain ⟨-, ⟨-, -, -, roster⟩, -⟩ := loading_empty h.station loading
    obtain ⟨f, points⟩ := validImage_points im straps inputs (s.advance e)
    obtain ⟨-, distinct, -⟩ := validPoints valid
    refine sources_of_empty station ?_ ((validImage_roster im straps inputs _).trans roster)
    rw [points]; simpa [Function.comp_def, fillPoint] using distinct
  | entered due joining => exact enterRunning_sources (Moves.sources (advanceTo_moves due s) h) joining
  | halted moves =>
    have before := Moves.sources moves h
    exact before.calm station (enterHalted_onlyOwned _).numbers before.roster (.of_eq rfl) (fresh_of_half (enterHalted_onlyOwned _).half)
  | @transmitted u moves =>
    have before := Moves.sources moves h
    rcases transmit_cases u with e | ⟨urgent, -, e⟩ | ⟨content, v, -, -, moves', e⟩ <;> rw [e] at station ⊢
    · exact before
    · exact before.calm station (markTaken_onlyOwned u).numbers before.roster (.of_eq rfl) (fresh_of_half (markTaken_onlyOwned u).half)
    · have after := Moves.sources moves' before
      exact after.calm station rfl after.roster (.of_eq rfl) (fresh_of_half rfl)
  | @publicationEnded u f urgent records complete _ _ moves =>
    have before := Moves.sources moves silent
    have queue := publicationOutcome_queue records complete u
    have owned := publicationOutcome_onlyOwned records complete u
    exact before.calm station owned.numbers (rosterLawful_of_eq before.roster queue.status.roster queue.status.tables.number)
      (.of_eq queue.status.roster) (fresh_of_half owned.half)
  | frameEnded f _ _ moves => exact Moves.sources moves silent
  | @peerLost u _ p before _ moves stale =>
    have hu := Moves.sources before h
    have losing : Sources (· = p) (u.updatePeer p fun x => { x with state := .lost, lostAt := none }) :=
      { station := AnySteps.stationLawful (updatePeer_any p _ u) hu.station
        numbers := hu.numbers
        roster := rosterLawful_updatePeer hu.roster p _ fun _ => rfl
        fresh := fun n m entry fresh x hx source lost => by
          obtain ⟨y, hy, rfl⟩ := List.mem_map.mp hx
          by_cases e : y.station = p
          · rw [if_pos e]; exact e
          · rw [if_neg e] at source lost
            exact (hu.fresh n m entry fresh y hy source lost).elim }
    have after := Moves.sources moves losing
    refine { after with fresh := fun n m entry fresh x hx source lost => ?_ }
    obtain ⟨q, -, hq, -, hm⟩ := mirroredAt_entry entry
    exact absurd (source.trans (congrArg some (after.fresh n m entry fresh x hx source lost))) (stale h.numbers q hq m hm fresh)

/-- Settles O6: every effect keeps the roster and the sources; the station states are O3's. -/
theorem stepKeepsSources : Obligations.StepKeepsSources := by
  intro s t lawful run
  obtain ⟨station, transmit⟩ := stepKeepsStations s t lawful.station lawful.transmit run
  rcases step_effect run with rfl | ⟨rest, effect⟩
  · exact lawful
  · have before := sources_of_lawful lawful
    have queued : Sources noStation { s with pending := rest } :=
      before.calm lawful.station rfl before.roster (.of_eq rfl) (fresh_of_half rfl)
    exact (effect.sources station queued).lawful transmit

end Sys2Proof.Machine
end

