-- ==== Sys2Proof/Proofs/Completion.lean ====
section
/-!
THEOREM. The completion of a publication frame (O28): what it comes to for one point of the frame, then for the frame.
-/

namespace Sys2Proof.Machine

open Sys2Proof.Safety

/-- The point carries the in-flight mark. -/
def State.flies (s : State) (n : Nat) : Bool :=
  match s.ownedAt n with
  | some o => o.inFlight
  | none => false

/-- The point carries both marks. -/
def State.fliesDirty (s : State) (n : Nat) : Bool :=
  match s.ownedAt n with
  | some o => o.inFlight && o.dirty
  | none => false

/-- The entry of a point whose value has been sent, R52 as a whole. -/
def Owned.sent (k : Kind) (now : Time) (o : Owned) : Owned :=
  { o with
    sched := if o.dirty then .urgent else .quiet
    inFlight := false
    dirty := false
    compareBase := if k = .level ∧ o.source ≠ .status then o.carried else o.compareBase
    refreshTimer := some (now + refreshInterval o.refreshClass) }

/-- The points of a frame that still carry its mark. -/
def State.carried (s : State) (l : List Nat) : List Nat := l.filter s.flies

/-- The table and the bands after the given points of a frame have been taken. -/
def State.sent (l : List Nat) (s : State) : State :=
  { s with
    points := s.points.map fun p => if p.number ∈ s.carried l then p.mapOwned (Owned.sent p.kind s.clock) else p
    urgent := (s.urgent.filter fun n => decide (n ∉ s.carried l)) ++ l.filter s.fliesDirty
    routine := s.routine.filter fun n => decide (n ∉ s.carried l) }

theorem not_carried {s : State} {l : List Nat} {n : Nat} (other : n ∉ l) : n ∉ s.carried l := fun h => other (List.mem_filter.mp h).1

theorem isLevelFromPin_iff (k : Kind) (o : Owned) : isLevelFromPin k o = true ↔ k = .level ∧ o.source ≠ .status := by
  unfold isLevelFromPin
  cases k <;> cases o.source <;> simp

theorem Owned.sent_eq (k : Kind) (now : Time) (o : Owned) :
    o.sent k now = { o.completed k now with sched := if o.dirty then .urgent else .quiet, inFlight := false, dirty := false } := by
  simp only [Owned.sent, Owned.completed, isLevelFromPin_iff]

theorem flies_congr {s t : State} {n : Nat} (h : t.ownedAt n = s.ownedAt n) : t.flies n = s.flies n ∧ t.fliesDirty n = s.fliesDirty n := by
  unfold State.flies State.fliesDirty
  rw [h]
  exact ⟨rfl, rfl⟩

/-- One point of a completed frame (R52, R56): nothing without the mark; else its entry is sent, and it leaves its place, to the tail of the
urgent band if it is dirty. -/
theorem pointCompleted_eq {s : State} (distinct : (s.points.map Point.number).Nodup) (n : Nat) :
    s.pointCompleted n = if s.flies n then
      { s with
        points := s.points.map fun p => if p.number = n then p.mapOwned (Owned.sent p.kind s.clock) else p
        urgent := without n s.urgent ++ if s.fliesDirty n then [n] else []
        routine := without n s.routine }
      else s := by
  have entries : ∀ (o : Owned) (sched : Sched), s.ownedAt n = some o → sched = (if o.dirty then .urgent else .quiet) →
      (mapOwnedBy (fun p => atNumber n (fun o => { o.completed p.kind s.clock with sched := sched, inFlight := false, dirty := false }) p)
        s.points) = s.points.map fun p => if p.number = n then p.mapOwned (Owned.sent p.kind s.clock) else p := by
    rintro o sched entry rfl
    refine List.map_congr_left fun p hp => ?_
    by_cases e : p.number = n
    · simp only [atNumber, e, if_true]
      refine Point.mapOwned_congr fun o' ho' => ?_
      rw [← e, ownedAt_of_mem distinct hp, ho'] at entry
      rw [Option.some.inj entry, Owned.sent_eq]
    · simp [atNumber, e]
  have only := pointCompleted_queue s n
  have split : ∀ o, s.ownedAt n = some o → o.inFlight = true → s.flies n = true ∧ s.fliesDirty n = o.dirty := fun o entry flies => by
    simp [State.flies, State.fliesDirty, entry, flies]
  rcases pointCompleted_cases n s with ⟨e, idle⟩ | ⟨o, entry, flies, ⟨dirty, e⟩ | ⟨clean, e⟩⟩
  · have : s.flies n = false := by
      unfold State.flies
      cases entry : s.ownedAt n with
      | none => rfl
      | some o => exact idle o entry
    rw [e, this]; rfl
  · obtain ⟨flying, both⟩ := split o entry flies
    have points := (congrArg State.points e).trans ((requeueDirty_points n s).trans (entries o .urgent entry (by rw [dirty]; rfl)))
    rw [if_pos flying, both, dirty, only, points, e]
    rfl
  · obtain ⟨flying, both⟩ := split o entry flies
    have points := (congrArg State.points e).trans
      ((complete12_leaveQueue_points n s).trans (entries o .quiet entry (by rw [clean]; rfl)))
    rw [if_pos flying, both, clean, only, points, e]
    simp

theorem ownedAt_sent {l : List Nat} {n : Nat} (other : n ∉ l) (s : State) : (s.sent l).ownedAt n = s.ownedAt n := by
  have entry : findPoint n (s.sent l).points
      = (findPoint n s.points).map fun p => if p.number ∈ s.carried l then p.mapOwned (Owned.sent p.kind s.clock) else p :=
    findPoint_map _ (fun p => by split <;> simp) n s.points
  rw [State.ownedAt, State.ownedAt, entry]
  cases found : findPoint n s.points with
  | none => rfl
  | some p =>
    have : p.number ∉ s.carried l := not_carried (findPoint_number found ▸ other)
    simp [this]

/-- The points of a completed frame, in record order. -/
theorem foldl_pointCompleted {s : State} (distinct : (s.points.map Point.number).Nodup) {l : List Nat} (nodup : l.Nodup) :
    l.foldl State.pointCompleted s = s.sent l := by
  induction l using List.reverseRecOn with
  | nil =>
    have none : s.carried [] = [] := rfl
    simp [State.sent, none]
  | append_singleton l n ih =>
    obtain ⟨nodup, -, apart⟩ := List.nodup_append.mp nodup
    have new : n ∉ l := fun h => apart n h n (List.mem_singleton_self n) rfl
    have numbers : ((s.sent l).points.map Point.number) = s.points.map Point.number := by
      simp only [State.sent, List.map_map]
      refine List.map_congr_left fun p _ => ?_
      by_cases h : p.number ∈ s.carried l <;> simp [h]
    obtain ⟨flies, fliesDirty⟩ := flies_congr (ownedAt_sent new s)
    rw [List.foldl_append, ih nodup, List.foldl_cons, List.foldl_nil, pointCompleted_eq (numbers ▸ distinct), flies, fliesDirty]
    cases flying : s.flies n with
    | false =>
      have clean : s.fliesDirty n = false := by
        unfold State.flies at flying; unfold State.fliesDirty
        cases entry : s.ownedAt n with
        | none => rfl
        | some o => rw [entry] at flying; simp [show o.inFlight = false from flying]
      simp [State.sent, State.carried, List.filter_append, flying, clean]
    | true =>
      have carried : s.carried (l ++ [n]) = s.carried l ++ [n] := by simp [State.carried, List.filter_append, flying]
      have left : ∀ band : List Nat, without n (band.filter fun k => decide (k ∉ s.carried l))
          = band.filter fun k => decide (k ∉ s.carried (l ++ [n])) := fun band => by
        rw [without, List.filter_filter, carried]
        refine List.filter_congr fun k _ => ?_
        by_cases e : k = n <;> simp [e]
      have kept : without n (l.filter s.fliesDirty) = l.filter s.fliesDirty :=
        List.filter_eq_self.mpr fun k hk => bne_iff_ne.mpr fun e => new (e ▸ (List.mem_filter.mp hk).1)
      have dirty : (l ++ [n]).filter s.fliesDirty = l.filter s.fliesDirty ++ if s.fliesDirty n then [n] else [] := by
        rw [List.filter_append]
        cases d : s.fliesDirty n <;> simp [d]
      have points : ((s.sent l).points.map fun p => if p.number = n then p.mapOwned (Owned.sent p.kind s.clock) else p)
          = (s.sent (l ++ [n])).points := by
        simp only [State.sent, List.map_map, carried]
        refine List.map_congr_left fun p _ => ?_
        have : n ∉ s.carried l := not_carried new
        by_cases e : p.number = n
        · simp [e, this]
        · by_cases h : p.number ∈ s.carried l <;> simp [e, h]
      have urgent : without n (s.sent l).urgent ++ (if s.fliesDirty n then [n] else []) = (s.sent (l ++ [n])).urgent := by
        simp only [State.sent, dirty, ← List.append_assoc]
        rw [without, List.filter_append, ← without, ← without, left, kept]
      have routine : without n (s.sent l).routine = (s.sent (l ++ [n])).routine := left s.routine
      rw [if_pos rfl, urgent, routine]
      exact (congrArg (fun points => { s with
        points := points, urgent := (s.sent (l ++ [n])).urgent, routine := (s.sent (l ++ [n])).routine }) points)

theorem advance_running (e : Time) {s : State} (running : s.station = .running) : s.advance e = { s with clock := s.clock + e } := by
  simp [State.advance, running]

theorem account_complete {s : State} (running : s.station = .running) (active : s.mode = .active) :
    s.account .complete = { s with failures := 0 } := by
  simp [State.account, running, active]

/-- Settles O28: in ACTIVE a completed frame sets the count of failures to 0, then each of its points is taken. -/
theorem publicationComplete : Obligations.PublicationComplete := by
  refine ⟨⟨rfl, rfl, rfl, rfl⟩, fun e s f urgent records running active flying content distinct nodup => ?_⟩
  have assembly : (if (TxOutcome.complete == .complete) && s.assembly.inProgress then Assembly.empty else s.assembly)
      = if s.assembly = .ignoring then .ignoring else .empty := by
    cases s.assembly <;> rfl
  let u : State := { s with
    clock := s.clock + e, inFlight := none
    assembly := if s.assembly = .ignoring then .ignoring else .empty
    counters := { s.counters with framesSent := saturatingStep s.counters.framesSent } }
  have accounted : (s.advance e).endFrame .complete
      = (recordPoints records).foldl State.pointCompleted { u with failures := 0 } := by
    rw [advance_running e running]
    simp only [State.endFrame, flying, assembly]
    exact (congrArg (State.ownerOutcome f.content .complete) (account_complete (s := u) running active)).trans (by rw [content]; rfl)
  have run : exec (.transmissionComplete e) s = .next ((s.advance e).endFrame .complete) := rfl
  rw [run, accounted, foldl_pointCompleted (s := { u with failures := 0 }) distinct nodup]
  rfl

end Sys2Proof.Machine
end

