-- ==== Sys2Proof/Proofs/Summary.lean ====
section
/-!
SUPPORT. What a report of a condition comes to: the change of the fault summary that Safety.summaryTaken describes as a whole, and the parts of
the state that it leaves (R33, R188).
-/

namespace Sys2Proof.Machine

open Sys2Proof.Safety

/-! ## One STATUS-sourced point takes the change -/

/-- The change event of a STATUS-sourced entry whose current value has been written (R32, R43). -/
def Owned.tookEvent (o : Owned) : Owned :=
  match o.sched, o.inFlight, o.dirty with
  | .quiet, _, _ => { o with sched := .urgent, count := o.count + 1 }
  | .routine, flying, dirty => { o with sched := .urgent, count := o.count + 1, dirty := dirty || flying }
  | .urgent, true, false => { o with count := o.count + 1, dirty := true }
  | .urgent, true, true => o
  | .urgent, false, _ => o
  | .yielded, _, _ => o

theorem tookSummary_eq (k : Kind) (f : FaultSummary) (o : Owned) :
    tookSummary k f o = Owned.tookEvent { o with current := statusValue k f } := by
  unfold tookSummary Owned.tookEvent
  rfl

theorem Owned.tookEvent_only (o : Owned) :
    o.tookEvent = { o with sched := o.tookEvent.sched, count := o.tookEvent.count, dirty := o.tookEvent.dirty } := by
  unfold tookEvent
  split <;> rfl

theorem Owned.tookEvent_source (o : Owned) : o.tookEvent.source = o.source := by rw [tookEvent_only]
theorem Owned.tookEvent_current (o : Owned) : o.tookEvent.current = o.current := by rw [tookEvent_only]

/-- A point that a change event brings to the urgent tail. -/
def State.joins (s : State) (n : Nat) : Bool :=
  match s.ownedAt n with
  | some o => o.sched == .quiet || o.sched == .routine
  | none => false

/-- A point that a change event takes out of the routine band. -/
def State.waits (s : State) (n : Nat) : Bool :=
  match s.ownedAt n with
  | some o => o.sched == .routine
  | none => false

/-- The station after the change events of the given points, and the evaluation of their outputs. -/
def State.tookEvents (l : List Nat) (s : State) : State :=
  { s with
    points := s.points.map fun p => if p.number ∈ l then p.mapOwned Owned.tookEvent else p
    urgent := s.urgent ++ l.filter s.joins
    routine := s.routine.filter fun n => !(decide (n ∈ l) && s.waits n)
    outputs := s.outputs.map fun o => if o.binding.source ∈ l then o.evaluate s.points else o }

/-- An evaluation reads numbers, kinds, current values and MIRRORED entries only. -/
theorem Output.evaluate_mapOwned {g : Point → Owned → Owned} (current : ∀ p o, (g p o).current = o.current) (l : List Point)
    (o : Output) : o.evaluate (l.map fun p => p.mapOwned (g p)) = o.evaluate l := by
  have level : ∀ (t : Byte) (p : Point), (p.mapOwned (g p)).level t = p.level t := fun t p => by
    obtain ⟨n, k, role⟩ := p
    cases role with
    | owned o => simp [Point.mapOwned, Point.level, current]
    | mirrored m => simp [Point.mapOwned]
  have binding : o.binding.level (l.map fun p => p.mapOwned (g p)) = o.binding.level l := by
    unfold Binding.level
    rw [findPoint_map _ (fun p => p.mapOwned_number _)]
    cases findPoint o.binding.source l <;> simp [level]
  unfold Output.evaluate
  rw [binding]

theorem Output.evaluate_tookEvents (s : State) (l : List Nat) (o : Output) : o.evaluate (s.tookEvents l).points = o.evaluate s.points := by
  have points : (s.tookEvents l).points
      = s.points.map fun p => p.mapOwned fun o => if p.number ∈ l then o.tookEvent else o := by
    refine List.map_congr_left fun p _ => ?_
    by_cases e : p.number ∈ l <;> simp [e, Point.mapOwned_id]
  rw [points]
  exact Output.evaluate_mapOwned (g := fun p o => if p.number ∈ l then o.tookEvent else o)
    (fun p o => by split <;> simp [Owned.tookEvent_current]) s.points o

theorem ownedAt_tookEvents {l : List Nat} {n : Nat} (other : n ∉ l) (s : State) : (s.tookEvents l).ownedAt n = s.ownedAt n := by
  have entry : findPoint n (s.tookEvents l).points
      = (findPoint n s.points).map fun p => if p.number ∈ l then p.mapOwned Owned.tookEvent else p :=
    findPoint_map _ (fun p => by split <;> simp) n s.points
  rw [State.ownedAt, State.ownedAt, entry]
  cases found : findPoint n s.points with
  | none => rfl
  | some p =>
    have : p.number ∉ l := findPoint_number found ▸ other
    simp [this]

/-- The count step after a change of the entry of one number (R32). -/
theorem stepWithEvent_points {s t : State} {n : Nat} {f : Owned → Owned}
    (points : t.points = s.points.map fun p => if p.number = n then p.mapOwned f else p) :
    (t.stepWithEvent n).points = s.points.map fun p => if p.number = n then
      p.mapOwned fun o => if isBinaryFromPin p.kind (f o) then f o else { f o with count := (f o).count + 1 } else p := by
  rw [State.stepWithEvent_points, points, List.map_map]
  refine List.map_congr_left fun p _ => ?_
  by_cases e : p.number = n <;> simp [e, Point.mapOwned_mapOwned]

/-- A change of the entry of one number, known by what it does to the entry found there. -/
theorem map_number_congr {s : State} {n : Nat} {o : Owned} (distinct : (s.points.map Point.number).Nodup) (entry : s.ownedAt n = some o)
    {f : Kind → Owned → Owned} {g : Owned → Owned} (same : ∀ k, f k o = g o) :
    (s.points.map fun p => if p.number = n then p.mapOwned (f p.kind) else p)
      = s.points.map fun p => if p.number = n then p.mapOwned g else p := by
  refine List.map_congr_left fun p hp => ?_
  by_cases e : p.number = n
  · simp only [e, if_true]
    refine Point.mapOwned_congr fun o' ho' => ?_
    rw [← e, ownedAt_of_mem distinct hp, ho'] at entry
    rw [Option.some.inj entry, same]
  · simp [e]

/-- A change event of a STATUS-sourced point, as a change of its entry and of its place (R32, R43). -/
theorem changeEvent_eq {s : State} {n : Nat} {o : Owned} (distinct : (s.points.map Point.number).Nodup) (entry : s.ownedAt n = some o)
    (source : o.source = .status) : s.changeEvent n =
      { s with
        points := s.points.map fun p => if p.number = n then p.mapOwned Owned.tookEvent else p
        urgent := s.urgent ++ if s.joins n then [n] else []
        routine := if s.waits n then without n s.routine else s.routine } := by
  have notFromPin : ∀ k, ∀ o' : Owned, o'.source = o.source → isBinaryFromPin k o' = false := fun k o' same => by
    rw [source] at same
    cases k <;> simp [isBinaryFromPin, same]
  have stepped : ∀ (t : State) (f : Owned → Owned), OnlyQueue s t →
      t.points = (s.points.map fun p => if p.number = n then p.mapOwned f else p) → (f o).source = o.source →
      { f o with count := (f o).count + 1 } = o.tookEvent → t.stepWithEvent n =
        { s with
          points := s.points.map fun p => if p.number = n then p.mapOwned Owned.tookEvent else p
          urgent := t.urgent, routine := t.routine } := fun t f only points same event => by
    have := (stepWithEvent_points points).trans (map_number_congr (g := Owned.tookEvent) distinct entry
      (f := fun k o => if isBinaryFromPin k (f o) then f o else { f o with count := (f o).count + 1 })
      fun k => by rw [notFromPin k _ same]; exact event)
    rw [← this, ← State.stepWithEvent_urgent t n, ← State.stepWithEvent_routine t n]
    exact only.trans (t := t) rfl
  have still : o.tookEvent = o → s.joins n = false → s.waits n = false → s =
      { s with
        points := s.points.map fun p => if p.number = n then p.mapOwned Owned.tookEvent else p
        urgent := s.urgent ++ if s.joins n then [n] else []
        routine := if s.waits n then without n s.routine else s.routine } := fun event joins waits => by
    have := map_number_congr (f := fun _ => Owned.tookEvent) (g := fun o => o) distinct entry fun _ => event
    simp [joins, waits, this, Point.mapOwned_id]
  unfold State.changeEvent
  rw [entry]
  dsimp only
  obtain ⟨joins, waits⟩ : s.joins n = (o.sched == .quiet || o.sched == .routine) ∧ s.waits n = (o.sched == .routine) := by
    simp [State.joins, State.waits, entry]
  cases sched : o.sched <;> simp only [sched, beq_self_eq_true, Bool.or_true, Bool.true_or] at joins waits
  case quiet =>
    simp only [joins, waits]
    refine (stepped (s.joinUrgent n) (fun o => { o with sched := .urgent }) rfl rfl rfl ?_).trans ?_
    · simp [Owned.tookEvent, sched]
    · simp
  case routine =>
    cases flying : o.inFlight
    · simp only [joins, waits]
      refine (stepped (s.promote n) (fun o => { o with sched := .urgent }) rfl rfl rfl ?_).trans ?_
      · simp [Owned.tookEvent, sched, flying]
      · simp
    · simp only [joins, waits]
      refine (stepped ((s.promote n).setDirty n) (fun o => { o with sched := .urgent, dirty := true }) rfl ?_ rfl ?_).trans ?_
      · simp only [State.setDirty_points, State.promote_points, State.updateOwned_points, List.map_map]
        refine List.map_congr_left fun p _ => ?_
        by_cases e : p.number = n <;> simp [e, Point.mapOwned_mapOwned]
      · simp [Owned.tookEvent, sched, flying]
      · simp
  case urgent =>
    cases flying : o.inFlight
    · exact still (by simp [Owned.tookEvent, sched, flying]) joins waits
    · cases dirty : o.dirty
      · simp only [joins, waits]
        refine (stepped (s.setDirty n) (fun o => { o with dirty := true }) rfl rfl rfl ?_).trans ?_
        · simp [Owned.tookEvent, sched, flying, dirty]
        · simp
      · exact still (by simp [Owned.tookEvent, sched, flying, dirty]) joins waits
  case yielded => exact still (by simp [Owned.tookEvent, sched]) joins waits

theorem joins_congr {s t : State} {n : Nat} (h : t.ownedAt n = s.ownedAt n) : t.joins n = s.joins n ∧ t.waits n = s.waits n := by
  unfold State.joins State.waits
  rw [h]
  exact ⟨rfl, rfl⟩

theorem evaluate_binding (points : List Point) (o : Output) : (o.evaluate points).binding = o.binding := by rw [evaluate_only]

theorem tookEvents_nil (s : State) : s.tookEvents [] = s := by simp [State.tookEvents]

/-- One more STATUS-sourced point takes the change. -/
theorem statusEvent_tookEvents {s : State} (running : s.station = .running) (distinct : (s.points.map Point.number).Nodup) {l : List Nat}
    {n : Nat} (new : n ∉ l) {o : Owned} (entry : s.ownedAt n = some o) (source : o.source = .status) :
    (s.tookEvents l).statusEvent n = s.tookEvents (l ++ [n]) := by
  have at_n : ((s.tookEvents l).evaluateSource n).ownedAt n = s.ownedAt n := by
    have only := evaluateWhere_only (fun o => o.binding.source == n) (s.tookEvents l)
    rw [State.evaluateSource, only]
    exact ownedAt_tookEvents new s
  have stays : ((s.tookEvents l).evaluateSource n).station = .running := (evaluateSource_status _ _).tables.station.trans running
  have numbers : ((s.tookEvents l).evaluateSource n).points.map Point.number = s.points.map Point.number := by
    rw [State.evaluateSource, evaluateWhere_only]
    simp only [State.tookEvents, List.map_map]
    refine List.map_congr_left fun p _ => ?_
    by_cases e : p.number ∈ l <;> simp [e]
  obtain ⟨joins, waits⟩ := joins_congr at_n
  have evaluated : (s.tookEvents l).evaluateSource n = { s.tookEvents l with
      outputs := (s.tookEvents l).outputs.map fun o => if o.binding.source = n then o.evaluate s.points else o } := by
    simp only [State.evaluateSource, State.evaluateWhere, State.tookEvents, running, if_true, beq_iff_eq]
    congr 1
    refine List.map_congr_left fun o _ => ?_
    rw [← Output.evaluate_tookEvents s l]
    rfl
  have points : ((s.tookEvents l).points.map fun p => if p.number = n then p.mapOwned Owned.tookEvent else p)
      = (s.tookEvents (l ++ [n])).points := by
    simp only [State.tookEvents, List.map_map]
    refine List.map_congr_left fun p _ => ?_
    by_cases e : p.number = n
    · simp [e, new]
    · by_cases h : p.number ∈ l <;> simp [e, h]
  have urgent : (s.tookEvents l).urgent ++ (if s.joins n then [n] else []) = (s.tookEvents (l ++ [n])).urgent := by
    cases j : s.joins n <;> simp [State.tookEvents, List.filter_append, j]
  have routine : (if s.waits n then without n (s.tookEvents l).routine else (s.tookEvents l).routine)
      = (s.tookEvents (l ++ [n])).routine := by
    simp only [State.tookEvents, without]
    cases w : s.waits n
    · refine List.filter_congr fun k _ => ?_
      by_cases e : k = n <;> simp [e, w]
    · simp only [if_true, List.filter_filter]
      refine List.filter_congr fun k _ => ?_
      by_cases e : k = n <;> simp [e, w]
  have outputs : ((s.tookEvents l).outputs.map fun o => if o.binding.source = n then o.evaluate s.points else o)
      = (s.tookEvents (l ++ [n])).outputs := by
    simp only [State.tookEvents, List.map_map]
    refine List.map_congr_left fun o _ => ?_
    by_cases h : o.binding.source ∈ l
    · have : o.binding.source ≠ n := fun e => new (e ▸ h)
      simp [h, this, evaluate_binding]
    · by_cases e : o.binding.source = n <;> simp [h, e, new]
  have event := changeEvent_eq (numbers ▸ distinct) (at_n.trans entry) source
  rw [joins, waits, evaluated] at event
  simp only [State.statusEvent]
  rw [if_pos stays, evaluated, event]
  simp only [points, urgent, routine, outputs]
  rfl

theorem foldl_statusEvent {s : State} (running : s.station = .running) (distinct : (s.points.map Point.number).Nodup) {l : List Nat}
    (nodup : l.Nodup) (sourced : ∀ n ∈ l, ∃ o, s.ownedAt n = some o ∧ o.source = .status) :
    l.foldl State.statusEvent s = s.tookEvents l := by
  induction l using List.reverseRecOn with
  | nil => exact (tookEvents_nil s).symm
  | append_singleton l n ih =>
    obtain ⟨nodup, -, apart⟩ := List.nodup_append.mp nodup
    obtain ⟨o, entry, source⟩ := sourced n (by simp)
    rw [List.foldl_append, ih nodup fun k hk => sourced k (List.mem_append_left _ hk), List.foldl_cons, List.foldl_nil]
    exact statusEvent_tookEvents running distinct (fun h => apart n h n (List.mem_singleton_self n) rfl) entry source

/-! ## A report as a whole -/

theorem mem_ownedFrom {src : Source} {n : Nat} {l : List Point} :
    n ∈ ownedFrom src l ↔ ∃ p ∈ l, p.number = n ∧ ∃ o, p.owned? = some o ∧ o.source = src := by
  simp only [ownedFrom, List.mem_map, List.mem_filter]
  constructor
  · rintro ⟨p, ⟨hp, sourced⟩, e⟩
    cases owned : p.owned? with
    | none => simp [owned] at sourced
    | some o => exact ⟨p, hp, e, o, owned, by simpa [owned] using sourced⟩
  · rintro ⟨p, hp, e, o, owned, source⟩
    exact ⟨p, ⟨hp, by simp [owned, source]⟩, e⟩

theorem fedBy_iff {src : Source} {s : State} {n : Nat} : fedBy src s n = true ↔ ∃ o, s.ownedAt n = some o ∧ o.source = src := by
  unfold fedBy
  cases s.ownedAt n <;> simp

theorem fedBy_eq {s : State} (distinct : (s.points.map Point.number).Nodup) (src : Source) (n : Nat) :
    fedBy src s n = decide (n ∈ ownedFrom src s.points) := by
  rw [Bool.eq_iff_iff, decide_eq_true_iff, fedBy_iff, mem_ownedFrom]
  constructor
  · rintro ⟨o, entry, source⟩
    obtain ⟨p, -, hp, number, owned⟩ := ownedAt_entry entry
    exact ⟨p, hp, number, o, owned, source⟩
  · rintro ⟨p, hp, rfl, o, owned, source⟩
    exact ⟨o, (ownedAt_of_mem distinct hp).trans owned, source⟩

/-- In a table of distinct numbers a number is among those of a source exactly when its entry has the source. -/
theorem number_mem_ownedFrom {src : Source} {l : List Point} (distinct : (l.map Point.number).Nodup) {p : Point} (hp : p ∈ l) :
    p.number ∈ ownedFrom src l ↔ ∃ o, p.owned? = some o ∧ o.source = src := by
  rw [mem_ownedFrom]
  constructor
  · rintro ⟨q, hq, number, sourced⟩
    rwa [← List.inj_on_of_nodup_map distinct hq hp number]
  · exact fun sourced => ⟨p, hp, rfl, sourced⟩

theorem FaultSummary.put_get (f : FaultSummary) (c : Condition) : f.put c (f.get c) = f := by cases c <;> rfl

theorem writeStatus_points (s : State) : s.writeStatus.points = mapOwnedBy (fun p o =>
    if o.source = .status then { o with current := statusValue p.kind s.faults } else o) s.points := rfl

theorem ownedAt_writeStatus (s : State) (n : Nat) : s.writeStatus.ownedAt n = (findPoint n s.points).bind fun p =>
    p.owned?.map fun o => if o.source = .status then { o with current := statusValue p.kind s.faults } else o :=
  ownedAt_mapOwnedBy (writeStatus_points s) n

theorem writeStatus_places (s : State) (n : Nat) : s.writeStatus.joins n = s.joins n ∧ s.writeStatus.waits n = s.waits n := by
  unfold State.joins State.waits
  rw [ownedAt_writeStatus, State.ownedAt]
  cases findPoint n s.points with
  | none => exact ⟨rfl, rfl⟩
  | some p =>
    cases owned : p.owned? with
    | none => simp [owned]
    | some o => by_cases source : o.source = .status <;> simp [owned, source]

/-- The entries after a change of the summary in RUNNING: written, then the change event (R33, R43). -/
theorem tookEvents_points {s : State} (distinct : (s.points.map Point.number).Nodup) :
    (s.writeStatus.tookEvents (ownedFrom .status s.points)).points
      = s.points.map fun p => p.mapOwned fun o => if o.source = .status then tookSummary p.kind s.faults o else o := by
  simp only [State.tookEvents, State.writeStatus_points, List.map_map]
  refine List.map_congr_left fun p hp => ?_
  have sourced := number_mem_ownedFrom (src := .status) distinct hp
  simp only [Function.comp_apply, Point.mapOwned_number]
  cases owned : p.owned? with
  | none =>
    obtain ⟨n, k, role⟩ := p
    cases role with
    | owned o => cases owned
    | mirrored m => simp [Point.mapOwned]
  | some o =>
    have only : ∀ o', p.owned? = some o' → o' = o := fun o' h => by rw [owned] at h; exact (Option.some.inj h).symm
    by_cases source : o.source = .status
    · rw [if_pos (sourced.mpr ⟨o, owned, source⟩), Point.mapOwned_mapOwned]
      exact Point.mapOwned_congr fun o' ho' => by rw [only o' ho']; simp only [source, if_true, tookSummary_eq]
    · have away : p.number ∉ ownedFrom .status s.points := fun h => by
        obtain ⟨o', ho', source'⟩ := sourced.mp h
        exact source (only o' ho' ▸ source')
      rw [if_neg away]
      exact Point.mapOwned_congr fun o' ho' => by rw [only o' ho']; simp only [source, if_false]

/-- The points that a change of the summary brings to the urgent tail, in Point Table order (R33, R43). -/
theorem ownedFrom_filter_joins {s : State} (distinct : (s.points.map Point.number).Nodup) :
    (ownedFrom .status s.points).filter s.joins = s.points.filterMap fun p =>
      match p.role with
      | .owned o => if o.source = .status ∧ (o.sched = .quiet ∨ o.sched = .routine) then some p.number else none
      | .mirrored _ => none := by
  rw [ownedFrom, List.filter_map, List.filter_filter, ← List.filterMap_eq_map, ← List.filterMap_eq_filter, List.filterMap_filterMap]
  refine List.filterMap_congr fun p hp => ?_
  have at_p := ownedAt_of_mem distinct hp
  obtain ⟨n, k, role⟩ := p
  cases role with
  | mirrored m => simp [Option.guard, Point.owned?]
  | owned o =>
    simp only [Point.owned?] at at_p
    by_cases source : o.source = .status <;> by_cases quiet : o.sched = .quiet <;> by_cases routine : o.sched = .routine <;>
      simp [Option.guard, Point.owned?, State.joins, at_p, source, quiet, routine]

/-- A change of the summary in RUNNING (R33, R43, R144). -/
theorem statusChanged_running {s : State} (running : s.station = .running) (distinct : (s.points.map Point.number).Nodup)
    (f : FaultSummary) : State.statusChanged { s with faults := f } =
      let points := s.points.map fun p => p.mapOwned fun o => if o.source = .status then tookSummary p.kind f o else o
      { s with
        faults := f, points := points
        urgent := s.urgent ++ s.points.filterMap fun p =>
          match p.role with
          | .owned o => if o.source = .status ∧ (o.sched = .quiet ∨ o.sched = .routine) then some p.number else none
          | .mirrored _ => none
        routine := s.routine.filter fun n =>
          match s.ownedAt n with
          | some o => !(o.source == .status && o.sched == .routine)
          | none => true
        outputs := s.outputs.map fun o => if fedBy .status s o.binding.source then o.evaluate points else o } := by
  let v : State := { s with faults := f }
  let t := v.writeStatus.tookEvents (ownedFrom .status s.points)
  have fold : (ownedFrom .status v.points).foldl State.statusEvent v.writeStatus = t := by
    refine foldl_statusEvent (s := v.writeStatus) running ?_ (distinct.sublist (List.filter_sublist.map _)) fun n hn => ?_
    · rw [writeStatus_points, numbers_mapOwnedBy]; exact distinct
    · obtain ⟨p, hp, rfl, o, owned, source⟩ := mem_ownedFrom.mp hn
      have found : findPoint p.number v.points = some p := findPoint_of_mem distinct hp
      rw [ownedAt_writeStatus]
      exact ⟨{ o with current := statusValue p.kind v.faults }, by simp [found, owned, source], source⟩
  have points : t.points = s.points.map fun p =>
      p.mapOwned fun o => if o.source = .status then tookSummary p.kind (f) o else o := tookEvents_points (s := v) distinct
  have joins : v.writeStatus.joins = s.joins := funext fun n => (writeStatus_places v n).1
  have urgent : t.urgent = s.urgent ++ s.points.filterMap fun p =>
      match p.role with
      | .owned o => if o.source = .status ∧ (o.sched = .quiet ∨ o.sched = .routine) then some p.number else none
      | .mirrored _ => none :=
    congrArg (s.urgent ++ ·) ((congrArg (fun j => (ownedFrom .status s.points).filter j) joins).trans (ownedFrom_filter_joins distinct))
  have routine : t.routine = s.routine.filter fun n =>
      match s.ownedAt n with
      | some o => !(o.source == .status && o.sched == .routine)
      | none => true := by
    refine List.filter_congr fun n _ => ?_
    rw [(writeStatus_places v n).2, ← fedBy_eq distinct, fedBy]
    change (!((match s.ownedAt n with | some o => o.source == .status | none => false) && s.waits n)) = _
    unfold State.waits
    cases s.ownedAt n <;> rfl
  have outputs : t.outputs = s.outputs.map fun o => if fedBy .status s o.binding.source then o.evaluate t.points else o := by
    refine List.map_congr_left fun o _ => ?_
    rw [Output.evaluate_tookEvents, fedBy_eq distinct]
    simp
  have whole : t = { s with
    faults := f, points := t.points, urgent := t.urgent, routine := t.routine, outputs := t.outputs } := rfl
  have live : ({ s with faults := f } : State).station.live = true := live_of_running running
  rw [State.statusChanged, if_pos live]
  refine fold.trans (whole.trans ?_)
  rw [outputs, urgent, routine, points]

/-- A change of the summary in JOINING reaches the values only (R34). -/
theorem statusChanged_joining {s : State} (joining : s.station = .joining) : s.statusChanged = s.writeStatus := by
  have live : s.station.live = true := by rw [joining]; rfl
  have still : ∀ (l : List Nat) (t : State), t.station = .joining → l.foldl State.statusEvent t = t := by
    intro l
    induction l with
    | nil => exact fun _ _ => rfl
    | cons n l ih =>
      intro t joining
      have : t.statusEvent n = t := by simp [State.statusEvent, State.evaluateSource, State.evaluateWhere, joining]
      rw [List.foldl_cons, this, ih t joining]
  rw [State.statusChanged, if_pos live]
  exact still _ s.writeStatus joining

theorem statusChanged_other {s : State} (other : s.station.live = false) : s.statusChanged = s := by
  simp [State.statusChanged, other]

/-- The change of the fault summary is the one of Safety.summaryTaken, in a table of distinct numbers (R33, R188). -/
theorem report_eq {s : State} (distinct : (s.points.map Point.number).Nodup) (c : Condition) (b : Bool) :
    s.report c b = summaryTaken (s.faults.put c b) s := by
  unfold State.report
  by_cases stands : s.faults.get c = b
  · rw [if_pos stands, ← stands, FaultSummary.put_get, summaryTaken_self]
  have changed : s.faults.put c b ≠ s.faults := fun e => stands (by
    have := FaultSummary.get_put s.faults c c b
    rwa [e, if_pos rfl] at this)
  have other : s.station.live = false → State.statusChanged { s with faults := s.faults.put c b } = { s with faults := s.faults.put c b } :=
    fun h => statusChanged_other (s := { s with faults := s.faults.put c b }) h
  rw [if_neg stands, summaryTaken, if_neg changed]
  split
  · next running => exact statusChanged_running running distinct _
  · next joining => exact statusChanged_joining (s := { s with faults := s.faults.put c b }) joining
  · next h => exact other (by rw [h]; rfl)
  · next h => exact other (by rw [h]; rfl)
  · next h => exact other (by rw [h]; rfl)

end Sys2Proof.Machine
end

