-- ==== Sys2Proof/Proofs/Staleness.lean ====
section
/-!
THEOREM. The expiry of a staleness deadline and of an overdue timer (O53).
-/

namespace Sys2Proof.Machine

open Sys2Proof.Safety

/-! ## Evaluations -/

theorem evaluate_overrides (points : List Point) (o : Output) : (o.evaluate points).overrides = o.overrides := by rw [evaluate_only]

theorem evaluate_of_override {points : List Point} {o : Output} {e : Override} {l : List Override} (h : o.overrides = e :: l) :
    o.evaluate points = { o with driven := e.value } := by simp [Output.evaluate, h]

theorem evaluate_of_level {points : List Point} {o : Output} {b : Bool} (h : o.overrides = []) (level : o.binding.level points = some b) :
    o.evaluate points = { o with driven := b, held := b } := by simp [Output.evaluate, h, level]

theorem evaluate_of_fallback {points : List Point} {o : Output} (h : o.overrides = []) (level : o.binding.level points = none) :
    o.evaluate points = { o with driven := o.binding.fallback.level o.held } := by simp [Output.evaluate, h, level]

/-- A second evaluation on the same table changes nothing (R142, R143). -/
theorem Output.evaluate_evaluate (points : List Point) (o : Output) : (o.evaluate points).evaluate points = o.evaluate points := by
  cases overrides : o.overrides with
  | cons e l =>
    rw [evaluate_of_override overrides]
    exact evaluate_of_override (o := { o with driven := e.value }) overrides
  | nil =>
    cases level : o.binding.level points with
    | some b =>
      rw [evaluate_of_level overrides level]
      exact evaluate_of_level (o := { o with driven := b, held := b }) overrides level
    | none =>
      rw [evaluate_of_fallback overrides level]
      exact evaluate_of_fallback (o := { o with driven := o.binding.fallback.level o.held }) overrides level

/-- The outputs bound to a point are evaluated in RUNNING, on the table as it stands (R144). -/
theorem evaluateSource_eq (n : Nat) (s : State) : s.evaluateSource n =
    { s with outputs := s.outputs.map fun o => if s.station = .running ∧ o.binding.source = n then o.evaluate s.points else o } := by
  unfold State.evaluateSource State.evaluateWhere
  split
  · next running => simp [running]
  · next other => simp [other]

theorem evaluateSource_at {s : State} {station : StationState} (h : s.station = station) (n : Nat) : s.evaluateSource n =
    { s with outputs := s.outputs.map fun o => if station = .running ∧ o.binding.source = n then o.evaluate s.points else o } := by
  subst h
  exact evaluateSource_eq n s

theorem evaluateSource_shows {n : Nat} {s : State} (running : s.station = .running) :
    ∀ o ∈ (s.evaluateSource n).outputs, o.binding.source = n → o.evaluate (s.evaluateSource n).points = o := by
  intro o ho bound
  rw [evaluateSource_eq] at ho ⊢
  obtain ⟨o', -, rfl⟩ := List.mem_map.mp ho
  by_cases e : s.station = .running ∧ o'.binding.source = n
  · rw [if_pos e]; exact Output.evaluate_evaluate s.points o'
  · rw [if_neg e] at bound; exact absurd ⟨running, bound⟩ e

theorem outputLists_evaluateSource (n : Nat) (s : State) : outputLists (s.evaluateSource n) = outputLists s :=
  outputLists_evaluateWhere _ s

/-! ## SOURCE after a change of one entry -/

/-- SOURCE is judged true where one entry holds it (R16, R21). -/
theorem judgeSource_held {s : State} {n : Nat} {m : Mirrored} (entry : s.mirroredAt n = some m)
    (holds : m.state = .stale ∨ m.overdue = true) : s.judgeSource = s.report .source true := by
  obtain ⟨p, -, hp, -, hm⟩ := mirroredAt_entry entry
  have : s.points.any Point.holdsSource = true :=
    List.any_eq_true.mpr ⟨p, hp, by rcases holds with e | e <;> simp [Point.holdsSource, hm, e]⟩
  rw [State.judgeSource, this]

/-- What a report of SOURCE leaves, and what it brings. -/
theorem reportSource_frame (s : State) : s.report .source true = { s with
    points := (s.report .source true).points, urgent := (s.report .source true).urgent, routine := (s.report .source true).routine
    outputs := (s.report .source true).outputs, faults := { s.faults with source := true } } := by
  have faults : (s.report .source true).faults = { s.faults with source := true } := report_faults _ _ s
  rw [← faults]
  exact report_status .source true s

/-- Settles O53: a point made STALE, and a point overdue, hold SOURCE; the report of it is the change that Safety.summaryTaken describes. -/
theorem stalenessAndOverdue : Obligations.StalenessAndOverdue := by
  refine ⟨fun s n m due live entry fresh deadline => ?_, fun s n m due running entry timed => ?_⟩
  · let u := (s.advanceTo due).updateMirrored n Mirrored.goStale
    have stale : u.mirroredAt n = some m.goStale := by
      rw [mirroredAt_updateMirrored, State.mirroredAt, State.advanceTo_points, ← State.mirroredAt, entry]; simp
    have run : exec (.stalenessDeadlineExpiry n) s = .next ((u.report .source true).evaluateSource n) := by
      rw [← judgeSource_held stale (.inl rfl)]
      change execStalenessDeadlineExpiry n s = _
      simp [execStalenessDeadlineExpiry, live, entry, fresh, deadline, u]
    have same : SameMirror u ((u.report .source true).evaluateSource n) :=
      OwnSteps.sameMirror ((report_own .source true u).trans (evaluateSource_own n _))
    have at_k : ∀ k, ((u.report .source true).evaluateSource n).mirroredAt k = u.mirroredAt k := mirroredAt_congr same.half
    refine ⟨_, run, ?_, (at_k n).trans stale, ?_, fun k other => ?_, fun running => ?_, fun distinct => ?_⟩
    · rw [evaluateSource_eq, reportSource_frame]
      rfl
    · rw [outputLists_evaluateSource, outputLists_report]; rfl
    · rw [at_k, mirroredAt_updateMirrored]; simp [other, State.mirroredAt]
    · exact evaluateSource_shows ((report_status _ _ u).tables.station.trans running)
    · have distinct' : (u.points.map Point.number).Nodup := by rwa [updateMirrored_points, numbers_mapMirroredBy]
      rw [evaluateSource_at (report_status .source true u).tables.station, report_eq distinct']
      rfl
  · let u := (s.advanceTo due).updateMirrored n fun m => { m with overdue := true, overdueTimer := none }
    have overdue : u.mirroredAt n = some { m with overdue := true, overdueTimer := none } := by
      rw [mirroredAt_updateMirrored, State.mirroredAt, State.advanceTo_points, ← State.mirroredAt, entry]; simp
    have run : exec (.overdueTimerExpiry n) s = .next (u.report .source true) := by
      rw [← judgeSource_held overdue (.inr rfl)]
      change execOverdueTimerExpiry n s = _
      simp [execOverdueTimerExpiry, running, entry, timed, u]
    have at_k : ∀ k, (u.report .source true).mirroredAt k = u.mirroredAt k :=
      mirroredAt_congr (OwnSteps.sameMirror (report_own .source true u)).half
    refine ⟨_, run, ?_, (at_k n).trans overdue, ?_, fun k other => ?_, fun distinct => ?_⟩
    · rw [reportSource_frame]
      rfl
    · rw [outputLists_report]; rfl
    · rw [at_k, mirroredAt_updateMirrored]; simp [other, State.mirroredAt]
    · have distinct' : (u.points.map Point.number).Nodup := by rwa [updateMirrored_points, numbers_mapMirroredBy]
      rw [report_eq distinct']
      rfl

end Sys2Proof.Machine
end

