-- ==== Sys2Proof/Proofs/Reach.lean ====
section
/-!
SUPPORT. How far an operation on the mirrored entries and the roster reaches into the owned entries, the queue and the outputs: no further than
to the STATUS-sourced points, and to the outputs that it evaluates.
-/

namespace Sys2Proof.Machine

open Sys2Proof.Safety

/-- From `s` to `t` the owned entries of other sources than STATUS, their places and the outputs not picked stay, in a table of distinct
numbers. -/
structure Reach (pick : Output → Prop) (s t : State) : Prop where
  entries : ∀ k o, s.ownedAt k = some o → o.source ≠ .status → t.ownedAt k = some o
  fed : ∀ n, fedBy .status t n = fedBy .status s n
  urgent : (t.urgent.filter fun n => !fedBy .status s n) = s.urgent.filter fun n => !fedBy .status s n
  routine : (t.routine.filter fun n => !fedBy .status s n) = s.routine.filter fun n => !fedBy .status s n
  outputs : OutputsStay (fun o => pick o ∨ fedBy .status s o.binding.source = true) s t

/-- The numbers stay, and where they are distinct, so does what `Reach` says. -/
structure Reaches (pick : Output → Prop) (s t : State) : Prop where
  numbers : t.points.map Point.number = s.points.map Point.number
  reach : (s.points.map Point.number).Nodup → Reach pick s t

theorem Reach.ownedStay {pick : Output → Prop} {s t : State} (h : Reach pick s t) : OwnedStay .status s t :=
  ⟨h.entries, h.urgent, h.routine⟩

theorem Reach.trans {pick : Output → Prop} {s t u : State} (h : Reach pick s t) (k : Reach pick t u) : Reach pick s u where
  entries n o entry other := k.entries n o (h.entries n o entry other) other
  fed n := (k.fed n).trans (h.fed n)
  urgent := by
    have := k.urgent
    simp only [h.fed] at this
    exact this.trans h.urgent
  routine := by
    have := k.routine
    simp only [h.fed] at this
    exact this.trans h.routine
  outputs o ho unpicked := k.outputs o (h.outputs o ho unpicked) (by simpa only [h.fed] using unpicked)

theorem Reaches.trans {pick : Output → Prop} {s t u : State} (h : Reaches pick s t) (k : Reaches pick t u) : Reaches pick s u where
  numbers := k.numbers.trans h.numbers
  reach distinct := (h.reach distinct).trans (k.reach (h.numbers ▸ distinct))

theorem fedBy_congr {s t : State} (half : ownedHalf t.points = ownedHalf s.points) (src : Source) (n : Nat) :
    fedBy src t n = fedBy src s n := by
  unfold fedBy
  rw [ownedAt_congr half]

/-- The OWNED half and the queue stay, and the outputs that are not picked. -/
theorem Reaches.of_half {pick : Output → Prop} {s t : State} (half : ownedHalf t.points = ownedHalf s.points) (urgent : t.urgent = s.urgent)
    (routine : t.routine = s.routine) (outputs : OutputsStay (fun o => pick o ∨ fedBy .status s o.binding.source = true) s t) :
    Reaches pick s t where
  numbers := numbers_of_ownedHalf half
  reach _ :=
    { entries := fun k o entry _ => (ownedAt_congr half k).trans entry
      fed := fedBy_congr half .status
      urgent := by rw [urgent]
      routine := by rw [routine]
      outputs := outputs }

/-- Neither the OWNED half nor the queue nor an output changes. -/
theorem Reaches.of_same {pick : Output → Prop} {s t : State} (half : ownedHalf t.points = ownedHalf s.points) (urgent : t.urgent = s.urgent)
    (routine : t.routine = s.routine) (outputs : t.outputs = s.outputs) : Reaches pick s t :=
  .of_half half urgent routine fun _ ho _ => outputs ▸ ho

theorem Reaches.refl (pick : Output → Prop) (s : State) : Reaches pick s s := .of_same rfl rfl rfl rfl

theorem Reaches.fold {α : Type} {pick : Output → Prop} (f : State → α → State) (turn : ∀ s a, Reaches pick s (f s a)) (l : List α)
    (s : State) : Reaches pick s (l.foldl f s) := foldl_rel (Reaches pick) (.refl pick) .trans f turn l s

/-! ## A change of the summary -/

theorem not_fedBy_filter (s : State) (f : Nat → Bool) (h : ∀ n, fedBy .status s n = false → f n = true) (l : List Nat) :
    ((l.filter f).filter fun n => !fedBy .status s n) = l.filter fun n => !fedBy .status s n := by
  rw [List.filter_filter]
  refine List.filter_congr fun n _ => ?_
  cases fed : fedBy .status s n with
  | true => rfl
  | false => simp [h n fed]

/-- The entries after a change of the summary: those of STATUS keep their source, all others stay. -/
theorem ownedAt_statusOnly {s t : State} {g : Point → Owned → Owned} (points : t.points = mapOwnedBy g s.points)
    (others : ∀ p o, o.source ≠ .status → g p o = o) (source : ∀ p o, (g p o).source = o.source) :
    (∀ k o, s.ownedAt k = some o → o.source ≠ .status → t.ownedAt k = some o) ∧ ∀ n, fedBy .status t n = fedBy .status s n := by
  have entry := ownedAt_mapOwnedBy points
  refine ⟨fun k o at_k other => ?_, fun n => ?_⟩
  · obtain ⟨p, found, -, -, owned⟩ := ownedAt_entry at_k
    rw [entry, found, Option.bind_some, owned, Option.map_some, others p o other]
  · unfold fedBy
    rw [entry, State.ownedAt]
    cases findPoint n s.points with
    | none => rfl
    | some p =>
      cases owned : p.owned? with
      | none => simp [owned]
      | some o => simp [owned, source]

theorem tookSummary_source (k : Kind) (f : FaultSummary) (o : Owned) : (tookSummary k f o).source = o.source := by
  rw [tookSummary_eq, Owned.tookEvent_source]

theorem summaryTaken_reach {s : State} (pick : Output → Prop) (distinct : (s.points.map Point.number).Nodup) (f : FaultSummary) :
    Reach pick s (summaryTaken f s) := by
  have still : ∀ t : State, t.points = s.points → t.urgent = s.urgent → t.routine = s.routine → t.outputs = s.outputs → Reach pick s t :=
    fun t points urgent routine outputs => (Reaches.of_same (by rw [points]) urgent routine outputs).reach distinct
  unfold summaryTaken
  split
  · exact (Reaches.refl pick s).reach distinct
  · split
    · let g (p : Point) (o : Owned) : Owned := if o.source = .status then tookSummary p.kind f o else o
      obtain ⟨entries, fed⟩ := ownedAt_statusOnly (s := s) (t := { s with points := mapOwnedBy g s.points }) (g := g) rfl
        (fun p o other => if_neg other) fun p o => by
          by_cases e : o.source = .status
          · simp only [g, e, if_true, tookSummary_source]
          · simp only [g, e, if_false]
      have joined : ((ownedFrom .status s.points).filter s.joins).filter (fun n => !fedBy .status s n) = [] :=
        List.filter_eq_nil_iff.mpr fun n hn => by
          rw [fedBy_eq distinct, decide_eq_true (List.mem_filter.mp hn).1]
          simp
      rw [ownedFrom_filter_joins distinct] at joined
      refine ⟨entries, fed, ?_, ?_, fun o ho unpicked => ?_⟩
      · exact (List.filter_append _ _).trans ((congrArg _ joined).trans (List.append_nil _))
      · refine not_fedBy_filter s _ (fun n unfed => ?_) s.routine
        unfold fedBy at unfed
        cases entry : s.ownedAt n with
        | none => rfl
        | some o => rw [entry] at unfed; simp [show (o.source == Source.status) = false from unfed]
      · have : fedBy .status s o.binding.source = false := by simpa using (not_or.mp unpicked).2
        exact List.mem_map.mpr ⟨o, ho, by simp [this]⟩
    · let g (p : Point) (o : Owned) : Owned := if o.source = .status then { o with current := statusValue p.kind f } else o
      obtain ⟨entries, fed⟩ := ownedAt_statusOnly (s := s) (t := { s with points := mapOwnedBy g s.points }) (g := g) rfl
        (fun p o other => if_neg other) fun p o => by
          by_cases e : o.source = .status
          · simp only [g, e, if_true]
          · simp only [g, e, if_false]
      exact ⟨entries, fed, rfl, rfl, fun o ho _ => ho⟩
    · exact still _ rfl rfl rfl rfl
    · exact still _ rfl rfl rfl rfl
    · exact still _ rfl rfl rfl rfl

theorem report_reaches (pick : Output → Prop) (c : Condition) (b : Bool) (s : State) : Reaches pick s (s.report c b) where
  numbers := AnySteps.numbers (report_any c b s)
  reach distinct := by rw [report_eq distinct]; exact summaryTaken_reach pick distinct _

/-! ## The operations on mirrored entries and on the roster -/

theorem evaluateSource_reaches (n : Nat) (s : State) : Reaches (fun o => o.binding.source = n) s (s.evaluateSource n) := by
  rw [evaluateSource_eq]
  refine .of_half rfl rfl rfl fun o ho unpicked => List.mem_map.mpr ⟨o, ho, ?_⟩
  rw [if_neg fun h => unpicked (.inl h.2)]

theorem updateMirrored_reaches (pick : Output → Prop) (n : Nat) (f : Mirrored → Mirrored) (s : State) :
    Reaches pick s (s.updateMirrored n f) := .of_same (by rw [updateMirrored_points, ownedHalf_mapMirroredBy]) rfl rfl rfl

theorem updatePeer_reaches (pick : Output → Prop) (p : Station) (f : Peer → Peer) (s : State) : Reaches pick s (s.updatePeer p f) :=
  .of_same rfl rfl rfl rfl

theorem fillSolicits_reaches (pick : Output → Prop) (s : State) : Reaches pick s s.fillSolicits := by
  unfold State.fillSolicits
  split
  · exact .of_same rfl rfl rfl rfl
  · exact .refl pick s

theorem satisfy_reaches (pick : Output → Prop) (n : Nat) (s : State) : Reaches pick s (s.satisfy n) := by
  unfold State.satisfy
  split
  · exact (Reaches.of_same (s := s) (t := s.removeSolicit n) rfl rfl rfl rfl).trans (fillSolicits_reaches pick _)
  · exact .refl pick s

theorem countMissed_reaches (pick : Output → Prop) (stored : Option Count) (carried : Count) (s : State) :
    Reaches pick s (s.countMissed stored carried) := by
  unfold State.countMissed
  split
  · exact .refl pick s
  · split
    · exact .of_same rfl rfl rfl rfl
    · exact .refl pick s

theorem mustTrack_reaches (pick : Output → Prop) (p : Station) (s : State) : Reaches pick s (s.mustTrack p).1 := by
  have roster : ∀ l, Reaches pick s { s with roster := l } := fun _ => .of_same rfl rfl rfl rfl
  rcases mustTrack_roster p s with ⟨-, e⟩ | ⟨-, -, e⟩ | ⟨v, -, -, e⟩ <;> rw [e]
  · exact roster _
  · exact .refl pick s
  · exact (roster _).trans (report_reaches pick _ _ _)

theorem track_reaches (pick : Output → Prop) (p : Station) (s : State) : Reaches pick s (s.track p).1 := by
  rcases track_cases p s with ⟨x, -, e⟩ | ⟨-, -, e⟩ | ⟨-, -, e⟩ <;> rw [e]
  · exact .refl pick s
  · exact mustTrack_reaches pick p s
  · exact (Reaches.of_same (s := s) (t := s.bump .rosterOverflows) rfl rfl rfl rfl).trans (report_reaches pick _ _ _)

theorem keepSourcesMark_reaches (pick : Output → Prop) (p : Station) (s : State) : Reaches pick s (s.keepSourcesMark p) :=
  (updatePeer_reaches pick p _ s).trans (report_reaches pick _ _ _)

theorem learn_reaches (pick : Output → Prop) (n : Nat) (p : Station) (s : State) : Reaches pick s (s.learn n p) :=
  ((updateMirrored_reaches pick n _ s).trans (track_reaches pick p _)).trans (keepSourcesMark_reaches pick p _)

theorem acceptRecord_reaches (n : Nat) (k : Kind) (m : Mirrored) (r : Record) (s : State) :
    Reaches (fun o => o.binding.source = n) s (s.acceptRecord n k m r) :=
  ((((countMissed_reaches _ _ _ s).trans (updateMirrored_reaches _ n _ _)).trans (report_reaches _ _ _ _)).trans
    (satisfy_reaches _ n _)).trans (evaluateSource_reaches n _)

end Sys2Proof.Machine
end

