-- ==== Sys2Proof/Proofs/Tracking.lean ====
section
/-!
SUPPORT. The tracking of a station as a learned source: which roster entry each station has afterwards, and what LearnedSource says of it
(R97, R99, R106, R128).
-/

namespace Sys2Proof.Machine

open Sys2Proof.Safety

/-! ## The roster entry of a station -/

theorem peerAt_congr {s t : State} (roster : t.roster = s.roster) (k : Station) : t.peerAt k = s.peerAt k := by
  rw [State.peerAt, State.peerAt, roster]

theorem peerAt_station {s : State} {k : Station} {x : Peer} (h : s.peerAt k = some x) : x.station = k := by
  simpa using List.find?_some h

theorem peerAt_mem {s : State} {k : Station} {x : Peer} (h : s.peerAt k = some x) : x ∈ s.roster := List.mem_of_find?_eq_some h

theorem peerAt_updatePeer (p k : Station) (f : Peer → Peer) (s : State) (station : ∀ x, (f x).station = x.station) :
    (s.updatePeer p f).peerAt k = (s.peerAt k).map fun x => if k = p then f x else x := by
  have same : (fun x : Peer => x.station == k) ∘ (fun x => if x.station = p then f x else x) = fun x => x.station == k := by
    funext x
    by_cases e : x.station = p <;> simp [e, station]
  rw [State.peerAt, State.updatePeer_roster, List.find?_map, same, ← State.peerAt]
  cases found : s.peerAt k with
  | none => rfl
  | some x => simp [peerAt_station found]

theorem peerAt_append {s : State} {x : Peer} {p : Station} (same : x.station = p) (absent : s.peerAt p = none) (k : Station) :
    ({ s with roster := s.roster ++ [x] } : State).peerAt k = if k = p then some x else s.peerAt k := by
  subst same
  simp only [State.peerAt, List.find?_append]
  by_cases e : k = x.station
  · subst e
    rw [← State.peerAt, absent]
    simp
  · have : (x.station == k) = false := beq_eq_false_iff_ne.mpr fun h => e h.symm
    simp [e, this]

/-- An entry replaced by one of a station that had none. -/
theorem peerAt_replace {s : State} {x v : Peer} {p : Station} (same : x.station = p) (held : v ∈ s.roster)
    (absent : s.peerAt p = none) (k : Station) :
    ({ s with roster := s.roster.map fun y => if y.station = v.station then x else y } : State).peerAt k
      = if k = p then some x else if k = v.station then none else s.peerAt k := by
  subst same
  have unlisted : ∀ y ∈ s.roster, y.station ≠ x.station := fun y hy e => peerAt_eq_none.mp absent (e ▸ List.mem_map_of_mem hy)
  have other := unlisted v held
  simp only [State.peerAt, List.find?_map]
  split
  · next e =>
    subst e
    have first : (s.roster.find? ((fun y : Peer => y.station == x.station) ∘ fun y => if y.station = v.station then x else y))
        = s.roster.find? fun y => y.station == v.station :=
      List.find?_congr fun y hy => by
        by_cases same : y.station = v.station
        · simp [same]
        · simp [same, unlisted y hy]
    rw [first]
    cases found : s.roster.find? fun y => y.station == v.station with
    | none => exact absurd (List.find?_eq_none.mp found v held) (by simp)
    | some y => simp [show y.station = v.station by simpa using List.find?_some found]
  · next away =>
    split
    · next e =>
      subst e
      rw [Option.map_eq_none_iff, List.find?_eq_none]
      intro y _
      by_cases same : y.station = v.station
      · simp [same, other.symm]
      · simp [same]
    · next kept =>
      have first : (s.roster.find? ((fun y : Peer => y.station == k) ∘ fun y => if y.station = v.station then x else y))
          = s.roster.find? fun y => y.station == k :=
        List.find?_congr fun y _ => by
          by_cases same : y.station = v.station
          · have : ¬ x.station = k := fun h => away h.symm
            have : ¬ v.station = k := fun h => kept h.symm
            simp [*]
          · simp [same]
      rw [first]
      cases found : s.roster.find? fun y => y.station == k with
      | none => rfl
      | some y =>
        have : y.station = k := by simpa using List.find?_some found
        simp [this, kept]

/-! ## The outcomes of a tracking -/

theorem trackable_of_held {p : Station} {s : State} {x : Peer} (held : s.peerAt p = some x) : Trackable p s :=
  .inl ⟨x, peerAt_mem held, peerAt_station held⟩

/-- A tracking keeps the station's entry, appends one, replaces the one that R128 evicts, or counts the overflow. -/
theorem track_outcome (p : Station) (s : State) :
    (∃ x, s.peerAt p = some x ∧ (s.track p).1 = s)
    ∨ (s.peerAt p = none ∧ s.roster.length < 24
      ∧ (s.track p).1 = { s with roster := s.roster ++ [createdPeer p s.clock (namesSource p s.points)] })
    ∨ (∃ v, s.peerAt p = none ∧ 24 ≤ s.roster.length ∧ Evicted s.roster v
      ∧ (s.track p).1 = State.judgePeerLost { s with
          roster := s.roster.map fun y => if y.station = v.station then createdPeer p s.clock (namesSource p s.points) else y })
    ∨ (s.peerAt p = none ∧ ¬ Trackable p s ∧ (s.track p).1 = (s.bump .rosterOverflows).report .overflow true) := by
  rcases track_cases p s with ⟨x, held, e⟩ | ⟨absent, made, e⟩ | ⟨absent, failed, e⟩ <;> rw [e]
  · exact .inl ⟨x, held, rfl⟩
  · rcases mustTrack_roster p s with ⟨room, e⟩ | ⟨-, -, e⟩ | ⟨v, full, chosen, e⟩ <;> rw [e] at made ⊢
    · exact .inr (.inl ⟨absent, room, by rw [newPeer_eq]⟩)
    · cases made
    · exact .inr (.inr (.inl ⟨v, absent, full, evictionChoice_evicted chosen, by rw [newPeer_eq]⟩))
  · refine .inr (.inr (.inr ⟨absent, ?_, rfl⟩))
    rcases mustTrack_roster p s with ⟨-, e⟩ | ⟨full, chosen, -⟩ | ⟨v, -, -, e⟩
    · rw [failed] at e; exact absurd (congrArg Prod.snd e) Bool.false_ne_true
    · rintro (⟨x, hx, same⟩ | room | ⟨x, hx, away, unkept⟩)
      · exact peerAt_eq_none.mp absent (same ▸ List.mem_map_of_mem hx)
      · exact absurd room (Nat.not_lt.mpr full)
      · exact ((evictionChoice_none _).mp chosen x hx).elim away unkept
    · rw [failed] at e; exact absurd (congrArg Prod.snd e) Bool.false_ne_true

/-- What a tracking and the marks that follow it come to, as LearnedSource says it. -/
theorem learnedSource_of {p : Station} {old : Option Station} {s t : State} (apart : old ≠ some p)
    (peers : ∀ k, t.peerAt k = ((s.track p).1.peerAt k).map fun x =>
      if k = p then { x with sourcesPoints := true }
      else if old = some k then { x with sourcesPoints := namesSource k t.points } else x)
    (counted : t.counters.rosterOverflows = (s.track p).1.counters.rosterOverflows)
    (overflow : t.faults.overflow = (s.track p).1.faults.overflow)
    (peerLost : t.faults.peerLost = t.roster.any fun x => x.state == .lost && x.sourcesPoints) : LearnedSource p old s t := by
  have at_p : t.peerAt p = ((s.track p).1.peerAt p).map fun x => { x with sourcesPoints := true } := by simpa using peers p
  have others : ∀ k, k ≠ p → old ≠ some k → t.peerAt k = (s.track p).1.peerAt k := fun k away unmarked => by
    rw [peers k]; simp [away, unmarked]
  have oldMark : ∀ k x y, old = some k → ((s.track p).1.peerAt k = some x ∨ (s.track p).1.peerAt k = none) → t.peerAt k = some y →
      y = { x with sourcesPoints := namesSource k t.points } := fun k x y marked held found => by
    have away : k ≠ p := fun e => apart (e ▸ marked)
    rw [peers k] at found
    rcases held with held | held <;> rw [held] at found
    · simpa [away, marked, eq_comm] using found
    · cases found
  rcases track_outcome p s with ⟨x, held, e⟩ | ⟨absent, room, e⟩ | ⟨v, absent, full, evicted, e⟩ | ⟨absent, untrackable, e⟩ <;>
    rw [e] at at_p others oldMark counted overflow
  · have trackable := trackable_of_held held
    exact
      { known := fun y hy => by rw [at_p, hy]; rfl
        created := fun none => by rw [none] at held; cases held
        tracked := fun _ => ⟨counted, overflow⟩
        untracked := fun h => absurd trackable h
        oldMark := fun k x y marked at_k => oldMark k x y marked (.inl at_k)
        others := fun _ => others
        evicted := fun none => by rw [none] at held; cases held
        peerLost := peerLost }
  · have entry := peerAt_append (s := s) (p := p) (x := createdPeer p s.clock (namesSource p s.points)) rfl absent
    have kept : ∀ k, k ≠ p → State.peerAt k { s with roster := s.roster ++ [createdPeer p s.clock (namesSource p s.points)] } = s.peerAt k :=
      fun k away => (entry k).trans (if_neg away)
    exact
      { known := fun y hy => by rw [absent] at hy; cases hy
        created := fun _ _ => by rw [at_p, entry p]; rw [if_pos rfl]; rfl
        tracked := fun _ => ⟨counted, overflow⟩
        untracked := fun h => absurd (.inr (.inl room)) h
        oldMark := fun k x y marked at_k => oldMark k x y marked (.inl ((kept k fun e => apart (e ▸ marked)).trans at_k))
        others := fun _ k away unmarked => (others k away unmarked).trans (kept k away)
        evicted := fun _ full => absurd room (Nat.not_lt.mpr full)
        peerLost := peerLost }
  · have entry : ∀ k, _ := fun k => (peerAt_congr (judgePeerLost_status _).roster k).trans
      (peerAt_replace (p := p) (x := createdPeer p s.clock (namesSource p s.points)) rfl evicted.held absent k)
    have trackable : Trackable p s := .inr (.inr ⟨v, evicted.held, evicted.left, evicted.unmarked⟩)
    have unequal : v.station ≠ p := fun e => peerAt_eq_none.mp absent (e ▸ List.mem_map_of_mem evicted.held)
    have reported := judgePeerLost_status { s with
      roster := s.roster.map fun y => if y.station = v.station then createdPeer p s.clock (namesSource p s.points) else y }
    exact
      { known := fun y hy => by rw [absent] at hy; cases hy
        created := fun _ _ => by rw [at_p, entry p]; rw [if_pos rfl]; rfl
        tracked := fun _ => ⟨counted.trans (congrArg Counters.rosterOverflows reported.counters),
          by rw [overflow, judgePeerLost_faults]; rfl⟩
        untracked := fun h => absurd trackable h
        oldMark := fun k x y marked at_k => oldMark k x y marked (by
          have away : k ≠ p := fun e => apart (e ▸ marked)
          rw [entry k]
          by_cases gone : k = v.station
          · exact .inr (by rw [if_neg away, if_pos gone])
          · exact .inl (by rw [if_neg away, if_neg gone]; exact at_k))
        others := fun h => by
          rcases h with h | room | h
          · exact absurd absent h
          · exact absurd room (Nat.not_lt.mpr full)
          · exact absurd trackable h
        evicted := fun _ _ _ => ⟨v, evicted, by
            rw [peers, e, entry]
            rw [if_neg unequal, if_pos rfl]
            rfl,
          fun k away kept unmarked => by rw [others k away unmarked, entry k]; rw [if_neg away, if_neg kept]⟩
        peerLost := peerLost }
  · have reported := report_status .overflow true (s.bump .rosterOverflows)
    have kept : ∀ k, State.peerAt k ((s.bump .rosterOverflows).report .overflow true) = s.peerAt k := peerAt_congr reported.roster
    exact
      { known := fun y hy => by rw [absent] at hy; cases hy
        created := fun _ h => absurd h untrackable
        tracked := fun h => absurd h untrackable
        untracked := fun _ => ⟨by rw [at_p, kept, absent]; rfl,
          counted.trans (congrArg Counters.rosterOverflows reported.counters),
          overflow.trans (congrArg FaultSummary.overflow (report_faults .overflow true _))⟩
        oldMark := fun k x y marked at_k => oldMark k x y marked (.inl ((kept k).trans at_k))
        others := fun _ k away unmarked => (others k away unmarked).trans (kept k)
        evicted := fun _ _ h => absurd h untrackable
        peerLost := peerLost }

end Sys2Proof.Machine
end

