-- ==== Sys2Proof/Proofs/Records.lean ====
section
/-!
THEOREM. The acceptance of a record (O35) and the switch of a source (O36).
-/

namespace Sys2Proof.Machine

open Sys2Proof.Safety

/-! ## What asking the roster brings -/

/-- Of the counters those of conflicts and overflows change at most, of the summary PEER-LOST and OVERFLOW, and no override list does. -/
structure RosterWork (s t : State) : Prop where
  counters : t.counters = { s.counters with conflicts := t.counters.conflicts, rosterOverflows := t.counters.rosterOverflows }
  faults : t.faults = { s.faults with peerLost := t.faults.peerLost, overflow := t.faults.overflow }
  lists : outputLists t = outputLists s

theorem RosterWork.refl (s : State) : RosterWork s s := ⟨rfl, rfl, rfl⟩

theorem RosterWork.trans {s t u : State} (h : RosterWork s t) (k : RosterWork t u) : RosterWork s u where
  counters := by rw [k.counters, h.counters]
  faults := by rw [k.faults, h.faults]
  lists := k.lists.trans h.lists

theorem report_rosterWork {c : Condition} (h : c = .peerLost ∨ c = .overflow) (b : Bool) (s : State) : RosterWork s (s.report c b) where
  counters := by rw [(report_status c b s).counters]
  faults := by
    rw [report_faults]
    rcases h with rfl | rfl <;> rfl
  lists := outputLists_report c b s

theorem track_rosterWork (p : Station) (s : State) : RosterWork s (s.track p).1 := by
  rcases track_outcome p s with ⟨x, -, e⟩ | ⟨-, -, e⟩ | ⟨v, -, -, -, e⟩ | ⟨-, -, e⟩ <;> rw [e]
  · exact .refl s
  · exact ⟨rfl, rfl, rfl⟩
  · exact RosterWork.trans (t := { s with
      roster := s.roster.map fun y => if y.station = v.station then createdPeer p s.clock (namesSource p s.points) else y }) ⟨rfl, rfl, rfl⟩
      (report_rosterWork (.inl rfl) _ _)
  · exact RosterWork.trans (t := s.bump .rosterOverflows) ⟨rfl, rfl, rfl⟩ (report_rosterWork (.inr rfl) _ _)

theorem keepSourcesMark_rosterWork (p : Station) (s : State) : RosterWork s (s.keepSourcesMark p) :=
  RosterWork.trans (t := s.updatePeer p fun x => { x with sourcesPoints := namesSource p s.points }) ⟨rfl, rfl, rfl⟩
    (report_rosterWork (.inl rfl) _ _)

theorem keepSourcesMark_counters (p : Station) (s : State) : (s.keepSourcesMark p).counters = s.counters :=
  (judgePeerLost_status _).counters

theorem keepSourcesMark_overflow (p : Station) (s : State) : (s.keepSourcesMark p).faults.overflow = s.faults.overflow := by
  rw [State.keepSourcesMark, judgePeerLost_faults]
  rfl

/-- PEER-LOST is judged on the roster as it stands after the mark (R133). -/
theorem keepSourcesMark_peerLost (p : Station) (s : State) :
    (s.keepSourcesMark p).faults.peerLost = (s.keepSourcesMark p).roster.any Peer.holdsPeerLost := by
  rw [State.keepSourcesMark, judgePeerLost_faults, (judgePeerLost_status _).roster]
  rfl

theorem peerAt_keepSourcesMark (p k : Station) (s : State) : (s.keepSourcesMark p).peerAt k
    = (s.peerAt k).map fun x => if k = p then { x with sourcesPoints := namesSource p s.points } else x :=
  (peerAt_congr (judgePeerLost_status _).roster k).trans
    (peerAt_updatePeer p k (fun x => { x with sourcesPoints := namesSource p s.points }) s fun _ => rfl)

theorem track_conflicts (p : Station) (s : State) : (s.track p).1.counters.conflicts = s.counters.conflicts := by
  rcases track_outcome p s with ⟨x, -, e⟩ | ⟨-, -, e⟩ | ⟨v, -, -, -, e⟩ | ⟨-, -, e⟩ <;> rw [e]
  · rw [(judgePeerLost_status _).counters]
  · rw [(report_status _ _ _).counters]; rfl

/-! ## Before the acceptance -/

/-- The state in which a record is accepted: that before it, the learned source of its point set, and the roster asked (R97, R98, R99). -/
structure Prepared (n : Nat) (p : Station) (m : Mirrored) (s u : State) : Prop where
  tables : OnlyTables s u
  mirror : ∃ f : Mirrored → Mirrored, f m = { m with source := some p }
    ∧ mirroredHalf u.points = mirroredHalf (s.updateMirrored n f).points
  solicits : u.solicits = s.solicits
  work : RosterWork s u
  reaches : Reaches (fun o => o.binding.source = n) s u

theorem prepared_known {n : Nat} {p : Station} {m : Mirrored} (known : m.source = some p) (s : State) : Prepared n p m s s where
  tables := .refl s
  mirror := ⟨fun m => m, by rw [← known], by rw [updateMirrored_id]⟩
  solicits := rfl
  work := .refl s
  reaches := .refl _ s

theorem prepared_learn (n : Nat) (p : Station) (m : Mirrored) (s : State) : Prepared n p m s (s.learn n p) where
  tables := learn_tables n p s
  mirror := ⟨_, rfl, (learn_sameMirroring n p s).half⟩
  solicits := (learn_sameMirroring n p s).solicits
  work := RosterWork.trans (t := s.updateMirrored n fun m => { m with source := some p }) ⟨rfl, rfl, rfl⟩
    ((track_rosterWork p _).trans (keepSourcesMark_rosterWork p _))
  reaches := learn_reaches _ n p s

theorem Prepared.keepSourcesMark {n : Nat} {p : Station} {m : Mirrored} {s u : State} (h : Prepared n p m s u) (k : Station) :
    Prepared n p m s (u.keepSourcesMark k) where
  tables := h.tables.trans (keepSourcesMark_tables k u)
  mirror := by
    obtain ⟨f, learned, half⟩ := h.mirror
    exact ⟨f, learned, (keepSourcesMark_sameMirroring k u).half.trans half⟩
  solicits := (keepSourcesMark_sameMirroring k u).solicits.trans h.solicits
  work := h.work.trans (keepSourcesMark_rosterWork k u)
  reaches := h.reaches.trans (keepSourcesMark_reaches _ k u)

/-- A conflict counted before. -/
theorem Prepared.counted {n : Nat} {p : Station} {m : Mirrored} {s u : State} (h : Prepared n p m (s.bump .conflicts) u) :
    Prepared n p m s u where
  tables := OnlyTables.trans (t := s.bump .conflicts) rfl h.tables
  mirror := h.mirror
  solicits := h.solicits
  work := RosterWork.trans (t := s.bump .conflicts) ⟨rfl, rfl, rfl⟩ h.work
  reaches := Reaches.trans (t := s.bump .conflicts) (.of_same rfl rfl rfl rfl) h.reaches

/-! ## The acceptance -/

theorem store_eq (k : Kind) (v : Byte) : k.store v = if k = .binary ∧ v ≠ 0 then 1 else v := by
  cases k
  · by_cases zero : v = 0
    · simp [Kind.store, zero]
    · rw [if_pos ⟨rfl, zero⟩]; exact if_neg zero
  · simp [Kind.store]

/-- A satisfied entry reaches the solicit list only. -/
theorem satisfy_only (n : Nat) (s : State) : s.satisfy n = { s with solicits := (s.satisfy n).solicits } := by
  unfold State.satisfy State.fillSolicits
  split
  · split <;> rfl
  · rfl

/-- A missed change is counted, or nothing changes (R19). -/
theorem countMissed_eq (stored : Option Count) (carried : Count) (s : State) : s.countMissed stored carried = { s with
    counters := { s.counters with missedChanges :=
      match stored with
      | some c => if 2 ≤ (carried - c).toNat then saturatingStep s.counters.missedChanges else s.counters.missedChanges
      | none => s.counters.missedChanges } } := by
  unfold State.countMissed countDistance
  cases stored with
  | none => rfl
  | some c => dsimp only; split <;> rfl

theorem satisfy_solicits (n : Nat) (s : State) : (s.satisfy n).solicits =
    if ∃ x ∈ s.solicits, x.point = n then
      let others := s.solicits.filter fun x => decide (x.point ≠ n)
      if s.station = .running then s.points.foldl addSolicit others else others
    else s.solicits := by
  have listed : hasSolicit n s.solicits = true ↔ ∃ x ∈ s.solicits, x.point = n := by simp [hasSolicit_iff]
  have removed : (s.removeSolicit n).solicits = s.solicits.filter fun x => decide (x.point ≠ n) :=
    List.filter_congr fun x _ => by by_cases e : x.point = n <;> simp [e]
  unfold State.satisfy
  by_cases h : ∃ x ∈ s.solicits, x.point = n
  · rw [if_pos (listed.mpr h), if_pos h, ← removed]
    unfold State.fillSolicits
    split
    · next running => rw [if_pos (show s.station = .running from running)]; rfl
    · next other => rw [if_neg (show ¬ s.station = .running from other)]
  · rw [if_neg (mt listed.mp h), if_neg h]

/-- A fill makes no entry for a point that may not have one. -/
theorem foldl_addSolicit_point {n : Nat} {points : List Point} (settled : ∀ q ∈ points, q.number = n → q.solicitable = false)
    (l : List Solicit) (without : ∀ x ∈ l, x.point ≠ n) : ∀ x ∈ points.foldl addSolicit l, x.point ≠ n := by
  induction points generalizing l with
  | nil => exact without
  | cons q points ih =>
    refine ih (fun q hq => settled q (List.mem_cons_of_mem _ hq)) _ fun x hx => ?_
    rcases addSolicit_cases l q with ⟨e, -⟩ | ⟨e, asks, -⟩ <;> rw [e] at hx
    · exact without x hx
    · rcases List.mem_append.mp hx with hx | hx
      · exact without x hx
      · rw [List.mem_singleton.mp hx]
        intro same
        rw [settled q List.mem_cons_self same] at asks
        cases asks

/-- No fill makes an entry for a point whose entry is FRESH. -/
theorem satisfy_satisfied {n : Nat} {s : State} (settled : ∀ q ∈ s.points, q.number = n → q.solicitable = false) :
    ∀ x ∈ (s.satisfy n).solicits, x.point ≠ n := by
  rw [satisfy_solicits]
  split
  · have others : ∀ x ∈ s.solicits.filter fun x => decide (x.point ≠ n), x.point ≠ n := fun x hx => by
      simpa using (List.mem_filter.mp hx).2
    dsimp only
    split
    · exact foldl_addSolicit_point settled _ others
    · exact others
  · next none => exact fun x hx same => none ⟨x, hx, same⟩

/-- A record accepted in a prepared state, as TookRecord says it. -/
theorem Prepared.took {n : Nat} {p : Station} {r : Record} {q : Point} {m : Mirrored} {s u : State} (h : Prepared n p m s u)
    (found : findPoint n s.points = some q) (entry : q.mirrored? = some m) :
    TookRecord n p r q m s (u.acceptRecord n q.kind m r) := by
  obtain ⟨f, learned, half⟩ := h.mirror
  have clock : u.clock = s.clock := h.tables.clock
  have station : u.station = s.station := h.tables.station
  let v := (u.countMissed m.count r.count).updateMirrored n (Mirrored.accept q.kind u.clock r)
  let w := v.judgeSource
  have taken : u.acceptRecord n q.kind m r = (w.satisfy n).evaluateSource n := rfl
  have missed := OwnSteps.sameMirroring (countMissed_own m.count r.count u)
  have mirrorV : mirroredHalf v.points = mirroredHalf (s.updateMirrored n fun m => (f m).accept q.kind u.clock r).points :=
    acceptRecord_half half
  have sameV : SameMirroring v w := OwnSteps.sameMirroring (judgeSource_own v)
  have mirror := acceptRecord_mirror (k := q.kind) (m := m) (r := r) half
  have at_k := fun k => (mirroredAt_congr mirror k).trans (mirroredAt_updateMirrored n k _ s)
  have at_n : s.mirroredAt n = some m := by simp [State.mirroredAt, found, entry]
  have points : (u.acceptRecord n q.kind m r).points = w.points := by
    rw [taken, evaluateSource_eq]
    exact satisfy_points n w
  have solicits : (u.acceptRecord n q.kind m r).solicits = (w.satisfy n).solicits := by rw [taken, evaluateSource_eq]
  have faults : (u.acceptRecord n q.kind m r).faults = u.faults.put .source (v.points.any Point.holdsSource) := by
    have kept : (w.satisfy n).faults = w.faults := by rw [satisfy_only]
    have before : v.faults = u.faults := by
      change (u.countMissed m.count r.count).faults = u.faults
      rw [countMissed_eq]
    rw [taken, evaluateSource_eq]
    exact kept.trans ((judgeSource_faults v).trans (by rw [before]))
  have counters : (u.acceptRecord n q.kind m r).counters = (u.countMissed m.count r.count).counters := by
    have kept : (w.satisfy n).counters = w.counters := by rw [satisfy_only]
    rw [taken, evaluateSource_eq]
    exact kept.trans (judgeSource_status v).counters
  have settled : ∀ q' ∈ w.points, q'.number = n → q'.solicitable = false := fun q' hq' number => by
    obtain ⟨q'', hq'', number'', -, same⟩ := mem_of_mirroredHalf (sameV.half.trans mirrorV) hq'
    rw [updateMirrored_points] at hq''
    obtain ⟨q₀, -, rfl⟩ := List.mem_map.mp hq''
    rw [Point.mapMirrored_number] at number''
    rw [Bool.eq_false_iff, ne_eq, solicitable_iff, ← same, Point.mirrored?_mapMirrored]
    rintro ⟨m', hm', asks⟩
    obtain ⟨m₀, -, rfl⟩ := Option.map_eq_some_iff.mp hm'
    simp only [atNumber, number''.trans number, if_true] at asks
    cases asks.1
  exact
    { entry := by
        rw [at_k, at_n, Option.map_some, if_pos rfl, learned, clock]
        simp only [Mirrored.accept, store_eq]
        rfl
      otherEntries := fun k other => by rw [at_k]; simp [other]
      ownedEntries := fun distinct => ((h.reaches.trans (acceptRecord_reaches n q.kind m r u)).reach distinct).ownedStay
      missed := by
        have : s.counters.missedChanges = u.counters.missedChanges := by rw [h.work.counters]
        rw [counters, countMissed_eq, this] <;> rfl
      counters := by
        have := h.work.counters
        rw [counters, countMissed_eq, this]
      satisfied := solicits ▸ satisfy_satisfied settled
      solicits := by
        have stationW : w.station = s.station := sameV.station.trans (missed.station.trans station)
        have solicitsW : w.solicits = s.solicits := sameV.solicits.trans (missed.solicits.trans h.solicits)
        rw [solicits, satisfy_solicits, points, stationW, solicitsW]
      faults := by
        have same : v.points.any Point.holdsSource = (u.acceptRecord n q.kind m r).points.any Point.holdsSource :=
          (holdsSource_congr (mirror.trans mirrorV.symm)).symm
        rw [faults, same, h.work.faults]
        rfl
      outputs := fun running => by
        rw [taken]
        refine evaluateSource_shows ?_
        exact (satisfy_tables n w).station.trans (sameV.station.trans (missed.station.trans (station.trans running)))
      otherOutputs := fun distinct => ((h.reaches.trans (acceptRecord_reaches n q.kind m r u)).reach distinct).outputs
      lists := by
        have kept : outputLists (w.satisfy n) = outputLists w := by rw [satisfy_only]; rfl
        have before : outputLists v = outputLists u := by
          change outputLists (u.countMissed m.count r.count) = outputLists u
          rw [countMissed_eq]
          rfl
        rw [taken, outputLists_evaluateSource, kept]
        exact (outputLists_report _ _ v).trans (before.trans h.work.lists)
      frame := h.tables.trans (acceptRecord_tables n q.kind m r u) }

/-! ## The learned source -/

theorem namesSource_of_entry {s : State} {n : Nat} {m : Mirrored} {p : Station} (entry : s.mirroredAt n = some m)
    (source : m.source = some p) : namesSource p s.points = true := by
  obtain ⟨q, -, hq, -, hm⟩ := mirroredAt_entry entry
  exact List.any_eq_true.mpr ⟨q, hq, by simp [hm, source]⟩

/-- A change of the entry of one number that keeps its learned source. -/
theorem namesSource_updateMirrored (k : Station) (n : Nat) {f : Mirrored → Mirrored} (source : ∀ m, (f m).source = m.source) (s : State) :
    namesSource k (s.updateMirrored n f).points = namesSource k s.points := by
  rw [updateMirrored_points, namesSource, namesSource, mapMirroredBy, List.any_map]
  congr 1
  funext q
  by_cases e : q.number = n
  · cases hm : q.mirrored? <;> simp [atNumber, e, hm, source]
  · simp [atNumber, e, Point.mapMirrored_id]

/-- What an acceptance leaves of the roster, the summary and the counters. -/
theorem acceptRecord_rest (n : Nat) (k : Kind) (m : Mirrored) (r : Record) (s : State) :
    (s.acceptRecord n k m r).roster = s.roster
    ∧ (s.acceptRecord n k m r).counters.rosterOverflows = s.counters.rosterOverflows
    ∧ (s.acceptRecord n k m r).counters.conflicts = s.counters.conflicts
    ∧ (s.acceptRecord n k m r).faults.overflow = s.faults.overflow
    ∧ (s.acceptRecord n k m r).faults.peerLost = s.faults.peerLost
    ∧ ∀ p, namesSource p (s.acceptRecord n k m r).points = namesSource p s.points := by
  let v := (s.countMissed m.count r.count).updateMirrored n (Mirrored.accept k s.clock r)
  have taken : s.acceptRecord n k m r = (v.judgeSource.satisfy n).evaluateSource n := rfl
  have counters : (s.acceptRecord n k m r).counters = (s.countMissed m.count r.count).counters := by
    rw [taken, evaluateSource_eq, satisfy_only]
    exact (judgeSource_status v).counters
  have faults : (s.acceptRecord n k m r).faults = (s.countMissed m.count r.count).faults.put .source (v.points.any Point.holdsSource) := by
    rw [taken, evaluateSource_eq, satisfy_only]
    exact judgeSource_faults v
  have half : mirroredHalf s.points = mirroredHalf (s.updateMirrored n fun m => m).points := by rw [updateMirrored_id]
  refine ⟨acceptRecord_roster n k m r s, ?_, ?_, ?_, ?_, fun p => ?_⟩
  · rw [counters, countMissed_eq]
  · rw [counters, countMissed_eq]
  · rw [faults, countMissed_eq]; rfl
  · rw [faults, countMissed_eq]; rfl
  · rw [namesSource_congr p (acceptRecord_mirror (k := k) (m := m) (r := r) half)]
    exact namesSource_updateMirrored p n (f := Mirrored.accept k s.clock r) (fun _ => rfl) s

/-- The learned source of a point is set, in place of another one if there is one (R97, R98). -/
def State.learnFor (old : Option Station) (n : Nat) (p : Station) (s : State) : State :=
  match old with
  | none => s.learn n p
  | some src => s.switchSource n p src

theorem prepared_learnFor (old : Option Station) (n : Nat) (p : Station) (m : Mirrored) (s : State) :
    Prepared n p m s (s.learnFor old n p) := by
  cases old with
  | none => exact prepared_learn n p m s
  | some src => exact (prepared_learn n p m s).keepSourcesMark src

/-- The roster entries after a learned source has been set: those after the tracking, with both marks kept (R99). -/
theorem peerAt_learnFor {old : Option Station} {n : Nat} {p : Station} {s w : State}
    (tracked : w = ((s.updateMirrored n fun m => { m with source := some p }).track p).1) (apart : old ≠ some p)
    (named : namesSource p w.points = true) (k : Station) : (s.learnFor old n p).peerAt k = (w.peerAt k).map fun x =>
      if k = p then { x with sourcesPoints := true }
      else if old = some k then { x with sourcesPoints := namesSource k (s.learnFor old n p).points } else x := by
  have learned : s.learn n p = w.keepSourcesMark p := by rw [tracked]; rfl
  cases old with
  | none =>
    rw [State.learnFor, learned, peerAt_keepSourcesMark, named]
    simp
  | some src =>
    have other : ¬ p = src := fun e => apart (congrArg some e.symm)
    have switched : s.learnFor (some src) n p = (w.keepSourcesMark p).keepSourcesMark src := by rw [← learned]; rfl
    have kept := namesSource_congr src (keepSourcesMark_sameMirroring src (w.keepSourcesMark p)).half
    rw [switched, peerAt_keepSourcesMark, peerAt_keepSourcesMark, named, ← kept, Option.map_map]
    refine congrArg (fun f => (w.peerAt k).map f) (funext fun x => ?_)
    by_cases same : k = p
    · simp [same, other]
    · by_cases switch : k = src
      · simp [switch, Ne.symm other]
      · simp [same, switch, Ne.symm switch]

/-- A record accepted after its point has learned a source, as LearnedSource says it (R97, R98, R99). -/
theorem learnedSource_accept {n : Nat} {p : Station} {q : Point} {m : Mirrored} {old : Option Station} {s : State} (k : Kind) (r : Record)
    (found : findPoint n s.points = some q) (entry : q.mirrored? = some m) (apart : old ≠ some p) :
    LearnedSource p old s ((s.learnFor old n p).acceptRecord n k m r) := by
  let s' := s.updateMirrored n fun m => { m with source := some p }
  obtain ⟨w, tracked⟩ : ∃ w, w = (s'.track p).1 := ⟨_, rfl⟩
  have at_n : s'.mirroredAt n = some { m with source := some p } := by
    have : s.mirroredAt n = some m := by simp [State.mirroredAt, found, entry]
    rw [mirroredAt_updateMirrored, this]; simp
  have named : namesSource p w.points = true := by
    rw [tracked, namesSource_congr p (track_sameMirroring p s').half]
    exact namesSource_of_entry at_n rfl
  have learned : s.learn n p = w.keepSourcesMark p := by rw [tracked]; rfl
  obtain ⟨roster, overflows, -, overflow, peerLost, names⟩ := acceptRecord_rest n k m r (s.learnFor old n p)
  have result : LearnedSource p old s' ((s.learnFor old n p).acceptRecord n k m r) := by
    refine learnedSource_of apart (fun k => ?_) ?_ ?_ ?_
    · rw [← tracked, peerAt_congr roster, names]
      exact peerAt_learnFor tracked apart named k
    · rw [overflows, ← tracked]
      cases old <;> simp [State.learnFor, State.switchSource, learned, keepSourcesMark_counters]
    · rw [overflow, ← tracked]
      cases old <;> simp [State.learnFor, State.switchSource, learned, keepSourcesMark_overflow]
    · rw [peerLost, roster]
      cases old <;> exact keepSourcesMark_peerLost _ _
  exact ⟨result.known, result.created, result.tracked, result.untracked, result.oldMark, result.others, result.evicted, result.peerLost⟩

theorem learnFor_conflicts (old : Option Station) (n : Nat) (p : Station) (s : State) :
    (s.learnFor old n p).counters.conflicts = s.counters.conflicts := by
  have learned : (s.learn n p).counters.conflicts = s.counters.conflicts := by
    rw [State.learn, keepSourcesMark_counters, track_conflicts]
    rfl
  cases old with
  | none => exact learned
  | some src => rw [State.learnFor, State.switchSource, keepSourcesMark_counters, learned]

/-! ## The two statements -/

/-- A record of the right kind for a mirrored point. -/
theorem takeRecord_mirrored {p : Station} {s : State} {r : Record} {q : Point} {m : Mirrored}
    (found : findPoint r.point.toNat s.points = some q) (role : q.role = .mirrored m) (kind : r.kind = q.kind) :
    s.takeRecord p r = s.mirroredRecord p r.point.toNat q.kind m r := by
  simp [State.takeRecord, found, role, kind]

/-- A record that is accepted with a new learned source. -/
theorem tookRecord_learned {n : Nat} {p : Station} {q : Point} {m : Mirrored} {old : Option Station} {s : State} (r : Record)
    (found : findPoint n s.points = some q) (entry : q.mirrored? = some m) (apart : old ≠ some p) :
    TookRecord n p r q m s ((s.learnFor old n p).acceptRecord n q.kind m r)
    ∧ LearnedSource p old s ((s.learnFor old n p).acceptRecord n q.kind m r)
    ∧ ((s.learnFor old n p).acceptRecord n q.kind m r).counters.conflicts = s.counters.conflicts := by
  obtain ⟨-, -, conflicts, -⟩ := acceptRecord_rest n q.kind m r (s.learnFor old n p)
  exact ⟨(prepared_learnFor old n p m s).took found entry, learnedSource_accept q.kind r found entry apart,
    conflicts.trans (learnFor_conflicts old n p s)⟩

/-- Settles O35: from the learned source the record is accepted as the state stands, else after the sender has been learned. -/
theorem recordAccepted : Obligations.RecordAccepted := by
  intro s p r q m n t found role kind source
  have entry : q.mirrored? = some m := mirrored?_eq_some.mpr role
  have taken : t = s.mirroredRecord p n q.kind m r := takeRecord_mirrored found role kind
  clear_value t
  subst taken
  rcases source with absent | known
  · have accepted : s.mirroredRecord p n q.kind m r = (s.learnFor none n p).acceptRecord n q.kind m r := by
      rw [State.mirroredRecord, absent]; rfl
    obtain ⟨took, learned, conflicts⟩ := tookRecord_learned (old := none) r found entry (by simp)
    rw [accepted]
    exact ⟨took, conflicts, fun _ => learned, fun known => by rw [absent] at known; cases known⟩
  · have accepted : s.mirroredRecord p n q.kind m r = s.acceptRecord n q.kind m r := by rw [State.mirroredRecord, known]; simp
    obtain ⟨roster, overflows, conflicts, overflow, peerLost, -⟩ := acceptRecord_rest n q.kind m r s
    rw [accepted]
    exact ⟨(prepared_known known s).took found entry, conflicts, fun absent => (by rw [absent] at known; cases known),
      fun _ => ⟨roster, overflows, overflow, peerLost⟩⟩

/-- A record from another station than the learned source, by the ruling of R98. -/
theorem mirroredRecord_switch {p old : Station} {n : Nat} {k : Kind} {m : Mirrored} {r : Record} {s : State} (source : m.source = some old)
    (other : old ≠ p) : s.mirroredRecord p n k m r =
      match switchRuling ((s.peerAt old).map Peer.state) (decide (p < old)) with
      | .switchCounted => ((s.bump .conflicts).learnFor (some old) n p).acceptRecord n k m r
      | .switchUncounted => (s.learnFor (some old) n p).acceptRecord n k m r
      | .refused => s.bump .conflicts := by
  rw [State.mirroredRecord, source]
  simp only [other, if_false]
  rfl

theorem switchRuling_live {st : PeerState} (live : st ≠ .lost) (lower : Bool) :
    switchRuling (some st) lower = if lower then .switchCounted else .refused := by
  cases st <;> cases lower <;> first | rfl | exact absurd rfl live

/-- Settles O36: the ruling of R98 by the roster state of the learned source and the order of the two numbers, then the switch. -/
theorem sourceSwitch : Obligations.SourceSwitch := by
  intro s sender src r q m n t live lost counted switched found role kind source other
  have entry : q.mirrored? = some m := mirrored?_eq_some.mpr role
  have apart : (some src : Option Station) ≠ some sender := fun e => other (Option.some.inj e)
  have taken := (takeRecord_mirrored (p := sender) found role kind).trans (mirroredRecord_switch source other)
  have lower : sender < src → decide (sender < src) = true := decide_eq_true
  have higher : src < sender → decide (sender < src) = false := fun h => decide_eq_false (by bv_omega)
  have switchedCounted : switchRuling ((s.peerAt src).map Peer.state) (decide (sender < src)) = .switchCounted →
      switched ∧ t.counters.conflicts = counted := fun ruling => by
    rw [ruling] at taken
    obtain ⟨-, learned, conflicts⟩ := tookRecord_learned (s := s.bump .conflicts) r found entry apart
    have accepted : t = ((s.bump .conflicts).learnFor (some src) n sender).acceptRecord n q.kind m r := taken
    simp only [switched, accepted]
    exact ⟨⟨(prepared_learnFor (some src) n sender m (s.bump .conflicts)).counted.took found entry,
      ⟨learned.known, learned.created, learned.tracked, learned.untracked, learned.oldMark, learned.others, learned.evicted,
        learned.peerLost⟩⟩, conflicts⟩
  have switchedUncounted : switchRuling ((s.peerAt src).map Peer.state) (decide (sender < src)) = .switchUncounted →
      switched ∧ t.counters.conflicts = s.counters.conflicts := fun ruling => by
    rw [ruling] at taken
    obtain ⟨took, learned, conflicts⟩ := tookRecord_learned r found entry apart
    have accepted : t = (s.learnFor (some src) n sender).acceptRecord n q.kind m r := taken
    simp only [switched, accepted]
    exact ⟨⟨took, learned⟩, conflicts⟩
  refine ⟨fun ⟨x, held, sounds⟩ less => ?_, fun ⟨x, held, sounds⟩ more => ?_, fun ⟨x, held, isLost⟩ => ?_, fun absent less => ?_,
    fun absent more => ?_⟩
  · exact switchedCounted (by rw [held, Option.map_some, switchRuling_live sounds, lower less]; rfl)
  · rw [held, Option.map_some, switchRuling_live sounds, higher more] at taken
    exact taken
  · exact switchedUncounted (by rw [held, Option.map_some, isLost]; rfl)
  · exact switchedCounted (by rw [absent, lower less]; rfl)
  · exact switchedUncounted (by rw [absent, higher more]; rfl)

end Sys2Proof.Machine
end

