-- ==== Sys2Proof/Proofs/SourceRestart.lean ====
section
/-!
SUPPORT. A detected restart of a source (R103, R131, R151): what it comes to for one point, for the points of the source in Point Table order,
and for the override lists.
-/

namespace Sys2Proof.Machine

open Sys2Proof.Safety

/-! ## One point of the source -/

/-- The point is a mirrored one that is not UNKNOWN. -/
def State.knows (s : State) (n : Nat) : Bool :=
  match s.mirroredAt n with
  | some m => m.state != .unknown
  | none => false

/-- The list with an entry for the point of a number, if there is one that may have it (R109, R110). -/
def State.offer (s : State) (l : List Solicit) (n : Nat) : List Solicit :=
  match findPoint n s.points with
  | some q => addSolicit l q
  | none => l

theorem knows_congr {s t : State} {n : Nat} (h : t.mirroredAt n = s.mirroredAt n) : t.knows n = s.knows n := by
  rw [State.knows, State.knows, h]

theorem addSolicit_congr {p q : Point} (number : p.number = q.number) (mirrored : p.mirrored? = q.mirrored?) (l : List Solicit) :
    addSolicit l p = addSolicit l q := by
  have asks : p.solicitable = q.solicitable := by rw [Point.solicitable, Point.solicitable, mirrored]
  rw [addSolicit, addSolicit, asks, number]

/-- What is offered depends on the MIRRORED fields of the number only. -/
theorem offer_congr {s t : State} {n : Nat} (h : t.mirroredAt n = s.mirroredAt n) (l : List Solicit) : t.offer l n = s.offer l n := by
  have none : ∀ q : Point, q.mirrored? = none → addSolicit l q = l := fun q hq => by simp [addSolicit, Point.solicitable, hq]
  unfold State.mirroredAt at h
  unfold State.offer
  cases ht : findPoint n t.points with
  | none =>
    cases hs : findPoint n s.points with
    | none => rfl
    | some q => rw [ht, hs] at h; exact (none q h.symm).symm
  | some p =>
    cases hs : findPoint n s.points with
    | none => rw [ht, hs] at h; exact none p h
    | some q =>
      rw [ht, hs] at h
      exact addSolicit_congr ((findPoint_number ht).trans (findPoint_number hs).symm) h l

theorem solicitPoint_eq (n : Nat) (s : State) :
    s.solicitPoint n = { s with solicits := if s.station = .running then s.offer s.solicits n else s.solicits } := by
  unfold State.solicitPoint State.offer
  split
  · cases findPoint n s.points <;> rfl
  · rfl

/-- What one point of a restarted source comes to, its own entry apart. -/
structure PointRestarted (n : Nat) (s t : State) : Prop where
  only : t = { s with
    points := t.points, urgent := t.urgent, routine := t.routine, outputs := t.outputs, faults := t.faults, solicits := t.solicits }
  solicits : t.solicits = if s.station = .running ∧ s.knows n then t.offer s.solicits n else s.solicits
  faults : t.faults = if s.knows n then s.faults.put .source (t.points.any Point.holdsSource) else s.faults
  lists : outputLists t = outputLists s
  reaches : Reaches (fun o => o.binding.source = n) s t

theorem knows_of_entry {s : State} {n : Nat} {m : Mirrored} (entry : s.mirroredAt n = some m) : s.knows n = (m.state != .unknown) := by
  simp [State.knows, entry]

theorem sourceRestarted_restarted (n : Nat) (s : State) : PointRestarted n s (s.sourceRestarted n) := by
  cases entry : s.mirroredAt n with
  | none =>
    have same : s.sourceRestarted n = s := by simp [State.sourceRestarted, entry]
    have unknown : s.knows n = false := by simp [State.knows, entry]
    rw [same]
    exact ⟨rfl, by simp [unknown], by simp [unknown], rfl, .refl _ s⟩
  | some m =>
    have knows := knows_of_entry entry
    rcases sourceRestarted_cases entry with ⟨unknown, e⟩ | ⟨known, t, ht, e⟩ <;> rw [e]
    · have unknown : s.knows n = false := by rw [knows, unknown]; rfl
      exact ⟨rfl, by simp [unknown], by simp [unknown], rfl, updateMirrored_reaches _ n _ s⟩
    · have known : s.knows n = true := by rw [knows]; simpa using known
      let v := s.updateMirrored n fun m => m.goUnknown.startOverdue (s.station == .running) (s.clock + s.joinLength)
      have judged := judgeSource_status v
      have points : t.points = v.judgeSource.points := by rw [ht, evaluateSource_eq]
      have status : OnlyStatus v t := ht ▸ judged.trans (evaluateSource_status n _)
      have station : t.station = s.station := status.tables.station
      refine ⟨?_, ?_, ?_, ?_, ?_⟩
      · rw [solicitPoint_eq, status]
        rfl
      · have same : (t.solicitPoint n).mirroredAt n = t.mirroredAt n := by
          rw [State.mirroredAt, solicitPoint_points]; rfl
        rw [offer_congr same, solicitPoint_eq, known]
        simp only [station, and_true, status.solicits]
        rfl
      · rw [known, if_pos rfl, solicitPoint_eq]
        have half : mirroredHalf t.points = mirroredHalf v.points := by
          rw [points]; exact (OwnSteps.sameMirroring (judgeSource_own v)).half
        have faults : t.faults = v.judgeSource.faults := by rw [ht, evaluateSource_eq]
        change t.faults = s.faults.put .source (t.points.any Point.holdsSource)
        rw [faults, judgeSource_faults, holdsSource_congr half]
        rfl
      · rw [solicitPoint_eq]
        change outputLists t = outputLists s
        rw [ht, outputLists_evaluateSource]
        exact outputLists_report _ _ v
      · have solicited : Reaches (fun o => o.binding.source = n) t (t.solicitPoint n) := by
          rw [solicitPoint_eq]; exact .of_same rfl rfl rfl rfl
        refine Reaches.trans ?_ solicited
        rw [ht]
        exact ((updateMirrored_reaches _ n _ s).trans (report_reaches _ _ _ v)).trans (evaluateSource_reaches n _)

/-! ## The points of the source, in Point Table order -/

theorem PointRestarted.station {n : Nat} {s t : State} (h : PointRestarted n s t) : t.station = s.station := by rw [h.only]
theorem PointRestarted.clock {n : Nat} {s t : State} (h : PointRestarted n s t) : t.clock = s.clock := by rw [h.only]
theorem PointRestarted.joinLength {n : Nat} {s t : State} (h : PointRestarted n s t) : t.joinLength = s.joinLength := by
  have : t.header = s.header := by rw [h.only]
  rw [State.joinLength, State.joinLength, State.period, State.period, this]

/-- What the restart of a source comes to for a list of its points. -/
structure PointsRestarted (l : List Nat) (s t : State) : Prop where
  only : t = { s with
    points := t.points, urgent := t.urgent, routine := t.routine, outputs := t.outputs, faults := t.faults, solicits := t.solicits }
  entries : ∀ k, t.mirroredAt k = (s.mirroredAt k).map fun m =>
    if k ∈ l then m.restarted (s.station == .running) (s.clock + s.joinLength) else m
  solicits : t.solicits = if s.station = .running then (l.filter s.knows).foldl t.offer s.solicits else s.solicits
  faults : t.faults = if l.any s.knows then s.faults.put .source (t.points.any Point.holdsSource) else s.faults
  lists : outputLists t = outputLists s
  reaches : Reaches (fun o => o.binding.source ∈ l) s t

theorem Reach.mono {pick pick' : Output → Prop} {s t : State} (h : Reach pick s t) (wider : ∀ o, pick o → pick' o) : Reach pick' s t :=
  { h with outputs := fun o ho unpicked => h.outputs o ho fun picked => unpicked (picked.imp_left (wider o)) }

theorem Reaches.mono {pick pick' : Output → Prop} {s t : State} (h : Reaches pick s t) (wider : ∀ o, pick o → pick' o) :
    Reaches pick' s t := ⟨h.numbers, fun distinct => (h.reach distinct).mono wider⟩

theorem FaultSummary.put_put (f : FaultSummary) (c : Condition) (a b : Bool) : (f.put c a).put c b = f.put c b := by cases c <;> rfl

/-- SOURCE rests on what the numbers find, in a table of distinct numbers. -/
theorem any_holdsSource_iff {s : State} (distinct : (s.points.map Point.number).Nodup) : s.points.any Point.holdsSource = true ↔
    ∃ n m, s.mirroredAt n = some m ∧ (m.state = .stale ∨ m.overdue = true) := by
  have holds : ∀ p : Point, p.holdsSource = true ↔ ∃ m, p.mirrored? = some m ∧ (m.state = .stale ∨ m.overdue = true) := fun p => by
    unfold Point.holdsSource
    cases p.mirrored? <;> simp
  rw [List.any_eq_true]
  constructor
  · rintro ⟨p, hp, held⟩
    obtain ⟨m, hm, cause⟩ := (holds p).mp held
    exact ⟨p.number, m, (mirroredAt_of_mem distinct hp).trans hm, cause⟩
  · rintro ⟨n, m, entry, cause⟩
    obtain ⟨p, -, hp, -, hm⟩ := mirroredAt_entry entry
    exact ⟨p, hp, (holds p).mpr ⟨m, hm, cause⟩⟩

/-- A restart of points that are all UNKNOWN keeps what SOURCE rests on. -/
theorem any_holdsSource_of_unknown {l : List Nat} {s t : State} (distinct : (s.points.map Point.number).Nodup)
    (h : PointsRestarted l s t) (unknown : l.any s.knows = false) : t.points.any Point.holdsSource = s.points.any Point.holdsSource := by
  have same : ∀ n m, s.mirroredAt n = some m → ∃ m', t.mirroredAt n = some m' ∧ m'.state = m.state ∧ m'.overdue = m.overdue :=
    fun n m entry => by
      refine ⟨_, (h.entries n).trans (congrArg _ entry), ?_⟩
      by_cases listed : n ∈ l
      · have : m.state = .unknown := by
          have := List.any_eq_false.mp unknown n listed
          simpa [knows_of_entry entry] using this
        simp [listed, Mirrored.restarted, this, Mirrored.goUnknown]
      · simp [listed]
  rw [Bool.eq_iff_iff, any_holdsSource_iff distinct, any_holdsSource_iff (h.reaches.numbers ▸ distinct)]
  constructor
  · rintro ⟨n, m', entry', cause⟩
    cases entry : s.mirroredAt n with
    | none => rw [h.entries, entry] at entry'; cases entry'
    | some m =>
      obtain ⟨m'', at_n, state, overdue⟩ := same n m entry
      rw [entry'] at at_n; cases at_n
      exact ⟨n, m, entry, by rwa [← state, ← overdue]⟩
  · rintro ⟨n, m, entry, cause⟩
    obtain ⟨m', at_n, state, overdue⟩ := same n m entry
    exact ⟨n, m', at_n, by rwa [state, overdue]⟩

theorem foldl_sourceRestarted {l : List Nat} (nodup : l.Nodup) : ∀ s : State, (s.points.map Point.number).Nodup →
    PointsRestarted l s (l.foldl State.sourceRestarted s) := by
  induction l with
  | nil =>
    intro s _
    exact ⟨rfl, fun k => by simp, by simp, by simp, rfl, .refl _ s⟩
  | cons n l ih =>
    intro s distinct
    obtain ⟨new, nodup⟩ := List.nodup_cons.mp nodup
    have first := sourceRestarted_restarted n s
    have rest := ih nodup (s.sourceRestarted n) (first.reaches.numbers ▸ distinct)
    rw [List.foldl_cons]
    generalize ht : l.foldl State.sourceRestarted (s.sourceRestarted n) = t at *
    have at_n : t.mirroredAt n = (s.sourceRestarted n).mirroredAt n := by rw [rest.entries]; simp [new]
    have knows : ∀ k ∈ l, (s.sourceRestarted n).knows k = s.knows k := fun k hk => by
      refine knows_congr ?_
      rw [mirroredAt_sourceRestarted]
      have : k ≠ n := fun e => new (e ▸ hk)
      simp [this]
    have known : l.filter (s.sourceRestarted n).knows = l.filter s.knows := List.filter_congr knows
    have anyKnown : l.any (s.sourceRestarted n).knows = l.any s.knows := by
      rw [Bool.eq_iff_iff, List.any_eq_true, List.any_eq_true]
      exact exists_congr fun k => and_congr_right fun hk => by rw [knows k hk]
    refine ⟨?_, fun k => ?_, ?_, ?_, rest.lists.trans first.lists, ?_⟩
    · rw [rest.only, first.only]
    · rw [rest.entries, mirroredAt_sourceRestarted, first.station, first.clock, first.joinLength, Option.map_map]
      refine congrArg (fun f => (s.mirroredAt k).map f) (funext fun m => ?_)
      by_cases e : k = n
      · simp [e, new]
      · simp [e]
    · rw [rest.solicits, first.station, first.solicits, known]
      by_cases running : s.station = .running
      · cases k : s.knows n <;> simp [running, k, offer_congr at_n]
      · simp [running]
    · rw [rest.faults, anyKnown, first.faults, List.any_cons]
      cases later : l.any s.knows
      · cases k : s.knows n
        · simp
        · simp [any_holdsSource_of_unknown (first.reaches.numbers ▸ distinct) rest (anyKnown.trans later)]
      · cases k : s.knows n <;> simp [FaultSummary.put_put]
    · exact (first.reaches.mono fun o same => by simp [same]).trans (rest.reaches.mono fun o listed => List.mem_cons_of_mem _ listed)

end Sys2Proof.Machine
end

