-- ==== Sys2Proof/Proofs/Presence.lean ====
section
/-!
THEOREM. PRESENCE (O39): the body, the sender's entry, and a detected restart of the sender.
-/

namespace Sys2Proof.Machine

open Sys2Proof.Safety

/-! ## A purge -/

theorem mem_dropOrigin {p : Station} {l : List Override} {x : Override} : x ∈ dropOrigin p l ↔ x ∈ l ∧ x.origin ≠ p := by
  simp [dropOrigin]

theorem dropOrigin_dropOrigin (p : Station) (l : List Override) : dropOrigin p (dropOrigin p l) = dropOrigin p l := by
  simp [dropOrigin]

theorem hasOrigin_iff {p : Station} {l : List Override} : hasOrigin p l = true ↔ ∃ x ∈ l, x.origin = p := by simp [hasOrigin]

/-- The lists of the given pins without the entries of an origin. -/
def dropAt (p : Station) (pins : List (Fin 16)) (x : Fin 16 × Binding × List Override) : Fin 16 × Binding × List Override :=
  (x.1, x.2.1, if x.1 ∈ pins then dropOrigin p x.2.2 else x.2.2)

theorem purgeOutput_only (p : Station) (s : State) (i : Fin 16) :
    s.purgeOutput p i = { s with outputs := (s.purgeOutput p i).outputs } := by
  rw [State.purgeOutput, State.evaluatePin, evaluateWhere_only]
  rfl

theorem purgeOutput_lists (p : Station) (s : State) (i : Fin 16) :
    outputLists (s.purgeOutput p i) = (outputLists s).map (dropAt p [i]) := by
  have lists : outputLists (s.purgeOutput p i) = outputLists (s.updateOverrides i (dropOrigin p)) := outputLists_evaluateWhere _ _
  rw [lists]
  simp only [outputLists, State.updateOverrides_outputs, List.map_map]
  refine List.map_congr_left fun o _ => ?_
  by_cases e : o.pin = i <;> simp [dropAt, e]

theorem purgeOutput_others {p : Station} {s : State} {i : Fin 16} {o : Output} (ho : o ∈ s.outputs) (other : o.pin ≠ i) :
    o ∈ (s.purgeOutput p i).outputs := by
  have kept : o ∈ (s.updateOverrides i (dropOrigin p)).outputs := List.mem_map.mpr ⟨o, ho, if_neg other⟩
  rw [State.purgeOutput, State.evaluatePin, State.evaluateWhere]
  split
  · exact List.mem_map.mpr ⟨o, kept, by simp [other]⟩
  · exact kept

/-- The outputs of the given pins are purged one by one. -/
theorem foldl_purgeOutput (p : Station) (pins : List (Fin 16)) (s : State) :
    pins.foldl (State.purgeOutput p) s = { s with outputs := (pins.foldl (State.purgeOutput p) s).outputs }
    ∧ outputLists (pins.foldl (State.purgeOutput p) s) = (outputLists s).map (dropAt p pins)
    ∧ ∀ o ∈ s.outputs, o.pin ∉ pins → o ∈ (pins.foldl (State.purgeOutput p) s).outputs := by
  induction pins generalizing s with
  | nil =>
    have same : dropAt p [] = id := funext fun x => by simp [dropAt]
    exact ⟨rfl, by simp [same], fun o ho _ => ho⟩
  | cons i pins ih =>
    obtain ⟨only, lists, others⟩ := ih (s.purgeOutput p i)
    rw [List.foldl_cons]
    refine ⟨?_, ?_, fun o ho away => ?_⟩
    · rw [only, purgeOutput_only]
    · rw [lists, purgeOutput_lists, List.map_map]
      refine List.map_congr_left fun x _ => ?_
      by_cases e : x.1 = i
      · by_cases h : i ∈ pins <;> simp [dropAt, e, h, dropOrigin_dropOrigin]
      · by_cases h : x.1 ∈ pins <;> simp [dropAt, e, h]
    · obtain ⟨first, later⟩ := not_or.mp (mt List.mem_cons.mpr away)
      exact others o (purgeOutput_others ho first) later

/-- A purge reaches the outputs, and the mark of the origin. -/
structure Purged (p : Station) (s t : State) : Prop where
  only : t = { s with outputs := t.outputs, roster := t.roster }
  lists : outputLists t = purgedLists p s
  outputs : (s.outputs.map Output.pin).Nodup → OutputsStay (fun o => ∃ y ∈ o.overrides, y.origin = p) s t
  peers : ∀ k, t.peerAt k = (s.peerAt k).map fun x => if k = p then { x with holdsOverrides := false } else x

theorem holdsOverride_of_purged {p : Station} {s t : State} (lists : outputLists t = purgedLists p s) : holdsOverride p t.outputs = false := by
  rw [holdsOverride, List.any_eq_false]
  intro o ho held
  have listed : (o.pin, o.binding, o.overrides) ∈ purgedLists p s := lists ▸ List.mem_map.mpr ⟨o, ho, rfl⟩
  obtain ⟨o', -, e⟩ := List.mem_map.mp listed
  obtain ⟨x, hx, origin⟩ := List.any_eq_true.mp held
  have overrides : o'.overrides.filter (fun x => decide (x.origin ≠ p)) = o.overrides := congrArg (fun y => y.2.2) e
  rw [← overrides] at hx
  have := (List.mem_filter.mp hx).2
  simp_all

theorem purge_purged (p : Station) (s : State) : Purged p s (s.purge p) := by
  let pins := (s.outputs.filter fun o => hasOrigin p o.overrides).map Output.pin
  obtain ⟨only, lists, others⟩ := foldl_purgeOutput p pins s
  have purged : s.purge p = (pins.foldl (State.purgeOutput p) s).keepHoldsMark p := rfl
  have listed : ∀ o ∈ s.outputs, o.pin ∉ pins → hasOrigin p o.overrides = false := fun o ho away => by
    rw [Bool.eq_false_iff]
    exact fun held => away (List.mem_map.mpr ⟨o, List.mem_filter.mpr ⟨ho, held⟩, rfl⟩)
  have all : outputLists (s.purge p) = purgedLists p s := by
    refine (show outputLists (s.purge p) = outputLists (pins.foldl (State.purgeOutput p) s) from rfl).trans (lists.trans ?_)
    simp only [outputLists, purgedLists, List.map_map]
    refine List.map_congr_left fun o ho => ?_
    have dropped : dropOrigin p o.overrides = o.overrides.filter fun x => decide (x.origin ≠ p) :=
      List.filter_congr fun x _ => by by_cases e : x.origin = p <;> simp [e]
    by_cases h : o.pin ∈ pins
    · simp only [Function.comp_apply, dropAt, if_pos h, dropped]
    · have none : ∀ x ∈ o.overrides, x.origin ≠ p := fun x hx origin =>
        Bool.eq_false_iff.mp (listed o ho h) (hasOrigin_iff.mpr ⟨x, hx, origin⟩)
      have kept : (o.overrides.filter fun x => decide (x.origin ≠ p)) = o.overrides :=
        List.filter_eq_self.mpr fun x hx => decide_eq_true (none x hx)
      simp only [Function.comp_apply, dropAt, if_neg h, kept]
  refine ⟨?_, all, fun distinct o ho away => others o ho fun h => ?_, fun k => ?_⟩
  · rw [purged, State.keepHoldsMark, only]
  · obtain ⟨o', ho', same⟩ := List.mem_map.mp h
    obtain ⟨ho', held⟩ := List.mem_filter.mp ho'
    rw [List.inj_on_of_nodup_map distinct ho' ho same] at held
    exact away (hasOrigin_iff.mp held)
  · have mark := peerAt_updatePeer p k (fun x => { x with holdsOverrides := holdsOverride p (pins.foldl (State.purgeOutput p) s).outputs })
      (pins.foldl (State.purgeOutput p) s) fun _ => rfl
    have roster : (pins.foldl (State.purgeOutput p) s).peerAt k = s.peerAt k := peerAt_congr (by rw [only]) k
    have none : holdsOverride p (pins.foldl (State.purgeOutput p) s).outputs = false :=
      holdsOverride_of_purged (t := pins.foldl (State.purgeOutput p) s) (s := s) all
    rw [roster, none] at mark
    exact (congrArg (State.peerAt k) purged).trans (by rw [← mark, State.keepHoldsMark, none]; rfl)

/-! ## The body (R129) -/

theorem bitsOf_zero (b : Byte) (w : Nat) : bitsOf b 0 w = b.toNat % 2 ^ w := by simp [bitsOf]

theorem parsePresence_four (b0 b1 b2 b3 : Byte) : parsePresence [b0, b1, b2, b3] =
    if 1 ≤ b0.toNat % 32 ∧ b0.toNat % 32 ≤ 20 then
      some { periodCode := b0.extractLsb' 0 5, boot := b0.getLsbD 7, probing := b0.getLsbD 6, cause := causeOf b1,
             incarnation := b2, faults := b3 }
    else none := by
  simp only [parsePresence, bitsOf_zero, Bool.and_eq_true, decide_eq_true_eq]
  rfl

theorem parsePresence_eq_none (body : List Byte) : parsePresence body = none ↔
    body.length ≠ 4 ∨ (body.getD 0 0).toNat % 32 = 0 ∨ 21 ≤ (body.getD 0 0).toNat % 32 := by
  by_cases four : body.length = 4
  · obtain ⟨b0, b1, b2, b3, rfl⟩ : ∃ b0 b1 b2 b3, body = [b0, b1, b2, b3] := by
      match body, four with
      | [b0, b1, b2, b3], _ => exact ⟨b0, b1, b2, b3, rfl⟩
    rw [parsePresence_four]
    simp only [List.length_cons, List.length_nil, List.getD_cons_zero]
    by_cases valid : 1 ≤ b0.toNat % 32 ∧ b0.toNat % 32 ≤ 20
    · rw [if_pos valid]; simp; omega
    · rw [if_neg valid]; simp; omega
  · refine ⟨fun _ => .inl four, fun _ => ?_⟩
    unfold parsePresence
    split
    · exact absurd rfl four
    · rfl

theorem causeOf_eq (b : Byte) : causeOf b =
    if b.toNat % 4 = 0 then .power else if b.toNat % 4 = 1 then .pin else if b.toNat % 4 = 2 then .remote else .guard := by
  rw [causeOf, bitsOf_zero]
  have : b.toNat % 2 ^ 2 < 4 := Nat.mod_lt _ (by decide)
  change _ = if b.toNat % 2 ^ 2 = 0 then _ else if b.toNat % 2 ^ 2 = 1 then _ else if b.toNat % 2 ^ 2 = 2 then _ else _
  generalize b.toNat % 2 ^ 2 = v at *
  match v, this with
  | 0, _ => rfl
  | 1, _ => rfl
  | 2, _ => rfl
  | 3, _ => rfl

end Sys2Proof.Machine
end

