-- ==== Sys2Proof/Proofs/PresenceTaken.lean ====
section
/-!
THEOREM. PRESENCE (O39): the sender's entry, and a detected restart of the sender.
-/

namespace Sys2Proof.Machine

open Sys2Proof.Safety

/-! ## The sender's entry (R129, R130) -/

theorem Peer.takeContent_eq (c : PresenceContent) (x : Peer) : x.takeContent c = { x with
    content := some { periodCode := c.periodCode, incarnation := c.incarnation, cause := c.cause, faults := c.faults }
    bootSeen := c.boot
    silentAt := some (x.lastHeard + 2 * (c.periodCode.toNat * 100000))
    lostAt := some (x.lastHeard + 4 * (c.periodCode.toNat * 100000)) } := rfl

theorem restartDetected_iff (x : Peer) (c : PresenceContent) : restartDetected x c = true ↔
    ∃ k, x.content = some k ∧ (k.incarnation ≠ c.incarnation ∨ (c.boot = true ∧ x.bootSeen = false)) := by
  unfold restartDetected
  cases x.content <;> simp

theorem applyPresence_known {p : Station} {c : PresenceContent} {h : State} {x : Peer} (known : h.peerAt p = some x) :
    h.applyPresence p c = (if restartDetected x c then h.peerRestarted p else h).updatePeer p (Peer.takeContent c) := by
  rw [State.applyPresence, known]

/-! ## The station that hears -/

theorem execPresence_heard {e : Time} {s : State} {p : Station} {body : List Byte} (hears : Hears s p) (ok : bodyOk body = true) :
    exec (.presence e p body) s = .next ((heardFrom e p s).takePresence p body) :=
  congrArg Host.Outcome.next (arrive_heard (s := s.advance e) hears .presence Config.everyone body (fun _ => rfl) ok)

theorem heardFrom_tables (e : Time) (p : Station) (s : State) :
    OnlyTables (((s.advance e).endAssembly).bump .framesReceived) (heardFrom e p s) := heard_tables p _

theorem heardFrom_station (e : Time) (p : Station) (s : State) : (heardFrom e p s).station = s.station :=
  (heardFrom_tables e p s).station

theorem heardFrom_due {e : Time} {p : Station} {s : State} (live : s.station.live = true) :
    (heardFrom e p s).clock + (heardFrom e p s).joinLength = s.clock + e + max 1000000 (2 * s.period) := by
  have clock : (heardFrom e p s).clock = s.clock + e := by
    refine (heardFrom_tables e p s).clock.trans (if_neg fun halted => ?_)
    rw [halted] at live; cases live
  have period : (heardFrom e p s).period = s.period := by
    rw [State.period, (heardFrom_tables e p s).header]; rfl
  rw [clock, State.joinLength, period]
  rfl

/-! ## The points of a station (R103) -/

/-- The entry is MIRRORED, of the station's points, and not UNKNOWN. -/
def Point.knownFrom (p : Station) (h : State) (q : Point) : Bool :=
  match h.mirroredAt q.number with
  | some m => m.source == some p && m.state != .unknown
  | none => false

theorem mem_sourcedFrom_iff {p : Station} {h : State} (distinct : (h.points.map Point.number).Nodup) {n : Nat} :
    n ∈ sourcedFrom p h.points ↔ ∃ m, h.mirroredAt n = some m ∧ m.source = some p := by
  rw [mem_sourcedFrom]
  constructor
  · rintro ⟨q, hq, rfl, m, entry, source⟩
    exact ⟨m, (mirroredAt_of_mem distinct hq).trans entry, source⟩
  · rintro ⟨m, entry, source⟩
    obtain ⟨q, -, hq, number, entry⟩ := mirroredAt_entry entry
    exact ⟨q, hq, number, m, entry, source⟩

theorem sourcedFrom_nodup {p : Station} {l : List Point} (distinct : (l.map Point.number).Nodup) : (sourcedFrom p l).Nodup :=
  distinct.sublist (List.filter_sublist.map _)

/-- The numbers of the station's points that are not UNKNOWN, in the order of any table of the same numbers. -/
theorem sourcedFrom_filter {p : Station} {h t : State} (distinct : (h.points.map Point.number).Nodup)
    (numbers : t.points.map Point.number = h.points.map Point.number) :
    (sourcedFrom p h.points).filter h.knows = (t.points.filter (Point.knownFrom p h)).map Point.number := by
  let known (n : Nat) : Bool := match h.mirroredAt n with
    | some m => m.source == some p && m.state != .unknown
    | none => false
  have here : (t.points.filter (Point.knownFrom p h)).map Point.number = (t.points.map Point.number).filter known := by
    rw [List.filter_map]; rfl
  rw [here, numbers, List.filter_map, sourcedFrom, List.filter_map, List.filter_filter]
  refine congrArg _ (List.filter_congr fun q hq => ?_)
  simp only [known, State.knows, Function.comp_apply, mirroredAt_of_mem distinct hq]
  cases q.mirrored? <;> simp [Bool.and_comm]

theorem any_knows {p : Station} {h : State} (distinct : (h.points.map Point.number).Nodup) :
    (sourcedFrom p h.points).any h.knows = h.points.any fun q =>
      match q.role with
      | .owned _ => false
      | .mirrored m => m.source == some p && m.state != .unknown := by
  rw [sourcedFrom, List.any_map, List.any_filter, Bool.eq_iff_iff, List.any_eq_true, List.any_eq_true]
  refine exists_congr fun q => and_congr_right fun hq => ?_
  simp only [State.knows, Function.comp_apply, mirroredAt_of_mem distinct hq, Point.mirrored?]
  cases q.role <;> simp

/-! ## A detected restart of a station (R103, R131, R151) -/

/-- What a detected restart of the station p comes to. -/
structure PeerRestarted (p : Station) (h t : State) : Prop where
  only : t = { h with
    points := t.points, urgent := t.urgent, routine := t.routine, solicits := t.solicits, outputs := t.outputs
    roster := t.roster, faults := t.faults }
  entries : ∀ k, t.mirroredAt k = (h.mirroredAt k).map fun m =>
    if m.source = some p then m.restarted (h.station == .running) (h.clock + h.joinLength) else m
  solicits : t.solicits =
    if h.station = .running then (t.points.filter (Point.knownFrom p h)).foldl addSolicit h.solicits else h.solicits
  lists : outputLists t = purgedLists p h
  faults : t.faults = { h.faults with
    source :=
      if h.points.any fun q =>
        match q.role with
        | .owned _ => false
        | .mirrored m => m.source == some p && m.state != .unknown
      then t.points.any Point.holdsSource else h.faults.source }
  owned : OwnedStay .status h t
  outputs : (h.outputs.map Output.pin).Nodup → OutputsStay (fun o => (∃ y ∈ o.overrides, y.origin = p)
    ∨ fedBy .status h o.binding.source = true ∨ ∃ m, h.mirroredAt o.binding.source = some m ∧ m.source = some p) h t
  peers : ∀ k, t.peerAt k = (h.peerAt k).map fun x => if k = p then { x with holdsOverrides := false } else x

theorem foldl_offer {t : State} (distinct : (t.points.map Point.number).Nodup) {l : List Point} (listed : ∀ q ∈ l, q ∈ t.points)
    (init : List Solicit) : (l.map Point.number).foldl t.offer init = l.foldl addSolicit init := by
  rw [List.foldl_map]
  exact List.foldl_ext _ _ _ fun acc q hq => by rw [State.offer, findPoint_of_mem distinct (listed q hq)]

theorem purgedLists_congr {p : Station} {s t : State} (h : outputLists t = outputLists s) : purgedLists p t = purgedLists p s := by
  have mapped : ∀ u : State, purgedLists p u =
      (outputLists u).map fun x => (x.1, x.2.1, x.2.2.filter fun y => decide (y.origin ≠ p)) := fun u => by
    simp [purgedLists, outputLists]
  rw [mapped, mapped, h]

theorem pins_of_outputLists {s t : State} (h : outputLists t = outputLists s) :
    t.outputs.map Output.pin = s.outputs.map Output.pin := by
  have mapped : ∀ u : State, u.outputs.map Output.pin = (outputLists u).map Prod.fst := fun u => by simp [outputLists]
  rw [mapped, mapped, h]

theorem peerRestarted_restarted {p : Station} {h : State} (distinct : (h.points.map Point.number).Nodup) :
    PeerRestarted p h (h.peerRestarted p) := by
  have points := foldl_sourceRestarted (sourcedFrom_nodup (p := p) distinct) h distinct
  have eq : h.peerRestarted p = ((sourcedFrom p h.points).foldl State.sourceRestarted h).purge p := rfl
  rw [eq]
  generalize (sourcedFrom p h.points).foldl State.sourceRestarted h = f at points ⊢
  have purged := purge_purged p f
  generalize f.purge p = t at purged ⊢
  have samePoints : t.points = f.points := by rw [purged.only]
  have sameNumbers : t.points.map Point.number = h.points.map Point.number := samePoints ▸ points.reaches.numbers
  have roster : f.roster = h.roster := by rw [points.only]
  have reach := points.reaches.reach distinct
  refine ⟨?_, fun k => ?_, ?_, ?_, ?_, ?_, fun pins o ho away => ?_, fun k => ?_⟩
  · rw [purged.only, points.only]
  · have found : t.mirroredAt k = f.mirroredAt k := by rw [State.mirroredAt, samePoints]; rfl
    rw [found, points.entries]
    cases entry : h.mirroredAt k with
    | none => rfl
    | some m =>
      have listed : k ∈ sourcedFrom p h.points ↔ m.source = some p := by simp [mem_sourcedFrom_iff distinct, entry]
      simp [listed]
  · have offered : (fun l n => f.offer l n) = t.offer := funext fun l => funext fun n => by
      rw [State.offer, State.offer, samePoints]
    have solicits : t.solicits = f.solicits := by rw [purged.only]
    rw [solicits, points.solicits, sourcedFrom_filter distinct sameNumbers]
    change (if _ then List.foldl (fun l n => f.offer l n) _ _ else _) = _
    rw [offered, foldl_offer (sameNumbers ▸ distinct) fun q hq => (List.mem_filter.mp hq).1]
  · rw [purged.lists, purgedLists_congr points.lists]
  · have faults : t.faults = f.faults := by rw [purged.only]
    rw [faults, points.faults, any_knows distinct, samePoints]
    split <;> rfl
  · obtain ⟨entries, urgent, routine⟩ := reach.ownedStay
    rw [purged.only]
    exact ⟨entries, urgent, routine⟩
  · obtain ⟨unpurged, away⟩ := not_or.mp away
    obtain ⟨status, source⟩ := not_or.mp away
    refine purged.outputs (pins_of_outputLists points.lists ▸ pins) o (reach.outputs o ho fun picked => ?_) unpurged
    exact picked.elim (fun listed => source ((mem_sourcedFrom_iff distinct).mp listed)) status
  · rw [purged.peers, peerAt_congr roster]

theorem Mirrored.restarted_eq (running : Bool) (due : Time) (m : Mirrored) : m.restarted running due =
    { m with
      state := .unknown, count := none, deadline := none, old := true
      overdueTimer := if running = true ∧ m.state ≠ .unknown ∧ m.overdueTimer = none then some due else m.overdueTimer } := by
  unfold Mirrored.restarted Mirrored.startOverdue Mirrored.goUnknown
  cases state : m.state <;> cases running <;> cases timer : m.overdueTimer <;> simp

/-- Settles O39: a presence frame is judged, and applied to the sender's entry; a detected restart comes first. -/
theorem presenceTaken : Obligations.PresenceTaken := by
  refine ⟨parsePresence_eq_none, fun b0 b1 b2 b3 low high => ?_, fun e s p body hears ok => ?_⟩
  · have code : b0.extractLsb' 0 5 = BitVec.ofNat 5 (b0.toNat % 32) :=
      BitVec.eq_of_toNat_eq (by simp)
    rw [parsePresence_four, if_pos ⟨low, high⟩, code, causeOf_eq]
  · have station := heardFrom_station e p s
    have exec_eq := execPresence_heard (e := e) hears ok
    intro h
    change exec _ s = .next (h.takePresence p body) at exec_eq
    have judged : s.station.live = true → h.takePresence p body = match parsePresence body with
        | none => h.bump .receiveErrors
        | some c => h.applyPresence p c := fun live => if_pos (station ▸ live)
    have taken : s.station.live = true → ∀ c, parsePresence body = some c → h.takePresence p body = h.applyPresence p c :=
      fun live c parsed => by rw [judged live, parsed]
    refine ⟨fun unconfigured => ?_, fun live bad => ?_, fun live c parsed unknown => ?_, fun live c x parsed known => ?_⟩
    · rw [exec_eq, State.takePresence, station, unconfigured]; rfl
    · rw [exec_eq, judged live, bad]; rfl
    · rw [exec_eq, taken live c parsed, State.applyPresence, unknown]
    · rw [exec_eq, taken live c parsed, applyPresence_known known]
      have detected := restartDetected_iff x c
      intro period content restarted
      refine ⟨fun same => ?_, fun detects distinct => ?_⟩
      · rw [Bool.eq_false_iff.mpr (mt detected.mp same)]
        rfl
      · rw [if_pos (detected.mpr detects)]
        have gone := peerRestarted_restarted (p := p) distinct
        generalize h.peerRestarted p = g at gone ⊢
        have peers := fun k => peerAt_updatePeer p k (Peer.takeContent c) g fun _ => rfl
        refine ⟨_, rfl, ?_, fun n m entry source => ?_, fun n m entry other => ?_, ?_, gone.lists, gone.faults, ?_, gone.outputs,
          ?_, fun k other => ?_⟩
        · rw [gone.only]; rfl
        · refine (gone.entries n).trans ?_
          rw [entry, Option.map_some, if_pos source, Mirrored.restarted_eq, heardFrom_due live, station]
          simp
        · exact (gone.entries n).trans (by rw [entry, Option.map_some, if_neg other])
        · exact gone.solicits.trans (by rw [station]; rfl)
        · exact ⟨gone.owned.entries, gone.owned.urgent, gone.owned.routine⟩
        · rw [peers, gone.peers, known]
          simp [Peer.takeContent_eq, period, content]
        · rw [peers, gone.peers]
          simp only [if_neg other, Option.map_id']

end Sys2Proof.Machine
end

