-- ==== Sys2Proof/Proofs/Outside.lean ====
section
/-!
THEOREM. The electrical pins, the FAULT pin and the line driver (O60).
-/

namespace Sys2Proof.Machine

open Sys2Proof.Safety

theorem pinState_released {s : State} (dead : s.station.live = false) (i : Fin 16) : s.pinState i = .input false := by
  simp [State.pinState, dead]

theorem faultPin_iff (s : State) : s.faultPin = true ↔
    s.faults.config = true ∨ s.faults.duplicate = true ∨ s.faults.silenced = true ∨ s.faults.conflict = true
    ∨ s.faults.source = true ∨ s.faults.peerLost = true ∨ s.faults.line = true ∨ s.faults.overflow = true := by
  simp [State.faultPin, FaultSummary.any, or_assoc]

theorem driverEngaged_iff (s : State) : s.driverEngaged = true ↔ ∃ f, s.inFlight = some f := Option.isSome_iff_exists

/-- A frame of this station is on the line in UNCONFIGURED and RUNNING only (R67). -/
theorem station_of_driverEngaged {s : State} (lawful : TransmitLawful s) (engaged : s.driverEngaged = true) :
    s.station = .running ∨ s.station = .unconfigured := by
  obtain ⟨f, flying⟩ := (driverEngaged_iff s).mp engaged
  rcases ((transmitLawful_iff s).mp lawful f flying).2 with ⟨unconfigured, -⟩ | ⟨running, -⟩
  · exact .inr unconfigured
  · exact .inl running

/-- Every command keeps the law of the frame on the line: a publication frame, whose marks StationLawful speaks of, is on it in RUNNING only. -/
theorem exec_transmitLawful {c : Instr} {s t : State} (station : StationLawful s) (transmit : TransmitLawful s)
    (run : exec c s = .next t) : TransmitLawful t :=
  (exec_effect run).transmitLawful station transmit

/-- Settles O60: the law of the frame on the line, which every command keeps, allows none in STARTING and HALTED. -/
theorem outsidePins : Obligations.OutsidePins := by
  refine ⟨fun s i => ⟨fun dead => ?_, fun p pin live => ?_⟩, faultPin_iff, fun s lawful dead => ?_,
    fun s => ⟨driverEngaged_iff s, station_of_driverEngaged⟩, fun c s t station transmit run dead => ?_⟩
  · rcases dead with h | h | h <;> exact pinState_released (by rw [h]; rfl) i
  · have isLive : s.station.live = true := by rcases live with h | h <;> rw [h] <;> rfl
    refine ⟨fun mode => ?_, fun mode => ?_, fun mode joining => ?_, fun mode running o output => ?_⟩
    · simp [State.pinState, isLive, pin, mode]
    · rcases mode with mode | mode | mode <;> simp [State.pinState, isLive, pin, mode]
    · simp [State.pinState, StationState.live, pin, mode, joining]
    · simp [State.pinState, StationState.live, pin, mode, running, output]
  · obtain ⟨-, -, -, -, unloaded, -, halted, -⟩ := lawful.summary
    rw [faultPin_iff]
    rcases dead with h | h | h
    · exact .inl (unloaded (.inl h))
    · exact .inl (unloaded (.inr h))
    · exact (halted h).imp_right .inl
  · have away : ¬ (t.station = .running ∨ t.station = .unconfigured) := by
      rcases dead with h | h <;> rw [h] <;> decide
    refine ⟨Bool.eq_false_iff.mpr fun engaged => ?_, fun i => pinState_released ?_ i⟩
    · exact away (station_of_driverEngaged (exec_transmitLawful station transmit run) engaged)
    · rcases dead with h | h <;> rw [h] <;> rfl

end Sys2Proof.Machine
end

