-- ==== Sys2Proof/Proofs/PinPoints.lean ====
section
/-!
SUPPORT. What the Input Sampler does to the points of a pin: the owned entries that change, and all that stays (R26, R29, R31, R43, R144).
-/

namespace Sys2Proof.Machine

open Sys2Proof.Safety

/-- The change event of an owned entry, with the count step of R32 (R43). -/
def Owned.event (k : Kind) (o : Owned) : Owned :=
  { o.tookEvent with count := if isBinaryFromPin k o then o.count else o.tookEvent.count }

/-- From `s` to `t` the owned entries of the points listed take `f`. The places of other points in both bands, the outputs bound to no point
listed, and all override lists stay. -/
structure PointsTake (l : List Nat) (f : Kind → Owned → Owned) (s t : State) : Prop where
  only : t = { s with points := t.points, urgent := t.urgent, routine := t.routine, outputs := t.outputs }
  entries : ∀ k, findPoint k t.points = (findPoint k s.points).map fun p => if k ∈ l then p.mapOwned (f p.kind) else p
  urgent : (t.urgent.filter fun n => decide (n ∉ l)) = s.urgent.filter fun n => decide (n ∉ l)
  routine : (t.routine.filter fun n => decide (n ∉ l)) = s.routine.filter fun n => decide (n ∉ l)
  lists : outputLists t = outputLists s
  outputs : OutputsStay (fun o => o.binding.source ∈ l) s t

/-! ## One operation after another -/

theorem PointsTake.refl (l : List Nat) (s : State) : PointsTake l (fun _ o => o) s s :=
  ⟨rfl, fun k => by simp, rfl, rfl, rfl, fun _ ho _ => ho⟩

theorem PointsTake.station {l : List Nat} {f : Kind → Owned → Owned} {s t : State} (h : PointsTake l f s t) : t.station = s.station := by
  rw [h.only]

theorem PointsTake.trans {l : List Nat} {f g : Kind → Owned → Owned} {s t u : State} (h : PointsTake l f s t) (k : PointsTake l g t u) :
    PointsTake l (fun kind o => g kind (f kind o)) s u where
  only := by rw [k.only, h.only]
  entries n := by
    rw [k.entries, h.entries, Option.map_map]
    refine congrArg (fun f => (findPoint n s.points).map f) (funext fun p => ?_)
    by_cases e : n ∈ l <;> simp [e, Point.mapOwned_mapOwned]
  urgent := k.urgent.trans h.urgent
  routine := k.routine.trans h.routine
  lists := k.lists.trans h.lists
  outputs o ho away := k.outputs o (h.outputs o ho away) away

/-- Where nothing new is listed, less is left over. -/
theorem filter_not_mem_of_subset {l l' : List Nat} (sub : ∀ n ∈ l, n ∈ l') {a b : List Nat}
    (h : (a.filter fun n => decide (n ∉ l)) = b.filter fun n => decide (n ∉ l)) :
    (a.filter fun n => decide (n ∉ l')) = b.filter fun n => decide (n ∉ l') := by
  have fewer : ∀ c : List Nat, (c.filter fun n => decide (n ∉ l')) = (c.filter fun n => decide (n ∉ l)).filter fun n => decide (n ∉ l') :=
    fun c => by
      rw [List.filter_filter]
      refine List.filter_congr fun n _ => ?_
      by_cases e : n ∈ l
      · simp [sub n e]
      · simp [e]
  rw [fewer a, fewer b, h]

/-- One point, then others. -/
theorem PointsTake.cons {n : Nat} {l : List Nat} {f : Kind → Owned → Owned} {s t u : State} (h : PointsTake [n] f s t)
    (k : PointsTake l f t u) (new : n ∉ l) : PointsTake (n :: l) f s u where
  only := by rw [k.only, h.only]
  entries m := by
    rw [k.entries, h.entries, Option.map_map]
    refine congrArg (fun f => (findPoint m s.points).map f) (funext fun p => ?_)
    by_cases e : m = n
    · simp [e, new]
    · simp [e]
  urgent := (filter_not_mem_of_subset (fun _ => List.mem_cons_of_mem n) k.urgent).trans
    (filter_not_mem_of_subset (by simp) h.urgent)
  routine := (filter_not_mem_of_subset (fun _ => List.mem_cons_of_mem n) k.routine).trans
    (filter_not_mem_of_subset (by simp) h.routine)
  lists := k.lists.trans h.lists
  outputs o ho away := k.outputs o (h.outputs o ho fun e => away (by simp [List.mem_singleton.mp e]))
    fun e => away (List.mem_cons_of_mem n e)

/-- An operation on each point of a list, in its order. -/
theorem foldl_pointsTake {st : StationState} {f : Kind → Owned → Owned} (turn : State → Nat → State)
    (one : ∀ s n, s.station = st → PointsTake [n] f s (turn s n)) {l : List Nat} (nodup : l.Nodup) :
    ∀ s : State, s.station = st → PointsTake l f s (l.foldl turn s) := by
  induction l with
  | nil => exact fun s _ => ⟨rfl, fun k => by simp, rfl, rfl, rfl, fun _ ho _ => ho⟩
  | cons n l ih =>
    obtain ⟨new, nodup⟩ := List.nodup_cons.mp nodup
    intro s station
    have first := one s n station
    exact first.cons (ih nodup _ (first.station.trans station)) new

/-- What is taken is known by what it makes of the entry found. -/
theorem PointsTake.congr {n : Nat} {f g : Kind → Owned → Owned} {s t : State} (h : PointsTake [n] f s t)
    (same : ∀ p o, findPoint n s.points = some p → p.owned? = some o → f p.kind o = g p.kind o) : PointsTake [n] g s t :=
  { h with
    entries := fun k => by
      rw [h.entries]
      refine Option.map_congr fun p found => ?_
      by_cases e : k = n
      · subst e
        simp only [List.mem_singleton, if_true]
        exact Point.mapOwned_congr fun o owned => same p o found owned
      · simp [e] }

/-! ## The operations on one point -/

/-- A change of the entry of a number, and of its own places only. -/
theorem pointsTake_of_entry {n : Nat} {f : Kind → Owned → Owned} {s t : State} (only : OnlyQueue s t)
    (points : t.points = s.points.map fun p => if p.number = n then p.mapOwned (f p.kind) else p)
    (urgent : (t.urgent.filter fun k => decide (k ∉ [n])) = s.urgent.filter fun k => decide (k ∉ [n]))
    (routine : (t.routine.filter fun k => decide (k ∉ [n])) = s.routine.filter fun k => decide (k ∉ [n])) : PointsTake [n] f s t where
  only := by unfold OnlyQueue at only; rw [only]
  entries k := by
    rw [points, findPoint_map _ fun p => by split <;> simp]
    refine Option.map_congr fun p found => ?_
    simp [findPoint_number found]
  urgent := urgent
  routine := routine
  lists := by unfold OnlyQueue at only; rw [only]; rfl
  outputs o ho _ := by
    have : t.outputs = s.outputs := by unfold OnlyQueue at only; rw [only]
    exact this ▸ ho

theorem updateOwned_takes (n : Nat) (g : Owned → Owned) (s : State) : PointsTake [n] (fun _ => g) s (s.updateOwned n g) :=
  pointsTake_of_entry rfl rfl rfl rfl

theorem joinUrgent_takes (n : Nat) (s : State) : PointsTake [n] (fun _ o => { o with sched := .urgent }) s (s.joinUrgent n) :=
  pointsTake_of_entry rfl rfl (by simp) rfl

theorem promote_takes (n : Nat) (s : State) : PointsTake [n] (fun _ o => { o with sched := .urgent }) s (s.promote n) :=
  pointsTake_of_entry rfl rfl (by simp) (by
    simp only [State.promote_routine, without, List.filter_filter]
    exact List.filter_congr fun k _ => by by_cases e : k = n <;> simp [e])

theorem setDirty_takes (n : Nat) (s : State) : PointsTake [n] (fun _ o => { o with dirty := true }) s (s.setDirty n) :=
  updateOwned_takes n _ s

theorem stepWithEvent_takes (n : Nat) (s : State) :
    PointsTake [n] (fun k o => if isBinaryFromPin k o then o else { o with count := o.count + 1 }) s (s.stepWithEvent n) :=
  pointsTake_of_entry rfl rfl rfl rfl

theorem evaluateSource_takes (n : Nat) (s : State) : PointsTake [n] (fun _ o => o) s (s.evaluateSource n) where
  only := by rw [evaluateSource_eq]
  entries k := by rw [evaluateSource_eq]; simp
  urgent := by rw [evaluateSource_eq]
  routine := by rw [evaluateSource_eq]
  lists := outputLists_evaluateSource n s
  outputs o ho away := by
    rw [evaluateSource_eq]
    exact List.mem_map.mpr ⟨o, ho, if_neg fun h => away (by simp [h.2])⟩

/-- A change event, by scheduler state and marks (R43). -/
theorem changeEvent_takes (n : Nat) (s : State) : PointsTake [n] Owned.event s (s.changeEvent n) := by
  unfold State.changeEvent
  cases entry : s.ownedAt n with
  | none => exact (PointsTake.refl [n] s).congr fun p o found owned => by simp [State.ownedAt, found, owned] at entry
  | some o =>
    have only : ∀ {f : Kind → Owned → Owned} {t : State}, PointsTake [n] f s t → (∀ k, f k o = o.event k) →
        PointsTake [n] Owned.event s t := fun taken same =>
      taken.congr fun p o' found owned => by
        rw [State.ownedAt, found, Option.bind_some, owned] at entry
        cases entry
        exact same p.kind
    have stepped : ∀ {g : Owned → Owned} {t : State}, PointsTake [n] (fun _ => g) s t → g o = { o.tookEvent with count := o.count } →
        o.tookEvent.count = o.count + 1 → PointsTake [n] Owned.event s (t.stepWithEvent n) := fun {g t} taken same counted =>
      only (taken.trans (stepWithEvent_takes n t)) fun k => by
        have source : isBinaryFromPin k { o.tookEvent with count := o.count } = isBinaryFromPin k o := by
          simp only [isBinaryFromPin, Owned.tookEvent_source]
        rw [same, source, Owned.event, counted]
        split <;> rfl
    have still : o.tookEvent = o → PointsTake [n] Owned.event s s := fun same =>
      only (.refl [n] s) fun k => by simp [Owned.event, same]
    dsimp only
    split
    · next quiet => exact stepped (joinUrgent_takes n s) (by simp [Owned.tookEvent, quiet]) (by simp [Owned.tookEvent, quiet])
    · next routine waits =>
      exact stepped (promote_takes n s) (by simp [Owned.tookEvent, routine, waits]) (by simp [Owned.tookEvent, routine])
    · next routine flying =>
      exact stepped ((promote_takes n s).trans (setDirty_takes n _)) (by simp [Owned.tookEvent, routine, flying])
        (by simp [Owned.tookEvent, routine])
    · next urgent flying clean =>
      exact stepped (setDirty_takes n s) (by simp [Owned.tookEvent, urgent, flying, clean])
        (by simp [Owned.tookEvent, urgent, flying, clean])
    · next urgent flying dirty => exact still (by simp [Owned.tookEvent, urgent, flying, dirty])
    · next urgent waits => exact still (by simp [Owned.tookEvent, urgent, waits])
    · next yielded => exact still (by simp [Owned.tookEvent, yielded])

/-- The outputs of a point whose value has been written, then a change event if there is one and the station is RUNNING (R34, R144). -/
theorem valueWritten_takes {s : State} {st : StationState} (station : s.station = st) (n : Nat) (event : Bool) :
    PointsTake [n] (fun k o => if event = true ∧ st = .running then o.event k else o) s (s.valueWritten n event) := by
  have evaluated := evaluateSource_takes n s
  unfold State.valueWritten
  dsimp only
  rw [evaluated.station, station]
  by_cases e : event = true ∧ st = .running
  · simp only [e, and_self, if_true, beq_self_eq_true, Bool.and_self]
    exact evaluated.trans (changeEvent_takes n _)
  · have : (event && st == .running) = false := by simpa using e
    simp only [e, this, if_false, Bool.false_eq_true]
    exact evaluated

/-- An entry that takes a level as its value, and a count step (R29). -/
def Owned.stepTo (level : Bool) (o : Owned) : Owned := { o with current := bitAt 0 level, count := o.count + 1 }

/-- The entry of a point sourced from a pin after a transition of the pin (R29). -/
def Owned.atLevel (st : StationState) (level : Bool) (k : Kind) (o : Owned) : Owned :=
  if st = .running then (o.stepTo level).event k else o.stepTo level

theorem binaryTransition_takes {s : State} {st : StationState} (station : s.station = st) (n : Nat) (level : Bool) :
    PointsTake [n] (Owned.atLevel st level) s (s.binaryTransition n level) := by
  have written := updateOwned_takes n (Owned.stepTo level) s
  refine (written.trans (valueWritten_takes (written.station.trans station) n true)).congr fun p o _ _ => ?_
  simp [Owned.atLevel]

/-! ## What a statement about the points of a pin asks for -/

theorem PointsTake.ownedAt {l : List Nat} {f : Kind → Owned → Owned} {s t : State} (h : PointsTake l f s t) {q : Point} {o : Owned}
    (distinct : (s.points.map Point.number).Nodup) (held : q ∈ s.points) (owned : q.role = .owned o) (listed : q.number ∈ l) :
    t.ownedAt q.number = some (f q.kind o) := by
  rw [State.ownedAt, h.entries, findPoint_of_mem distinct held]
  simp [listed, owned?_eq_some.mpr owned]

theorem PointsTake.others {l : List Nat} {f : Kind → Owned → Owned} {s t : State} (h : PointsTake l f s t) {n : Nat} (other : n ∉ l) :
    t.ownedAt n = s.ownedAt n ∧ t.mirroredAt n = s.mirroredAt n := by
  have same : findPoint n t.points = findPoint n s.points := by
    rw [h.entries]; simp [other]
  rw [State.ownedAt, State.mirroredAt, same]
  exact ⟨rfl, rfl⟩

theorem not_mem_ownedFrom {s : State} {src : Source} {n : Nat} (distinct : (s.points.map Point.number).Nodup)
    (other : ∀ o, s.ownedAt n = some o → o.source ≠ src) : n ∉ ownedFrom src s.points := fun listed => by
  rw [← decide_eq_true_iff (p := n ∈ _), ← fedBy_eq distinct, fedBy_iff] at listed
  obtain ⟨o, entry, source⟩ := listed
  exact other o entry source

theorem ownedFrom_nodup {src : Source} {l : List Point} (distinct : (l.map Point.number).Nodup) : (ownedFrom src l).Nodup :=
  distinct.sublist (List.filter_sublist.map _)

/-- Where the points of one source are taken, the others stay. -/
theorem PointsTake.ownedStay {src : Source} {f : Kind → Owned → Owned} {s t : State} (distinct : (s.points.map Point.number).Nodup)
    (h : PointsTake (ownedFrom src s.points) f s t) : OwnedStay src s t := by
  have fed : (fun n => !fedBy src s n) = fun n => decide (n ∉ ownedFrom src s.points) := funext fun n => by
    rw [fedBy_eq distinct]; simp
  exact
    { entries := fun k o entry other => by
        rw [(h.others (not_mem_ownedFrom distinct fun o' entry' => by rw [entry] at entry'; cases entry'; exact other)).1, entry]
      urgent := by rw [fed]; exact h.urgent
      routine := by rw [fed]; exact h.routine }

theorem PointsTake.outputsStay {src : Source} {f : Kind → Owned → Owned} {s t : State} (distinct : (s.points.map Point.number).Nodup)
    (h : PointsTake (ownedFrom src s.points) f s t) : OutputsStay (fun o => fedBy src s o.binding.source = true) s t :=
  fun o ho away => h.outputs o ho fun listed => away ((fedBy_eq distinct src _).trans (decide_eq_true listed))

end Sys2Proof.Machine
end

