-- ==== Sys2Proof/Proofs/Sampling.lean ====
section
/-!
THEOREM. The 1 ms sample (O47), a debounced transition of an IN-DIGITAL pin (O48) and a level reading (O50).
-/

namespace Sys2Proof.Machine

open Sys2Proof.Safety

/-! ## The sample of one pin (R25) -/

theorem Pin.digital_iff {p : Pin} : p.digital = true ↔ p.mode = .inDigital ∨ p.mode = .hand := by simp [Pin.digital]

theorem advance_live (e : Time) {s : State} (live : s.station.live = true) : s.advance e = { s with clock := s.clock + e } := by
  have : s.station ≠ .halted := fun halted => by rw [halted] at live; cases live
  simp [State.advance, this]

/-- Settles O47: the command samples every pin in turn, each by the table of R25. -/
theorem digitalSample : Obligations.DigitalSample := by
  refine ⟨fun e levels s => ⟨fun live => ?_, fun dead => ?_⟩, fun levels i s p pin => ?_⟩
  · change execDigitalInputSample e levels s = _
    rw [execDigitalInputSample, advance_live e live]
    simp [live]
  · change execDigitalInputSample e levels s = _
    simp [execDigitalInputSample, dead, State.advance, after]
  · intro sample candidate
    refine ⟨fun notIn notHand => ?_, fun sampled => ?_⟩
    · have : p.digital = false := Bool.eq_false_iff.mpr (mt Pin.digital_iff.mp (not_or.mpr ⟨notIn, notHand⟩))
      simp [State.samplePin, pin, this]
    · have digital := Pin.digital_iff.mpr sampled
      have read : levels.getLsbD i.val = sample := rfl
      refine ⟨fun stands => ?_, fun moved instant => ?_, fun moved slow first => ?_, fun since moved slow waiting => ?_⟩ <;>
        simp only [State.samplePin, pin, digital, read, Bool.not_true, Bool.false_eq_true, if_false]
      · rw [if_pos stands]; rfl
      · rw [if_neg moved, if_pos instant]
      · rw [if_neg moved, if_neg slow, first]; rfl
      · rw [if_neg moved, if_neg slow, waiting]
        exact ⟨fun long => if_pos long, fun short => if_neg (Nat.not_le.mpr short)⟩

/-! ## A debounced transition (R26, R29) -/

/-- The pin takes its debounced level (R25). -/
def State.tookLevel (i : Fin 16) (level : Bool) (s : State) : State := s.updatePin i fun p => { p with level := some level, candidate := none }

theorem tookLevel_pin {s : State} {i : Fin 16} {p : Pin} (pin : s.pins[i.val]? = some p) (level : Bool) :
    (s.tookLevel i level).pins[i.val]? = some { p with level := some level, candidate := none } := by
  simp [State.tookLevel, pin]

theorem pinTransition_inDigital {s : State} {i : Fin 16} {p : Pin} (pin : s.pins[i.val]? = some p) (mode : p.mode = .inDigital)
    (level : Bool) : s.pinTransition i level =
      (ownedFrom (.pin i) s.points).foldl (fun s n => s.binaryTransition n level) (s.tookLevel i level) := by
  have at_i := tookLevel_pin pin level
  unfold State.pinTransition
  rw [← State.tookLevel]
  simp only [at_i, mode]
  rfl

theorem pinTransition_hand {s : State} {i : Fin 16} {p : Pin} (pin : s.pins[i.val]? = some p) (mode : p.mode = .hand) (level : Bool) :
    s.pinTransition i level =
      if level = true ∧ s.station = .running then (s.tookLevel i level).handPress p.target else s.tookLevel i level := by
  have at_i := tookLevel_pin pin level
  unfold State.pinTransition
  rw [← State.tookLevel]
  simp only [at_i, mode]
  simp [State.tookLevel]

/-! ### The change event of an entry (R43) -/

theorem Owned.event_current (k : Kind) (o : Owned) : (o.event k).current = o.current := tookEvent_current o

theorem Owned.event_sched {o : Owned} (active : o.sched ≠ .yielded) (k : Kind) : (o.event k).sched = .urgent := by
  change o.tookEvent.sched = .urgent
  unfold tookEvent
  split <;> simp_all

theorem Owned.event_dirty {o : Owned} (queued : o.sched = .routine ∨ o.sched = .urgent) (flying : o.inFlight = true) (k : Kind) :
    (o.event k).dirty = true := by
  change o.tookEvent.dirty = true
  rcases queued with sched | sched <;> cases dirty : o.dirty <;> simp [tookEvent, sched, flying, dirty]

theorem Owned.event_yielded {o : Owned} (yielded : o.sched = .yielded) (k : Kind) : o.event k = o := by
  have same : o.tookEvent = o := by simp [tookEvent, yielded]
  simp [event, same]

theorem Owned.event_count_binary {k : Kind} {o : Owned} (binary : isBinaryFromPin k o = true) : (o.event k).count = o.count :=
  if_pos binary

/-- Of a LEVEL point the count steps with the change event, unless the entry waits for its frame already (R32, R43). -/
theorem Owned.event_count_level (o : Owned) : (o.event .level).count =
    if o.sched = .quiet ∨ o.sched = .routine ∨ (o.sched = .urgent ∧ o.inFlight = true ∧ o.dirty = false) then o.count + 1 else o.count := by
  have fromLevel : isBinaryFromPin .level o = false := rfl
  have counted : (o.event .level).count = o.tookEvent.count := by simp [event, fromLevel]
  rw [counted]
  unfold tookEvent
  split <;> simp_all

theorem bitAt_zero (level : Bool) : bitAt 0 level = if level then 1 else 0 := by cases level <;> rfl

theorem Owned.atLevel_running (level : Bool) (k : Kind) (o : Owned) : o.atLevel .running level k = (o.stepTo level).event k := rfl

theorem Owned.atLevel_still {st : StationState} {o : Owned} (still : st ≠ .running ∨ o.sched = .yielded) (level : Bool) (k : Kind) :
    o.atLevel st level k = o.stepTo level := by
  rw [atLevel]
  split
  · next running => exact event_yielded (o := o.stepTo level) (still.resolve_left (absurd running)) k
  · rfl

theorem Owned.atLevel_current (st : StationState) (level : Bool) (k : Kind) (o : Owned) :
    (o.atLevel st level k).current = if level then 1 else 0 := by
  rw [← bitAt_zero, atLevel]
  split
  · exact event_current k _
  · rfl

/-- The count of a BINARY point steps at the transition, and not again at the change event (R29). -/
theorem Owned.atLevel_count {k : Kind} {o : Owned} (binary : isBinaryFromPin k o = true) (st : StationState) (level : Bool) :
    (o.atLevel st level k).count = o.count + 1 := by
  rw [atLevel]
  split
  · exact event_count_binary (o := o.stepTo level) binary
  · rfl

theorem isBinaryFromPin_of {o : Owned} {i : Fin 16} (source : o.source = .pin i) : isBinaryFromPin .binary o = true := by
  simp [isBinaryFromPin, source]

/-- Settles O48: the points of the pin take the level one by one, in Point Table order. -/
theorem debouncedTransition : Obligations.DebouncedTransition := by
  intro e s i p level pin
  have run : s.station.live = true → p.mode = .inDigital ∨ p.mode = .hand → p.level ≠ some level →
      exec (.debouncedTransition e i level) s = .next (State.pinTransition i level { s with clock := s.clock + e }) :=
    fun live sampled moved => by
      change execDebouncedTransition e i level s = _
      rw [execDebouncedTransition, advance_live e live]
      simp [pin, live, Pin.digital_iff.mpr sampled, moved]
  refine ⟨run, fun live mode moved distinct => ?_, fun none => ?_⟩
  · let u : State := { s with clock := s.clock + e }
    have taken := foldl_pointsTake (f := Owned.atLevel s.station level) (fun t n => t.binaryTransition n level)
      (fun t n station => binaryTransition_takes station n level) (ownedFrom_nodup (src := .pin i) distinct) (u.tookLevel i level) rfl
    have transition := pinTransition_inDigital (s := u) pin mode level
    rw [run live (.inl mode) moved, transition]
    change PointsTake (ownedFrom (.pin i) u.points) _ _ _ at taken
    generalize (ownedFrom (.pin i) u.points).foldl (fun t n => t.binaryTransition n level) (u.tookLevel i level) = t at taken ⊢
    have stay := taken.ownedStay (s := u.tookLevel i level) distinct
    have pins : t.pins = s.pins.modify i.val fun p => { p with level := some level, candidate := none } := by rw [taken.only]; rfl
    refine ⟨t, rfl, ?_, pins, taken.lists, ⟨stay.entries, stay.urgent, stay.routine⟩, taken.outputsStay (s := u.tookLevel i level) distinct,
      fun q held o owned kind source => ?_, fun n other => taken.others (not_mem_ownedFrom (s := s) distinct other)⟩
    · rw [taken.only]
      rfl
    · have listed : q.number ∈ ownedFrom (.pin i) s.points :=
        (number_mem_ownedFrom distinct held).mpr ⟨o, owned?_eq_some.mpr owned, source⟩
      refine ⟨_, taken.ownedAt (s := u.tookLevel i level) distinct held owned listed, Owned.atLevel_current .., ?_, ?_, ?_⟩
      · rw [kind]
        exact Owned.atLevel_count (isBinaryFromPin_of source) _ level
      · intro running active
        rw [running, Owned.atLevel_running]
        refine ⟨Owned.event_sched (o := o.stepTo level) active _, fun queued flying =>
          Owned.event_dirty (o := o.stepTo level) ?_ flying _⟩
        cases sched : o.sched
        · exact absurd sched queued
        · exact .inl sched
        · exact .inr sched
        · exact absurd sched active
      · intro still
        rw [Owned.atLevel_still (still.imp_left fun joining running => by rw [joining] at running; cases running)]
        exact ⟨rfl, rfl⟩
  · change execDebouncedTransition e i level s = _
    rw [execDebouncedTransition]
    have unchanged : (s.station.live && p.digital && p.level != some level) = false := by
      rcases none with dead | ⟨notIn, notHand⟩ | stands
      · simp [dead]
      · simp [Bool.eq_false_iff.mpr (mt Pin.digital_iff.mp (not_or.mpr ⟨notIn, notHand⟩))]
      · simp [stands]
    simp [State.advance, pin, unchanged, after]

/-! ## A level reading (R27 to R31) -/

/-- The entry of a point of an IN-LEVEL pin after a reading (R27, R28, R31). -/
def Owned.read (st : StationState) (reading : Byte) (k : Kind) (o : Owned) : Owned :=
  match k, o.threshold with
  | .level, _ =>
    let shown : Owned := { o with current := reading }
    if o.outsideDeadband reading = true ∧ st = .running then shown.event .level else shown
  | .binary, none => o
  | .binary, some t =>
    let level := thresholdValue t o.current reading
    if o.current = bitAt 0 level then o else o.atLevel st level .binary

theorem pointReading_takes {s : State} {st : StationState} (station : s.station = st) (reading : Byte) (n : Nat) :
    PointsTake [n] (Owned.read st reading) s (s.pointReading reading n) := by
  unfold State.pointReading
  split
  · next none => exact (PointsTake.refl [n] s).congr fun p o found => by rw [none] at found; cases found
  · next p found =>
    have at_n : ∀ {f : Kind → Owned → Owned} {t : State}, PointsTake [n] f s t →
        (∀ o, p.role = .owned o → f p.kind o = o.read st reading p.kind) → PointsTake [n] (Owned.read st reading) s t := fun taken same =>
      taken.congr fun p' o found' owned => by
        rw [found] at found'
        cases found'
        exact same o (owned?_eq_some.mp owned)
    split
    · next m role => exact at_n (.refl [n] s) fun o owned => by rw [role] at owned; cases owned
    · next o role kind =>
      have written := updateOwned_takes n (fun o => { o with current := reading }) s
      refine at_n (written.trans (valueWritten_takes (written.station.trans station) n _)) fun o' role' => ?_
      rw [role] at role'
      cases role'
      rw [kind]
      rfl
    · next o role kind =>
      have only : ∀ o', p.role = .owned o' → o' = o := fun o' role' => by rw [role] at role'; cases role'; rfl
      split
      · next none => exact at_n (.refl [n] s) fun o' role' => by rw [only o' role', kind]; simp [Owned.read, none]
      · next t threshold =>
        dsimp only
        split
        · next stands => exact at_n (.refl [n] s) fun o' role' => by rw [only o' role', kind]; simp [Owned.read, threshold, ← stands]
        · next moves =>
          refine at_n (binaryTransition_takes station n _) fun o' role' => ?_
          rw [only o' role', kind]
          simp [Owned.read, threshold, moves]

theorem outsideDeadband_iff (o : Owned) (reading : Byte) : o.outsideDeadband reading = true ↔
    ∃ ref band, (if o.inFlight then o.carried else o.compareBase.or o.carried) = some ref ∧ o.deadband = some band
      ∧ (ref.toNat + band.toNat < reading.toNat ∨ reading.toNat + band.toNat < ref.toNat) := by
  rw [← Owned.reference, Owned.outsideDeadband]
  cases o.reference with
  | none => simp
  | some ref =>
    cases o.deadband with
    | none => simp
    | some band => simp; omega

theorem Owned.read_level (st : StationState) (reading : Byte) (o : Owned) : o.read st reading .level =
    if o.outsideDeadband reading = true ∧ st = .running then Owned.event .level { o with current := reading }
    else { o with current := reading } := rfl

theorem Owned.read_binary {o : Owned} {t : Byte} (threshold : o.threshold = some t) (st : StationState) (reading : Byte) :
    o.read st reading .binary =
      if o.current = bitAt 0 (thresholdValue t o.current reading) then o
      else o.atLevel st (thresholdValue t o.current reading) .binary := by
  simp [read, threshold]

theorem Owned.read_level_current (st : StationState) (reading : Byte) (o : Owned) : (o.read st reading .level).current = reading := by
  rw [read_level]
  split
  · exact event_current .level { o with current := reading }
  · rfl

/-- Without a change event a LEVEL point takes the value alone (R31, R34). -/
theorem Owned.read_level_still {st : StationState} {reading : Byte} {o : Owned}
    (still : st ≠ .running ∨ ¬ o.outsideDeadband reading = true ∨ o.sched = .yielded) :
    o.read st reading .level = { o with current := reading } := by
  rw [read_level]
  split
  · next event =>
    exact event_yielded (o := { o with current := reading })
      ((still.resolve_left (absurd event.2)).resolve_left (absurd event.1)) .level
  · rfl

theorem Owned.read_binary_current {o : Owned} {t : Byte} (threshold : o.threshold = some t) (st : StationState) (reading : Byte) :
    (o.read st reading .binary).current = if thresholdValue t o.current reading then 1 else 0 := by
  rw [read_binary threshold, ← bitAt_zero]
  split
  · next stands => exact stands
  · rw [atLevel_current, bitAt_zero]

theorem thresholdValue_zero (t reading : Byte) : thresholdValue t 0 reading = decide (t.toNat ≤ reading.toNat) := rfl

theorem thresholdValue_one (t reading : Byte) :
    thresholdValue t 1 reading = decide (t.toNat = 0 ∨ max 1 (t.toNat - 4) ≤ reading.toNat) := rfl

/-- A change event of a LEVEL point makes it URGENT, and steps its count unless it waits for its frame already (R32, R43). -/
theorem Owned.read_level_event {reading : Byte} {o : Owned} (outside : o.outsideDeadband reading = true) (active : o.sched ≠ .yielded) :
    (o.read .running reading .level).sched = .urgent
    ∧ (o.sched ≠ .urgent ∨ (o.inFlight = true ∧ o.dirty = false) → (o.read .running reading .level).count = o.count + 1)
    ∧ (o.sched = .urgent → o.inFlight = false ∨ o.dirty = true → (o.read .running reading .level).count = o.count) := by
  rw [read_level, if_pos ⟨outside, rfl⟩, event_count_level]
  refine ⟨event_sched (o := { o with current := reading }) active _, fun counts => if_pos ?_, fun urgent waits => if_neg ?_⟩
  · cases sched : o.sched with
    | quiet => exact .inl rfl
    | routine => exact .inr (.inl rfl)
    | urgent => exact .inr (.inr ⟨rfl, counts.resolve_left (absurd sched)⟩)
    | yielded => exact absurd sched active
  · rcases waits with grounded | dirty
    · simp [urgent, grounded]
    · simp [urgent, dirty]

/-- The threshold of a BINARY point with its hysteresis of 4, range by range (R28). -/
theorem Owned.read_binary_threshold {o : Owned} {t : Byte} (threshold : o.threshold = some t) (st : StationState) (reading : Byte) :
    (o.current = 0 → (o.read st reading .binary).current = if t.toNat ≤ reading.toNat then 1 else 0)
    ∧ (o.current = 1 → 4 < t.toNat → (o.read st reading .binary).current = if reading.toNat < t.toNat - 4 then 0 else 1)
    ∧ (o.current = 1 → 1 ≤ t.toNat → t.toNat ≤ 4 → (o.read st reading .binary).current = if reading = 0 then 0 else 1)
    ∧ (o.current = 1 → t = 0 → (o.read st reading .binary).current = 1) := by
  rw [read_binary_current threshold]
  refine ⟨fun off => ?_, fun on high => ?_, fun on some low => ?_, fun on zero => ?_⟩
  · rw [off, thresholdValue_zero]; simp
  · rw [on, thresholdValue_one]
    by_cases below : reading.toNat < t.toNat - 4
    · rw [if_pos below, decide_eq_false (by omega)]; rfl
    · rw [if_neg below, decide_eq_true (by omega)]; rfl
  · have zero : reading = 0 ↔ reading.toNat = 0 := by bv_omega
    rw [on, thresholdValue_one]
    by_cases none : reading = 0
    · have := zero.mp none
      rw [if_pos none, decide_eq_false (by omega)]; rfl
    · have := mt zero.mpr none
      rw [if_neg none, decide_eq_true (by omega)]; rfl
  · rw [on, thresholdValue_one, zero]; rfl

/-- A BINARY point makes a transition exactly where its value changes (R29). -/
theorem Owned.read_binary_transition {o : Owned} {t : Byte} (threshold : o.threshold = some t) (st : StationState) (reading : Byte) :
    ((o.read st reading .binary).current = o.current → o.read st reading .binary = o)
    ∧ ((o.read st reading .binary).current ≠ o.current → ∃ level, o.read st reading .binary = o.atLevel st level .binary) := by
  have value := (read_binary_current threshold st reading).trans (bitAt_zero _).symm
  have taken := read_binary threshold st reading
  split at taken
  · exact ⟨fun _ => taken, fun moves => absurd (by rw [taken]) moves⟩
  · next moves => exact ⟨fun stands => absurd (stands.symm.trans value) moves, fun _ => ⟨_, taken⟩⟩

/-- Settles O50: the points of the pin take the reading one by one, in Point Table order. -/
theorem levelReading : Obligations.LevelReading := by
  intro e s i reading
  have mode_iff : s.pinMode i = .inLevel ↔ ∃ p, s.pins[i.val]? = some p ∧ p.mode = .inLevel := by
    unfold State.pinMode
    cases s.pins[i.val]? <;> simp
  refine ⟨mode_iff, fun live mode distinct => ?_, fun none => ?_⟩
  · let u : State := { s with clock := s.clock + e, pins := s.pins.modify i.val fun p => { p with reading := some reading } }
    have taken := foldl_pointsTake (f := Owned.read s.station reading) (State.pointReading reading)
      (fun t n station => pointReading_takes station reading n) (ownedFrom_nodup (src := .pin i) distinct) u rfl
    have run : exec (.levelReading e i reading) s = .next ((ownedFrom (.pin i) s.points).foldl (State.pointReading reading) u) := by
      change execLevelReading e i reading s = _
      have mode' : State.pinMode i { s with clock := s.clock + e } = .inLevel := mode
      rw [execLevelReading, advance_live e live]
      simp only [live, if_true, State.pinReading, mode']
      rfl
    rw [run]
    generalize (ownedFrom (.pin i) s.points).foldl (State.pointReading reading) u = t at taken ⊢
    have stay := taken.ownedStay (s := u) distinct
    have read : ∀ q ∈ s.points, ∀ o, q.role = .owned o → o.source = .pin i →
        t.ownedAt q.number = some (o.read s.station reading q.kind) := fun q held o owned source =>
      taken.ownedAt (s := u) distinct held owned ((number_mem_ownedFrom distinct held).mpr ⟨o, owned?_eq_some.mpr owned, source⟩)
    refine ⟨t, rfl, ?_, ?_, taken.lists, ⟨stay.entries, stay.urgent, stay.routine⟩, taken.outputsStay (s := u) distinct,
      fun q held o owned source kind => ?_, fun q held o T owned source kind threshold binary => ?_,
      fun n other => taken.others (not_mem_ownedFrom (s := s) distinct other)⟩
    · rw [taken.only]
    · rw [taken.only]
    · have entry := read q held o owned source
      rw [kind] at entry
      refine ⟨_, entry, Owned.read_level_current .., fun running outside active => ?_, fun still => ?_⟩
      · rw [running]
        exact Owned.read_level_event ((outsideDeadband_iff o reading).mpr outside) active
      · rw [Owned.read_level_still]
        · exact ⟨rfl, rfl⟩
        · rcases still with joining | inside | yielded
          · exact .inl (by rw [joining]; decide)
          · exact .inr (.inl (mt (outsideDeadband_iff o reading).mp inside))
          · exact .inr (.inr yielded)
    · have entry := read q held o owned source
      rw [kind] at entry
      obtain ⟨off, high, low, zero⟩ := Owned.read_binary_threshold threshold s.station reading
      obtain ⟨same, changed⟩ := Owned.read_binary_transition threshold s.station reading
      refine ⟨_, entry, off, high, low, zero, fun stands => by rw [same stands]; exact ⟨rfl, rfl⟩, fun moves => ?_⟩
      obtain ⟨level, e⟩ := changed moves
      rw [e]
      refine ⟨Owned.atLevel_count (isBinaryFromPin_of source) .., fun running active => ?_⟩
      rw [running, Owned.atLevel_running]
      exact Owned.event_sched (o := o.stepTo level) active _
  · change execLevelReading e i reading s = _
    have unchanged : s.station.live = false ∨ ¬ State.pinMode i (s.advance e) = .inLevel := none
    rw [execLevelReading]
    rcases unchanged with dead | other
    · simp [State.advance, dead, after]
    · simp only [State.pinReading, other, if_false, ite_self]
      rfl

end Sys2Proof.Machine
end

