-- ==== Sys2Proof/Proofs/Press.lean ====
section
/-!
THEOREM. A HAND press (O49).
-/

namespace Sys2Proof.Machine

open Sys2Proof.Safety

/-! ## The output of a pin -/

theorem outputAt_map {s : State} {g : Output → Output} (pin : ∀ o, (g o).pin = o.pin) (i : Fin 16) :
    ({ s with outputs := s.outputs.map g } : State).outputAt i = (s.outputAt i).map g := by
  simp [State.outputAt, List.find?_map, pin]

theorem evaluate_pin (points : List Point) (o : Output) : (o.evaluate points).pin = o.pin := by rw [evaluate_only]

/-- The lists of a pin change, and its outputs are evaluated again (R144). -/
theorem evaluatePin_updateOverrides {s : State} (running : s.station = .running) (i : Fin 16) (f : List Override → List Override) :
    (s.updateOverrides i f).evaluatePin i = { s with
      outputs := s.outputs.map fun x => if x.pin = i then { x with overrides := f x.overrides }.evaluate s.points else x } := by
  simp only [State.evaluatePin, State.evaluateWhere, State.updateOverrides, running, if_true, List.map_map]
  congr 1
  refine List.map_congr_left fun x _ => ?_
  by_cases e : x.pin = i <;> simp [e]

/-- While an override stands, a report changes neither the list nor the held level of an output (R142, R143). -/
theorem outputAt_report {s : State} {i : Fin 16} {o : Output} (at_i : s.outputAt i = some o) (overridden : o.overrides ≠ [])
    (c : Condition) (b : Bool) : ∃ o', (s.report c b).outputAt i = some o' ∧ o'.overrides = o.overrides ∧ o'.held = o.held := by
  have turn : ∀ (t : State) (n : Nat), (∃ o', t.outputAt i = some o' ∧ o'.overrides = o.overrides ∧ o'.held = o.held) →
      ∃ o', (t.statusEvent n).outputAt i = some o' ∧ o'.overrides = o.overrides ∧ o'.held = o.held := by
    rintro t n ⟨o', at_i, overrides, held⟩
    have evaluated : (t.statusEvent n).outputs = (t.evaluateSource n).outputs := by
      unfold State.statusEvent
      dsimp only
      split
      · rw [changeEvent_queue]
      · rfl
    have found : (t.statusEvent n).outputAt i = (t.evaluateSource n).outputAt i := by rw [State.outputAt, evaluated]; rfl
    rw [found, evaluateSource_eq, outputAt_map fun o => by split <;> simp [evaluate_pin], at_i]
    refine ⟨_, rfl, ?_⟩
    dsimp only
    obtain ⟨entry, rest, listed⟩ := List.exists_cons_of_ne_nil overridden
    split
    · rw [evaluate_of_override (overrides.trans listed)]
      exact ⟨overrides, held⟩
    · exact ⟨overrides, held⟩
  unfold State.report
  split
  · exact ⟨o, at_i, rfl, rfl⟩
  · unfold State.statusChanged
    split
    · exact foldl_keeps _ _ turn _ _ ⟨o, at_i, rfl, rfl⟩
    · exact ⟨o, at_i, rfl, rfl⟩

/-! ## The press (R149, R150) -/

/-- The local entry that a press makes on an output driven at a level (R149). -/
def localEntry (driven : Bool) : Override := { origin := 0, value := !driven, lease := none }

/-- A press has put the local entry on the list of a pin. -/
def State.pressed (i : Fin 16) (driven : Bool) (s : State) : State :=
  { s with outputs := s.outputs.map fun x =>
      if x.pin = i then { x with driven := !driven, overrides := localEntry driven :: x.overrides } else x }

/-- The oldest entry of a pin's list has been given up, its origin's mark kept and the discard counted (R150). -/
def State.discarded (i : Fin 16) (origin : Station) (s : State) : State :=
  ((s.updateOverrides i List.dropLast).keepHoldsMark origin).bump .overrideDiscards

theorem handPress_without {s : State} {i : Fin 16} (none : s.outputAt i = none) : s.handPress i = s := by
  simp [State.handPress, none]

theorem handPress_release {s : State} {i : Fin 16} {o : Output} (running : s.station = .running) (at_i : s.outputAt i = some o)
    (held : ∃ x ∈ o.overrides, x.origin = 0) : s.handPress i = { s with
      outputs := s.outputs.map fun x =>
        if x.pin = i then { x with overrides := x.overrides.filter fun y => decide (y.origin ≠ 0) }.evaluate s.points else x } := by
  have : s.handPress i = (s.updateOverrides i (dropOrigin 0)).evaluatePin i := by
    simp only [State.handPress, at_i]
    exact if_pos (hasOrigin_iff.mpr held)
  rw [this, evaluatePin_updateOverrides running]
  have dropped : ∀ l : List Override, dropOrigin 0 l = l.filter fun y => decide (y.origin ≠ 0) := fun l =>
    List.filter_congr fun y _ => Bool.eq_iff_iff.mpr (by rw [bne_iff_ne, decide_eq_true_iff])
  simp only [dropped]

/-- A press without a local entry makes one, on a full list after the discard. -/
theorem handPress_push {s : State} {i : Fin 16} {o : Output} (running : s.station = .running) (at_i : s.outputAt i = some o)
    (none : ∀ x ∈ o.overrides, x.origin ≠ 0) :
    s.handPress i = (if 4 ≤ o.overrides.length then s.discardOldest i else s).pressed i o.driven := by
  have absent : hasOrigin 0 o.overrides = false := by
    rw [Bool.eq_false_iff, ne_eq, hasOrigin_iff]
    exact fun ⟨x, hx, e⟩ => none x hx e
  have pushed : ∀ t : State, t.station = .running →
      (t.updateOverrides i (localEntry o.driven :: ·)).evaluatePin i = t.pressed i o.driven := fun t running => by
    rw [evaluatePin_updateOverrides running]
    rfl
  simp only [State.handPress, at_i, absent, Bool.false_eq_true, if_false]
  split
  · next full =>
    refine (pushed _ ((discardOldest_tables i s).station.trans running)).trans ?_
    exact congrArg (State.pressed i o.driven) (if_pos full).symm
  · next room => exact (pushed s running).trans (congrArg (State.pressed i o.driven) (if_neg room).symm)

theorem discardOldest_eq {s : State} {i : Fin 16} {o : Output} {x : Override} (at_i : s.outputAt i = some o)
    (last : o.overrides.getLast? = some x) : s.discardOldest i = (s.discarded i x.origin).report .overflow true := by
  simp [State.discardOldest, State.discarded, at_i, last]

theorem outputAt_discarded {s : State} {i : Fin 16} {o : Output} (at_i : s.outputAt i = some o) (origin : Station) :
    (s.discarded i origin).outputAt i = some { o with overrides := o.overrides.dropLast } := by
  have pin : o.pin = i := by simpa using List.find?_some at_i
  refine (outputAt_map (s := s) (g := fun x => if x.pin = i then { x with overrides := x.overrides.dropLast } else x)
    (fun x => by split <;> rfl) i).trans ?_
  rw [at_i, Option.map_some, if_pos pin]

theorem outputAt_pressed {s : State} {i : Fin 16} {o : Output} (at_i : s.outputAt i = some o) (driven : Bool) :
    (s.pressed i driven).outputAt i = some { o with driven := !driven, overrides := localEntry driven :: o.overrides } := by
  have pin : o.pin = i := by simpa using List.find?_some at_i
  refine (outputAt_map (s := s) (g := fun x =>
    if x.pin = i then { x with driven := !driven, overrides := localEntry driven :: x.overrides } else x)
    (fun x => by split <;> rfl) i).trans ?_
  rw [at_i, Option.map_some, if_pos pin]

/-- The origin's mark is kept at a discard (R150, R152). -/
theorem discarded_mark {s : State} {i : Fin 16} {origin : Station} {y : Peer} (hy : y ∈ (s.discarded i origin).roster)
    (marked : origin = y.station) : y.holdsOverrides = holdsOverride origin (s.discarded i origin).outputs := by
  obtain ⟨z, -, rfl⟩ := List.mem_map.mp hy
  by_cases e : z.station = origin
  · simp only [e, if_true]; rfl
  · rw [if_neg e] at marked; exact absurd marked.symm e

theorem holdsOverride_congr {s t : State} (lists : outputLists t = outputLists s) (p : Station) :
    holdsOverride p t.outputs = holdsOverride p s.outputs := by
  have read : ∀ u : State, holdsOverride p u.outputs = (outputLists u).any fun x => hasOrigin p x.2.2 := fun u => by
    simp [holdsOverride, hasOrigin, outputLists, List.any_map, Function.comp_def]
  rw [read, read, lists]

/-- A local entry is of no other station. -/
theorem holdsOverride_pressed {p : Station} (remote : p ≠ 0) (i : Fin 16) (driven : Bool) (s : State) :
    holdsOverride p (s.pressed i driven).outputs = holdsOverride p s.outputs := by
  have other : ((localEntry driven).origin == p) = false := beq_eq_false_iff_ne.mpr (Ne.symm remote)
  simp only [holdsOverride, State.pressed, List.any_map]
  congr 1
  funext x
  by_cases e : x.pin = i <;> simp [e, other]

/-- Settles O49: a rise in RUNNING is handed on as a press; a report of OVERFLOW stands between the discard and the new entry. -/
theorem handPress : Obligations.HandPress := by
  intro e s i p level pin mode moved live u c
  obtain ⟨run, -, -⟩ := debouncedTransition e s i p level pin
  have transition : exec c s = .next (if level = true ∧ s.station = .running then u.handPress p.target else u) :=
    (run live (.inr mode) moved).trans (congrArg Host.Outcome.next (pinTransition_hand (s := { s with clock := s.clock + e }) pin mode level))
  refine ⟨fun unpressed => ?_, fun rise running => ?_⟩
  · rw [transition, if_neg]
    rintro ⟨rise, running⟩
    rcases unpressed with fall | joining
    · exact Bool.false_ne_true (fall.symm.trans rise)
    · rw [joining] at running; cases running
  rw [if_pos ⟨rise, running⟩] at transition
  refine ⟨fun without => ?_, fun o at_i => ⟨fun held => ?_, fun none room => ?_, fun none full => ?_⟩⟩
  · rw [transition, handPress_without (s := u) without]
  · rw [transition, handPress_release (s := u) running at_i held]
  · rw [transition, handPress_push (s := u) running at_i none, if_neg (Nat.not_le.mpr room)]
    rfl
  · obtain ⟨x, last⟩ : ∃ x, o.overrides.getLast? = some x :=
      ⟨_, List.getLast?_eq_some_getLast (List.ne_nil_of_length_pos (by omega))⟩
    let v := u.discarded p.target x.origin
    have pressed : exec c s = .next ((v.report .overflow true).pressed p.target o.driven) := by
      rw [transition, handPress_push (s := u) running at_i none, if_pos full, discardOldest_eq (s := u) at_i last]
    have reported := report_status .overflow true v
    have short : o.overrides.dropLast ≠ [] := List.ne_nil_of_length_pos (by rw [List.length_dropLast]; omega)
    obtain ⟨o', found, overrides, held⟩ := outputAt_report (outputAt_discarded (s := u) at_i x.origin) short .overflow true
    refine ⟨_, _, pressed, outputAt_pressed found o.driven, congrArg (localEntry o.driven :: ·) overrides, rfl, held, reported.counters,
      report_faults .overflow true v, fun y hy marked => ?_, fun distinct => ?_⟩
    · rw [last] at marked
      have same : x.origin = y.station := Option.some.inj marked
      have remote : y.station ≠ 0 := same ▸ none x (List.mem_of_getLast? last)
      rw [holdsOverride_pressed remote, holdsOverride_congr (outputLists_report .overflow true v), ← same]
      exact discarded_mark (reported.roster ▸ hy) same
    · intro outputs
      have roster : v.roster = s.roster.map fun y =>
          if o.overrides.getLast?.map Override.origin = some y.station then
            { y with holdsOverrides := holdsOverride y.station outputs }
          else y := by
        refine List.map_congr_left fun y _ => ?_
        rw [last, Option.map_some]
        by_cases e : y.station = x.origin
        · rw [if_pos e, if_pos (congrArg some e.symm), e]; rfl
        · rw [if_neg e, if_neg fun h => e (Option.some.inj h).symm]
      have counters : ((v.report .overflow true).pressed p.target o.driven).counters = v.counters := reported.counters
      have whole : v = { u with outputs := outputs, roster := v.roster, counters := v.counters } := rfl
      rw [counters, ← roster, ← whole, report_eq (s := v) distinct]
      rfl

end Sys2Proof.Machine
end

