-- ==== Sys2Proof/Proofs/Duplicate.lean ====
section
/-!
THEOREM. A duplicate detection (O27).
-/

namespace Sys2Proof.Machine

open Sys2Proof.Safety

theorem advance_dispatches (e : Time) {s : State} (dispatches : s.station.dispatches = true) :
    s.advance e = { s with clock := s.clock + e } := by
  have : s.station ≠ .halted := fun halted => by rw [halted] at dispatches; cases dispatches
  simp [State.advance, this]

theorem Solicit.unmark_eq (x : Solicit) : x.unmark = { x with state := match x.state with
    | .waiting _ => .waiting false
    | .sent d => .sent d
    | .covered d => .covered d } := by
  obtain ⟨point, state, attempts⟩ := x
  cases state <;> rfl

theorem headerGood_of {cls : FrameClass} {p d : Station} {body : List Byte} (ok : stationOk p = true) (fits : bodyOk body = true)
    (dest : cls.broadcast = true → d = Config.everyone) : headerGood cls p d body = true := by
  simp only [stationOk, bodyOk, Bool.and_eq_true, decide_eq_true_eq] at ok fits
  cases hc : cls.broadcast <;> simp_all [headerGood]

/-- A good frame of any class with this station's own number is a duplicate detection (R77). -/
theorem arrive_own {s : State} {cls : FrameClass} {own d : Station} {body : List Byte} (number : s.number = some own)
    (good : headerGood cls own d body = true) :
    s.arrive cls own d body = if s.assembles then (s.bump .framesReceived).enterHalted else s := by
  unfold State.arrive State.goodFrame
  rw [if_pos good]
  refine congrArg (fun t => if s.assembles = true then t else s) ?_
  exact if_pos number

/-- Settles O27: a good frame with the own number is counted, then HALTED is entered on the frozen table. -/
theorem duplicateDetection : Obligations.DuplicateDetection := by
  have run : ∀ (e : Time) (s : State), exec (.duplicateDetection e) s =
      .next (if s.assembles then ((s.advance e).bump .framesReceived).enterHalted else s.advance e) := fun e s => rfl
  refine ⟨fun e s receives => ?_, fun e s silent => ?_, fun e s own d body number ok fits => ?_⟩
  · rw [run, if_pos ((assembles_iff s).mpr receives), advance_dispatches e receives.1, State.enterHalted, funext Solicit.unmark_eq]
    rfl
  · rw [run, if_neg (mt (assembles_iff s).mp silent)]
    rfl
  · have same : ∀ cls dest, (cls.broadcast = true → dest = Config.everyone) →
        .next ((s.advance e).arrive cls own dest body) = exec (.duplicateDetection e) s := fun cls dest all =>
      congrArg Host.Outcome.next (arrive_own (s := s.advance e) number (headerGood_of ok fits all))
    exact ⟨same .urgentPublish _ fun _ => rfl, same .routinePublish _ fun _ => rfl, same .solicit _ fun _ => rfl,
      same .presence _ fun _ => rfl, same .reply d nofun, fun cls => same (frameOfRequest cls) d (by cases cls <;> nofun)⟩

end Sys2Proof.Machine
end

