-- ==== Sys2Proof/Proofs/LineLevel.lean ====
section
/-!
THEOREM. Dominant level, stuck line and line idle (O25); what a line-idle event brings before the choice.
-/

namespace Sys2Proof.Machine

open Sys2Proof.Safety

/-! ## A change of the summary, and what it does not read -/

/-- A change of the summary reads the station state, the summary, the points, the queue and the outputs only, and leaves all else. -/
theorem summaryTaken_of {s t : State} (station : t.station = s.station) (faults : t.faults = s.faults) (points : t.points = s.points)
    (urgent : t.urgent = s.urgent) (routine : t.routine = s.routine) (outputs : t.outputs = s.outputs) (f : FaultSummary) :
    summaryTaken f t = { t with
      faults := f, points := (summaryTaken f s).points, urgent := (summaryTaken f s).urgent
      routine := (summaryTaken f s).routine, outputs := (summaryTaken f s).outputs } := by
  have whole : t = { t with
      station := s.station, faults := s.faults, points := s.points, urgent := s.urgent, routine := s.routine, outputs := s.outputs } := by
    rw [← station, ← faults, ← points, ← urgent, ← routine, ← outputs]
  rw [whole]
  unfold summaryTaken
  by_cases same : f = s.faults
  · simp only [same, if_true]
  · simp only [same, if_false]
    cases s.station <;> rfl

theorem summaryTaken_only (f : FaultSummary) (s : State) : summaryTaken f s = { s with
    faults := f, points := (summaryTaken f s).points, urgent := (summaryTaken f s).urgent
    routine := (summaryTaken f s).routine, outputs := (summaryTaken f s).outputs } := summaryTaken_of rfl rfl rfl rfl rfl rfl f

theorem summaryTaken_faults (f : FaultSummary) (s : State) : (summaryTaken f s).faults = f := by rw [summaryTaken_only]
theorem summaryTaken_station (f : FaultSummary) (s : State) : (summaryTaken f s).station = s.station := by rw [summaryTaken_only]
theorem summaryTaken_mode (f : FaultSummary) (s : State) : (summaryTaken f s).mode = s.mode := by rw [summaryTaken_only]
theorem summaryTaken_number (f : FaultSummary) (s : State) : (summaryTaken f s).number = s.number := by rw [summaryTaken_only]
theorem summaryTaken_header (f : FaultSummary) (s : State) : (summaryTaken f s).header = s.header := by rw [summaryTaken_only]
theorem summaryTaken_inFlight (f : FaultSummary) (s : State) : (summaryTaken f s).inFlight = s.inFlight := by rw [summaryTaken_only]
theorem summaryTaken_clock (f : FaultSummary) (s : State) : (summaryTaken f s).clock = s.clock := by rw [summaryTaken_only]

/-! ## A dominant level (R64, R65, R75) -/

/-- The receive assembly after a level with the samples of the character that it begins (R64, R67, R75). -/
def State.assemblyAt (bits : CharBits) (s : State) : Assembly :=
  match sampleChar bits with
  | some c => if s.station.dispatches then s.assembly.takeChar c else s.assembly
  | none => s.assembly

theorem assemblyAt_char {bits : CharBits} {s : State} (dispatches : s.station.dispatches = true) (start : bits.getLsbD 0 = false) :
    s.assemblyAt bits = s.assembly.takeChar { data := bits.extractLsb' 1 8, stopRecessive := bits.getLsbD 9 } := by
  rcases sampleChar_cases bits with ⟨glitch, -⟩ | ⟨-, char⟩
  · rw [start] at glitch; cases glitch
  · simp [State.assemblyAt, char, dispatches]

theorem assemblyAt_kept {bits : CharBits} {s : State}
    (untaken : bits.getLsbD 0 = true ∨ s.station.dispatches = false ∨ s.assembly = .ignoring) : s.assemblyAt bits = s.assembly := by
  rcases sampleChar_cases bits with ⟨-, char⟩ | ⟨start, char⟩
  · simp [State.assemblyAt, char]
  · rcases untaken with glitch | deaf | ignoring
    · rw [start] at glitch; cases glitch
    · simp [State.assemblyAt, char, deaf]
    · simp [State.assemblyAt, char, ignoring]

theorem execDominantLevelSeen_tracked {s : State} (tracked : s.line = .idle ∨ s.line = .busy) (e : Time) (bits : CharBits) :
    exec (.dominantLevelSeen { elapsed := e, bits := bits }) s =
      .next { s.advance e with line := .busy, assembly := s.assemblyAt bits } :=
  congrArg Host.Outcome.next (if_pos tracked)

/-! ## A stuck line (R86) -/

/-- Outside JOINING and RUNNING a report reaches the summary only (R34). -/
theorem report_dead {s : State} (dead : s.station.live = false) (c : Condition) (b : Bool) :
    s.report c b = { s with faults := s.faults.put c b } := by
  unfold State.report
  split
  · next stands => rw [← stands, FaultSummary.put_get]
  · exact statusChanged_other (s := { s with faults := s.faults.put c b }) dead

/-- The station at the start of an episode, before LINE is reported (R86). -/
def State.stuckBegun (s : State) : State :=
  { s with
    line := .stuck
    assembly := if s.assembly = .empty then .empty else .ignoring
    counters := { s.counters with
      stuckLineEpisodes := saturatingStep s.counters.stuckLineEpisodes
      receiveErrors := if s.assembly.inProgress then saturatingStep s.counters.receiveErrors else s.counters.receiveErrors } }

theorem stuckLine_eq {s : State} (active : s.station ≠ .halted) : s.stuckLine = s.stuckBegun.report .line true := by
  simp only [State.stuckLine, active, if_false]
  congr 1
  unfold State.stuckBegun
  cases s.assembly <;> rfl

theorem execStuckLineEpisode_tracked {s : State} (tracked : s.line = .idle ∨ s.line = .busy) (e : Time) :
    exec (.stuckLineEpisode e) s = .next (s.advance e).stuckLine := congrArg Host.Outcome.next (if_pos tracked)

theorem untracked_of {s : State} (still : s.line = .stuck ∨ s.line = .notTracked) : ¬ (s.line = .idle ∨ s.line = .busy) := by
  rcases still with h | h <;> rw [h] <;> decide

/-! ## A line-idle event -/

/-- The line is IDLE with nothing in assembly, and LINE clears (R65, R86). -/
def State.lineCleared (s : State) : State := State.report .line false { s with line := .idle, assembly := .empty }

theorem execLineIdleEvent_idle {s : State} (tracked : s.station ≠ .starting) (idle : s.inFlight = none) (e : Time) :
    exec (.lineIdleEvent e) s = .next (s.advance e).lineCleared.transmit :=
  congrArg Host.Outcome.next (if_neg (not_or.mpr ⟨tracked, by simp [idle]⟩))

/-- A choice starts a frame on a BUSY line, or changes nothing (R65, R70). -/
theorem transmit_starts (s : State) : s.transmit = s
    ∨ (s.transmit.inFlight.isSome = true ∧ s.transmit.line = .busy ∧ s.transmit.faults = s.faults) := by
  unfold State.transmit
  split
  · exact .inr ⟨rfl, rfl, rfl⟩
  · exact .inr ⟨rfl, rfl, rfl⟩
  · split
    · exact .inr ⟨rfl, rfl, rfl⟩
    · exact .inl rfl
  · exact .inr ⟨rfl, rfl, rfl⟩
  · exact .inr ⟨rfl, rfl, rfl⟩
  · exact .inl rfl
  · exact .inl rfl
  · exact .inl rfl

/-- Settles O25: the level moves the line; an episode and its end bring the report of LINE. -/
theorem lineFollowsTheLevel : Obligations.LineFollowsTheLevel := by
  refine ⟨fun e bits s tracked dispatches start => ?_, fun e bits s tracked untaken => ?_, fun e bits s still => ?_,
    fun e s tracked active => ?_, fun e s tracked halted => ?_, fun e s still => ?_, fun e s tracked idle => ?_⟩
  · intro c taken
    have run := execDominantLevelSeen_tracked tracked e bits
    rw [advance_dispatches e dispatches, assemblyAt_char dispatches start] at run
    refine ⟨fun empty => ?_, fun chars assembling => ⟨fun room => ?_, fun full => ?_⟩⟩
    · rw [run, empty]; rfl
    · rw [run, assembling, Assembly.takeChar_room room]
    · rw [run, assembling, Assembly.takeChar_full full]
  · rw [execDominantLevelSeen_tracked tracked e bits, assemblyAt_kept untaken]
    rfl
  · exact congrArg Host.Outcome.next (if_neg (untracked_of still))
  · have run := execStuckLineEpisode_tracked tracked e
    have clock : s.advance e = { s with clock := s.clock + e } := by simp [State.advance, active]
    let u : State := { s with clock := s.clock + e }
    rw [stuckLine_eq (s := s.advance e) active, clock] at run
    have reported := report_status .line true u.stuckBegun
    have assembly : (u.stuckBegun.report .line true).assembly = u.stuckBegun.assembly := by rw [reported]
    refine ⟨_, run, ?_, outputLists_report .line true u.stuckBegun, assembly, ?_, fun distinct => ?_⟩
    · have faults : (u.stuckBegun.report .line true).faults = { s.faults with line := true } := report_faults .line true u.stuckBegun
      rw [← faults, reported]
      rfl
    · rw [reported.counters]
      cases assembly : s.assembly <;> simp [State.stuckBegun, u, assembly]
    · rw [reported.counters, assembly, report_eq (s := u.stuckBegun) distinct]
      rfl
  · have begun : (s.advance e).stuckLine = State.report .line true { s.advance e with
        line := .stuck, assembly := if s.assembly = .empty then .empty else .ignoring } := if_pos halted
    rw [execStuckLineEpisode_tracked tracked e, begun, report_dead (by rw [State.advance_station, halted]; rfl)]
    simp [State.advance, halted, FaultSummary.put]
  · exact congrArg Host.Outcome.next (if_neg (untracked_of still))
  · have reported := report_status .line false { s.advance e with line := .idle, assembly := .empty }
    have cleared : (s.advance e).lineCleared.faults = { s.faults with line := false } :=
      report_faults .line false { s.advance e with line := .idle, assembly := .empty }
    have grounded : (s.advance e).lineCleared.inFlight = none := reported.tables.inFlight.trans idle
    refine ⟨_, execLineIdleEvent_idle tracked idle e, ?_⟩
    rcases transmit_starts (s.advance e).lineCleared with still | ⟨flies, busy, faults⟩
    · rw [still]
      refine ⟨cleared, fun _ => ?_, fun flies => ?_⟩
      · rw [State.lineCleared, reported]; exact ⟨rfl, rfl⟩
      · rw [grounded] at flies; cases flies
    · refine ⟨faults.trans cleared, fun none => ?_, fun _ => busy⟩
      rw [none] at flies; cases flies

end Sys2Proof.Machine
end

