-- ==== Sys2Proof/Proofs/LineIdle.lean ====
section
/-!
THEOREM. The choice at a line-idle event in ACTIVE (O23), and the event in the other modes and states (O24).
-/

namespace Sys2Proof.Machine

open Sys2Proof.Safety

/-! ## What the choice is made of -/

/-- At the choice LINE has cleared, with all that a change of the summary brings (R33, R86). -/
theorem lineCleared_eq {s : State} (distinct : s.faults.line = true → (s.points.map Point.number).Nodup) (e : Time) :
    (s.advance e).lineCleared =
      { summaryTaken { s.faults with line := false } s with clock := after e s, line := .idle, assembly := .empty } := by
  let t : State := { s.advance e with line := .idle, assembly := .empty }
  have cleared : t.report .line false = summaryTaken { s.faults with line := false } t := by
    by_cases stuck : s.faults.line = true
    · exact report_eq (s := t) (distinct stuck) .line false
    · have clear : s.faults.line = false := Bool.eq_false_iff.mpr stuck
      have stands : { s.faults with line := false } = t.faults := by rw [← clear]; rfl
      rw [stands, summaryTaken_self]
      exact if_pos clear
  have whole := summaryTaken_only { s.faults with line := false } s
  rw [State.lineCleared, cleared, summaryTaken_of (s := s) (t := t) rfl rfl rfl rfl rfl rfl]
  generalize summaryTaken { s.faults with line := false } s = u at whole ⊢
  rw [whole]
  rfl

/-! ## The choice (R79) and the frame assembled (R50, R51, R111) -/

theorem choice_active {s : State} (running : s.station = .running) (active : s.mode = .active) : s.choice = s.lowestCandidate := by
  simp [State.choice, running, active]

theorem lowestCandidate_urgent {s : State} (urgent : s.urgent ≠ []) : s.lowestCandidate = some .urgentPublish := by
  simp [State.lowestCandidate, State.publicationCandidate, urgent]

theorem publicationCandidate_calm {s : State} (urgent : s.urgent = []) :
    s.publicationCandidate = if s.routine = [] then none else some .routinePublish := by
  cases h : s.routine <;> simp [State.publicationCandidate, urgent, h]

/-- Without an urgent point: a reply, else a solicitation, else a presence frame, else a routine publication (R79). -/
theorem lowestCandidate_calm {s : State} (urgent : s.urgent = []) : s.lowestCandidate =
    if s.replies ≠ [] then some .reply
    else if ∃ x ∈ s.solicits, x.state = .waiting false then some .solicit
    else if s.presencePending = true then some .presence
    else if s.routine = [] then none else some .routinePublish := by
  have candidate := publicationCandidate_calm urgent
  have calm : s.publicationCandidate ≠ some .urgentPublish := by
    rw [candidate]; split <;> simp
  have ready : s.solicits.any Solicit.ready = true ↔ ∃ x ∈ s.solicits, x.state = .waiting false := by simp [Solicit.ready]
  rw [State.lowestCandidate, if_neg calm, candidate]
  simp only [ready]
  cases s.replies <;> simp

theorem markTaken_eq (s : State) : s.markTaken = { s with
    points := s.points.map fun p =>
      if p.number ∈ (s.urgent ++ s.routine).take 6 then
        p.mapOwned fun o => { o with
          inFlight := true, carried := if p.kind = .level ∧ o.source ≠ .status then some o.current else o.carried }
      else p } := by
  have take : ∀ k, Owned.take k = fun o => { o with
      inFlight := true, carried := if k = .level ∧ o.source ≠ .status then some o.current else o.carried } := fun k =>
    funext fun o => by simp only [Owned.take, isLevelFromPin_iff]
  simp only [State.markTaken, take, List.contains_iff_mem]
  rfl

theorem markSolicited_eq (s : State) : s.markSolicited = { s with
    solicits := s.solicits.map fun x =>
      if x.state = .waiting false ∧ x.point ∈ ((s.solicits.filter fun x => x.state == .waiting false).take 8).map Solicit.point then
        { x with state := .waiting true }
      else x } := by
  simp only [State.markSolicited, Solicit.ready, Bool.and_eq_true, beq_iff_eq, List.contains_iff_mem]
  rfl

theorem startFrame_eq {s : State} {own : Station} (number : s.number = some own) (content : TxContent) : s.startFrame content =
    { s with line := .busy, assembly := .assembling [], inFlight := some { sender := own, content := content } } := by
  simp [State.startFrame, number]

theorem transmit_urgentPublish {s : State} (chosen : s.choice = some .urgentPublish) :
    s.transmit = s.markTaken.startFrame (.publication true s.nextRecords) := by simp [State.transmit, chosen]

theorem transmit_routinePublish {s : State} (chosen : s.choice = some .routinePublish) :
    s.transmit = s.markTaken.startFrame (.publication false s.nextRecords) := by simp [State.transmit, chosen]

theorem transmit_reply {s : State} {r : Reply} {rs : List Reply} (chosen : s.choice = some .reply) (replies : s.replies = r :: rs) :
    s.transmit = s.startFrame (.reply r) := by simp [State.transmit, chosen, replies]

theorem transmit_solicit {s : State} (chosen : s.choice = some .solicit) :
    s.transmit = s.markSolicited.startFrame (.solicit s.nextSolicited) := by simp [State.transmit, chosen]

theorem transmit_presence {s : State} (chosen : s.choice = some .presence) :
    s.transmit = s.startFrame (.presence s.presenceContent) := by simp [State.transmit, chosen]

theorem transmit_none {s : State} (none : s.choice = none) : s.transmit = s := by simp [State.transmit, none]

/-- The content of a presence frame while an image is in force (R122). -/
theorem presenceContent_eq {s : State} {h : Header} (header : s.header = some h) : s.presenceContent =
    { periodCode := h.periodCode, boot := decide (s.bootCount < 3), probing := s.mode == .probing, cause := s.retained.cause
      incarnation := s.retained.incarnation, faults := s.faults.byte } := by
  rw [State.presenceContent, header]
  rfl

/-- Settles O23: once LINE has cleared, the candidates of R79 are tried one after another. -/
theorem lineIdleChoice : Obligations.LineIdleChoice := by
  intro e before own h running active idle distinct number header s taken records marked asked sending
  let v : State := { s with clock := s.clock + e, line := .idle, assembly := .empty }
  have numbered : v.number = some own := (summaryTaken_number _ before).trans number
  have headed : v.header = some h := (summaryTaken_header _ before).trans header
  have mode : v.mode = .active := (summaryTaken_mode _ before).trans active
  have clock : after e before = s.clock + e := by
    rw [after, if_neg (by rw [running]; decide), ← summaryTaken_clock]
  have run : exec (.lineIdleEvent e) before = .next v.transmit := by
    rw [execLineIdleEvent_idle (by rw [running]; decide) idle e, lineCleared_eq distinct e, clock]
  have choice : v.choice = v.lowestCandidate := choice_active ((summaryTaken_station _ before).trans running) mode
  have calm : s.urgent = [] → v.choice = _ := fun urgent => choice.trans (lowestCandidate_calm (s := v) urgent)
  have unasked : (∀ x ∈ s.solicits, x.state ≠ .waiting false) → ¬ ∃ x ∈ v.solicits, x.state = .waiting false :=
    fun unready ⟨x, hx, ready⟩ => unready x hx ready
  rw [run]
  refine ⟨fun urgent => ?_, fun urgent r rs replies => ?_, fun urgent replies ready => ?_, fun urgent replies unready pending => ?_,
    fun urgent replies unready unpending routine => ?_, fun urgent replies unready unpending routine => ?_⟩
  · rw [transmit_urgentPublish (choice.trans (lowestCandidate_urgent (s := v) urgent)), markTaken_eq, startFrame_eq (by exact numbered)]
    rfl
  · have replies' : v.replies = r :: rs := replies
    rw [transmit_reply ((calm urgent).trans (if_pos (by simp [replies']))) replies', startFrame_eq numbered]
  all_goals
    have calm := (calm urgent).trans (if_neg (not_not.mpr replies))
  · rw [transmit_solicit (calm.trans (if_pos ready)), markSolicited_eq, startFrame_eq (by exact numbered)]
    rfl
  all_goals
    have calm := calm.trans (if_neg (unasked unready))
  · have unprobing : (v.mode == .probing) = false := by rw [mode]; rfl
    rw [transmit_presence (calm.trans (if_pos pending)), startFrame_eq numbered, presenceContent_eq headed, unprobing]
  all_goals
    have calm := calm.trans (if_neg (Bool.eq_false_iff.mp unpending))
  · rw [transmit_routinePublish (calm.trans (if_neg routine)), markTaken_eq, startFrame_eq (by exact numbered)]
    rfl
  · rw [transmit_none (calm.trans (if_pos routine))]

/-- Settles O24: by station state and line mode the selector has one candidate at most (R80). -/
theorem lineIdleRestricted : Obligations.LineIdleRestricted := by
  intro e before s quiet sending
  refine ⟨fun tracked idle distinct => ?_, fun still => congrArg Host.Outcome.next (if_pos still)⟩
  have station : s.station = before.station := summaryTaken_station _ before
  have run : exec (.lineIdleEvent e) before = .next quiet.transmit := by
    rw [execLineIdleEvent_idle (station ▸ tracked) ((summaryTaken_inFlight _ before).symm.trans idle) e, lineCleared_eq distinct e]
  have unchosen : quiet.choice = none → exec (.lineIdleEvent e) before = .next quiet := fun none => run.trans (by rw [transmit_none none])
  refine ⟨fun running silenced => unchosen ?_, fun running probing unpending => unchosen ?_, fun running probing pending => ?_,
    fun unconfigured none => unchosen ?_, fun unconfigured r rs replies => ?_, fun other => unchosen ?_⟩
  · simp [State.choice, quiet, running, silenced]
  · simp [State.choice, quiet, running, probing, unpending]
  · have chosen : quiet.choice = some .presence := by simp [State.choice, quiet, running, probing, pending]
    refine ⟨quiet.presenceContent, by rw [run, transmit_presence chosen]; rfl, fun h header => ?_, ?_, rfl, rfl, rfl, rfl⟩
    · rw [presenceContent_eq (s := quiet) header]
    · simp [State.presenceContent, quiet, probing]
  · simp [State.choice, quiet, unconfigured, none]
  · have chosen : quiet.choice = some .reply := by simp [State.choice, quiet, unconfigured, replies]
    rw [run, transmit_reply chosen replies]
    rfl
  · rcases other with joining | halted
    · simp [State.choice, quiet, joining]
    · simp [State.choice, quiet, halted]

end Sys2Proof.Machine
end

