-- ==== Sys2Proof/Proofs/Outcomes.lean ====
section
/-!
THEOREM. A frame that is not sent (O29), and the completion of a frame other than a publication (O30).
-/

namespace Sys2Proof.Machine

open Sys2Proof.Safety

/-! ## The end of a frame, failure accounting (R70 to R73, R82, R84) -/

/-- The driver is released and the outcome counted (R70 to R72). -/
def State.ended (out : TxOutcome) (s : State) : State :=
  State.bump out.counter
    { s with inFlight := none, assembly := if out == .complete && s.assembly.inProgress then .empty else s.assembly }

theorem endFrame_flying {s : State} {f : TxFrame} (flying : s.inFlight = some f) (out : TxOutcome) :
    s.endFrame out = ((s.ended out).account out).ownerOutcome f.content out := by
  rw [State.endFrame, flying]
  rfl

theorem endFrame_idle {s : State} (idle : s.inFlight = none) (out : TxOutcome) : s.endFrame out = s := by
  rw [State.endFrame, idle]

theorem account_other {s : State} (other : s.station ≠ .running) (out : TxOutcome) : s.account out = s := if_neg other

theorem account_lost {s : State} (running : s.station = .running) (active : s.mode = .active) : s.account .lost = s := by
  simp [State.account, running, active]

theorem account_failed {s : State} (running : s.station = .running) (active : s.mode = .active) : s.account .failed =
    if s.failures < 5 then { s with failures := s.failures + 1 } else s.enterSilenced s.quarantineLength := by
  have few : s.failures + 1 < Config.failuresBeforeSilence ↔ s.failures < 5 := Nat.succ_lt_succ_iff
  simp only [State.account, if_pos running, active, few]

theorem account_probe_complete {s : State} (running : s.station = .running) (probing : s.mode = .probing) :
    s.account .complete = s.enterActive := by simp [State.account, running, probing]

theorem account_probe_lost {s : State} (running : s.station = .running) (probing : s.mode = .probing) :
    s.account .lost = { s with failures := 0 } := by simp [State.account, running, probing]

theorem account_probe_failed {s : State} (running : s.station = .running) (probing : s.mode = .probing) :
    s.account .failed = s.enterSilenced (min 16 (2 * s.quarantineLength)) := by
  simp only [State.account, if_pos running, probing]
  rfl

/-- SILENCED has been entered, but for the report of it (R82, R84). -/
def State.silenced (length : Nat) (s : State) : State :=
  { s with
    mode := .silenced, failures := 0, quarantineLength := length, quarantineTimer := some (s.clock + length * 1000000) }

theorem enterSilenced_again {s : State} (holds : s.faults.silenced = true) (length : Nat) : s.enterSilenced length = s.silenced length :=
  if_pos holds

/-- A station that becomes silenced, with what the change of the summary brings (R33, R82), which reads `s`. -/
theorem enterSilenced_first {s t : State} (station : t.station = s.station) (faults : t.faults = s.faults) (points : t.points = s.points)
    (urgent : t.urgent = s.urgent) (routine : t.routine = s.routine) (outputs : t.outputs = s.outputs)
    (distinct : (s.points.map Point.number).Nodup) (length : Nat) :
    t.enterSilenced length =
      let u := summaryTaken { s.faults with silenced := true } s
      { t.silenced length with
        faults := { s.faults with silenced := true }
        points := u.points, urgent := u.urgent, routine := u.routine, outputs := u.outputs } := by
  have reported : t.enterSilenced length = summaryTaken (t.faults.put .silenced true) (t.silenced length) :=
    report_eq (s := t.silenced length) (by rw [← points] at distinct; exact distinct) .silenced true
  rw [reported, faults]
  exact summaryTaken_of (s := s) (t := t.silenced length) station faults points urgent routine outputs _

/-- A completed probe returns the station to ACTIVE, with what the change of the summary brings (R33, R84), which reads `s`. -/
theorem enterActive_eq {s t : State} (station : t.station = s.station) (faults : t.faults = s.faults) (points : t.points = s.points)
    (urgent : t.urgent = s.urgent) (routine : t.routine = s.routine) (outputs : t.outputs = s.outputs)
    (distinct : (s.points.map Point.number).Nodup) :
    t.enterActive =
      let u := summaryTaken { s.faults with silenced := false } s
      { t with
        mode := .active, failures := 0, quarantineLength := 2
        faults := { s.faults with silenced := false }
        points := u.points, urgent := u.urgent, routine := u.routine, outputs := u.outputs } := by
  let active : State := { t with mode := .active, failures := 0, quarantineLength := 2 }
  have reported : t.enterActive = summaryTaken (t.faults.put .silenced false) active :=
    report_eq (s := active) (by rw [← points] at distinct; exact distinct) .silenced false
  rw [reported, faults]
  exact summaryTaken_of (s := s) (t := active) station faults points urgent routine outputs _

/-! ## The owner of a frame that is not sent (R53, R112, R124, R173) -/

/-- Both marks of the points of a frame are cleared (R53). -/
def State.unmarked (records : List Record) (s : State) : State :=
  { s with
    points := s.points.map fun p =>
      if p.number ∈ recordPoints records then p.mapOwned (fun o => { o with inFlight := false, dirty := false }) else p }

/-- The entries of a SOLICIT frame wait again (R112). -/
def State.unasked (s : State) : State :=
  { s with solicits := s.solicits.map fun x => if x.state = .waiting true then { x with state := .waiting false } else x }

theorem foldl_pointNotSent (l : List Nat) (s : State) : l.foldl State.pointNotSent s = { s with
    points := s.points.map fun p => if p.number ∈ l then p.mapOwned (fun o => { o with inFlight := false, dirty := false }) else p } := by
  induction l generalizing s with
  | nil => simp
  | cons n l ih =>
    rw [List.foldl_cons, ih]
    have points : (s.pointNotSent n).points = s.points.map fun p =>
        if p.number = n then p.mapOwned (fun o => { o with inFlight := false, dirty := false }) else p := rfl
    rw [points, List.map_map]
    refine congrArg (fun points => { s with points := points }) (List.map_congr_left fun p _ => ?_)
    by_cases e : p.number = n
    · by_cases h : n ∈ l <;> simp [e, h, Point.mapOwned_mapOwned]
    · simp [e]

theorem publicationOutcome_notSent (records : List Record) (s : State) : s.publicationOutcome records false = s.unmarked records :=
  foldl_pointNotSent (recordPoints records) s

theorem flying_iff (x : Solicit) : x.flying = true ↔ x.state = .waiting true := by simp [Solicit.flying]

theorem solicitOutcome_notSent (s : State) : s.solicitOutcome false = s.unasked := by
  simp only [State.solicitOutcome, flying_iff]
  rfl

/-- What the owner of a frame makes of a loss or a failure, by the frame's content. -/
theorem ownerOutcome_notSent {c : Instr} {s t : State} {content : TxContent} {out : TxOutcome} (short : out ≠ .complete)
    (run : exec c s = .next (t.ownerOutcome content out)) :
    (∀ u records, content = .publication u records → exec c s = .next (t.unmarked records))
    ∧ (∀ points, content = .solicit points → exec c s = .next t.unasked)
    ∧ (∀ p, content = .presence p → exec c s = .next (t.presenceOutcome out))
    ∧ ∀ r, content = .reply r → exec c s = .next t := by
  have incomplete : (out == .complete) = false := beq_eq_false_iff_ne.mpr short
  refine ⟨?_, ?_, ?_, ?_⟩
  · rintro u records rfl
    rw [run, State.ownerOutcome, incomplete, publicationOutcome_notSent]
  · rintro points rfl
    rw [run, State.ownerOutcome, incomplete, solicitOutcome_notSent]
  · rintro p rfl
    rw [run, State.ownerOutcome]
  · rintro r rfl
    cases out
    · exact absurd rfl short
    · exact run
    · exact run

/-- Settles O29: failure accounting takes the outcome, then the owner does; the sixth failure and a failed probe silence the station. -/
theorem frameNotSent : Obligations.FrameNotSent := by
  intro e s f flying lost failed silenced unmarked waiting
  have run : ∀ out, (s.advance e).endFrame out = (((s.advance e).ended out).account out).ownerOutcome f.content out :=
    endFrame_flying (s := s.advance e) flying
  have contention : exec (.contentionLost e) s = .next ((((s.advance e).ended .lost).account .lost).ownerOutcome f.content .lost) :=
    congrArg Host.Outcome.next (run .lost)
  have failure : exec (.transmitFailure e) s = .next ((((s.advance e).ended .failed).account .failed).ownerOutcome f.content .failed) :=
    congrArg Host.Outcome.next (run .failed)
  have ended : s.station.dispatches = true → (s.advance e).ended .lost = lost ∧ (s.advance e).ended .failed = failed := fun dispatches => by
    rw [advance_dispatches e dispatches]
    exact ⟨rfl, rfl⟩
  have awake : s.station = .running → s.station.dispatches = true := fun running => by rw [running]; rfl
  refine ⟨fun running active => ?_, fun running active few => ?_, fun running active sixth clear distinct => ?_,
    fun running probing holds p presence => ?_, fun unconfigured r reply => ?_⟩
  · obtain ⟨ended, -⟩ := ended (awake running)
    rw [ended, account_lost (s := lost) running active] at contention
    exact ownerOutcome_notSent (by decide) contention
  · obtain ⟨-, ended⟩ := ended (awake running)
    rw [ended, account_failed (s := failed) running active, if_pos (by exact few)] at failure
    exact ownerOutcome_notSent (by decide) failure
  · obtain ⟨-, ended⟩ := ended (awake running)
    have full : ¬ failed.failures < 5 := by rw [show failed.failures = 5 from sixth]; decide
    rw [ended, account_failed (s := failed) running active, if_neg full,
      enterSilenced_first (s := s) (t := failed) rfl rfl rfl rfl rfl rfl distinct] at failure
    exact ownerOutcome_notSent (by decide) failure
  · obtain ⟨endedLost, endedFailed⟩ := ended (awake running)
    rw [endedLost, account_probe_lost (s := lost) running probing, presence] at contention
    rw [endedFailed, account_probe_failed (s := failed) running probing, enterSilenced_again (s := failed) holds, presence] at failure
    have stands : { s.faults with silenced := true } = s.faults := by rw [← holds]
    refine ⟨contention, failure.trans ?_⟩
    simp only [silenced, stands]
    rfl
  · obtain ⟨endedLost, endedFailed⟩ := ended (by rw [unconfigured]; rfl)
    have other : s.station ≠ .running := by rw [unconfigured]; decide
    rw [endedLost, account_other (s := lost) other, reply] at contention
    rw [endedFailed, account_other (s := failed) other, reply] at failure
    exact ⟨contention, failure⟩

/-! ## The completion of a frame -/

theorem ended_complete (s : State) : s.ended .complete = { s with
    inFlight := none, assembly := if s.assembly = .ignoring then .ignoring else .empty
    counters := { s.counters with framesSent := saturatingStep s.counters.framesSent } } := by
  have assembly : (if (TxOutcome.complete == .complete) && s.assembly.inProgress then Assembly.empty else s.assembly)
      = if s.assembly = .ignoring then .ignoring else .empty := by
    cases s.assembly <;> rfl
  rw [State.ended, assembly]
  rfl

/-- The entries of a completed SOLICIT frame that carry the mark become SENT for 250 ms (R112). -/
theorem solicitOutcome_sent (s : State) : s.solicitOutcome true = { s with
    solicits := s.solicits.map fun x => if x.state = .waiting true then { x with state := .sent (s.clock + 250000) } else x } := by
  simp only [State.solicitOutcome, flying_iff]
  rfl

theorem replyComplete_kept {r : Reply} {s : State} (kept : r.restartMark = false ∨ s.pendingRestart = none) :
    s.replyComplete r = { s with replies := s.replies.tail } := by
  have : ¬ (r.restartMark && s.pendingRestart.isSome) = true := by
    rcases kept with mark | pending
    · simp [mark]
    · simp [pending]
  exact if_neg this

theorem replyComplete_restarts {r : Reply} {s : State} {due : Time} (mark : r.restartMark = true) (pending : s.pendingRestart = some due) :
    s.replyComplete r = State.restart .remote { s with replies := s.replies.tail } := by
  have : (r.restartMark && s.pendingRestart.isSome) = true := by simp [mark, pending]
  exact if_pos this

/-- Settles O30: the completed frame leaves the line, failure accounting takes it, then its owner does. -/
theorem frameComplete : Obligations.FrameComplete := by
  refine ⟨?_, fun e s idle => ?_⟩
  · intro e s f flying sent
    have run : exec (.transmissionComplete e) s
        = .next ((((s.advance e).ended .complete).account .complete).ownerOutcome f.content .complete) :=
      congrArg Host.Outcome.next (endFrame_flying (s := s.advance e) flying .complete)
    have ended : s.station.dispatches = true → (s.advance e).ended .complete = sent := fun dispatches => by
      rw [advance_dispatches e dispatches, ended_complete]
    refine ⟨fun running active => ?_, fun running probing holds distinct p presence => ?_, fun unconfigured r reply kept => ?_⟩
    · rw [ended (by rw [running]; rfl), account_complete (s := sent) running active] at run
      refine ⟨fun points solicit => ?_, fun p presence => ?_, fun r reply kept => ?_, fun r due reply mark pending => ?_⟩
      · rw [run, solicit]
        exact congrArg Host.Outcome.next (solicitOutcome_sent _)
      · rw [run, presence]
        rfl
      · rw [run, reply]
        exact congrArg Host.Outcome.next (replyComplete_kept kept)
      · rw [run, reply]
        exact congrArg Host.Outcome.next (replyComplete_restarts (s := { sent with failures := 0 }) mark pending)
    · rw [ended (by rw [running]; rfl), account_probe_complete (s := sent) running probing,
        enterActive_eq (s := s) (t := sent) rfl rfl rfl rfl rfl rfl distinct, presence] at run
      exact run
    · rw [ended (by rw [unconfigured]; rfl), account_other (s := sent) (by rw [show sent.station = _ from unconfigured]; decide), reply] at run
      rw [run]
      exact congrArg Host.Outcome.next (replyComplete_kept kept)
  · exact ⟨congrArg Host.Outcome.next (endFrame_idle (s := s.advance e) idle .complete),
      congrArg Host.Outcome.next (endFrame_idle (s := s.advance e) idle .lost),
      congrArg Host.Outcome.next (endFrame_idle (s := s.advance e) idle .failed)⟩

end Sys2Proof.Machine
end

