-- ==== Sys2Proof/Proofs/Hearing.lean ====
section
/-!
THEOREM. A frame heard (O32): what it does to the roster, case by case, and all the rest as one report of PEER-LOST.
-/

namespace Sys2Proof.Machine

open Sys2Proof.Safety

/-! ## Periods, states and header checks (R67, R68, R75, R132) -/

theorem Peer.period_absent {x : Peer} (absent : x.content = none) : x.period = 2000000 := by
  simp only [Peer.period, absent]
  decide

theorem Peer.period_advertised {x : Peer} {c : PeerContent} (advertised : x.content = some c) :
    x.period = c.periodCode.toNat * 100000 := by
  simp only [Peer.period, advertised]
  rfl

theorem StationState.live_iff (st : StationState) : st.live = true ↔ st = .joining ∨ st = .running := by
  cases st <;> simp [StationState.live]

theorem StationState.dispatches_iff (st : StationState) :
    st.dispatches = true ↔ st = .unconfigured ∨ st = .joining ∨ st = .running := by
  cases st <;> simp [StationState.dispatches]

theorem stationOk_iff (p : Station) : stationOk p = true ↔ 1 ≤ p.toNat ∧ p.toNat ≤ 62 := by
  have bound := p.isLt
  have split : stationOk p = true ↔ p ≠ 0 ∧ p ≠ Config.everyone := by simp only [stationOk, Bool.and_eq_true, bne_iff_ne]
  rw [split, Ne, Ne, ← BitVec.toNat_inj, ← BitVec.toNat_inj, show (0 : Station).toNat = 0 from rfl, show Config.everyone.toNat = 63 from rfl]
  omega

theorem bodyOk_iff (body : List Byte) : bodyOk body = true ↔ body.length ≤ 24 := decide_eq_true_iff

theorem headerGood_badSender {cls : FrameClass} {p d : Station} {body : List Byte} (bad : stationOk p = false) :
    headerGood cls p d body = false := by
  have : (p != 0 && p != Config.everyone) = false := bad
  rw [headerGood, this, Bool.false_and, Bool.false_and]

/-- A frame whose sender fails the header check is discarded (R75). -/
theorem arrive_badSender {s : State} {cls : FrameClass} {p d : Station} {body : List Byte} (receives : Receives s)
    (bad : stationOk p = false) : s.arrive cls p d body = s.discardFrame := by
  simp [State.arrive, (assembles_iff s).mpr receives, headerGood_badSender bad]

/-! ## The roster at a frame heard (R126 to R128) -/

section
variable {p : Station} {s : State}

theorem peerAt_none_iff : s.peerAt p = none ↔ ∀ x ∈ s.roster, x.station ≠ p := by simp [State.peerAt]

theorem heard_dead (dead : s.station.live = false) : s.heard p = s := by simp [State.heard, dead]

theorem heard_held (live : s.station.live = true) {x : Peer} (held : s.peerAt p = some x) :
    s.heard p = (s.updatePeer p (Peer.hear s.clock)).judgePeerLost := by simp [State.heard, live, held]

theorem heard_room (live : s.station.live = true) (absent : s.peerAt p = none) (room : s.roster.length < 24) :
    s.heard p = { s with roster := s.roster ++ [createdPeer p s.clock (namesSource p s.points)] } := by
  simp [State.heard, live, absent, Config.maxPeers, room, newPeer_eq]

theorem heard_unnamed (live : s.station.live = true) (absent : s.peerAt p = none) (full : 24 ≤ s.roster.length)
    (unnamed : namesSource p s.points = false) : s.heard p = s := by
  simp [State.heard, live, absent, Config.maxPeers, Nat.not_lt.mpr full, unnamed]

theorem heard_named (live : s.station.live = true) (absent : s.peerAt p = none) (full : 24 ≤ s.roster.length)
    (named : namesSource p s.points = true) : s.heard p = (s.mustTrack p).1 := by
  simp [State.heard, live, absent, Config.maxPeers, Nat.not_lt.mpr full, named]

/-- A full roster keeps its entries where none may be evicted, and else gives up the place of one of them (R128). -/
theorem mustTrack_full (full : 24 ≤ s.roster.length) :
    ((∀ x ∈ s.roster, x.state = .present ∨ Kept x) → (s.mustTrack p).1 = s)
    ∧ ((∃ x ∈ s.roster, x.state ≠ .present ∧ ¬ Kept x) → ∃ v, Evicted s.roster v ∧ (s.mustTrack p).1 = State.judgePeerLost { s with
        roster := s.roster.map fun x => if x.station = v.station then createdPeer p s.clock (namesSource p s.points) else x }) := by
  rcases mustTrack_roster p s with ⟨room, -⟩ | ⟨-, chosen, e⟩ | ⟨v, -, chosen, e⟩
  · exact absurd room (Nat.not_lt.mpr full)
  · refine ⟨fun _ => by rw [e], ?_⟩
    rintro ⟨x, held, away, unkept⟩
    exact ((evictionChoice_none s.roster).mp chosen x held).elim (absurd · away) (absurd · unkept)
  · refine ⟨fun kept => ?_, fun _ => ⟨v, evictionChoice_evicted chosen, by rw [e, newPeer_eq]⟩⟩
    rw [(evictionChoice_none s.roster).mpr kept] at chosen
    cases chosen

end

theorem report_same (c : Condition) (s : State) : s.report c (s.faults.get c) = s := if_pos rfl

/-- Beside the roster a frame heard comes to one report of PEER-LOST (R127, R128, R133). -/
theorem heard_reports (p : Station) (s : State) : ∃ roster b, s.heard p = State.report .peerLost b { s with roster := roster } := by
  have only : ∀ roster, ∃ l b, { s with roster := roster } = State.report .peerLost b { s with roster := l } :=
    fun roster => ⟨roster, _, (report_same .peerLost { s with roster := roster }).symm⟩
  rcases heard_cases p s with e | ⟨x, -, f, -, -, e⟩ | ⟨-, -, e⟩ | ⟨-, e⟩ <;> rw [e]
  · exact only s.roster
  · exact ⟨_, _, rfl⟩
  · exact only _
  · rcases mustTrack_roster p s with ⟨-, e⟩ | ⟨-, -, e⟩ | ⟨v, -, -, e⟩ <;> rw [e]
    · exact only _
    · exact only s.roster
    · exact ⟨_, _, rfl⟩

/-- PEER-LOST judged on a roster: the roster stays, and of the summary PEER-LOST follows it (R133). -/
theorem judgePeerLost_judged (s : State) : s.judgePeerLost.roster = s.roster
    ∧ s.judgePeerLost.faults =
      { s.faults with peerLost := s.judgePeerLost.roster.any fun x => x.state == .lost && x.sourcesPoints } := by
  have roster := (judgePeerLost_status s).roster
  exact ⟨roster, by rw [judgePeerLost_faults, roster]; rfl⟩

/-! ## A frame of another station -/

/-- A good frame of another station has been counted, its characters out of the assembly (R72, R75). -/
def State.received (e : Time) (s : State) : State := { s with
  clock := s.clock + e
  counters := { s.counters with framesReceived := saturatingStep s.counters.framesReceived }
  assembly := if s.inFlight.isSome then s.assembly else .empty }

theorem heardFrom_received {s : State} (dispatches : s.station.dispatches = true) (e : Time) (p : Station) :
    heardFrom e p s = (s.received e).heard p := by
  rw [heardFrom, advance_dispatches e dispatches]
  rfl

/-- Settles O32: the case of R127 and R128 gives the roster and PEER-LOST, and the report of it all else. -/
theorem frameHeard : Obligations.FrameHeard := by
  refine ⟨fun x => ⟨Peer.period_absent, fun c => Peer.period_advertised⟩, fun st => ⟨st.live_iff, st.dispatches_iff⟩,
    fun p body => ⟨stationOk_iff p, bodyOk_iff body⟩, fun e s p d body fits => ⟨fun hears => ?_, fun receives bad => ?_, fun deaf => ?_⟩⟩
  · have heard := heardFrom_received hears.1.1 e p
    obtain ⟨roster, b, reported⟩ := heard_reports p (s.received e)
    have came : heardFrom e p s = State.report .peerLost b { s.received e with roster := roster } := heard.trans reported
    have only : OnlyStatus { s.received e with roster := roster } (heardFrom e p s) := came ▸ report_status _ _ _
    have faults : (heardFrom e p s).faults = s.faults.put .peerLost b := came ▸ report_faults _ _ _
    have run : exec (.reply e p d body) s = .next (heardFrom e p s) :=
      congrArg Host.Outcome.next (arrive_heard (s := s.advance e) (by rw [advance_dispatches e hears.1.1]; exact hears) .reply d body nofun fits)
    have counters := only.counters
    have clock := only.tables.clock
    have assembly : (heardFrom e p s).assembly = (s.received e).assembly := by rw [only]
    have entries := only.roster
    have station : (s.received e).station = s.station := rfl
    refine ⟨run, counters, clock, assembly, ?_, came ▸ outputLists_report _ _ _, fun distinct => ?_, fun unconfigured => ?_, fun live held => ?_,
      fun live absent room => ?_, fun live absent full unnamed => ?_, fun live absent full named => ⟨fun kept => ?_, fun evictable => ?_⟩⟩
    · rw [counters, clock, assembly, entries]
      exact only
    · rw [counters, clock, assembly, entries, faults]
      exact came.trans (report_eq (s := { s.received e with roster := roster }) distinct .peerLost b)
    · rw [heard, heard_dead (s := s.received e) (by rw [station, unconfigured]; rfl)]
      exact ⟨rfl, rfl⟩
    · obtain ⟨x, member, same⟩ := held
      obtain ⟨y, found⟩ : ∃ y, (s.received e).peerAt p = some y :=
        Option.ne_none_iff_exists'.mp fun absent => peerAt_none_iff.mp absent x member same
      rw [heard, heard_held (s := s.received e) live found]
      exact judgePeerLost_judged _
    · rw [heard, heard_room (s := s.received e) live (peerAt_none_iff.mpr absent) room]
      exact ⟨rfl, rfl⟩
    · rw [heard, heard_unnamed (s := s.received e) live (peerAt_none_iff.mpr absent) full unnamed]
      exact ⟨rfl, rfl⟩
    · rw [heard, heard_named (s := s.received e) live (peerAt_none_iff.mpr absent) full named,
        (mustTrack_full (s := s.received e) full).1 kept]
      exact ⟨rfl, rfl⟩
    · obtain ⟨v, evicted, e'⟩ := (mustTrack_full (p := p) (s := s.received e) full).2 evictable
      rw [heard, heard_named (s := s.received e) live (peerAt_none_iff.mpr absent) full named, e',
        show namesSource p (s.received e).points = true from named]
      exact ⟨v, evicted, judgePeerLost_judged _⟩
  · have run : exec (.reply e p d body) s = .next (s.advance e).discardFrame :=
      congrArg Host.Outcome.next (arrive_badSender (s := s.advance e) (by rw [advance_dispatches e receives.1]; exact receives) bad)
    rw [run, advance_dispatches e receives.1]
    rfl
  · exact congrArg Host.Outcome.next (arrive_unheard (s := s.advance e) deaf .reply p d body)

end Sys2Proof.Machine
end

