-- ==== Sys2Proof/Proofs/Conflict.lean ====
section
/-!
THEOREM. An ownership conflict (O37): CONFLICT is reported, then the point yields or is claimed (log 28).
-/

namespace Sys2Proof.Machine

open Sys2Proof.Safety

/-! ## One entry under a change of the summary -/

theorem Owned.tookEvent_flying (o : Owned) : o.tookEvent.inFlight = o.inFlight := by rw [tookEvent_only]
theorem Owned.tookEvent_compareBase (o : Owned) : o.tookEvent.compareBase = o.compareBase := by rw [tookEvent_only]
theorem Owned.tookEvent_refreshTimer (o : Owned) : o.tookEvent.refreshTimer = o.refreshTimer := by rw [tookEvent_only]

theorem Owned.tookEvent_urgent {o : Owned} (awake : o.sched ≠ .yielded) : o.tookEvent.sched = .urgent := by
  unfold tookEvent
  split
  · rfl
  · rfl
  · assumption
  · assumption
  · assumption
  · next yielded => exact absurd yielded awake

/-- An owned entry stays at a change of the summary, or, sourced from STATUS, takes it: its value, and in RUNNING its change event (R33, R34). -/
theorem summaryTaken_entry {s : State} {n : Nat} {o : Owned} (entry : s.ownedAt n = some o) (f : FaultSummary) :
    ∃ o', (summaryTaken f s).ownedAt n = some o' ∧ (o' = o ∨ o.source = .status ∧ ∃ value,
      o' = { o with current := value } ∨ s.station = .running ∧ o' = Owned.tookEvent { o with current := value }) := by
  obtain ⟨p, found, -, -, owned⟩ := ownedAt_entry entry
  have written : ∀ {t : State} {g : Point → Owned → Owned}, t.points = mapOwnedBy g s.points → t.ownedAt n = some (g p o) := fun points => by
    rw [ownedAt_mapOwnedBy points, found, Option.bind_some, owned, Option.map_some]
  unfold summaryTaken
  split
  · exact ⟨o, entry, .inl rfl⟩
  · split
    · next running =>
      refine ⟨_, written (g := fun p o => if o.source = .status then tookSummary p.kind f o else o) rfl, ?_⟩
      by_cases source : o.source = .status
      · rw [if_pos source, tookSummary_eq]
        exact .inr ⟨source, _, .inr ⟨running, rfl⟩⟩
      · exact .inl (if_neg source)
    · refine ⟨_, written (g := fun p o => if o.source = .status then { o with current := statusValue p.kind f } else o) rfl, ?_⟩
      by_cases source : o.source = .status
      · rw [if_pos source]
        exact .inr ⟨source, _, .inl rfl⟩
      · exact .inl (if_neg source)
    · exact ⟨o, entry, .inl rfl⟩
    · exact ⟨o, entry, .inl rfl⟩
    · exact ⟨o, entry, .inl rfl⟩

/-! ## The yield and the claim -/

/-- The entry of a point that has yielded (R12, R56). -/
def Owned.gone (o : Owned) : Owned := { o with sched := .yielded, inFlight := false, dirty := false, refreshTimer := none }

/-- The entry of a point that has been claimed (R45). -/
def Owned.claimed (o : Owned) : Owned :=
  if o.sched = .quiet ∨ o.sched = .routine ∧ o.inFlight = false then { o with sched := .urgent } else o

theorem Owned.claimed_refreshTimer (o : Owned) : o.claimed.refreshTimer = o.refreshTimer := by unfold claimed; split <;> rfl
theorem Owned.claimed_compareBase (o : Owned) : o.claimed.compareBase = o.compareBase := by unfold claimed; split <;> rfl
theorem Owned.claimed_count (o : Owned) : o.claimed.count = o.count := by unfold claimed; split <;> rfl
theorem Owned.claimed_dirty (o : Owned) : o.claimed.dirty = o.dirty := by unfold claimed; split <;> rfl
theorem Owned.claimed_current (o : Owned) : o.claimed.current = o.current := by unfold claimed; split <;> rfl

theorem Owned.claimed_urgent {o : Owned} (awake : o.sched ≠ .yielded) (ready : o.sched ≠ .routine ∨ o.inFlight = false) :
    o.claimed.sched = .urgent := by
  unfold claimed
  cases sched : o.sched with
  | quiet => simp
  | routine => simp [ready.resolve_left (absurd sched)]
  | urgent => simp [sched]
  | yielded => exact absurd sched awake

theorem without_eq (n : Nat) (l : List Nat) : without n l = l.filter fun k => decide (k ≠ n) :=
  List.filter_congr fun k _ => by by_cases e : k = n <;> simp [e]

theorem yieldPoint_eq (n : Nat) (s : State) : s.yieldPoint n = { s with
    points := s.points.map fun p => if p.number = n then p.mapOwned Owned.gone else p
    urgent := s.urgent.filter fun k => decide (k ≠ n), routine := s.routine.filter fun k => decide (k ≠ n) } := by
  have points : (s.yieldPoint n).points = s.points.map fun p => if p.number = n then p.mapOwned Owned.gone else p := by
    simp only [State.yieldPoint_points, State.updateOwned_points, State.leaveQueue_points, List.map_map]
    refine List.map_congr_left fun p _ => ?_
    by_cases e : p.number = n
    · simp only [Function.comp_apply, e, if_true, Point.mapOwned_number, Point.mapOwned_mapOwned]
      rfl
    · simp [e]
  rw [← points, ← without_eq, ← without_eq]
  rfl

theorem promote_eq (n : Nat) (s : State) : s.promote n = { s with
    points := s.points.map fun p => if p.number = n then p.mapOwned (fun o => { o with sched := .urgent }) else p
    urgent := s.urgent ++ [n], routine := s.routine.filter fun k => decide (k ≠ n) } := by
  rw [← without_eq]
  rfl

theorem claim_quiet {s : State} {n : Nat} {o : Owned} (entry : s.ownedAt n = some o) (quiet : o.sched = .quiet) :
    s.claim n = s.joinUrgent n := by simp [State.claim, entry, quiet]

theorem claim_waiting {s : State} {n : Nat} {o : Owned} (entry : s.ownedAt n = some o) (routine : o.sched = .routine)
    (waits : o.inFlight = false) : s.claim n = s.promote n := by simp [State.claim, entry, routine, waits]

theorem claim_flying {s : State} {n : Nat} {o : Owned} (entry : s.ownedAt n = some o) (routine : o.sched = .routine)
    (flies : o.inFlight = true) : s.claim n = s := by simp [State.claim, entry, routine, flies]

theorem claim_urgent {s : State} {n : Nat} {o : Owned} (entry : s.ownedAt n = some o) (urgent : o.sched = .urgent) : s.claim n = s := by
  simp [State.claim, entry, urgent]

theorem PointsTake.entry {n : Nat} {f : Owned → Owned} {s t : State} (h : PointsTake [n] (fun _ => f) s t) {o : Owned}
    (entry : s.ownedAt n = some o) : t.ownedAt n = some (f o) := by
  obtain ⟨p, found, -, -, owned⟩ := ownedAt_entry entry
  rw [State.ownedAt, h.entries, found]
  simp [owned]

theorem yieldPoint_takes (n : Nat) (s : State) : PointsTake [n] (fun _ => Owned.gone) s (s.yieldPoint n) := by
  have left : ∀ l : List Nat, ((l.filter fun k => decide (k ≠ n)).filter fun k => decide (k ∉ [n])) = l.filter fun k => decide (k ∉ [n]) :=
    fun l => by
      rw [List.filter_filter]
      exact List.filter_congr fun k _ => by by_cases e : k = n <;> simp [e]
  rw [yieldPoint_eq]
  exact pointsTake_of_entry rfl rfl (left s.urgent) (left s.routine)

theorem claim_takes {s : State} {n : Nat} {o : Owned} (entry : s.ownedAt n = some o) :
    PointsTake [n] (fun _ => Owned.claimed) s (s.claim n) := by
  have only : ∀ {g : Owned → Owned} {t : State}, PointsTake [n] (fun _ => g) s t → g o = o.claimed →
      PointsTake [n] (fun _ => Owned.claimed) s t := fun taken same =>
    taken.congr fun p o' found owned => by
      rw [State.ownedAt, found, Option.bind_some, owned] at entry
      cases entry
      exact same
  cases sched : o.sched with
  | quiet => rw [claim_quiet entry sched]; exact only (joinUrgent_takes n s) (by simp [Owned.claimed, sched])
  | routine =>
    cases flies : o.inFlight with
    | false => rw [claim_waiting entry sched flies]; exact only (promote_takes n s) (by simp [Owned.claimed, sched, flies])
    | true => rw [claim_flying entry sched flies]; exact only (.refl [n] s) (by simp [Owned.claimed, sched, flies])
  | urgent => rw [claim_urgent entry sched]; exact only (.refl [n] s) (by simp [Owned.claimed, sched])
  | yielded =>
    have : s.claim n = s := by simp [State.claim, entry, sched]
    rw [this]
    exact only (.refl [n] s) (by simp [Owned.claimed, sched])

/-! ## The conflict -/

/-- The conflict has been counted and CONFLICT reported (R92, R33). -/
def State.conflicted (s : State) : State :=
  summaryTaken { s.faults with conflict := true }
    { s with counters := { s.counters with conflicts := saturatingStep s.counters.conflicts } }

theorem takeRecord_owned {s : State} {sender : Station} {r : Record} {o : Owned} (entry : s.ownedAt r.point.toNat = some o)
    (awake : o.sched ≠ .yielded) : s.takeRecord sender r = s.ownershipConflict sender r.point.toNat := by
  obtain ⟨p, found, -, -, owned⟩ := ownedAt_entry entry
  simp [State.takeRecord, found, owned?_eq_some.mp owned, awake]

/-- A record for an owned point that is not YIELDED: from a lower number it yields, from a higher one it is claimed in RUNNING (R92 to R94). -/
theorem takeRecord_conflict {s : State} {own sender : Station} {r : Record} {o : Owned} (distinct : (s.points.map Point.number).Nodup)
    (number : s.number = some own) (entry : s.ownedAt r.point.toNat = some o) (awake : o.sched ≠ .yielded) :
    s.takeRecord sender r =
      if sender < own then s.conflicted.yieldPoint r.point.toNat
      else if s.station = .running then s.conflicted.claim r.point.toNat else s.conflicted := by
  have reported : (s.bump .conflicts).report .conflict true = s.conflicted := report_eq (s := s.bump .conflicts) distinct .conflict true
  have station : s.conflicted.station = s.station := summaryTaken_station _ _
  have same : s.conflicted.number = some own := (summaryTaken_number _ _).trans number
  rw [takeRecord_owned entry awake, State.ownershipConflict, reported]
  simp only [same, station]

/-- What the yield and the claim come to alike: the entry of the point and its own places change. -/
theorem takeRecord_conflict_takes {s : State} {own sender : Station} {r : Record} {o : Owned} (distinct : (s.points.map Point.number).Nodup)
    (number : s.number = some own) (entry : s.ownedAt r.point.toNat = some o) (awake : o.sched ≠ .yielded) :
    ∃ f, PointsTake [r.point.toNat] f s.conflicted (s.takeRecord sender r) := by
  obtain ⟨o', entry', -⟩ := summaryTaken_entry
    (s := { s with counters := { s.counters with conflicts := saturatingStep s.counters.conflicts } }) entry { s.faults with conflict := true }
  rw [takeRecord_conflict distinct number entry awake]
  split
  · exact ⟨_, yieldPoint_takes _ _⟩
  · split
    · exact ⟨_, claim_takes entry'⟩
    · exact ⟨_, .refl _ _⟩

/-- Settles O37: the summary takes CONFLICT, then one entry and its places change. -/
theorem ownershipConflict : Obligations.OwnershipConflict := by
  intro s own sender r o n t distinct number entry awake
  let counted : State := { s with counters := { s.counters with conflicts := saturatingStep s.counters.conflicts } }
  obtain ⟨f, taken⟩ : ∃ f, PointsTake [n] f s.conflicted t := takeRecord_conflict_takes distinct number entry awake
  have outcome : t = _ := takeRecord_conflict (sender := sender) distinct number entry awake
  have counters : t.counters = counted.counters := by rw [taken.only, State.conflicted, summaryTaken_only]
  have faults : t.faults = { s.faults with conflict := true } := by rw [taken.only]; exact summaryTaken_faults _ _
  have lists : outputLists s.conflicted = outputLists s := by
    have reported : (s.bump .conflicts).report .conflict true = s.conflicted := report_eq (s := s.bump .conflicts) distinct .conflict true
    rw [← reported, outputLists_report]
    rfl
  have reach := summaryTaken_reach (s := counted) (fun _ => False) distinct { s.faults with conflict := true }
  have yields : sender < own → t = s.conflicted.yieldPoint n := fun lower => outcome.trans (if_pos lower)
  have keeps : own < sender → t = if s.station = .running then s.conflicted.claim n else s.conflicted :=
    fun higher => outcome.trans (if_neg (BitVec.not_lt.mpr (BitVec.le_of_lt higher)))
  obtain ⟨o₁, entry₁, took⟩ := summaryTaken_entry (s := counted) entry { s.faults with conflict := true }
  have kept : o₁.compareBase = o.compareBase ∧ o₁.refreshTimer = o.refreshTimer ∧ o₁.inFlight = o.inFlight := by
    rcases took with rfl | ⟨-, value, rfl | ⟨-, rfl⟩⟩
    · exact ⟨rfl, rfl, rfl⟩
    · exact ⟨rfl, rfl, rfl⟩
    · rw [Owned.tookEvent_compareBase, Owned.tookEvent_refreshTimer, Owned.tookEvent_flying]
      exact ⟨rfl, rfl, rfl⟩
  have pinned : ∀ i, o.source = .pin i → o₁ = o := fun i source =>
    took.resolve_right fun ⟨status, _⟩ => by rw [source] at status; cases status
  have placed : o₁.sched = o.sched ∨ s.station = .running ∧ o₁.sched = .urgent := by
    rcases took with rfl | ⟨-, value, rfl | ⟨running, rfl⟩⟩
    · exact .inl rfl
    · exact .inl rfl
    · exact .inr ⟨running, Owned.tookEvent_urgent (o := { o with current := value }) awake⟩
  refine ⟨counters, faults, ?_, taken.lists.trans lists, fun lower => ?_, fun k o' other entry' unfed => ?_, fun k => ?_, ?_, fun higher => ?_⟩
  · rw [counters, faults, taken.only, State.conflicted, summaryTaken_only]
  · rw [yields lower]
    refine ⟨?_, o₁.gone, ?_, rfl, rfl, rfl, rfl, kept.1, fun i source => by rw [pinned i source]; rfl⟩
    · rw [yieldPoint_eq]
      simp [State.queue]
    · exact (yieldPoint_takes n s.conflicted).entry entry₁
  · rw [(taken.others (by simpa using other)).1]
    exact reach.entries k o' entry' unfed
  · have conflict : t = s.ownershipConflict sender n := takeRecord_owned entry awake
    rw [conflict]
    exact mirroredAt_congr (OwnSteps.sameMirror (ownershipConflict_own sender n s)).half k
  · rw [counters]
    refine ⟨fun lower => (yields lower).trans (yieldPoint_eq n s.conflicted), fun higher still => (keeps higher).trans (if_neg still),
      fun higher running o' entry' => ?_⟩
    have claimed : t = s.conflicted.claim n := (keeps higher).trans (if_pos running)
    refine ⟨fun quiet => ?_, fun routine waits => ?_, fun routine flies => ?_, fun urgent => ?_⟩
    · exact claimed.trans (claim_quiet entry' quiet)
    · exact (claimed.trans (claim_waiting entry' routine waits)).trans (promote_eq n s.conflicted)
    · exact claimed.trans (claim_flying entry' routine flies)
    · exact claimed.trans (claim_urgent entry' urgent)
  · obtain ⟨compareBase, refreshTimer, inFlight⟩ := kept
    by_cases running : s.station = .running
    · rw [keeps higher, if_pos running]
      refine ⟨o₁.claimed, (claim_takes entry₁).entry entry₁, o₁.claimed_refreshTimer.trans refreshTimer,
        o₁.claimed_compareBase.trans compareBase, fun _ ready => ?_, fun i source => ?_, fun i source _ routine flies => ?_, fun joining => ?_⟩
      · rcases placed with same | ⟨-, urgent⟩
        · exact Owned.claimed_urgent (by rwa [same]) (by rwa [same, inFlight])
        · exact Owned.claimed_urgent (by rw [urgent]; decide) (.inl (by rw [urgent]; decide))
      · rw [pinned i source]
        exact ⟨o.claimed_count, o.claimed_dirty, o.claimed_current⟩
      · rw [pinned i source, Owned.claimed, if_neg (by simp [routine, flies]), routine]
      · rw [running] at joining
        cases joining
    · rw [keeps higher, if_neg running]
      exact ⟨o₁, entry₁, refreshTimer, compareBase, fun h => absurd h running,
        fun i source => by rw [pinned i source]; exact ⟨rfl, rfl, rfl⟩, fun i _ h => absurd h running,
        fun _ => placed.resolve_right fun h => running h.1⟩

end Sys2Proof.Machine
end

