-- ==== Sys2Proof/Proofs/PeerLoss.lean ====
section
/-!
THEOREM. A peer becomes SILENT and LOST (O56): what the loss of a source does, point by point, and what the purge adds.
-/

namespace Sys2Proof.Machine

open Sys2Proof.Safety

/-! ## One point of a lost source (R102) -/

/-- A mirrored entry whose source is lost (R16, R102). -/
def Mirrored.sourceLost (m : Mirrored) : Mirrored := if m.state = .fresh then m.goStale else m

/-- The point is a mirrored one that is FRESH. -/
def State.freshAt (s : State) (n : Nat) : Bool :=
  match s.mirroredAt n with
  | some m => m.state == .fresh
  | none => false

theorem freshAt_congr {s t : State} {n : Nat} (h : t.mirroredAt n = s.mirroredAt n) : t.freshAt n = s.freshAt n := by
  rw [State.freshAt, State.freshAt, h]

theorem freshAt_of_entry {s : State} {n : Nat} {m : Mirrored} (entry : s.mirroredAt n = some m) : s.freshAt n = (m.state == .fresh) := by
  simp [State.freshAt, entry]

/-- What the loss of a source comes to for a list of its points. -/
structure PointsLost (l : List Nat) (s t : State) : Prop where
  only : t = { s with points := t.points, urgent := t.urgent, routine := t.routine, outputs := t.outputs, faults := t.faults }
  entries : ∀ k, t.mirroredAt k = (s.mirroredAt k).map fun m => if k ∈ l then m.sourceLost else m
  faults : t.faults = { s.faults with source := s.faults.source || l.any s.freshAt }
  lists : outputLists t = outputLists s
  reaches : Reaches (fun o => o.binding.source ∈ l) s t

theorem PointsLost.refl (s : State) : PointsLost [] s s := ⟨rfl, fun k => by simp, by simp, rfl, .refl _ s⟩

theorem PointsLost.cons {n : Nat} {l : List Nat} {s t u : State} (h : PointsLost [n] s t) (k : PointsLost l t u) (new : n ∉ l) :
    PointsLost (n :: l) s u where
  only := by rw [k.only, h.only]
  entries i := by
    rw [k.entries, h.entries, Option.map_map]
    refine congrArg (fun f => (s.mirroredAt i).map f) (funext fun m => ?_)
    by_cases e : i = n
    · simp [e, new]
    · simp [e]
  faults := by
    have fresh : l.any t.freshAt = l.any s.freshAt := by
      rw [Bool.eq_iff_iff, List.any_eq_true, List.any_eq_true]
      refine exists_congr fun i => and_congr_right fun listed => ?_
      have other : i ≠ n := fun e => new (e ▸ listed)
      have same : t.mirroredAt i = s.mirroredAt i := by rw [h.entries]; simp [other]
      rw [freshAt_congr same]
    rw [k.faults, fresh, h.faults]
    simp [Bool.or_assoc]
  lists := k.lists.trans h.lists
  reaches := (h.reaches.mono fun o same => List.mem_cons.mpr (.inl (List.mem_singleton.mp same))).trans
    (k.reaches.mono fun o listed => List.mem_cons_of_mem n listed)

theorem sourceLost_still {s : State} {n : Nat} (stale : s.freshAt n = false) : s.sourceLost n = s := by
  unfold State.sourceLost
  cases entry : s.mirroredAt n with
  | none => rfl
  | some m =>
    rw [freshAt_of_entry entry] at stale
    cases state : m.state with
    | fresh => rw [state] at stale; cases stale
    | stale => simp only [state]
    | unknown => simp only [state]

theorem sourceLost_fresh {s : State} {n : Nat} {m : Mirrored} (entry : s.mirroredAt n = some m) (fresh : m.state = .fresh) :
    s.sourceLost n = ((s.updateMirrored n Mirrored.goStale).report .source true).evaluateSource n := by
  have stale : (s.updateMirrored n Mirrored.goStale).mirroredAt n = some m.goStale := by
    rw [mirroredAt_updateMirrored, entry]; simp
  rw [← judgeSource_held stale (.inl rfl)]
  simp only [State.sourceLost, entry, fresh]

theorem sourceLost_pointsLost (n : Nat) (s : State) : PointsLost [n] s (s.sourceLost n) := by
  cases known : s.freshAt n with
  | false =>
    rw [sourceLost_still known]
    refine ⟨rfl, fun k => ?_, by simp [known], rfl, .refl _ s⟩
    cases entry : s.mirroredAt k with
    | none => rfl
    | some m =>
      by_cases e : k = n
      · have : m.state ≠ .fresh := by rw [← e, freshAt_of_entry entry] at known; simpa using known
        simp [Mirrored.sourceLost, this]
      · simp [e]
  | true =>
    obtain ⟨m, entry, fresh⟩ : ∃ m, s.mirroredAt n = some m ∧ m.state = .fresh := by
      cases entry : s.mirroredAt n with
      | none => simp [State.freshAt, entry] at known
      | some m => exact ⟨m, rfl, by rw [freshAt_of_entry entry] at known; simpa using known⟩
    let u := s.updateMirrored n Mirrored.goStale
    have lost : s.sourceLost n = (u.report .source true).evaluateSource n := sourceLost_fresh entry fresh
    have same : SameMirror u (s.sourceLost n) := lost ▸ OwnSteps.sameMirror ((report_own .source true u).trans (evaluateSource_own n _))
    refine ⟨?_, fun k => ?_, ?_, ?_, ?_⟩
    · rw [lost, evaluateSource_eq, reportSource_frame]
      rfl
    · rw [mirroredAt_congr same.half, mirroredAt_updateMirrored]
      by_cases e : k = n
      · subst e
        simp [entry, Mirrored.sourceLost, fresh]
      · simp [e]
    · have faults : (s.sourceLost n).faults = (u.report .source true).faults := by rw [lost, evaluateSource_eq]
      rw [faults, report_faults, List.any_cons, known, Bool.true_or, Bool.or_true]
      rfl
    · rw [lost, outputLists_evaluateSource, outputLists_report]
      rfl
    · rw [lost]
      exact (((updateMirrored_reaches _ n _ s).trans (report_reaches _ _ _ u)).trans (evaluateSource_reaches n _)).mono
        fun o bound => List.mem_singleton.mpr bound

/-! ## The points of the source, in Point Table order -/

theorem foldl_sourceLost {l : List Nat} (nodup : l.Nodup) : ∀ s : State, PointsLost l s (l.foldl State.sourceLost s) := by
  induction l with
  | nil => exact PointsLost.refl
  | cons n l ih =>
    obtain ⟨new, nodup⟩ := List.nodup_cons.mp nodup
    exact fun s => (sourceLost_pointsLost n s).cons (ih nodup _) new

/-- The entry is MIRRORED, of the station's points, and FRESH. -/
def Point.freshFrom (p : Station) (q : Point) : Bool :=
  match q.role with
  | .owned _ => false
  | .mirrored m => m.source == some p && m.state == .fresh

theorem any_freshAt {p : Station} {s : State} (distinct : (s.points.map Point.number).Nodup) :
    (sourcedFrom p s.points).any s.freshAt = s.points.any (Point.freshFrom p) := by
  rw [sourcedFrom, List.any_map, List.any_filter, Bool.eq_iff_iff, List.any_eq_true, List.any_eq_true]
  refine exists_congr fun q => and_congr_right fun hq => ?_
  simp only [State.freshAt, Function.comp_apply, mirroredAt_of_mem distinct hq, Point.mirrored?, Point.freshFrom]
  cases q.role <;> simp

/-! ## The loss of a station (R102, R133, R151) -/

/-- What the loss of the station p comes to, PEER-LOST apart. -/
structure PeerLost (p : Station) (s t : State) : Prop where
  only : t = { s with
    points := t.points, urgent := t.urgent, routine := t.routine, outputs := t.outputs, roster := t.roster, faults := t.faults }
  entries : ∀ k, t.mirroredAt k = (s.mirroredAt k).map fun m => if m.source = some p then m.sourceLost else m
  faults : t.faults = { s.faults with source := s.faults.source || s.points.any (Point.freshFrom p) }
  lists : outputLists t = purgedLists p s
  peers : ∀ k, t.peerAt k = (s.peerAt k).map fun x => if k = p then { x with holdsOverrides := false } else x
  owned : Reaches (fun _ => True) s t
  outputs : (s.outputs.map Output.pin).Nodup →
    Reaches (fun o => (∃ y ∈ o.overrides, y.origin = p) ∨ ∃ m, s.mirroredAt o.binding.source = some m ∧ m.source = some p) s t

theorem Purged.reaches {p : Station} {s t : State} (h : Purged p s t) {pick : Output → Prop} (stay : OutputsStay pick s t) :
    Reaches pick s t := by
  have points : t.points = s.points := by rw [h.only]
  exact .of_half (by rw [points]) (by rw [h.only]) (by rw [h.only]) fun o ho away => stay o ho fun picked => away (.inl picked)

theorem peerLost_lost {p : Station} {s : State} (distinct : (s.points.map Point.number).Nodup) : PeerLost p s (s.peerLost p) := by
  have points := foldl_sourceLost (sourcedFrom_nodup (p := p) distinct) s
  have eq : s.peerLost p = ((sourcedFrom p s.points).foldl State.sourceLost s).purge p := rfl
  rw [eq]
  generalize (sourcedFrom p s.points).foldl State.sourceLost s = f at points ⊢
  have purged := purge_purged p f
  generalize f.purge p = t at purged ⊢
  have roster : f.roster = s.roster := by rw [points.only]
  refine ⟨by rw [purged.only, points.only], fun k => ?_, ?_, by rw [purged.lists, purgedLists_congr points.lists],
    fun k => by rw [purged.peers, peerAt_congr roster], ?_, fun pins => ?_⟩
  · have found : t.mirroredAt k = f.mirroredAt k := by rw [purged.only]; rfl
    rw [found, points.entries]
    refine Option.map_congr fun m entry => ?_
    have listed : k ∈ sourcedFrom p s.points ↔ m.source = some p := by simp [mem_sourcedFrom_iff distinct, entry]
    simp only [listed]
  · have faults : t.faults = f.faults := by rw [purged.only]
    rw [faults, points.faults, any_freshAt distinct]
  · exact (points.reaches.mono fun _ _ => trivial).trans (purged.reaches fun o _ away => absurd trivial away)
  · have stay := purged.outputs (pins_of_outputLists points.lists ▸ pins)
    exact (points.reaches.mono fun o listed => .inr ((mem_sourcedFrom_iff distinct).mp listed)).trans
      (purged.reaches fun o ho away => stay o ho fun held => away (.inl held))

/-! ## The supervision of a peer (R132, R133) -/

theorem execSilentDeadlineExpiry_present {s : State} {p : Station} {x : Peer} {due : Time} (live : s.station.live = true)
    (held : s.peerAt p = some x) (present : x.state = .present) (deadline : x.silentAt = some due) :
    exec (.silentDeadlineExpiry p) s = .next ((s.advanceTo due).updatePeer p fun y => { y with state := .silent, silentAt := none }) := by
  change execSilentDeadlineExpiry p s = _
  simp [execSilentDeadlineExpiry, live, held, present, deadline]

/-- The entry of the peer is LOST, and nothing has followed yet (R132). -/
def State.peerGone (p : Station) (due : Time) (s : State) : State :=
  (s.advanceTo due).updatePeer p fun y => { y with state := .lost, lostAt := none }

theorem execLostDeadlineExpiry_silent {s : State} {p : Station} {x : Peer} {due : Time} (live : s.station.live = true)
    (held : s.peerAt p = some x) (silent : x.state = .silent) (deadline : x.lostAt = some due) :
    exec (.lostDeadlineExpiry p) s = .next ((s.peerGone p due).peerLost p).judgePeerLost := by
  change execLostDeadlineExpiry p s = _
  simp [execLostDeadlineExpiry, live, held, silent, deadline, State.peerGone]

/-- Settles O56: the expiry of LOST makes the entry LOST, then its points and overrides follow, then PEER-LOST is judged. -/
theorem peerSupervision : Obligations.PeerSupervision := by
  intro s p x due live held
  refine ⟨fun present deadline => execSilentDeadlineExpiry_present live held present deadline, fun silent deadline distinct => ?_⟩
  have lost := peerLost_lost (p := p) (s := s.peerGone p due) distinct
  have judged := judgePeerLost_judged ((s.peerGone p due).peerLost p)
  have only := judgePeerLost_status ((s.peerGone p due).peerLost p)
  have half := (OwnSteps.sameMirror (judgePeerLost_own ((s.peerGone p due).peerLost p))).half
  have lists : outputLists ((s.peerGone p due).peerLost p).judgePeerLost = _ := outputLists_report _ _ _
  have reports : ∀ pick, Reaches pick _ ((s.peerGone p due).peerLost p).judgePeerLost := fun pick => report_reaches pick _ _ _
  refine ⟨_, execLostDeadlineExpiry_silent live held silent deadline, ?_⟩
  generalize (s.peerGone p due).peerLost p = v at *
  generalize v.judgePeerLost = t at *
  obtain ⟨roster, faults⟩ := judged
  have peers : ∀ k, t.peerAt k = (s.peerAt k).map fun y =>
      if k = p then { y with state := .lost, lostAt := none, holdsOverrides := false } else y :=
    fun k => by
      have gone := peerAt_updatePeer p k (fun y => { y with state := .lost, lostAt := none }) (s.advanceTo due) fun _ => rfl
      rw [peerAt_congr roster, lost.peers, State.peerGone, gone, Option.map_map]
      refine congrArg (fun f => (s.peerAt k).map f) (funext fun y => ?_)
      by_cases e : k = p <;> simp [e]
  refine ⟨?_, by simp [peers, held], fun k other => by simp [peers, other], fun n m entry => ?_, lists.trans lost.lists, ?_, ?_, fun pins => ?_⟩
  · rw [only, lost.only]
    rfl
  · rw [mirroredAt_congr half, lost.entries, show (s.peerGone p due).mirroredAt n = some m from entry, Option.map_some]
    by_cases source : m.source = some p
    · by_cases fresh : m.state = .fresh <;> simp [source, fresh, Mirrored.sourceLost, Mirrored.goStale]
    · simp [source]
  · rw [faults, lost.faults]
    rfl
  · have stay := ((lost.owned.trans (reports _)).reach distinct).ownedStay
    exact ⟨stay.entries, stay.urgent, stay.routine⟩
  · exact fun o ho away => (((lost.outputs pins).trans (reports _)).reach distinct).outputs o ho fun picked =>
      away (picked.elim (fun h => h.imp_right .inr) fun fed => .inr (.inl fed))

end Sys2Proof.Machine
end

