-- ==== Sys2Proof/Proofs/QueueEvents.lean ====
section
/-!
THEOREM. The Publication Queue's events: a change event by scheduler state and marks (O51), and the expiry of a refresh timer (O52).
-/

namespace Sys2Proof.Machine

open Sys2Proof.Safety

/-! ## A change of one entry followed by another -/

/-- Two changes of the entry of one number are one change of it. -/
theorem updateOwned_updateOwned (n : Nat) (f g : Owned → Owned) (s : State) :
    (s.updateOwned n f).updateOwned n g = s.updateOwned n (g ∘ f) := by
  have points : ((s.updateOwned n f).updateOwned n g).points = (s.updateOwned n (g ∘ f)).points := by
    simp only [State.updateOwned_points, List.map_map]
    refine List.map_congr_left fun p _ => ?_
    by_cases e : p.number = n
    · simp [e, Point.mapOwned_mapOwned, Function.comp_def]
    · simp [e]
  exact congrArg (fun l => { s with points := l }) points

/-! ## The count step (R29, R32) -/

/-- The points whose count steps at the transition are the BINARY ones that do not follow the summary (R29, R32). -/
theorem isBinaryFromPin_iff (k : Kind) (o : Owned) : isBinaryFromPin k o = true ↔ k = .binary ∧ o.source ≠ .status := by
  unfold isBinaryFromPin
  cases k with
  | binary => cases o.source <;> simp
  | level => simp

/-- The count step after a change `f` of the entry of a number that keeps its source, as one change of the table (R32). -/
theorem stepWithEvent_eq {s t : State} {n : Nat} {f : Owned → Owned} (only : OnlyQueue s t)
    (points : t.points = s.points.map fun p => if p.number = n then p.mapOwned f else p) (source : ∀ o, (f o).source = o.source) :
    t.stepWithEvent n = { s with
      points := s.points.map fun p =>
        if p.number = n then
          p.mapOwned fun o => if p.kind = .binary ∧ o.source ≠ .status then f o else { f o with count := (f o).count + 1 }
        else p
      urgent := t.urgent, routine := t.routine } := by
  have counted : ∀ k o, isBinaryFromPin k (f o) = true ↔ k = .binary ∧ o.source ≠ .status := fun k o => by
    rw [isBinaryFromPin_iff, source]
  have stepped := stepWithEvent_points points
  simp only [counted] at stepped
  rw [← stepped]
  exact only.trans (t := t) rfl

/-! ## A change event, case by case (R43) -/

section
variable {s : State} {n : Nat} {o : Owned} (entry : s.ownedAt n = some o)
include entry

theorem changeEvent_quiet (quiet : o.sched = .quiet) : s.changeEvent n = (s.joinUrgent n).stepWithEvent n := by
  simp [State.changeEvent, entry, quiet]

theorem changeEvent_routine_waiting (routine : o.sched = .routine) (waits : o.inFlight = false) :
    s.changeEvent n = (s.promote n).stepWithEvent n := by simp [State.changeEvent, entry, routine, waits]

theorem changeEvent_routine_flying (routine : o.sched = .routine) (flies : o.inFlight = true) :
    s.changeEvent n = ((s.promote n).setDirty n).stepWithEvent n := by simp [State.changeEvent, entry, routine, flies]

theorem changeEvent_urgent_flying (urgent : o.sched = .urgent) (flies : o.inFlight = true) (clean : o.dirty = false) :
    s.changeEvent n = (s.setDirty n).stepWithEvent n := by simp [State.changeEvent, entry, urgent, flies, clean]

/-- A point that waits in the urgent band, or whose next record is due already, needs no further place (R43). -/
theorem changeEvent_urgent_still (urgent : o.sched = .urgent) (due : o.inFlight = false ∨ o.dirty = true) : s.changeEvent n = s := by
  cases flies : o.inFlight with
  | false => simp [State.changeEvent, entry, urgent, flies]
  | true =>
    have dirty : o.dirty = true := due.resolve_left (by simp [flies])
    simp [State.changeEvent, entry, urgent, flies, dirty]

theorem changeEvent_yielded (yielded : o.sched = .yielded) : s.changeEvent n = s := by simp [State.changeEvent, entry, yielded]

end

/-- Settles O51: each row of R43 is a move in the queue and a change of one entry, and the count step follows them. -/
theorem changeEvent : Obligations.ChangeEvent := by
  intro s n o entry stepped toUrgent toDirty left
  have promoted : (s.promote n).routine = left := without_eq n s.routine
  have marked : ((s.promote n).setDirty n).points = (s.updateOwned n (toDirty ∘ toUrgent)).points :=
    (congrArg State.points (updateOwned_updateOwned n toUrgent toDirty s) :)
  refine ⟨fun quiet => ?_, fun routine waits => ?_, fun routine flies => ?_, fun urgent flies clean => ?_,
    changeEvent_urgent_still entry, changeEvent_yielded entry⟩
  · rw [changeEvent_quiet entry quiet]
    exact stepWithEvent_eq (s := s) (f := toUrgent) rfl rfl fun _ => rfl
  · rw [changeEvent_routine_waiting entry routine waits, ← promoted]
    exact stepWithEvent_eq (s := s) (f := toUrgent) rfl rfl fun _ => rfl
  · rw [changeEvent_routine_flying entry routine flies, ← promoted]
    exact stepWithEvent_eq (s := s) (f := toDirty ∘ toUrgent) rfl marked fun _ => rfl
  · rw [changeEvent_urgent_flying entry urgent flies clean]
    exact stepWithEvent_eq (s := s) (f := toDirty) rfl rfl fun _ => rfl

/-! ## The expiry of a refresh timer (R46, R47) -/

/-- Where the station is not RUNNING, or holds no running refresh timer for the point, nothing expires (log 3). -/
theorem execRefreshTimerExpiry_still {s : State} {n : Nat}
    (stopped : s.station ≠ .running ∨ s.ownedAt n = none ∨ ∃ o, s.ownedAt n = some o ∧ o.refreshTimer = none) :
    exec (.refreshTimerExpiry n) s = .next s := by
  change execRefreshTimerExpiry n s = _
  unfold execRefreshTimerExpiry
  split
  · next o running entry =>
    have timer : o.refreshTimer = none := by
      rcases stopped with other | absent | ⟨o', entry', timer⟩
      · exact absurd running other
      · rw [entry] at absent; cases absent
      · rw [entry] at entry'; cases entry'; exact timer
    simp [timer]
  · rfl

section
variable {s : State} {n : Nat} {o : Owned} {due : Time} (running : s.station = .running) (entry : s.ownedAt n = some o)
  (timer : o.refreshTimer = some due)
include running entry timer

theorem execRefreshTimerExpiry_quiet (quiet : o.sched = .quiet) : exec (.refreshTimerExpiry n) s =
    .next (((s.advanceTo due).updateOwned n fun o => { o with refreshTimer := none }).joinRoutine n) := by
  change execRefreshTimerExpiry n s = _
  simp [execRefreshTimerExpiry, running, entry, timer, quiet]

theorem execRefreshTimerExpiry_standing (standing : o.sched ≠ .quiet) : exec (.refreshTimerExpiry n) s =
    .next ((s.advanceTo due).updateOwned n fun o => { o with refreshTimer := none }) := by
  change execRefreshTimerExpiry n s = _
  simp [execRefreshTimerExpiry, running, entry, timer, standing]

end

/-- Settles O52: the timer that runs is stopped, and then the scheduler state decides. -/
theorem refreshTimer : Obligations.RefreshTimer := by
  intro s n
  refine ⟨fun o due running entry timer => ⟨fun quiet => ?_, execRefreshTimerExpiry_standing running entry timer⟩,
    execRefreshTimerExpiry_still⟩
  rw [execRefreshTimerExpiry_quiet running entry timer quiet, State.joinRoutine, updateOwned_updateOwned]
  rfl

end Sys2Proof.Machine
end

