-- ==== Sys2Proof/Proofs/Solicited.lean ====
section
/-!
THEOREM. A SOLICIT frame heard (O38): which bodies are taken, and what each listed point comes to.
-/

namespace Sys2Proof.Machine

open Sys2Proof.Safety

/-! ## SOLICIT bodies (R115, section 11.1.1) -/

theorem solicitOk_iff (body : List Byte) : solicitOk body = true ↔ body.length ∈ [2, 4, 6, 8, 10, 12, 14, 16] := by
  simp only [solicitOk, Bool.and_eq_true, beq_iff_eq, decide_eq_true_iff, List.mem_cons, List.not_mem_nil, or_false]
  omega

/-- Each two bytes of a body list one point; a byte left over lists none. -/
theorem solicitedOf_length : ∀ body : List Byte, (solicitedOf body).length = body.length / 2
  | [] => rfl
  | [_] => by simp [solicitedOf]
  | b0 :: b1 :: rest => by
    simp only [solicitedOf, List.length_cons, solicitedOf_length rest]
    omega

/-- A good SOLICIT frame of another station is heard, and the Solicitation Unit takes its body (R78, R115). -/
theorem execSolicit_heard {e : Time} {s : State} {p : Station} {body : List Byte} (hears : Hears s p) (ok : bodyOk body = true) :
    exec (.solicit e p body) s = .next ((heardFrom e p s).takeSolicit body) :=
  congrArg Host.Outcome.next (arrive_heard (s := s.advance e) hears .solicit Config.everyone body (fun _ => rfl) ok)

theorem takeSolicit_listed {body : List Byte} (ok : solicitOk body = true) (s : State) :
    s.takeSolicit body = (solicitedOf body).foldl State.takeSolicited s := if_pos ok

theorem takeSolicit_invalid {body : List Byte} (bad : ¬ solicitOk body = true) (s : State) :
    s.takeSolicit body = s.bump .receiveErrors := if_neg bad

/-! ## One listed point (R108, R116, R117) -/

theorem takeSolicited_other {s : State} (other : s.station ≠ .running) (n : Nat) : s.takeSolicited n = s := if_neg other

theorem takeSolicited_absent {s : State} {n : Nat} (absent : findPoint n s.points = none) : s.takeSolicited n = s := by
  simp [State.takeSolicited, absent]

theorem takeSolicited_mirrored {s : State} {n : Nat} {m : Mirrored} (running : s.station = .running) (entry : s.mirroredAt n = some m) :
    s.takeSolicited n = s.coverPoint n := by
  obtain ⟨p, found, -, -, mirrored⟩ := mirroredAt_entry entry
  simp [State.takeSolicited, running, found, mirrored?_eq_some.mp mirrored]

theorem takeSolicited_owned {s : State} {n : Nat} {o : Owned} (running : s.station = .running) (entry : s.ownedAt n = some o) :
    s.takeSolicited n = s.claim n := by
  obtain ⟨p, found, -, -, owned⟩ := ownedAt_entry entry
  simp [State.takeSolicited, running, found, owned?_eq_some.mp owned]

theorem claim_yielded {s : State} {n : Nat} {o : Owned} (entry : s.ownedAt n = some o) (yielded : o.sched = .yielded) : s.claim n = s := by
  simp [State.claim, entry, yielded]

/-- Settles O38: the length decides whether the body is taken, and the entry of each listed point what it comes to. -/
theorem solicitTaken : Obligations.SolicitTaken := by
  refine ⟨⟨rfl, fun b0 b1 rest => rfl⟩, fun e s p body hears fits => ⟨fun whole => ?_, fun other => ?_⟩, fun s n =>
    ⟨takeSolicited_absent, fun other => takeSolicited_other other n, fun running m entry => takeSolicited_mirrored running entry,
      fun running o entry => ?_⟩⟩
  · have ok := (solicitOk_iff body).mpr whole
    refine ⟨by rw [execSolicit_heard hears fits, takeSolicit_listed ok], ?_⟩
    simp only [solicitOk, Bool.and_eq_true, beq_iff_eq] at ok
    rw [solicitedOf_length]
    omega
  · rw [execSolicit_heard hears fits, takeSolicit_invalid (mt (solicitOk_iff body).mp other)]
    rfl
  · have claimed := takeSolicited_owned running entry
    refine ⟨fun quiet => ?_, fun routine waits => ?_, fun routine flies => ?_, fun still => ?_⟩
    · exact claimed.trans (claim_quiet entry quiet)
    · exact (claimed.trans (claim_waiting entry routine waits)).trans (promote_eq n s)
    · exact claimed.trans (claim_flying entry routine flies)
    · exact claimed.trans (still.elim (claim_urgent entry) (claim_yielded entry))

end Sys2Proof.Machine
end
-- ==== Sys2Proof/Proofs/LineStays.lean ====
section
/-!
SUPPORT. What leaves the frame on the line as it is, and the laws of line, Request Handler and failure accounting standing: the relation
`LineStays`, and that the work on points, pins, peers, solicitations and override lists keeps it.
-/

namespace Sys2Proof.Machine

open Sys2Proof.Safety

/-! ## The override lists within their capacity (R139, R145) -/

/-- The outputs differ in their pins, and each override list holds at most 4 entries. -/
def OutputsFit (l : List Output) : Prop :=
  (l.map Output.pin).Nodup ∧ ∀ o ∈ l, o.overrides.length ≤ Config.maxOverrides

/-- Pins and override lists decide it. -/
theorem outputsFit_congr {s t : State} (lists : outputLists t = outputLists s) (fit : OutputsFit s.outputs) : OutputsFit t.outputs := by
  obtain ⟨distinct, short⟩ := fit
  refine ⟨(pins_of_outputLists lists).symm ▸ distinct, fun o ho => ?_⟩
  have listed : (o.pin, o.binding, o.overrides) ∈ outputLists s := lists ▸ List.mem_map_of_mem ho
  obtain ⟨q, hq, same⟩ := List.mem_map.mp listed
  obtain ⟨-, -, overrides⟩ : q.pin = o.pin ∧ q.binding = o.binding ∧ q.overrides = o.overrides := by simpa using same
  exact overrides ▸ short q hq

/-- The lists of one pin change to lists within the capacity. -/
theorem updateOverrides_fit {s : State} {i : Fin 16} {f : List Override → List Override} (fit : OutputsFit s.outputs)
    (short : ∀ o ∈ s.outputs, o.pin = i → (f o.overrides).length ≤ Config.maxOverrides) :
    OutputsFit (s.updateOverrides i f).outputs := by
  obtain ⟨distinct, old⟩ := fit
  rw [State.updateOverrides_outputs]
  refine ⟨?_, fun o ho => ?_⟩
  · rw [List.map_map]
    refine (congrArg List.Nodup (List.map_congr_left fun o _ => ?_)).mpr distinct
    by_cases at_i : o.pin = i <;> simp [at_i]
  · obtain ⟨q, hq, rfl⟩ := List.mem_map.mp ho
    by_cases at_i : q.pin = i
    · rw [if_pos at_i]; exact short q hq at_i
    · rw [if_neg at_i]; exact old q hq

theorem length_dropOrigin (p : Station) (l : List Override) : (dropOrigin p l).length ≤ l.length := List.length_filter_le _ l

theorem dropOrigin_fit {s : State} (p : Station) (i : Fin 16) (fit : OutputsFit s.outputs) :
    OutputsFit (s.updateOverrides i (dropOrigin p)).outputs :=
  updateOverrides_fit fit fun o ho _ => (length_dropOrigin p o.overrides).trans (fit.2 o ho)

/-- Where the outputs differ in their pins, the one found for a pin is the only one of it. -/
theorem eq_of_outputAt {s : State} {i : Fin 16} {o q : Output} (fit : OutputsFit s.outputs) (at_i : s.outputAt i = some o)
    (hq : q ∈ s.outputs) (pin : q.pin = i) : q = o := by
  have same : o.pin = i := by simpa using List.find?_some at_i
  exact List.inj_on_of_nodup_map fit.1 hq (List.mem_of_find?_eq_some at_i) (pin.trans same.symm)

/-! ## The relation -/

/-- From `s` to `t` the station state and the frame on the line stay, replies may join the reply queue, and the laws of line and receive
assembly, of the Request Handler and of failure accounting are kept. -/
structure LineStays (s t : State) : Prop where
  station : t.station = s.station
  inFlight : t.inFlight = s.inFlight
  replies : ∃ l, t.replies = s.replies ++ l
  line : LineLawful s → AssemblyLawful s → LineLawful t ∧ AssemblyLawful t
  handler : HandlerLawful s → HandlerLawful t
  accounting : AccountingLawful s → AccountingLawful t

theorem LineStays.refl (s : State) : LineStays s s := ⟨rfl, rfl, ⟨[], by simp⟩, fun line assembly => ⟨line, assembly⟩, id, id⟩

theorem LineStays.trans {s t u : State} (h : LineStays s t) (k : LineStays t u) : LineStays s u where
  station := k.station.trans h.station
  inFlight := k.inFlight.trans h.inFlight
  replies := by
    obtain ⟨l, hl⟩ := h.replies
    obtain ⟨m, hm⟩ := k.replies
    exact ⟨l ++ m, by rw [hm, hl, List.append_assoc]⟩
  line := fun line assembly => (h.line line assembly).elim k.line
  handler := k.handler ∘ h.handler
  accounting := k.accounting ∘ h.accounting

/-- The capacities of the Request Handler, with those of the outputs apart. -/
theorem handlerLawful_iff (s : State) : HandlerLawful s ↔
    (s.replies.length ≤ Config.maxReplies ∧ ∀ r ∈ s.replies, r.data.length ≤ 22)
    ∧ (s.recent.length ≤ Config.maxRecent ∧ (s.recent.map fun e => (e.sender, e.tag)).Nodup)
    ∧ OutputsFit s.outputs := by
  simp only [HandlerLawful, OutputsFit, and_assoc]

theorem handlerLawful_of_outputs {s t : State} (replies : t.replies = s.replies) (recent : t.recent = s.recent)
    (fits : OutputsFit s.outputs → OutputsFit t.outputs) (h : HandlerLawful s) : HandlerLawful t := by
  rw [handlerLawful_iff] at h ⊢
  rw [replies, recent]
  exact ⟨h.1, h.2.1, fits h.2.2⟩

theorem LineStays.of_tables {s t : State} (only : OnlyTables s t) (fits : OutputsFit s.outputs → OutputsFit t.outputs) : LineStays s t where
  station := by rw [only]
  inFlight := by rw [only]
  replies := ⟨[], by rw [only]; simp⟩
  line := fun line assembly => by rw [only]; exact ⟨line, assembly⟩
  handler := handlerLawful_of_outputs (by rw [only]) (by rw [only]) fits
  accounting := fun lawful => by rw [only]; exact lawful

theorem LineStays.of_lists {s t : State} (only : OnlyTables s t) (lists : outputLists t = outputLists s) : LineStays s t :=
  .of_tables only (outputsFit_congr lists)

theorem LineStays.of_queue {s t : State} (only : OnlyQueue s t) : LineStays s t := .of_lists only.status.tables (by rw [only]; rfl)

theorem LineStays.fold {α : Type} (f : State → α → State) (turn : ∀ s a, LineStays s (f s a)) (l : List α) (s : State) :
    LineStays s (l.foldl f s) := foldl_rel LineStays .refl .trans f turn l s

/-! ## Clock, counters, summary, outputs -/

theorem advance_stays (e : Time) (s : State) : LineStays s (s.advance e) := { LineStays.refl s with }
theorem advanceTo_stays (due : Time) (s : State) : LineStays s (s.advanceTo due) := { LineStays.refl s with }
theorem bump_stays (k : CounterId) (s : State) : LineStays s (s.bump k) := .of_lists rfl rfl
theorem report_stays (c : Condition) (b : Bool) (s : State) : LineStays s (s.report c b) :=
  .of_lists (report_status c b s).tables (outputLists_report c b s)
theorem judgeSource_stays (s : State) : LineStays s s.judgeSource := report_stays _ _ s
theorem judgePeerLost_stays (s : State) : LineStays s s.judgePeerLost := report_stays _ _ s
theorem evaluateWhere_stays (pick : Output → Bool) (s : State) : LineStays s (s.evaluateWhere pick) :=
  .of_lists (evaluateWhere_status pick s).tables (outputLists_evaluateWhere pick s)
theorem evaluateSource_stays (n : Nat) (s : State) : LineStays s (s.evaluateSource n) := evaluateWhere_stays _ s
theorem evaluatePin_stays (i : Fin 16) (s : State) : LineStays s (s.evaluatePin i) := evaluateWhere_stays _ s
theorem changeEvent_stays (n : Nat) (s : State) : LineStays s (s.changeEvent n) := .of_queue (changeEvent_queue n s)
theorem claim_stays (n : Nat) (s : State) : LineStays s (s.claim n) := .of_queue (claim_queue n s)

/-! ## Mirrored entries, solicit list, roster -/

theorem updateOwned_stays (n : Nat) (f : Owned → Owned) (s : State) : LineStays s (s.updateOwned n f) := .of_queue rfl
theorem updateMirrored_stays (n : Nat) (f : Mirrored → Mirrored) (s : State) : LineStays s (s.updateMirrored n f) := .of_queue rfl
theorem updatePeer_stays (p : Station) (f : Peer → Peer) (s : State) : LineStays s (s.updatePeer p f) := .of_lists rfl rfl
theorem keepHoldsMark_stays (p : Station) (s : State) : LineStays s (s.keepHoldsMark p) := .of_lists rfl rfl
theorem removeSolicit_stays (n : Nat) (s : State) : LineStays s (s.removeSolicit n) := .of_lists rfl rfl

theorem fillSolicits_stays (s : State) : LineStays s s.fillSolicits :=
  .of_lists (fillSolicits_tables s) (by unfold State.fillSolicits; split <;> rfl)

theorem solicitPoint_stays (n : Nat) (s : State) : LineStays s (s.solicitPoint n) :=
  .of_lists (solicitPoint_tables n s) (by rw [solicitPoint_eq]; rfl)

theorem satisfy_stays (n : Nat) (s : State) : LineStays s (s.satisfy n) := .of_lists (satisfy_tables n s) (by rw [satisfy_only]; rfl)

theorem track_stays (p : Station) (s : State) : LineStays s (s.track p).1 := .of_lists (track_tables p s) (track_rosterWork p s).lists

theorem keepSourcesMark_stays (p : Station) (s : State) : LineStays s (s.keepSourcesMark p) :=
  .of_lists (keepSourcesMark_tables p s) (keepSourcesMark_rosterWork p s).lists

theorem heard_stays (p : Station) (s : State) : LineStays s (s.heard p) := by
  obtain ⟨roster, b, e⟩ := heard_reports p s
  rw [e]
  exact LineStays.trans (t := { s with roster := roster }) (.of_lists rfl rfl) (report_stays _ _ _)

/-! ## Records, solicitations -/

theorem countMissed_stays (stored : Option Count) (carried : Count) (s : State) : LineStays s (s.countMissed stored carried) :=
  .of_lists (countMissed_tables stored carried s) (by rw [countMissed_eq]; rfl)

theorem acceptRecord_stays (n : Nat) (k : Kind) (m : Mirrored) (r : Record) (s : State) : LineStays s (s.acceptRecord n k m r) :=
  ((((countMissed_stays m.count r.count s).trans (updateMirrored_stays n (Mirrored.accept k s.clock r) _)).trans
    (judgeSource_stays _)).trans (satisfy_stays n _)).trans (evaluateSource_stays n _)

theorem learn_stays (n : Nat) (p : Station) (s : State) : LineStays s (s.learn n p) :=
  ((updateMirrored_stays n (fun m => { m with source := some p }) s).trans (track_stays p _)).trans (keepSourcesMark_stays p _)

theorem ownershipConflict_stays (p : Station) (n : Nat) (s : State) : LineStays s (s.ownershipConflict p n) := by
  have reported : LineStays s ((s.bump .conflicts).report .conflict true) := (bump_stays _ s).trans (report_stays _ _ _)
  unfold State.ownershipConflict
  dsimp only
  split
  · exact reported
  · split
    · exact reported.trans (.of_queue (yieldPoint_queue n _))
    · split
      · exact reported.trans (claim_stays n _)
      · exact reported

theorem takeRecord_stays (p : Station) (s : State) (r : Record) : LineStays s (s.takeRecord p r) := by
  rcases takeRecord_cases p s r with e | ⟨o, -, -, e⟩ | ⟨q, m, -, -, -, e⟩ | e <;> rw [e]
  · exact .refl s
  · exact ownershipConflict_stays p _ s
  · rcases mirroredRecord_cases p r.point.toNat q.kind m r s with
      ⟨-, e⟩ | ⟨-, e⟩ | ⟨old, -, -, ⟨-, e⟩ | ⟨-, e⟩ | ⟨-, e⟩⟩ <;> rw [e]
    · exact (learn_stays _ p s).trans (acceptRecord_stays ..)
    · exact acceptRecord_stays ..
    · exact (((bump_stays _ s).trans (learn_stays _ p _)).trans (keepSourcesMark_stays old _)).trans (acceptRecord_stays ..)
    · exact ((learn_stays _ p s).trans (keepSourcesMark_stays old _)).trans (acceptRecord_stays ..)
    · exact bump_stays _ s
  · exact bump_stays _ s

theorem takePublication_stays (p : Station) (body : List Byte) (s : State) : LineStays s (s.takePublication p body) := by
  unfold State.takePublication
  split
  · exact .fold _ (takeRecord_stays p) _ s
  · exact bump_stays _ s

theorem takeSolicited_stays (s : State) (n : Nat) : LineStays s (s.takeSolicited n) := by
  unfold State.takeSolicited
  split
  · split
    · exact .refl s
    · split
      · exact claim_stays n s
      · exact .of_lists rfl rfl
  · exact .refl s

theorem takeSolicit_stays (body : List Byte) (s : State) : LineStays s (s.takeSolicit body) := by
  unfold State.takeSolicit
  split
  · exact .fold _ takeSolicited_stays _ s
  · exact bump_stays _ s

/-! ## Override lists -/

/-- The lists of one pin change, and its output is evaluated again (R144). -/
theorem evaluateOverrides_stays {i : Fin 16} {f : List Override → List Override} {s : State}
    (fits : OutputsFit s.outputs → OutputsFit (s.updateOverrides i f).outputs) : LineStays s ((s.updateOverrides i f).evaluatePin i) :=
  (LineStays.of_tables (updateOverrides_tables i f s) fits).trans (evaluatePin_stays i _)

theorem removeOverride_stays (i : Fin 16) (p : Station) (s : State) : LineStays s (s.removeOverride i p) :=
  (evaluateOverrides_stays (dropOrigin_fit p i)).trans (keepHoldsMark_stays p _)

theorem purge_stays (p : Station) (s : State) : LineStays s (s.purge p) :=
  (LineStays.fold _ (fun _ i => evaluateOverrides_stays (dropOrigin_fit p i)) _ s).trans (keepHoldsMark_stays p _)

theorem applyRelease_stays (p : Station) (i : Fin 16) (s : State) : LineStays s (s.applyRelease p i).1 := by
  unfold State.applyRelease
  split
  · exact .refl s
  · split
    · exact removeOverride_stays i p s
    · exact .refl s

/-- An entry put in the place of the one of its origin, or on a list with room (R146). -/
theorem push_fit {s : State} {p : Station} {i : Fin 16} {o : Output} (at_i : s.outputAt i = some o) (entry : Override)
    (room : hasOrigin p o.overrides = true ∨ o.overrides.length < Config.maxOverrides) (fit : OutputsFit s.outputs) :
    OutputsFit (s.updateOverrides i fun l => entry :: dropOrigin p l).outputs := by
  refine updateOverrides_fit fit fun q hq pin => ?_
  rw [eq_of_outputAt fit at_i hq pin, List.length_cons]
  rcases room with held | room
  · obtain ⟨x, hx, origin⟩ := hasOrigin_iff.mp held
    have shorter : (dropOrigin p o.overrides).length < o.overrides.length :=
      List.length_filter_lt_length_iff_exists.mpr ⟨x, hx, by simp [origin]⟩
    exact shorter.trans_le (fit.2 o (List.mem_of_find?_eq_some at_i))
  · exact (length_dropOrigin p o.overrides).trans_lt room

theorem applyForce_stays (p : Station) (i : Fin 16) (v : Bool) (lease : Byte) (s : State) : LineStays s (s.applyForce p i v lease).1 := by
  unfold State.applyForce
  split
  · exact .refl s
  · next o at_i =>
    have pushed : ∀ entry, hasOrigin p o.overrides = true ∨ o.overrides.length < Config.maxOverrides →
        LineStays s (((s.updateOverrides i fun l => entry :: dropOrigin p l).evaluatePin i).keepHoldsMark p) := fun entry room =>
      (evaluateOverrides_stays (push_fit at_i entry room)).trans (keepHoldsMark_stays p _)
    dsimp only
    split
    · exact .refl s
    · split
      · next held => exact pushed _ (.inl held)
      · split
        · exact .refl s
        · next room => exact pushed _ (.inr (Nat.lt_of_not_le room))

theorem dropLast_fit {s : State} (i : Fin 16) (fit : OutputsFit s.outputs) : OutputsFit (s.updateOverrides i List.dropLast).outputs :=
  updateOverrides_fit fit fun o ho _ => by
    have := fit.2 o ho
    rw [List.length_dropLast]; omega

/-- After the discard from a full list, the list of the pin has room (R150). -/
theorem discardOldest_room {s : State} {i : Fin 16} {o : Output} (at_i : s.outputAt i = some o)
    (full : Config.maxOverrides ≤ o.overrides.length) (fit : OutputsFit s.outputs) :
    OutputsFit (s.discardOldest i).outputs
    ∧ ∀ q ∈ (s.discardOldest i).outputs, q.pin = i → q.overrides.length < Config.maxOverrides := by
  have positive : 0 < Config.maxOverrides := by decide
  obtain ⟨x, last⟩ : ∃ x, o.overrides.getLast? = some x :=
    ⟨_, List.getLast?_eq_some_getLast (List.ne_nil_of_length_pos (by omega))⟩
  have lists : outputLists (s.discardOldest i) = outputLists (s.updateOverrides i List.dropLast) := by
    rw [discardOldest_eq at_i last, outputLists_report]; rfl
  refine ⟨outputsFit_congr lists (dropLast_fit i fit), fun q hq pin => ?_⟩
  have listed : (q.pin, q.binding, q.overrides) ∈ outputLists (s.updateOverrides i List.dropLast) := lists ▸ List.mem_map_of_mem hq
  obtain ⟨y, hy, same⟩ := List.mem_map.mp listed
  obtain ⟨z, hz, rfl⟩ := List.mem_map.mp hy
  by_cases at_z : z.pin = i
  · have short := fit.2 z hz
    rw [if_pos at_z] at same
    obtain ⟨-, -, overrides⟩ : z.pin = q.pin ∧ z.binding = q.binding ∧ z.overrides.dropLast = q.overrides := by simpa using same
    rw [← overrides, List.length_dropLast]
    omega
  · rw [if_neg at_z] at same
    exact absurd ((Prod.mk.inj same).1.trans pin) at_z

theorem handPress_stays (i : Fin 16) (s : State) : LineStays s (s.handPress i) := by
  unfold State.handPress
  split
  · exact .refl s
  · next o at_i =>
    split
    · exact evaluateOverrides_stays (dropOrigin_fit 0 i)
    · dsimp only
      split
      · next full =>
        refine (LineStays.of_tables ((discardOldest_tables i s).trans (updateOverrides_tables i _ _)) fun fit => ?_).trans
          (evaluatePin_stays i _)
        obtain ⟨kept, room⟩ := discardOldest_room at_i full fit
        exact updateOverrides_fit kept fun q hq pin => room q hq pin
      · next room =>
        refine evaluateOverrides_stays fun fit => updateOverrides_fit fit fun q hq pin => ?_
        rw [eq_of_outputAt fit at_i hq pin]
        exact Nat.lt_of_not_le room

/-! ## The loss and the restart of a source, presence -/

theorem sourceLost_stays (s : State) (n : Nat) : LineStays s (s.sourceLost n) := by
  unfold State.sourceLost
  split
  · exact .refl s
  · split
    · exact ((updateMirrored_stays n _ s).trans (judgeSource_stays _)).trans (evaluateSource_stays n _)
    · exact .refl s
    · exact .refl s

theorem sourceRestarted_stays (s : State) (n : Nat) : LineStays s (s.sourceRestarted n) := by
  cases entry : s.mirroredAt n with
  | none => simp only [State.sourceRestarted, entry]; exact .refl s
  | some m =>
    rcases sourceRestarted_cases entry with ⟨-, e⟩ | ⟨-, u, hu, e⟩ <;> rw [e]
    · exact updateMirrored_stays n _ s
    · rw [hu]
      exact (((updateMirrored_stays n _ s).trans (judgeSource_stays _)).trans (evaluateSource_stays n _)).trans (solicitPoint_stays n _)

theorem peerLost_stays (p : Station) (s : State) : LineStays s (s.peerLost p) :=
  (LineStays.fold _ sourceLost_stays _ s).trans (purge_stays p _)

theorem peerRestarted_stays (p : Station) (s : State) : LineStays s (s.peerRestarted p) :=
  (LineStays.fold _ sourceRestarted_stays _ s).trans (purge_stays p _)

theorem takePresence_stays (p : Station) (body : List Byte) (s : State) : LineStays s (s.takePresence p body) := by
  unfold State.takePresence
  split
  · split
    · exact bump_stays _ s
    · unfold State.applyPresence
      split
      · exact .refl s
      · dsimp only
        split
        · exact (peerRestarted_stays p s).trans (updatePeer_stays p _ _)
        · exact updatePeer_stays p _ s
  · exact .refl s

/-! ## Pins -/

theorem updatePin_stays (i : Fin 16) (f : Pin → Pin) (s : State) : LineStays s (s.updatePin i f) := { LineStays.refl s with }

theorem valueWritten_stays (n : Nat) (event : Bool) (s : State) : LineStays s (s.valueWritten n event) := by
  unfold State.valueWritten
  refine (evaluateSource_stays n s).trans ?_
  dsimp only
  split
  · exact changeEvent_stays n _
  · exact .refl _

theorem binaryTransition_stays (level : Bool) (s : State) (n : Nat) : LineStays s (s.binaryTransition n level) :=
  (updateOwned_stays n _ s).trans (valueWritten_stays n true _)

theorem pointReading_stays (reading : Byte) (s : State) (n : Nat) : LineStays s (s.pointReading reading n) := by
  unfold State.pointReading
  split
  · exact .refl s
  · split
    · exact .refl s
    · exact (updateOwned_stays n _ s).trans (valueWritten_stays n _ _)
    · split
      · exact .refl s
      · dsimp only
        split
        · exact .refl s
        · exact binaryTransition_stays _ s n

theorem pinReading_stays (i : Fin 16) (reading : Byte) (s : State) : LineStays s (s.pinReading i reading) := by
  unfold State.pinReading
  split
  · exact (updatePin_stays i _ s).trans (.fold _ (pointReading_stays reading) _ _)
  · exact .refl s

theorem pinTransition_stays (i : Fin 16) (level : Bool) (s : State) : LineStays s (s.pinTransition i level) := by
  unfold State.pinTransition
  refine (updatePin_stays i (fun p => { p with level := some level, candidate := none }) s).trans ?_
  dsimp only
  split
  · exact .refl _
  · split
    · exact .fold _ (binaryTransition_stays level) _ _
    · split
      · exact handPress_stays _ _
      · exact .refl _
    · exact .refl _
    · exact .refl _
    · exact .refl _

theorem samplePin_stays (levels : BitVec 16) (s : State) (i : Fin 16) : LineStays s (s.samplePin levels i) := by
  unfold State.samplePin
  dsimp only
  split
  · exact .refl s
  · split
    · exact .refl s
    · split
      · exact updatePin_stays i _ s
      · split
        · exact pinTransition_stays i _ s
        · split
          · exact updatePin_stays i _ s
          · split
            · exact pinTransition_stays i _ s
            · exact .refl s

end Sys2Proof.Machine
end

