-- ==== Sys2Proof/Proofs/RequestStays.lean ====
section
/-!
SUPPORT. Requests and the capacities they meet: a reply joins the queue only where it has room and at most 22 data bytes, and an outcome
joins the recent-command table only where its sender and tag are not listed (R158 to R173).
-/

namespace Sys2Proof.Machine

open Sys2Proof.Safety

/-! ## The lengths of the data of a reply (section 11.1.4) -/

theorem length_slotBytes (index : Nat) (p : Option Point) : (slotBytes index p).length = 3 := by
  cases p with
  | none => rfl
  | some p => cases e : p.role <;> simp [slotBytes, e]

theorem length_flatMap_of_const {α β : Type} (f : α → List β) (k : Nat) (each : ∀ a, (f a).length = k) (l : List α) :
    (l.flatMap f).length = l.length * k := by
  induction l with
  | nil => simp
  | cons a l ih => simp only [List.flatMap_cons, List.length_append, each, ih, List.length_cons]; ring

theorem length_groupData (group : Nat) (start : Fin 16) (n : Nat) (s : State) : (s.groupData group start n).length = 1 + 3 * n := by
  unfold State.groupData
  rw [List.length_cons, length_flatMap_of_const _ 3 fun k => length_slotBytes _ _]
  simp; ring

theorem length_peerBytes (now : Time) (p : Station) (x : Option Peer) : (peerBytes now p x).length ≤ 7 := by
  cases x with
  | none => simp [peerBytes]
  | some x => cases e : x.content <;> simp [peerBytes, e]

theorem length_outputBytes (now : Time) (cond : SourceCondition) (o : Output) :
    (outputBytes now cond o).length = 2 + 2 * o.overrides.length := by
  unfold outputBytes
  rw [List.length_append, length_flatMap_of_const _ 2 fun _ => rfl]
  simp; ring

theorem length_counterBytes (page : Bool) (c : Counters) : (counterBytes page c).length = 13 := by
  cases page <;> rfl

/-- The count of a POINT GROUP query with its fields in range is at most 7 (R161). -/
theorem count_of_queryOf {body : List Byte} {group n : Nat} {start : Fin 16} (q : queryOf body = some (.pointGroup group start n)) :
    n ≤ 7 := by
  simp only [queryOf, parseQuery, parseBare, parsePointGroup, parsePeer, parseOutput, parseCounters] at q
  grind [Option.map_eq_some_iff]

/-- What a query of a body within its ranges is answered with fits a reply (R169 to R173). -/
theorem queryReply_fits (p : Station) (tag : Byte) {body : List Byte} {q : Query} {s : State} (parsed : queryOf body = some q)
    (fit : OutputsFit s.outputs) : (s.queryReply p tag q).data.length ≤ 22 := by
  cases q with
  | status => show 9 ≤ 22; decide
  | pointGroup group start n =>
    have := count_of_queryOf parsed
    simp only [State.queryReply, dataReply, length_groupData]; omega
  | peer x =>
    have := length_peerBytes s.clock x (s.peerAt x)
    simp only [State.queryReply, dataReply]; omega
  | output i =>
    simp only [State.queryReply, State.outputReply]
    cases at_i : s.outputAt i with
    | none => simp [plainReply]
    | some o =>
      have : o.overrides.length ≤ 4 := fit.2 o (List.mem_of_find?_eq_some at_i)
      simp only [dataReply, length_outputBytes]; omega
  | counters page => simp only [State.queryReply, dataReply, length_counterBytes]; decide

/-! ## The reply queue and the recent-command table (R162, R173) -/

theorem queueReply_stays {s : State} {r : Reply} (room : s.replies.length < Config.maxReplies)
    (short : OutputsFit s.outputs → r.data.length ≤ 22) : LineStays s (s.queueReply r) :=
  { LineStays.refl s with
    replies := ⟨[r], rfl⟩
    handler := fun h => by
      obtain ⟨⟨-, old⟩, recent, fit⟩ := (handlerLawful_iff s).mp h
      refine (handlerLawful_iff _).mpr ⟨⟨?_, fun x hx => ?_⟩, recent, fit⟩
      · show (s.replies ++ [r]).length ≤ _
        rw [List.length_append]; exact room
      · rcases List.mem_append.mp hx with hx | hx
        · exact old x hx
        · rw [List.mem_singleton.mp hx]; exact short fit }

/-- A new outcome keeps the table within 8 entries of distinct sender and tag (R162). -/
theorem addRecent_fit {x : Recent} {l : List Recent} (short : l.length ≤ Config.maxRecent)
    (distinct : (l.map fun e => (e.sender, e.tag)).Nodup) (unlisted : ∀ e ∈ l, (e.sender, e.tag) ≠ (x.sender, x.tag)) :
    (addRecent x l).length ≤ Config.maxRecent ∧ ((addRecent x l).map fun e => (e.sender, e.tag)).Nodup := by
  have positive : 1 ≤ Config.maxRecent := by decide
  have joined : ∀ k : List Recent, k.Sublist l →
      ((k ++ [x]).map fun e => (e.sender, e.tag)).Nodup := fun k sub => by
    rw [List.map_append, List.nodup_append]
    refine ⟨distinct.sublist (sub.map _), by simp, fun a ha b hb => ?_⟩
    obtain ⟨e, he, rfl⟩ := List.mem_map.mp ha
    obtain rfl : b = (x.sender, x.tag) := by simpa using hb
    exact unlisted e (sub.subset he)
  unfold addRecent
  split
  · next room => exact ⟨by rw [List.length_append]; exact room, joined l (.refl l)⟩
  · exact ⟨by rw [List.length_append, List.length_drop, List.length_singleton]; omega, joined _ (List.drop_sublist 1 l)⟩

theorem record_stays {s : State} {p : Station} {tag : Byte} (k : CommandKind) (code : ReplyCode)
    (unlisted : findRecent p tag s.recent = none) : LineStays s (s.record p tag k code) :=
  { LineStays.refl s with
    handler := fun h => by
      obtain ⟨replies, ⟨short, distinct⟩, fit⟩ := (handlerLawful_iff s).mp h
      refine (handlerLawful_iff _).mpr ⟨replies, addRecent_fit short distinct fun e he same => ?_, fit⟩
      obtain ⟨sender, tag⟩ := Prod.mk.inj same
      exact List.find?_eq_none.mp unlisted e he (by simp [sender, tag]) }

/-- A command that has changed the tables at most is answered (R165). -/
theorem answer_stays {s u : State} {p : Station} {tag : Byte} (k : CommandKind) (code : ReplyCode) (only : OnlyTables s u)
    (stays : LineStays s u) (room : s.replies.length < Config.maxReplies) (unlisted : findRecent p tag s.recent = none) :
    LineStays s (u.answer p tag k code) := by
  have replies : u.replies = s.replies := by rw [only]
  have recent : (u.queueReply (plainReply p tag code)).recent = s.recent := by
    rw [State.queueReply_recent, only]
  exact (stays.trans (queueReply_stays (replies ▸ room) fun _ => Nat.zero_le _)).trans (record_stays k code (recent ▸ unlisted))

/-! ## Commands and queries -/

theorem performCommand_stays {p : Station} {tag : Byte} (c : Command) {s : State} (room : s.replies.length < Config.maxReplies)
    (unlisted : findRecent p tag s.recent = none) : LineStays s (s.performCommand p tag c) := by
  cases c with
  | force i value lease =>
    show LineStays s (s.force p tag i value lease)
    have only := track_tables p s
    have stays := track_stays p s
    unfold State.force
    split
    · next e => rw [e] at only stays; exact answer_stays _ _ only stays room unlisted
    · next t e =>
      rw [e] at only stays
      exact answer_stays _ _ (only.trans (applyForce_tables p i value lease t)) (stays.trans (applyForce_stays ..)) room unlisted
  | release i => exact answer_stays _ _ (applyRelease_tables p i s) (applyRelease_stays p i s) room unlisted
  | restart =>
    show LineStays s (s.requestRestart p tag)
    unfold State.requestRestart
    split
    · let r := { plainReply p tag .accepted with restartMark := true }
      let bound := s.pendingRestart.getD (s.clock + Config.restartBound)
      exact ((queueReply_stays (r := r) room fun _ => Nat.zero_le _).trans (t := s.queueReply r)
        (u := { s.queueReply r with pendingRestart := some bound }) { LineStays.refl (s.queueReply r) with }).trans
        (record_stays _ _ unlisted)
    · exact answer_stays _ _ (.refl s) (.refl s) room unlisted
  | clearCounters =>
    exact answer_stays (u := { s with counters := Counters.zero }) _ _ rfl { LineStays.refl s with } room unlisted

theorem takeRequest_stays (cls : RequestClass) (p : Station) (body : List Byte) (s : State) : LineStays s (s.takeRequest cls p body) := by
  unfold State.takeRequest
  split
  · next taken =>
    have room : s.replies.length < Config.maxReplies := of_decide_eq_true (Bool.and_eq_true_iff.mp taken).2
    split
    · unfold State.takeCommand
      split
      · exact queueReply_stays room fun _ => Nat.zero_le _
      · split
        · exact queueReply_stays room fun _ => Nat.zero_le _
        · next unlisted => exact performCommand_stays _ room unlisted
    · unfold State.takeQuery
      split
      · exact queueReply_stays room fun _ => Nat.zero_le _
      · next parsed => exact queueReply_stays room fun fit => queryReply_fits p _ parsed fit
  · exact bump_stays _ s

theorem filterRequest_stays (cls : RequestClass) (p d : Station) (body : List Byte) (s : State) :
    LineStays s (s.filterRequest cls p d body) := by
  unfold State.filterRequest
  split
  · exact bump_stays _ s
  · split
    · exact takeRequest_stays cls p body s
    · exact .refl s

/-- The block of a frame's class leaves the line as it is (R78). -/
theorem dispatchFrame_stays (cls : FrameClass) (p d : Station) (body : List Byte) (s : State) :
    LineStays s (s.dispatchFrame cls p d body) := by
  cases cls with
  | urgentPublish => exact takePublication_stays p body s
  | routinePublish => exact takePublication_stays p body s
  | solicit => exact takeSolicit_stays body s
  | presence => exact takePresence_stays p body s
  | reply => exact .refl s
  | command => exact filterRequest_stays _ p d body s
  | query => exact filterRequest_stays _ p d body s

end Sys2Proof.Machine
end

