-- ==== Sys2Proof/Proofs/Passages.lean ====
section
/-!
SUPPORT. What one command does to the line, the frame on it, the Request Handler and failure accounting: the passages, and that `exec` makes
one of them.
-/

namespace Sys2Proof.Machine

open Sys2Proof.Safety

/-! ## The line and the receive assembly (R65, R67, R75, R86) -/

theorem assemblyLawful_empty {s : State} (empty : s.assembly = .empty) : AssemblyLawful s := by
  rw [AssemblyLawful, empty]
  exact ⟨Nat.zero_le _, fun h => absurd rfl h, nofun⟩

theorem assemblyLawful_ignoring {s : State} (ignoring : s.assembly = .ignoring) (dispatches : s.station.dispatches = true)
    (sounding : s.line ≠ .idle) : AssemblyLawful s := by
  rw [AssemblyLawful, ignoring]
  exact ⟨Nat.zero_le _, fun _ => ⟨dispatches, sounding⟩, nofun⟩

/-- Outside STARTING the line may take any state that is tracked, and with a frame of this station on it any but IDLE (R65, R67, R70). -/
theorem lineLawful_of {s : State} (started : s.station ≠ .starting) (tracked : s.line ≠ .notTracked)
    (sounding : s.inFlight.isSome → s.line ≠ .idle) : LineLawful s :=
  ⟨⟨fun h => absurd h tracked, fun h => absurd h started⟩, sounding⟩

theorem endAssembly_stays (s : State) : LineStays s s.endAssembly :=
  { LineStays.refl s with
    line := fun line assembly => by
      refine ⟨line, ?_⟩
      by_cases flying : s.inFlight.isSome = true
      · rw [State.endAssembly, if_pos flying]; exact assembly
      · exact assemblyLawful_empty (if_neg flying) }

theorem discardFrame_stays {s : State} (dispatches : s.station.dispatches = true) : LineStays s s.discardFrame := by
  refine LineStays.trans (t := { s with assembly :=
    if s.inFlight.isSome then s.assembly else if s.line = .busy then .ignoring else .empty }) ?_ (bump_stays _ _)
  refine { LineStays.refl s with line := fun line assembly => ⟨line, ?_⟩ }
  by_cases flying : s.inFlight.isSome = true
  · rw [if_pos flying]; exact assembly
  · rw [if_neg flying]
    by_cases busy : s.line = .busy
    · exact assemblyLawful_ignoring (if_pos busy) dispatches fun idle => by cases busy.symm.trans idle
    · exact assemblyLawful_empty (if_neg busy)

theorem not_starting_of_tracked {s : State} (line : LineLawful s) (tracked : s.line = .idle ∨ s.line = .busy) :
    s.station ≠ .starting := by
  intro starting
  rcases tracked with e | e <;> cases (line.1.mpr starting).symm.trans e

/-- A tracked line becomes BUSY, and the assembly takes a character or stays (R64, R65, R75). -/
theorem lineBusy_stays {s : State} {a : Assembly} (tracked : s.line = .idle ∨ s.line = .busy)
    (taken : a = s.assembly ∨ s.station.dispatches = true ∧ ∃ c, a = s.assembly.takeChar c) :
    LineStays s { s with line := .busy, assembly := a } := by
  refine { LineStays.refl s with line := fun line assembly => ?_ }
  have started := not_starting_of_tracked line tracked
  obtain ⟨short, placed, -⟩ := assembly
  refine ⟨lineLawful_of started nofun fun _ => nofun, ?_, fun held => ?_, fun _ => rfl⟩
  · rcases taken with rfl | ⟨-, c, rfl⟩
    · exact short
    · exact Assembly.takeChar_capacity short c
  · refine ⟨?_, nofun⟩
    rcases taken with rfl | ⟨dispatches, -⟩
    · exact (placed held).1
    · exact dispatches

theorem stuckLine_stays {s : State} (tracked : s.line = .idle ∨ s.line = .busy) : LineStays s s.stuckLine := by
  let stuck : State := { s with line := .stuck, assembly := if s.assembly = .empty then .empty else .ignoring }
  have stays : LineStays s stuck := by
    refine { LineStays.refl s with line := fun line assembly => ?_ }
    have started := not_starting_of_tracked line tracked
    obtain ⟨-, placed, -⟩ := assembly
    refine ⟨lineLawful_of started nofun fun _ => nofun, ?_⟩
    by_cases empty : s.assembly = .empty
    · exact assemblyLawful_empty (if_pos empty)
    · exact assemblyLawful_ignoring (if_neg empty) (placed empty).1 nofun
  unfold State.stuckLine
  dsimp only
  split
  · exact stays.trans (report_stays _ _ _)
  · split
    · exact ((stays.trans (bump_stays _ _)).trans (bump_stays _ _)).trans (report_stays _ _ _)
    · exact (stays.trans (bump_stays _ _)).trans (report_stays _ _ _)

/-! ## Failure accounting (R81 to R84) -/

theorem enterSilenced_stays {s : State} {length : Nat} (lengths : AccountingLawful s → length ∈ [2, 4, 8, 16]) :
    LineStays s (s.enterSilenced length) :=
  LineStays.trans (t := { s with
      mode := .silenced, failures := 0, quarantineLength := length, quarantineTimer := some (s.clock + length * Config.second) })
    { LineStays.refl s with
      accounting := fun lawful => by
        obtain ⟨-, -, -, boot⟩ := id lawful
        exact ⟨Nat.succ_pos 5, lengths lawful, ⟨fun _ => rfl, fun _ => rfl⟩, boot⟩ }
    (report_stays _ _ _)

theorem enterActive_stays {s : State} (probing : s.mode = .probing) : LineStays s s.enterActive :=
  LineStays.trans (t := { s with mode := .active, failures := 0, quarantineLength := Config.firstQuarantine })
    { LineStays.refl s with
      accounting := fun lawful => by
        obtain ⟨-, -, timer, boot⟩ := lawful
        have stopped : ¬ s.quarantineTimer.isSome := fun runs => nomatch probing.symm.trans (timer.mp runs)
        exact ⟨Nat.succ_pos 5, List.mem_cons_self, ⟨fun runs => absurd runs stopped, nofun⟩, boot⟩ }
    (report_stays _ _ _)

theorem doubledQuarantine_mem {length : Nat} (h : length ∈ [2, 4, 8, 16]) : doubledQuarantine length ∈ [2, 4, 8, 16] := by
  have each : ∀ n ∈ [2, 4, 8, 16], doubledQuarantine n ∈ [2, 4, 8, 16] := by decide
  exact each length h

theorem account_stays (out : TxOutcome) (s : State) : LineStays s (s.account out) := by
  have recounted : ∀ n, n < Config.failuresBeforeSilence → LineStays s { s with failures := n } := fun n few =>
    { LineStays.refl s with accounting := fun ⟨_, rest⟩ => ⟨few, rest⟩ }
  unfold State.account
  split
  · split
    · exact recounted 0 (by decide)
    · exact .refl s
    · split
      · next few => exact recounted _ few
      · exact enterSilenced_stays fun ⟨_, length, _⟩ => length
    · next probing => exact enterActive_stays probing
    · exact recounted 0 (by decide)
    · exact enterSilenced_stays fun ⟨_, length, _⟩ => doubledQuarantine_mem length
    · exact .refl s
  · exact .refl s

/-- The quarantine ends (R83). -/
theorem probe_stays {s : State} (due : Time) : LineStays s
    { s.advanceTo due with mode := .probing, quarantineTimer := none, presencePending := true } :=
  { LineStays.refl s with
    accounting := fun ⟨few, length, _, boot⟩ => ⟨few, length, ⟨nofun, nofun⟩, boot⟩ }

/-! ## The owner of a frame (R73) -/

theorem presenceOutcome_stays (out : TxOutcome) (s : State) : LineStays s (s.presenceOutcome out) := by
  cases out with
  | complete => exact { LineStays.refl s with accounting := fun ⟨few, length, timer, _⟩ => ⟨few, length, timer, Nat.min_le_left _ _⟩ }
  | lost => exact .refl s
  | failed => exact { LineStays.refl s with }

/-- The owner takes the outcome with a REMOTE restart, or else with the reply that was sent taken off its queue. -/
theorem ownerOutcome_cases (content : TxContent) (out : TxOutcome) (s : State) :
    (∃ u : State, s.ownerOutcome content out = u.restart .remote)
    ∨ ∃ u, (u = s ∨ u = { s with replies := s.replies.tail }) ∧ LineStays u (s.ownerOutcome content out) := by
  cases content with
  | publication urgent records => exact .inr ⟨s, .inl rfl, .of_queue (publicationOutcome_queue records _ s)⟩
  | solicit points => exact .inr ⟨s, .inl rfl, .of_lists rfl rfl⟩
  | presence p => exact .inr ⟨s, .inl rfl, presenceOutcome_stays out s⟩
  | reply r =>
    cases out with
    | complete =>
      by_cases restarts : (r.restartMark && s.pendingRestart.isSome) = true
      · exact .inl ⟨{ s with replies := s.replies.tail }, if_pos restarts⟩
      · exact .inr ⟨{ s with replies := s.replies.tail }, .inr rfl, by
          rw [State.ownerOutcome, State.replyComplete, if_neg restarts]; exact .refl _⟩
    | lost => exact .inr ⟨s, .inl rfl, .refl s⟩
    | failed => exact .inr ⟨s, .inl rfl, .refl s⟩

/-! ## The selector (R79, R80) -/

/-- The choice starts a frame of the class chosen, a REPLY with the reply at the head of the queue, or changes nothing (R70, R79, R173). -/
theorem transmit_frame (s : State) : s.transmit = s
    ∨ ∃ content points solicits, s.choice = some content.cls ∧ (∀ r, content = .reply r → s.replies.head? = some r)
      ∧ s.transmit = State.startFrame content { s with points := points, solicits := solicits } := by
  unfold State.transmit
  split
  · next chosen => exact .inr ⟨.publication true s.nextRecords, _, s.solicits, chosen, nofun, rfl⟩
  · next chosen => exact .inr ⟨.publication false s.nextRecords, _, s.solicits, chosen, nofun, rfl⟩
  · next chosen =>
    split
    · next r head => exact .inr ⟨.reply r, s.points, s.solicits, chosen, fun r' same => by cases same; exact head, rfl⟩
    · exact .inl rfl
  · next chosen => exact .inr ⟨.solicit s.nextSolicited, s.points, _, chosen, nofun, rfl⟩
  · next chosen => exact .inr ⟨.presence s.presenceContent, s.points, s.solicits, chosen, nofun, rfl⟩
  · exact .inl rfl
  · exact .inl rfl
  · exact .inl rfl

theorem lineCleared_keeps (s : State) : s.lineCleared.station = s.station ∧ s.lineCleared.mode = s.mode
    ∧ s.lineCleared.inFlight = s.inFlight ∧ s.lineCleared.assembly = .empty := by
  have only : OnlyTables { s with line := .idle, assembly := .empty } s.lineCleared := (report_status .line false _).tables
  rw [only]
  exact ⟨rfl, rfl, rfl, rfl⟩

/-- The line is IDLE with nothing in assembly, and LINE has cleared (R65, R86). -/
theorem lineCleared_stays {s : State} (tracked : s.station ≠ .starting) (idle : s.inFlight = none) : LineStays s s.lineCleared := by
  refine LineStays.trans (t := { s with line := .idle, assembly := .empty }) ?_ (report_stays _ _ _)
  exact { LineStays.refl s with
    line := fun _ _ => ⟨lineLawful_of tracked nofun (fun flies => by rw [idle] at flies; cases flies), assemblyLawful_empty rfl⟩ }

/-! ## The end of a load (R180 to R183) -/

/-- A load has ended: the line is taken up as BUSY and ignored, or HALTED is entered (R67, R183). -/
structure LoadEnds (s t : State) : Prop where
  station : t.station = .unconfigured ∨ t.station = .joining ∨ t.station = .halted
  line : t.line = .busy
  assembly : t.assembly = if t.station = .halted then .empty else .ignoring
  inFlight : t.inFlight = s.inFlight
  handler : HandlerLawful s → HandlerLawful t
  accounting : AccountingLawful s → AccountingLawful t

theorem noImage_ends (e : Time) (error : ConfigError) (straps : Station) (s : State) : LoadEnds s ((s.advance e).noImage error straps) :=
  ⟨by cases number : usableNumber straps <;> simp [State.noImage, State.leaveStarting, number], rfl, rfl, rfl, id, id⟩

/-- The outputs of an image differ in their pins and hold no override (R139, R145). -/
theorem fillOutputs_fit (im : Image) : OutputsFit (fillOutputs im) := by
  refine ⟨?_, fun o ho => ?_⟩
  · rw [fillOutputs, List.map_map]
    exact ((List.nodup_finRange 16).filter _).map fun _ _ same => same
  · obtain ⟨i, -, rfl⟩ := List.mem_map.mp ho
    exact Nat.zero_le _

theorem validImage_ends (e : Time) (im : Image) (straps : Station) (inputs : PinInputs) (s : State) :
    LoadEnds s ((s.advance e).validImage im straps inputs) := by
  unfold State.validImage
  dsimp only
  split
  · exact ⟨.inr (.inr rfl), rfl, rfl, rfl, handlerLawful_of_outputs rfl rfl fun _ => fillOutputs_fit im, id⟩
  · exact ⟨.inr (.inl rfl), rfl, rfl, rfl, handlerLawful_of_outputs rfl rfl fun _ => fillOutputs_fit im, id⟩

theorem endLoad_ends (e : Time) (memory : List Byte) (straps : Station) (inputs : PinInputs) (s : State) :
    LoadEnds s ((s.advance e).endLoad memory straps inputs) := by
  unfold State.endLoad
  split
  · exact noImage_ends e _ straps s
  · dsimp only
    split
    · exact validImage_ends e _ straps inputs s
    · exact noImage_ends e _ straps s

/-! ## Passages -/

/-- What one command comes to, for the line, the frame on it, the Request Handler and failure accounting. -/
inductive Passage (s : State) : Instr → State → Prop
  | stayed {c : Instr} {t : State} (stays : LineStays s t) : Passage s c t
  | idled (e : Time) (tracked : s.station ≠ .starting) (idle : s.inFlight = none) :
      Passage s (.lineIdleEvent e) (s.advance e).lineCleared.transmit
  | ended {c : Instr} (e : Time) (out : TxOutcome) (f : TxFrame) (flying : s.inFlight = some f) :
      Passage s c ((((s.advance e).ended out).account out).ownerOutcome f.content out)
  | restarted {c : Instr} (u : State) (cause : Cause) : Passage s c (u.restart cause)
  | loadEnded {c : Instr} {t : State} (loading : s.loading = true) (ends : LoadEnds s t) : Passage s c t
  | entered {c : Instr} (due : Time) (joining : s.station = .joining) : Passage s c (s.advanceTo due).enterRunning
  | halted {c : Instr} {u : State} (stays : LineStays s u) (dispatches : u.station.dispatches = true) : Passage s c u.enterHalted

theorem arrive_passage {c : Instr} (cls : FrameClass) (e : Time) (p d : Station) (body : List Byte) (s : State) :
    Passage s c ((s.advance e).arrive cls p d body) := by
  unfold State.arrive
  split
  · next assembles =>
    have dispatches := dispatches_of_assembles assembles
    split
    · have counted : LineStays s ((s.advance e).endAssembly.bump .framesReceived) :=
        ((advance_stays e s).trans (endAssembly_stays _)).trans (bump_stays _ _)
      unfold State.goodFrame
      dsimp only
      split
      · exact .halted counted dispatches
      · exact .stayed ((counted.trans (heard_stays p _)).trans (dispatchFrame_stays cls p d body _))
    · exact .stayed ((advance_stays e s).trans (discardFrame_stays dispatches))
  · exact .stayed (advance_stays e s)

theorem endFrame_passage {c : Instr} (out : TxOutcome) (e : Time) (s : State) : Passage s c ((s.advance e).endFrame out) := by
  cases flying : s.inFlight with
  | none => rw [endFrame_idle (s := s.advance e) flying]; exact .stayed (advance_stays e s)
  | some f => rw [endFrame_flying (s := s.advance e) flying]; exact .ended e out f flying

theorem levelSeen_passage {c : Instr} (change : DominantChange) {s : State} (tracked : s.line = .idle ∨ s.line = .busy) :
    Passage s c { s.advance change.elapsed with
      line := .busy
      assembly :=
        match sampleChar change.bits with
        | some c => if s.station.dispatches then s.assembly.takeChar c else s.assembly
        | none => s.assembly } := by
  refine .stayed ((advance_stays change.elapsed s).trans (lineBusy_stays (s := s.advance change.elapsed) tracked ?_))
  split
  · next c _ =>
    split
    · next dispatches => exact .inr ⟨dispatches, c, rfl⟩
    · exact .inl rfl
  · exact .inl rfl

/-- A recent-command entry expires (R162). -/
theorem recentExpired_stays (keep : Recent → Bool) (due : Time) (s : State) :
    LineStays s { s.advanceTo due with recent := s.recent.filter keep } :=
  { LineStays.refl s with
    handler := fun h => by
      obtain ⟨replies, ⟨short, distinct⟩, fit⟩ := (handlerLawful_iff s).mp h
      exact (handlerLawful_iff _).mpr ⟨replies,
        ⟨(List.length_filter_le _ _).trans short, distinct.sublist (List.filter_sublist.map _)⟩, fit⟩ }

theorem solicitExpired_stays (x : Solicit) (s : State) : LineStays s (s.solicitExpired x) := by
  unfold State.solicitExpired
  split
  · exact .of_lists rfl rfl
  · exact (((removeSolicit_stays x.point s).trans (bump_stays _ _)).trans (updateMirrored_stays _ _ _)).trans (fillSolicits_stays _)

/-- Every command makes a passage: the inversion of `exec` that the laws of line, Request Handler and failure accounting are kept by. -/
theorem exec_passage {c : Instr} {s t : State} (run : exec c s = .next t) : Passage s c t := by
  cases c <;> cases run
  case powerRestart => exact .restarted _ _
  case pinRestart e held =>
    split
    · exact .restarted _ _
    · exact .stayed (advance_stays e s)
  case resetRelease e =>
    split
    · exact .stayed (advance_stays e s)
    · exact .stayed { LineStays.refl s with }
  case loadComplete e memory straps inputs =>
    split
    · next loading => exact .loadEnded loading (endLoad_ends e memory straps inputs s)
    · exact .stayed (advance_stays e s)
  case loadFailed e failure straps =>
    split
    · next loading => exact .loadEnded loading (noImage_ends e _ straps s)
    · exact .stayed (advance_stays e s)
  case joinWindowExpiry =>
    split
    · next due joining _ => exact .entered due joining
    · exact .stayed (.refl s)
  case lineIdleEvent e =>
    split
    · exact .stayed (advance_stays e s)
    · next h =>
      obtain ⟨tracked, idle⟩ := not_or.mp h
      exact .idled e tracked (by simpa using idle)
  case transmissionComplete e => exact endFrame_passage _ e s
  case contentionLost e => exact endFrame_passage _ e s
  case transmitFailure e => exact endFrame_passage _ e s
  case frameDiscarded e samples =>
    split
    · next h =>
      rw [Bool.and_eq_true, Bool.and_eq_true] at h
      obtain ⟨⟨assembles, -⟩, -⟩ := h
      exact .stayed ((advance_stays e s).trans (discardFrame_stays (dispatches_of_assembles assembles)))
    · exact .stayed (advance_stays e s)
  case duplicateDetection e =>
    split
    · next h => exact .halted ((advance_stays e s).trans (bump_stays _ _)) (dispatches_of_assembles h)
    · exact .stayed (advance_stays e s)
  case urgentPublish e p body => exact arrive_passage _ e p _ body s
  case routinePublish e p body => exact arrive_passage _ e p _ body s
  case solicit e p body => exact arrive_passage _ e p _ body s
  case presence e p body => exact arrive_passage _ e p _ body s
  case reply e p d body => exact arrive_passage _ e p d body s
  case force e p d rest => exact arrive_passage _ e p d _ s
  case release e p d rest => exact arrive_passage _ e p d _ s
  case restart e p d rest => exact arrive_passage _ e p d _ s
  case clearCounters e p d rest => exact arrive_passage _ e p d _ s
  case status e p d rest => exact arrive_passage _ e p d _ s
  case pointGroup e p d rest => exact arrive_passage _ e p d _ s
  case peer e p d rest => exact arrive_passage _ e p d _ s
  case output e p d rest => exact arrive_passage _ e p d _ s
  case counters e p d rest => exact arrive_passage _ e p d _ s
  case unknownRequestKind e cls p d body => exact arrive_passage _ e p d body s
  case stuckLineEpisode e =>
    split
    · next tracked => exact .stayed ((advance_stays e s).trans (stuckLine_stays tracked))
    · exact .stayed (advance_stays e s)
  case transmitGuardTrip e =>
    split
    · exact .stayed (advance_stays e s)
    · exact .restarted _ _
  case debouncedTransition e pin level =>
    split
    · split
      · exact .stayed ((advance_stays e s).trans (pinTransition_stays ..))
      · exact .stayed (advance_stays e s)
    · exact .stayed (advance_stays e s)
  case levelReading e pin reading =>
    split
    · exact .stayed ((advance_stays e s).trans (pinReading_stays ..))
    · exact .stayed (advance_stays e s)
  case refreshTimerExpiry n =>
    split
    · split
      · exact .stayed (.refl s)
      · next due _ =>
        have stopped := (advanceTo_stays due s).trans (updateOwned_stays n (fun o => { o with refreshTimer := none }) _)
        dsimp only
        split
        · exact .stayed (stopped.trans (.of_queue rfl))
        · exact .stayed stopped
    · exact .stayed (.refl s)
  case stalenessDeadlineExpiry n =>
    split
    · split
      · exact .stayed (.refl s)
      · split
        · exact .stayed ((((advanceTo_stays _ s).trans (updateMirrored_stays n _ _)).trans (judgeSource_stays _)).trans
            (evaluateSource_stays n _))
        · exact .stayed (.refl s)
    · exact .stayed (.refl s)
  case overdueTimerExpiry n =>
    split
    · split
      · exact .stayed (.refl s)
      · exact .stayed (((advanceTo_stays _ s).trans (updateMirrored_stays n _ _)).trans (judgeSource_stays _))
    · exact .stayed (.refl s)
  case solicitDeadlineExpiry n =>
    split
    · split
      · exact .stayed ((advanceTo_stays _ s).trans (solicitExpired_stays _ _))
      · exact .stayed (.refl s)
    · exact .stayed (.refl s)
  case backoffMarkExpiry n =>
    split
    · split
      · exact .stayed (.refl s)
      · exact .stayed (((advanceTo_stays _ s).trans (updateMirrored_stays n _ _)).trans (fillSolicits_stays _))
    · exact .stayed (.refl s)
  case presenceTimerExpiry =>
    split
    · exact .stayed { LineStays.refl s with }
    · exact .stayed (.refl s)
  case silentDeadlineExpiry p =>
    split
    · split
      · exact .stayed (.refl s)
      · split
        · exact .stayed ((advanceTo_stays _ s).trans (updatePeer_stays p _ _))
        · exact .stayed (.refl s)
    · exact .stayed (.refl s)
  case lostDeadlineExpiry p =>
    split
    · split
      · exact .stayed (.refl s)
      · split
        · exact .stayed ((((advanceTo_stays _ s).trans (updatePeer_stays p _ _)).trans (peerLost_stays p _)).trans
            (judgePeerLost_stays _))
        · exact .stayed (.refl s)
    · exact .stayed (.refl s)
  case leaseExpiry i p =>
    split
    · split
      · exact .stayed ((advanceTo_stays _ s).trans (removeOverride_stays i p _))
      · exact .stayed (.refl s)
    · exact .stayed (.refl s)
  case quarantineTimerExpiry =>
    split
    · exact .stayed (probe_stays _)
    · exact .stayed (.refl s)
  case recentCommandExpiry p tag =>
    split
    · exact .stayed (recentExpired_stays _ _ s)
    · exact .stayed (.refl s)
  case restartBoundExpiry =>
    split
    · exact .restarted _ _
    · exact .stayed (.refl s)
  case digitalInputSample e levels =>
    split
    · exact .stayed ((advance_stays e s).trans (.fold _ (samplePin_stays levels) _ _))
    · exact .stayed (advance_stays e s)
  case dominantLevelSeen change =>
    split
    · next tracked => exact levelSeen_passage change tracked
    · exact .stayed (advance_stays _ s)

/-- A step idles or makes the passage of its command on the state with the queue's rest (log 1). -/
theorem step_passage {s t : State} (run : step s = .next t) : t = s ∨ ∃ c rest, Passage { s with pending := rest } c t := by
  unfold step at run
  split at run
  · cases run; exact .inl rfl
  · exact .inr ⟨_, _, exec_passage run⟩

end Sys2Proof.Machine
end

