-- ==== Sys2Proof/Proofs/LineUnit.lean ====
section
/-!
THEOREM. The frame on the line and the receive assembly (O9), the capacities of Request Handler and failure accounting (O11), and where a
transmission starts (O12).
-/

namespace Sys2Proof.Machine

open Sys2Proof.Safety

/-! ## The entry to RUNNING (R185) -/

/-- After the station state has changed, the blocks that take up their part leave the line as it is. -/
theorem enterRunning_stays (s : State) : LineStays s.atRunning s.enterRunning := by
  have burst : LineStays s.atRunning s.atRunning.startBurst.startOverdueTimers :=
    .of_queue ((startBurst_queue s.atRunning).trans rfl)
  have presence : ∀ u : State, LineStays u u.beginPresence := fun u =>
    { LineStays.refl u with accounting := fun ⟨few, length, timer, _⟩ => ⟨few, length, timer, Nat.zero_le _⟩ }
  rw [enterRunning_eq]
  exact ((burst.trans (fillSolicits_stays _)).trans (presence _)).trans (evaluateWhere_stays _ _)

/-! ## Where a transmission starts -/

/-- Settles O12: of the passages only that of a line-idle event puts a frame on the line, and the selector has chosen it. -/
theorem transmissionsStartAtIdle : Obligations.TransmissionsStartAtIdle := by
  intro c s t f run idle flies
  have still : t.inFlight ≠ none := fun none => by cases none.symm.trans flies
  cases exec_passage run with
  | stayed stays => exact absurd (stays.inFlight.trans idle) still
  | idled e =>
    obtain ⟨station, mode, inFlight, -⟩ := lineCleared_keeps (s.advance e)
    rcases transmit_frame (s.advance e).lineCleared with same | ⟨content, points, solicits, chosen, -, starts⟩
    · exact absurd ((congrArg State.inFlight same).trans (inFlight.trans idle)) still
    · rw [starts] at flies ⊢
      obtain rfl : _ = f := Option.some.inj flies
      have station : (s.advance e).lineCleared.station = s.station := station
      have mode : (s.advance e).lineCleared.mode = s.mode := mode
      refine ⟨⟨e, rfl⟩, rfl, ?_⟩
      rw [← station, ← mode]
      rcases choice_cases chosen with ⟨unconfigured, reply⟩ | ⟨running, active | ⟨probing, presence⟩⟩
      · exact .inr (.inr ⟨unconfigured, reply⟩)
      · exact .inl ⟨running, active⟩
      · exact .inr (.inl ⟨running, probing, presence⟩)
  | ended e out g flying => cases idle.symm.trans flying
  | restarted => exact absurd rfl still
  | loadEnded loading ends => exact absurd (ends.inFlight.trans idle) still
  | entered due => exact absurd ((enterRunning_stays (s.advanceTo due)).inFlight.trans idle) still
  | halted => exact absurd rfl still

/-! ## The line and the receive assembly -/

theorem not_starting_of_dispatches {st : StationState} (dispatches : st.dispatches = true) : st ≠ .starting := by
  rintro rfl
  cases dispatches

/-- A chosen frame goes out on a BUSY line, with nothing of it read back yet (R65, R70). -/
theorem transmit_line {s : State} (line : LineLawful s) (assembly : AssemblyLawful s) :
    LineLawful s.transmit ∧ AssemblyLawful s.transmit := by
  rcases transmit_frame s with same | ⟨content, points, solicits, chosen, -, starts⟩
  · rw [same]; exact ⟨line, assembly⟩
  · have dispatches : s.station.dispatches = true := by
      rcases choice_cases chosen with ⟨unconfigured, -⟩ | ⟨running, -⟩
      · rw [unconfigured]; rfl
      · rw [running]; rfl
    rw [starts]
    exact ⟨lineLawful_of (not_starting_of_dispatches dispatches) nofun fun _ => nofun, Nat.zero_le _, fun _ => ⟨dispatches, nofun⟩,
      fun _ => rfl⟩

/-- The end of a frame of this station takes it off the line, and the assembly keeps what was read back or is emptied (R70 to R72). -/
theorem ended_line {s : State} (out : TxOutcome) (line : LineLawful s) (assembly : AssemblyLawful s) :
    LineLawful (s.ended out) ∧ AssemblyLawful (s.ended out) := by
  refine ⟨⟨line.1, nofun⟩, ?_⟩
  by_cases sent : (out == .complete && s.assembly.inProgress) = true
  · exact assemblyLawful_empty (if_pos sent)
  · have kept : (s.ended out).assembly = s.assembly := if_neg sent
    unfold AssemblyLawful
    rw [kept]
    exact assembly

theorem restart_line (s : State) (cause : Cause) : LineLawful (s.restart cause) ∧ AssemblyLawful (s.restart cause) :=
  ⟨⟨⟨fun _ => rfl, fun _ => rfl⟩, nofun⟩, assemblyLawful_empty rfl⟩

theorem LoadEnds.lawful {s t : State} (ends : LoadEnds s t) : LineLawful t ∧ AssemblyLawful t := by
  have sounding : t.line ≠ .idle := fun idle => by cases ends.line.symm.trans idle
  have tracked : t.line ≠ .notTracked := fun untracked => by cases ends.line.symm.trans untracked
  have assembly := ends.assembly
  rcases ends.station with state | state | state
  all_goals
    rw [state] at assembly
    refine ⟨lineLawful_of (by rw [state]; nofun) tracked fun _ => sounding, ?_⟩
  · exact assemblyLawful_ignoring assembly (by rw [state]; rfl) sounding
  · exact assemblyLawful_ignoring assembly (by rw [state]; rfl) sounding
  · exact assemblyLawful_empty assembly

theorem enterHalted_line {s : State} (dispatches : s.station.dispatches = true) (line : LineLawful s) :
    LineLawful s.enterHalted ∧ AssemblyLawful s.enterHalted :=
  ⟨⟨⟨fun untracked => absurd (line.1.mp untracked) (not_starting_of_dispatches dispatches), nofun⟩, nofun⟩, assemblyLawful_empty rfl⟩

/-- The station state moves from JOINING to RUNNING, and nothing else that the line depends on. -/
theorem atRunning_line {s : State} (joining : s.station = .joining) (line : LineLawful s) (assembly : AssemblyLawful s) :
    LineLawful s.atRunning ∧ AssemblyLawful s.atRunning := by
  obtain ⟨tracked, sounding⟩ := line
  obtain ⟨short, placed, busy⟩ := assembly
  rw [joining] at tracked
  exact ⟨⟨⟨fun untracked => (by cases tracked.mp untracked), nofun⟩, sounding⟩, short, fun held => ⟨rfl, (placed held).2⟩, busy⟩

theorem Passage.line {c : Instr} {s t : State} (passage : Passage s c t) (line : LineLawful s) (assembly : AssemblyLawful s) :
    LineLawful t ∧ AssemblyLawful t := by
  cases passage with
  | stayed stays => exact stays.line line assembly
  | idled e tracked idle =>
    obtain ⟨line, assembly⟩ := (lineCleared_stays (s := s.advance e) tracked idle).line line assembly
    exact transmit_line line assembly
  | ended e out f flying =>
    obtain ⟨line, assembly⟩ := ended_line (s := s.advance e) out line assembly
    obtain ⟨line, assembly⟩ := (account_stays out _).line line assembly
    rcases ownerOutcome_cases f.content out (((s.advance e).ended out).account out) with ⟨u, same⟩ | ⟨u, rfl | rfl, stays⟩
    · rw [same]; exact restart_line u .remote
    · exact stays.line line assembly
    · exact stays.line line assembly
  | restarted u cause => exact restart_line u cause
  | loadEnded loading ends => exact ends.lawful
  | entered due joining =>
    obtain ⟨line, assembly⟩ := atRunning_line (s := s.advanceTo due) joining line assembly
    exact (enterRunning_stays _).line line assembly
  | halted stays dispatches => exact enterHalted_line dispatches (stays.line line assembly).1

/-! ## The reply on the line (R173) -/

theorem replyFlight_of_idle {s : State} (idle : s.inFlight = none) : ReplyFlightLawful s :=
  fun _ _ flies _ => by cases idle.symm.trans flies

/-- The head of the queue stays while replies only join it. -/
theorem LineStays.replyFlight {s t : State} (stays : LineStays s t) (lawful : ReplyFlightLawful s) : ReplyFlightLawful t := by
  intro f r flies content
  obtain ⟨l, replies⟩ := stays.replies
  have head := lawful f r (stays.inFlight.symm.trans flies) content
  rw [replies]
  cases queue : s.replies with
  | nil => rw [queue] at head; cases head
  | cons x rest => rw [queue] at head; exact head

theorem transmit_replyFlight {s : State} (idle : s.inFlight = none) : ReplyFlightLawful s.transmit := by
  rcases transmit_frame s with same | ⟨content, points, solicits, -, head, starts⟩
  · rw [same]; exact replyFlight_of_idle idle
  · intro f r flies reply
    rw [starts] at flies ⊢
    obtain rfl : _ = f := Option.some.inj flies
    exact head r reply

theorem Passage.replyFlight {c : Instr} {s t : State} (passage : Passage s c t) (station : StationLawful s) (transmit : TransmitLawful s)
    (lawful : ReplyFlightLawful s) : ReplyFlightLawful t := by
  cases passage with
  | stayed stays => exact stays.replyFlight lawful
  | idled e tracked idle =>
    obtain ⟨-, -, inFlight, -⟩ := lineCleared_keeps (s.advance e)
    exact transmit_replyFlight (inFlight.trans idle)
  | ended e out f flying =>
    have idle : (((s.advance e).ended out).account out).inFlight = none := (account_stays out _).inFlight
    refine replyFlight_of_idle ?_
    rcases ownerOutcome_cases f.content out (((s.advance e).ended out).account out) with ⟨u, same⟩ | ⟨u, rfl | rfl, stays⟩
    · rw [same]; rfl
    · exact stays.inFlight.trans idle
    · exact stays.inFlight.trans idle
  | restarted => exact replyFlight_of_idle rfl
  | loadEnded loading ends =>
    exact replyFlight_of_idle (ends.inFlight.trans (starting_idle transmit (loading_empty station loading).1))
  | entered due => exact (enterRunning_stays _).replyFlight lawful
  | halted => exact replyFlight_of_idle rfl

/-- Settles O9, by the passages: each keeps the laws of the line and of the reply on it; those of the station states are O3. -/
theorem stepKeepsLineUnit : Obligations.StepKeepsLineUnit := by
  intro s t ⟨station, transmit, line, assembly, replyFlight⟩ run
  obtain ⟨station', transmit'⟩ := stepKeepsStations s t station transmit run
  rcases step_passage run with rfl | ⟨c, rest, passage⟩
  · exact ⟨station, transmit, line, assembly, replyFlight⟩
  · obtain ⟨line', assembly'⟩ := passage.line line assembly
    exact ⟨station', transmit', line', assembly', passage.replyFlight station transmit replyFlight⟩

/-! ## The capacities -/

/-- The reply at the head leaves the queue (R173). -/
theorem handlerLawful_tail {s : State} (h : HandlerLawful s) : HandlerLawful { s with replies := s.replies.tail } := by
  rw [handlerLawful_iff] at h ⊢
  obtain ⟨⟨few, short⟩, rest⟩ := h
  have shorter : s.replies.tail.length ≤ s.replies.length := (List.tail_sublist _).length_le
  exact ⟨⟨shorter.trans few, fun r hr => short r (List.mem_of_mem_tail hr)⟩, rest⟩

theorem restart_capacities (s : State) (cause : Cause) : HandlerLawful (s.restart cause) ∧ AccountingLawful (s.restart cause) := by
  exact ⟨⟨Nat.zero_le _, nofun, Nat.zero_le _, .nil, .nil, nofun⟩, Nat.succ_pos 5, List.mem_cons_self, ⟨nofun, nofun⟩, Nat.zero_le _⟩

theorem transmit_capacities {s : State} (handler : HandlerLawful s) (accounting : AccountingLawful s) :
    HandlerLawful s.transmit ∧ AccountingLawful s.transmit := by
  rcases transmit_frame s with same | ⟨content, points, solicits, -, -, starts⟩
  · rw [same]; exact ⟨handler, accounting⟩
  · rw [starts]; exact ⟨handler, accounting⟩

theorem LineStays.capacities {s t : State} (stays : LineStays s t) (handler : HandlerLawful s) (accounting : AccountingLawful s) :
    HandlerLawful t ∧ AccountingLawful t := ⟨stays.handler handler, stays.accounting accounting⟩

theorem Passage.capacities {c : Instr} {s t : State} (passage : Passage s c t) (handler : HandlerLawful s)
    (accounting : AccountingLawful s) : HandlerLawful t ∧ AccountingLawful t := by
  cases passage with
  | stayed stays => exact stays.capacities handler accounting
  | idled e tracked idle =>
    obtain ⟨handler, accounting⟩ := (lineCleared_stays (s := s.advance e) tracked idle).capacities handler accounting
    exact transmit_capacities handler accounting
  | ended e out f flying =>
    obtain ⟨handler, accounting⟩ := (account_stays out ((s.advance e).ended out)).capacities handler accounting
    rcases ownerOutcome_cases f.content out (((s.advance e).ended out).account out) with ⟨u, same⟩ | ⟨u, rfl | rfl, stays⟩
    · rw [same]; exact restart_capacities u .remote
    · exact stays.capacities handler accounting
    · exact stays.capacities (handlerLawful_tail handler) accounting
  | restarted u cause => exact restart_capacities u cause
  | loadEnded loading ends => exact ⟨ends.handler handler, ends.accounting accounting⟩
  | entered due => exact (enterRunning_stays (s.advanceTo due)).capacities handler accounting
  | halted stays => exact stays.capacities handler accounting

/-- Settles O11, by the passages. -/
theorem stepKeepsCapacities : Obligations.StepKeepsCapacities := by
  intro s t handler accounting run
  rcases step_passage run with rfl | ⟨c, rest, passage⟩
  · exact ⟨handler, accounting⟩
  · exact passage.capacities handler accounting

end Sys2Proof.Machine
end

