-- ==== Sys2Proof/Proofs/Requests.lean ====
section
/-!
THEOREM. Requests that are not taken (O46), and the expiries of presence and quarantine timer (O55).
-/

namespace Sys2Proof.Machine

open Sys2Proof.Safety

/-! ## Requests dropped and ignored (R76, R159, R160) -/

/-- A request heard goes to the filter of R76. -/
theorem exec_request {e : Time} {s : State} {p : Station} (hears : Hears s p) (cls : RequestClass) (d : Station) {body : List Byte}
    (fits : bodyOk body = true) :
    exec (.unknownRequestKind e cls p d body) s = .next ((heardFrom e p s).filterRequest cls p d body) := by
  have directed : (frameOfRequest cls).broadcast = true → d = Config.everyone := by cases cls <;> nofun
  refine congrArg Host.Outcome.next ((arrive_heard (s := s.advance e) hears (frameOfRequest cls) d body directed fits).trans ?_)
  cases cls <;> rfl

theorem filterRequest_everyone (cls : RequestClass) (p : Station) (body : List Byte) (s : State) :
    s.filterRequest cls p 63 body = s.bump .requestsDropped := if_pos rfl

theorem filterRequest_other {s : State} {d : Station} (cls : RequestClass) (p : Station) (body : List Byte) (directed : d ≠ 63)
    (other : s.number ≠ some d) : s.filterRequest cls p d body = s := (if_neg directed).trans (if_neg other)

/-- A request to this station is dropped where its state does not take it, or the reply queue is full (R159, R160). -/
theorem filterRequest_dropped {s : State} {cls : RequestClass} {d : Station} {body : List Byte} (p : Station) (own : s.number = some d)
    (untaken : takesRequest s.station cls body = false ∨ 4 ≤ s.replies.length) :
    s.filterRequest cls p d body = s.bump .requestsDropped := by
  have refused : ¬ (takesRequest s.station cls body && decide (s.replies.length < Config.maxReplies)) = true := by
    rw [Bool.and_eq_true, decide_eq_true_eq]
    rintro ⟨taken, room⟩
    rcases untaken with h | full
    · cases h.symm.trans taken
    · exact absurd room (Nat.not_lt.mpr full)
  unfold State.filterRequest
  split
  · rfl
  · exact if_neg refused

theorem takesRequest_unconfigured {cls : RequestClass} {body : List Byte} (other : cls = .command ∨ ∀ fields, body ≠ 1 :: fields) :
    takesRequest .unconfigured cls body = false := by
  cases cls with
  | command => rfl
  | query =>
    cases body with
    | nil => rfl
    | cons kind fields =>
      rcases other with h | other
      · cases h
      · exact beq_eq_false_iff_ne.mpr fun status => other fields (by rw [status])

/-- Settles O46: station state, number and reply queue are those before the frame was heard. -/
theorem requestsNotTaken : Obligations.RequestsNotTaken := by
  refine ⟨?_, fun e s p d rest => ⟨rfl, rfl, rfl, rfl, rfl, rfl, rfl, rfl, rfl⟩⟩
  intro e s p d cls body hears fits h dropped
  have tables := heardFrom_tables e p s
  have station : h.station = s.station := tables.station
  have number : h.number = s.number := tables.number
  have replies : h.replies = s.replies := by
    have only : h = _ := tables
    rw [only]; rfl
  rw [exec_request hears cls d fits]
  have untaken : s.number = some d → takesRequest s.station cls body = false ∨ 4 ≤ s.replies.length →
      (.next (h.filterRequest cls p d body) : Host.Outcome State Fault Refusal) = .next dropped := fun own untaken => by
    rw [← number] at own
    rw [← station, ← replies] at untaken
    rw [filterRequest_dropped p own untaken]; rfl
  refine ⟨?_, fun directed other => ?_, fun own joining => untaken own (.inl (by rw [joining]; rfl)),
    fun own unconfigured other => untaken own (.inl (unconfigured ▸ takesRequest_unconfigured other)),
    fun own full => untaken own (.inr full)⟩
  · rintro rfl
    rw [filterRequest_everyone]; rfl
  · rw [filterRequest_other cls p body directed (number ▸ other)]

/-! ## Presence and quarantine timer (R83, R121) -/

/-- Settles O55: in RUNNING the timer that runs ends at the time it holds. -/
theorem presenceAndQuarantine : Obligations.PresenceAndQuarantine := by
  refine ⟨fun s h header => by rw [State.period, header]; rfl, fun s due running => ⟨fun timer => ?_, fun silenced timer => ?_⟩⟩
  · show execPresenceTimerExpiry s = _
    unfold execPresenceTimerExpiry
    split
    · next runs => cases runs.symm.trans timer; rfl
    · next stopped => exact absurd timer (stopped due running)
  · show execQuarantineTimerExpiry s = _
    unfold execQuarantineTimerExpiry
    split
    · next runs => cases runs.symm.trans timer; rfl
    · next stopped => exact absurd timer (stopped due running silenced)

end Sys2Proof.Machine
end

