-- ==== Sys2Proof/Proofs/Accounting.lean ====
section
/-!
THEOREM. The outcome tables of failure accounting (O31).
-/

namespace Sys2Proof.Machine

open Sys2Proof.Safety

/-- The line mode, the count, the quarantine and the fault summary are the same. -/
def SameAccounting (s t : State) : Prop :=
  t.mode = s.mode ∧ t.failures = s.failures ∧ t.quarantineLength = s.quarantineLength ∧ t.quarantineTimer = s.quarantineTimer
    ∧ t.faults = s.faults

theorem sameAccounting_of_queue {s t : State} (only : OnlyQueue s t) : SameAccounting s t := by
  rw [only]
  exact ⟨rfl, rfl, rfl, rfl, rfl⟩

/-- The owner of a frame leaves failure accounting alone, but for a reply that ends a pending restart (R73, R166). -/
theorem ownerOutcome_accounting {content : TxContent} {s : State} (out : TxOutcome)
    (kept : ∀ r, content = .reply r → r.restartMark = true → s.pendingRestart = none) :
    SameAccounting s (s.ownerOutcome content out) := by
  cases content with
  | publication urgent records => exact sameAccounting_of_queue (publicationOutcome_queue records _ s)
  | solicit points => exact ⟨rfl, rfl, rfl, rfl, rfl⟩
  | presence p => cases out <;> exact ⟨rfl, rfl, rfl, rfl, rfl⟩
  | reply r =>
    cases out with
    | complete =>
      have unmarked : r.restartMark = false ∨ s.pendingRestart = none := by
        cases mark : r.restartMark with
        | false => exact .inl rfl
        | true => exact .inr (kept r rfl mark)
      rw [State.ownerOutcome, replyComplete_kept unmarked]
      exact ⟨rfl, rfl, rfl, rfl, rfl⟩
    | lost => exact ⟨rfl, rfl, rfl, rfl, rfl⟩
    | failed => exact ⟨rfl, rfl, rfl, rfl, rfl⟩

theorem enterSilenced_accounting (length : Nat) (s : State) :
    (s.enterSilenced length).mode = .silenced ∧ (s.enterSilenced length).failures = 0
    ∧ (s.enterSilenced length).quarantineLength = length
    ∧ (s.enterSilenced length).quarantineTimer = some (s.clock + length * 1000000)
    ∧ (s.enterSilenced length).faults = { s.faults with silenced := true } := by
  have only : OnlyStatus (s.silenced length) (s.enterSilenced length) := report_status _ _ _
  have faults : (s.enterSilenced length).faults = { s.faults with silenced := true } := report_faults .silenced true (s.silenced length)
  rw [faults, only]
  exact ⟨rfl, rfl, rfl, rfl, rfl⟩

theorem enterActive_accounting (s : State) :
    s.enterActive.mode = .active ∧ s.enterActive.failures = 0 ∧ s.enterActive.quarantineLength = 2
    ∧ s.enterActive.faults = { s.faults with silenced := false } := by
  let active : State := { s with mode := .active, failures := 0, quarantineLength := Config.firstQuarantine }
  have only : OnlyStatus active s.enterActive := report_status _ _ _
  have faults : s.enterActive.faults = { s.faults with silenced := false } := report_faults .silenced false active
  rw [faults, only]
  exact ⟨rfl, rfl, rfl, rfl⟩

/-- Settles O31: the owner of the frame leaves what failure accounting has made of the outcome. -/
theorem failureAccounting : Obligations.FailureAccounting := by
  intro e s f running flying kept
  let ended : TxOutcome → State := fun out => (s.advance e).ended out
  have awake : (ended .failed).clock = s.clock + e := by
    show (State.ended .failed (s.advance e)).clock = _
    rw [advance_dispatches e (by rw [running]; rfl)]; rfl
  have taken : ∀ out, SameAccounting ((ended out).account out) (((ended out).account out).ownerOutcome f.content out) := fun out =>
    ownerOutcome_accounting out fun r content mark => by rw [account_only]; exact kept r content mark
  have run : ∀ out, (s.advance e).endFrame out = ((ended out).account out).ownerOutcome f.content out :=
    endFrame_flying (s := s.advance e) flying
  refine ⟨_, _, _, congrArg Host.Outcome.next (run .complete), congrArg Host.Outcome.next (run .lost),
    congrArg Host.Outcome.next (run .failed), fun active => ⟨?_, ?_, fun few => ?_, fun sixth => ?_⟩, fun probing => ⟨?_, ?_, ?_⟩⟩
  · obtain ⟨mode, failures, length, -, -⟩ := taken .complete
    rw [mode, failures, length, account_complete (s := ended .complete) running active]
    exact ⟨active, rfl, rfl⟩
  · obtain ⟨mode, failures, length, -, -⟩ := taken .lost
    rw [mode, failures, length, account_lost (s := ended .lost) running active]
    exact ⟨active, rfl, rfl⟩
  · obtain ⟨mode, failures, length, -, -⟩ := taken .failed
    rw [mode, failures, length, account_failed (s := ended .failed) running active, if_pos (show (ended .failed).failures < 5 from few)]
    exact ⟨active, rfl, rfl⟩
  · obtain ⟨mode, failures, length, timer, faults⟩ := taken .failed
    have full : ¬ (ended .failed).failures < 5 := by rw [show (ended .failed).failures = 5 from sixth]; decide
    rw [mode, failures, length, timer, faults, account_failed (s := ended .failed) running active, if_neg full, ← awake]
    exact enterSilenced_accounting _ _
  · obtain ⟨mode, failures, length, -, faults⟩ := taken .complete
    rw [mode, failures, length, faults, account_probe_complete (s := ended .complete) running probing]
    exact enterActive_accounting _
  · obtain ⟨mode, failures, length, -, -⟩ := taken .lost
    rw [mode, failures, length, account_probe_lost (s := ended .lost) running probing]
    exact ⟨probing, rfl, rfl⟩
  · obtain ⟨mode, failures, length, timer, faults⟩ := taken .failed
    rw [mode, failures, length, timer, faults, account_probe_failed (s := ended .failed) running probing, ← awake]
    exact enterSilenced_accounting _ _

end Sys2Proof.Machine
end

