-- ==== Sys2Proof/Proofs/FrameBits.lean ====
section
/-!
SUPPORT. The bits of a frame in the order they are sent (R64, R68, R190): the header as one string of sixteen bits, and the number a string of
bits spells.
-/

namespace Sys2Proof.Machine

open Sys2Proof.Safety

/-! ## Strings of bits -/

/-- The bits of a word, the most significant first. -/
def sentBits {w : Nat} (x : BitVec w) : List Bool := (List.range w).map x.getMsbD

/-- The number that a string of bits spells, the most significant first. -/
def bitsNumber (bits : List Bool) : Nat := bits.foldl (fun k b => 2 * k + b.toNat) 0

theorem length_sentBits {w : Nat} (x : BitVec w) : (sentBits x).length = w := by simp [sentBits]

theorem sentBits_append {n m : Nat} (x : BitVec n) (y : BitVec m) : sentBits (x ++ y) = sentBits x ++ sentBits y := by
  unfold sentBits
  rw [List.range_add, List.map_append, List.map_map]
  refine congrArg₂ _ (List.map_congr_left fun i hi => ?_) (List.map_congr_left fun i _ => ?_)
  · rw [BitVec.getMsbD_append, if_neg (Nat.not_le.mpr (List.mem_range.mp hi))]
  · rw [Function.comp_apply, BitVec.getMsbD_append, if_pos (Nat.le_add_right n i), Nat.add_sub_cancel_left]

/-- The data bits of a character, the least significant first, are those of the byte reversed. -/
theorem sentBits_reverse {w : Nat} (x : BitVec w) : sentBits x.reverse = (List.range w).map x.getLsbD :=
  List.map_congr_left fun _ _ => BitVec.getMsbD_reverse

/-- The first k bits of a word spell what is left of it after the others are shifted out. -/
theorem bitsNumber_take {w : Nat} (x : BitVec w) {k : Nat} (inside : k ≤ w) :
    bitsNumber ((List.range k).map x.getMsbD) = x.toNat / 2 ^ (w - k) := by
  unfold bitsNumber
  induction k with
  | zero => simp [Nat.div_eq_of_lt x.isLt]
  | succ k ih =>
    have bit : x.getMsbD k = x.toNat.testBit (w - (k + 1)) := by
      rw [BitVec.getMsbD_eq_getLsbD, decide_eq_true (Nat.lt_of_succ_le inside), Bool.true_and, Nat.sub_sub, Nat.add_comm 1 k]
      exact BitVec.testBit_toNat x |>.symm
    have halved : x.toNat / 2 ^ (w - k) = x.toNat / 2 ^ (w - (k + 1)) / 2 := by
      rw [Nat.div_div_eq_div_mul, ← Nat.pow_succ]
      congr 2; omega
    rw [List.range_succ, List.map_append, List.foldl_append, ih (Nat.le_of_succ_le inside), halved]
    simp only [List.map_cons, List.map_nil, List.foldl_cons, List.foldl_nil, bit, Nat.testBit_eq_decide_div_mod_eq]
    rcases Nat.mod_two_eq_zero_or_one (x.toNat / 2 ^ (w - (k + 1))) with even | odd
    · simp only [even]; simp; omega
    · simp only [odd]; simp; omega

/-- The bits of a word spell the word. -/
theorem bitsNumber_sentBits {w : Nat} (x : BitVec w) : bitsNumber (sentBits x) = x.toNat := by
  rw [sentBits, bitsNumber_take x le_rfl, Nat.sub_self, pow_zero, Nat.div_one]

theorem sentBits_inj {w : Nat} {x y : BitVec w} (same : sentBits x = sentBits y) : x = y := by
  refine BitVec.eq_of_toNat_eq ?_
  rw [← bitsNumber_sentBits x, same, bitsNumber_sentBits]

/-! ## The header (R190) -/

theorem split_word (w : BitVec 16) : w.extractLsb' 12 4 ++ w.extractLsb' 6 6 ++ w.extractLsb' 0 6 = w := by
  rw [BitVec.extractLsb'_append_extractLsb'_eq_extractLsb' (by rfl), BitVec.extractLsb'_append_extractLsb'_eq_extractLsb' (by rfl)]
  exact BitVec.extractLsb'_eq_self

theorem split_bytes (w : BitVec 16) : w.extractLsb' 8 8 ++ w.extractLsb' 0 8 = w := by
  rw [BitVec.extractLsb'_append_extractLsb'_eq_extractLsb' (by rfl)]
  exact BitVec.extractLsb'_eq_self

/-- The header read from two bytes is the string of their data bits. -/
theorem sentBits_parseHeader (b0 b1 : Byte) :
    sentBits (parseHeader b0 b1).1 ++ sentBits (parseHeader b0 b1).2.1 ++ sentBits (parseHeader b0 b1).2.2
      = (List.range 8).map b0.getLsbD ++ (List.range 8).map b1.getLsbD := by
  rw [← sentBits_append, ← sentBits_append, ← sentBits_reverse, ← sentBits_reverse, ← sentBits_append]
  exact congrArg sentBits (split_word (b0.reverse ++ b1.reverse))

/-- The class, the sender and the destination that two bytes carry, as numbers. -/
theorem parseHeader_numbers (b0 b1 : Byte) :
    let sent := (List.range 8).map b0.getLsbD ++ (List.range 8).map b1.getLsbD
    (parseHeader b0 b1).1.toNat = bitsNumber (sent.take 4)
    ∧ (parseHeader b0 b1).2.1.toNat = bitsNumber ((sent.drop 4).take 6)
    ∧ (parseHeader b0 b1).2.2.toNat = bitsNumber (sent.drop 10) := by
  intro sent
  have whole := sentBits_parseHeader b0 b1
  generalize parseHeader b0 b1 = header at whole ⊢
  obtain ⟨cls, sender, dest⟩ := header
  replace whole : sentBits cls ++ (sentBits sender ++ sentBits dest) = sent := by rw [← List.append_assoc]; exact whole
  have rest : sent.drop 4 = sentBits sender ++ sentBits dest := by
    rw [← whole, List.drop_left' (length_sentBits cls)]
  have last : sent.drop 10 = sentBits dest := by
    rw [show 10 = 4 + 6 from rfl, ← List.drop_drop, rest, List.drop_left' (length_sentBits sender)]
  refine ⟨?_, ?_, ?_⟩
  · rw [← whole, List.take_left' (length_sentBits cls), bitsNumber_sentBits]
  · rw [rest, List.take_left' (length_sentBits sender), bitsNumber_sentBits]
  · rw [last, bitsNumber_sentBits]

/-- The two header bytes carry class, sender and destination, as one string of bits. -/
theorem headerBytes_eq (cls : BitVec 4) (sender dest : Station) :
    ∃ b0 b1 : Byte, headerBytes cls sender dest = [b0, b1] ∧ b0.reverse ++ b1.reverse = cls ++ sender ++ dest := by
  refine ⟨_, _, rfl, ?_⟩
  rw [BitVec.reverse_reverse_eq, BitVec.reverse_reverse_eq]
  exact split_bytes (cls ++ sender ++ dest)

theorem parseHeader_of_append {cls : BitVec 4} {sender dest : Station} {b0 b1 : Byte}
    (bits : b0.reverse ++ b1.reverse = cls ++ sender ++ dest) : parseHeader b0 b1 = (cls, sender, dest) := by
  have whole : sentBits (parseHeader b0 b1).1 ++ sentBits (parseHeader b0 b1).2.1 ++ sentBits (parseHeader b0 b1).2.2
      = sentBits cls ++ sentBits sender ++ sentBits dest := by
    rw [sentBits_parseHeader, ← sentBits_reverse, ← sentBits_reverse, ← sentBits_append, bits, sentBits_append, sentBits_append]
  obtain ⟨front, last⟩ := List.append_inj whole (by simp only [List.length_append, length_sentBits])
  obtain ⟨first, middle⟩ := List.append_inj front (by simp only [length_sentBits])
  exact Prod.ext (sentBits_inj first) (Prod.ext (sentBits_inj middle) (sentBits_inj last))

end Sys2Proof.Machine
end

