-- ==== Sys2Proof/Proofs/Discarded.lean ====
section
/-!
THEOREM. A discarded frame, and which frames fail which receive check (O26).
-/

namespace Sys2Proof.Machine

open Sys2Proof.Safety

/-! ## The command -/

theorem exec_frameDiscarded_taken {e : Time} {samples : List CharBits} {s : State} (receives : Receives s)
    (begun : s.frameBegun samples = true) (fails : failedChecks (s.frameChars samples) ≠ []) :
    exec (.frameDiscarded e samples) s = .next { s with
      clock := s.clock + e
      counters := { s.counters with receiveErrors := saturatingStep s.counters.receiveErrors }
      assembly := if s.inFlight.isSome then s.assembly else if s.line = .busy then .ignoring else .empty } := by
  have taken : ((s.advance e).assembles && (s.advance e).frameBegun samples && !(failedChecks ((s.advance e).frameChars samples)).isEmpty)
      = true := by
    simp [(assembles_iff s).mpr receives, begun, fails]
  refine congrArg Host.Outcome.next ((if_pos taken).trans ?_)
  rw [advance_dispatches e receives.1]
  rfl

theorem exec_frameDiscarded_untaken {e : Time} {samples : List CharBits} {s : State}
    (untaken : ¬ Receives s ∨ ¬ s.frameBegun samples = true ∨ failedChecks (s.frameChars samples) = []) :
    exec (.frameDiscarded e samples) s = .next { s with clock := after e s } := by
  have refused : ¬ ((s.advance e).assembles && (s.advance e).frameBegun samples
      && !(failedChecks ((s.advance e).frameChars samples)).isEmpty) = true := by
    rw [← assembles_iff] at untaken
    rcases untaken with h | h | h <;> simp [h]
  exact congrArg Host.Outcome.next (if_neg refused)

/-! ## The rows of R75 -/

/-- The two CRC bytes of a frame that holds them. -/
theorem take_two_drop {bytes : List Byte} {k : Nat} (inside : k + 2 ≤ bytes.length) :
    (bytes.drop k).take 2 = [bytes.getD k 0, bytes.getD (k + 1) 0] := by
  rw [List.getD_eq_getElem _ _ (by omega), List.getD_eq_getElem _ _ (by omega), List.drop_eq_getElem_cons (by omega),
    List.drop_eq_getElem_cons (by omega)]
  rfl

theorem broadcastCode_iff (cls : BitVec 4) : broadcastCode cls = true ↔ cls.toNat ∈ [1, 3, 4, 6] := by
  simp [broadcastCode, ← BitVec.toNat_inj, or_assoc]

theorem station_eq_zero_iff (p : Station) : p = 0#6 ↔ p.toNat = 0 := BitVec.toNat_inj.symm
theorem station_eq_everyone_iff (p : Station) : p = Config.everyone ↔ p.toNat = 63 := BitVec.toNat_inj.symm

/-- Settles O26: the command by its three tests, the checks by the header read from the first sixteen data bits. -/
theorem frameDiscarded : Obligations.FrameDiscarded := by
  refine ⟨?_, ?_⟩
  · intro e samples s held chars begun
    have begun_iff : s.frameBegun samples = true ↔ begun := frameBegun_iff samples s
    exact ⟨fun receives began fails => exec_frameDiscarded_taken receives (begun_iff.mpr began) fails,
      fun untaken => exec_frameDiscarded_untaken (by rw [begun_iff]; exact untaken)⟩
  · intro chars failed n bytes byte sent number cls sender dest length
    obtain ⟨clsNumber, senderNumber, destNumber⟩ : (parseHeader (byte 0) (byte 1)).1.toNat = cls
      ∧ (parseHeader (byte 0) (byte 1)).2.1.toNat = sender ∧ (parseHeader (byte 0) (byte 1)).2.2.toNat = dest :=
      parseHeader_numbers (byte 0) (byte 1)
    have count : chars.length = n := rfl
    have data : ∀ i, byteAt (chars.map LineChar.data) i = byte i := fun i => rfl
    simp only [failed, failedChecks, List.mem_append, List.length_map, count, data]
    refine ⟨?_, ?_, ?_, ?_, ?_, ?_, ?_, ?_⟩
    · simp
    · simp [station_eq_zero_iff, station_eq_everyone_iff, senderNumber]
    · simp [clsNumber]
    · simp [broadcastCode_iff, station_eq_everyone_iff, clsNumber, destNumber, and_assoc]
    · simp [length, show Config.maxBody = 24 from rfl]
    · simp [length]
    · simp [length]
    · have covered : 5 + (byte 2).toNat - 2 = 3 + length := by show 5 + length - 2 = _; omega
      have sentCrc : 5 + length ≤ n → (bytes.drop (3 + length)).take 2 = [byte (3 + length), byte (4 + length)] := fun inside => by
        have inside : 3 + length + 2 ≤ bytes.length := by rw [List.length_map]; omega
        rw [take_two_drop inside, show 3 + length + 1 = 4 + length by omega]
      refine Iff.trans (b := 3 ≤ n ∧ 5 + length ≤ n ∧ (bytes.drop (3 + length)).take 2 ≠ crcBytes (bytes.take (3 + length))) ?_ ?_
      · rw [covered]
        simp [and_assoc, bytes, length]
      · exact and_congr_right fun _ => and_congr_right fun inside => by rw [sentCrc inside]; rfl

end Sys2Proof.Machine
end

