-- ==== Sys2Proof/Proofs/FrameLayout.lean ====
section
/-!
THEOREM. The frames that this station lays out read back (O58): characters, header, length, body and CRC.
-/

namespace Sys2Proof.Machine

open Sys2Proof.Safety

/-! ## Characters (R64) -/

theorem sendChar_start (b : Byte) : (sendChar b).getLsbD 0 = false := by
  rw [sendChar, BitVec.getLsbD_append]; rfl

theorem sendChar_data (b : Byte) {i : Nat} (inside : i < 8) : (sendChar b).getLsbD (1 + i) = b.getLsbD i := by
  rw [sendChar, BitVec.getLsbD_append, if_neg (by omega), Nat.add_sub_cancel_left, BitVec.getLsbD_append, if_pos inside]

theorem sendChar_stop (b : Byte) : (sendChar b).getLsbD 9 = true := by
  rw [sendChar, BitVec.getLsbD_append, if_neg (by decide), BitVec.getLsbD_append, if_neg (by decide)]; rfl

theorem sampleChar_sendChar (b : Byte) : sampleChar (sendChar b) = some { data := b, stopRecessive := true } := by
  have data : (sendChar b).extractLsb' 1 8 = b := BitVec.eq_of_getLsbD_eq fun i inside => by
    rw [BitVec.getLsbD_extractLsb', decide_eq_true inside, Bool.true_and, sendChar_data b inside]
  rw [sampleChar, sendChar_start, data, sendChar_stop]
  rfl

theorem charLevels_sendChar (b : Byte) : charLevels (sendChar b) = false :: (List.range 8).map b.getLsbD ++ [true] := by
  have bits : List.range 10 = 0 :: (List.range 8).map (1 + ·) ++ [9] := rfl
  rw [charLevels, bits, List.map_append, List.map_cons, List.map_map, sendChar_start, List.map_singleton, sendChar_stop]
  exact congrArg (false :: · ++ [true]) (List.map_congr_left fun i hi => sendChar_data b (List.mem_range.mp hi))

theorem length_charLevels (bits : CharBits) : (charLevels bits).length = 10 := by simp [charLevels]

/-- The characters of bytes that are sent and sampled are those bytes with recessive stop bits. -/
theorem sampled_bytes (bytes : List Byte) :
    (bytes.map sendChar).filterMap sampleChar = bytes.map fun b => { data := b, stopRecessive := true } := by
  induction bytes with
  | nil => rfl
  | cons b rest ih => rw [List.map_cons, List.filterMap_cons, sampleChar_sendChar, ih, List.map_cons]

/-! ## Frames (R68, R190) -/

theorem length_frameBytes (cls : BitVec 4) (sender dest : Station) (body : List Byte) :
    (frameBytes cls sender dest body).length = 5 + body.length := by
  simp [frameBytes, headerBytes, crcBytes, be16Bytes]; omega

/-- The bytes that the CRC covers: header, length and body (R69). -/
def coveredBytes (cls : BitVec 4) (sender dest : Station) (body : List Byte) : List Byte :=
  headerBytes cls sender dest ++ BitVec.ofNat 8 body.length :: body

theorem frameBytes_eq (cls : BitVec 4) (sender dest : Station) (body : List Byte) :
    frameBytes cls sender dest body = coveredBytes cls sender dest body ++ crcBytes (coveredBytes cls sender dest body) := by
  simp [frameBytes, coveredBytes]

theorem length_coveredBytes (cls : BitVec 4) (sender dest : Station) (body : List Byte) :
    (coveredBytes cls sender dest body).length = 3 + body.length := by
  simp [coveredBytes, headerBytes]; omega

theorem take_frameBytes (cls : BitVec 4) (sender dest : Station) (body : List Byte) :
    (frameBytes cls sender dest body).take (3 + body.length) = coveredBytes cls sender dest body := by
  rw [frameBytes_eq, List.take_left' (length_coveredBytes ..)]

theorem drop_frameBytes (cls : BitVec 4) (sender dest : Station) (body : List Byte) :
    (frameBytes cls sender dest body).drop (3 + body.length) = crcBytes (coveredBytes cls sender dest body) := by
  rw [frameBytes_eq, List.drop_left' (length_coveredBytes ..)]

theorem parseHeader_frameBytes (cls : BitVec 4) (sender dest : Station) (body : List Byte) :
    parseHeader (byteAt (frameBytes cls sender dest body) 0) (byteAt (frameBytes cls sender dest body) 1) = (cls, sender, dest) := by
  obtain ⟨b0, b1, bytes, bits⟩ := headerBytes_eq cls sender dest
  have first : byteAt (frameBytes cls sender dest body) 0 = b0 := by simp [byteAt, frameBytes, bytes]
  have second : byteAt (frameBytes cls sender dest body) 1 = b1 := by simp [byteAt, frameBytes, bytes]
  rw [first, second, parseHeader_of_append bits]

theorem length_of_frameBytes (cls : BitVec 4) (sender dest : Station) {body : List Byte} (short : body.length ≤ 24) :
    (byteAt (frameBytes cls sender dest body) 2).toNat = body.length := by
  have third : byteAt (frameBytes cls sender dest body) 2 = BitVec.ofNat 8 body.length := by
    simp [byteAt, frameBytes, headerBytes]
  rw [third, BitVec.toNat_ofNat, Nat.mod_eq_of_lt (by omega)]

theorem broadcast_iff (cls : FrameClass) :
    cls.broadcast = true ↔ cls = .urgentPublish ∨ cls = .solicit ∨ cls = .presence ∨ cls = .routinePublish := by
  cases cls <;> simp [FrameClass.broadcast]

theorem headerGood_iff (cls : FrameClass) (sender dest : Station) (body : List Byte) : headerGood cls sender dest body = true ↔
    1 ≤ sender.toNat ∧ sender.toNat ≤ 62 ∧ body.length ≤ 24
    ∧ (cls = .urgentPublish ∨ cls = .solicit ∨ cls = .presence ∨ cls = .routinePublish → dest = 63) := by
  have unfolded : headerGood cls sender dest body = (stationOk sender && (!cls.broadcast || dest == Config.everyone) && bodyOk body) := rfl
  rw [unfolded, Bool.and_eq_true, Bool.and_eq_true, stationOk_iff, bodyOk_iff, ← broadcast_iff]
  cases cls.broadcast <;> simp [Config.everyone] <;> tauto

/-- A frame laid out from good header fields passes every check of R75. -/
theorem failedChecks_frame {cls : FrameClass} {sender dest : Station} {body : List Byte} (good : headerGood cls sender dest body = true) :
    failedChecks (((frameBytes cls.code sender dest body).map sendChar).filterMap sampleChar) = [] := by
  obtain ⟨nonzero, notAll, short, to63⟩ := (headerGood_iff cls sender dest body).mp good
  rw [← broadcast_iff] at to63
  have header := parseHeader_frameBytes cls.code sender dest body
  have stated := length_of_frameBytes cls.code sender dest short
  have count := length_frameBytes cls.code sender dest body
  have covered := take_frameBytes cls.code sender dest body
  have crc := drop_frameBytes cls.code sender dest body
  rw [sampled_bytes]
  generalize frameBytes cls.code sender dest body = bytes at header stated count covered crc ⊢
  have data : (bytes.map fun b => ({ data := b, stopRecessive := true } : LineChar)).map LineChar.data = bytes :=
    List.map_map.trans (List.map_id bytes)
  have recessive : (bytes.map fun b => ({ data := b, stopRecessive := true } : LineChar)).all LineChar.stopRecessive = true := by simp
  have known : ¬ 7 ≤ cls.code.toNat := by cases cls <;> decide
  have sendable : (sender == 0 || sender == Config.everyone) = false := by
    simpa [stationOk] using (stationOk_iff sender).mpr ⟨nonzero, notAll⟩
  have directed : (broadcastCode cls.code && dest != Config.everyone) = false := by
    have coded : broadcastCode cls.code = cls.broadcast := by cases cls <;> rfl
    rw [coded]
    cases broadcast : cls.broadcast with
    | false => rfl
    | true => rw [to63 broadcast]; rfl
  have need : 5 + body.length - 2 = 3 + body.length := by omega
  simp only [failedChecks, data, header, stated, count, need, covered, crc, recessive, sendable, Bool.and_assoc, directed]
  have within : ¬ Config.maxBody < body.length := Nat.not_lt.mpr short
  have long : 3 ≤ 5 + body.length := by omega
  simp [known, within, long, crcBytes, be16Bytes]

/-! ## The CRC (R69) -/

theorem repeat_eq_foldl {α : Type} (f : α → α) (n : Nat) (a : α) : Nat.repeat f n a = (List.range n).foldl (fun r _ => f r) a := by
  induction n with
  | zero => rfl
  | succ n ih => rw [Nat.repeat, ih, List.range_succ, List.foldl_append]; rfl

theorem crc16_append (l : List Byte) (b : Byte) : crc16 (l ++ [b]) =
    (List.range 8).foldl (fun r _ => if r.getLsbD 15 then (r <<< 1) ^^^ 0x1021#16 else r <<< 1)
      (crc16 l ^^^ (b.setWidth 16 <<< 8)) := by
  have shift : crcShift = fun r => if r.getLsbD 15 then (r <<< 1) ^^^ 0x1021#16 else r <<< 1 :=
    funext fun r => by rw [crcShift, BitVec.msb_eq_getLsbD_last]
  rw [crc16, List.foldl_append, List.foldl_cons, List.foldl_nil, crcByte, repeat_eq_foldl, shift]
  rfl

/-! ## The statement -/

theorem length_levels (f : TxFrame) : f.levels.length = 10 * (5 + f.content.body.length) := by
  rw [TxFrame.levels, length_flatMap_of_const charLevels 10 length_charLevels, List.length_map, TxFrame.bytes, length_frameBytes]
  ring

/-- The first sixteen data bits as they are sent (R190). -/
theorem headerBits_frameBytes (cls : BitVec 4) (sender dest : Station) (body : List Byte) :
    (List.range 8).map ((frameBytes cls sender dest body).getD 0 0).getLsbD
      ++ (List.range 8).map ((frameBytes cls sender dest body).getD 1 0).getLsbD
      = (List.range 4).map cls.getMsbD ++ (List.range 6).map sender.getMsbD ++ (List.range 6).map dest.getMsbD := by
  have read := sentBits_parseHeader (byteAt (frameBytes cls sender dest body) 0) (byteAt (frameBytes cls sender dest body) 1)
  rw [parseHeader_frameBytes] at read
  exact read.symm

theorem drop_two_frameBytes (cls : BitVec 4) (sender dest : Station) (body : List Byte) :
    (frameBytes cls sender dest body).drop 2
      = BitVec.ofNat 8 body.length :: body ++ crcBytes ((frameBytes cls sender dest body).take (3 + body.length)) := by
  rw [take_frameBytes, frameBytes_eq]
  rfl

/-- The check value of R69. -/
theorem crc16_checkValue : crc16 [0x31, 0x32, 0x33, 0x34, 0x35, 0x36, 0x37, 0x38, 0x39] = 0x29B1#16 := by decide +kernel

/-- Settles O58: the layout is read back by its string of header bits, by its lengths, and by the CRC over the same bytes. -/
theorem framesReadBack : Obligations.FramesReadBack := by
  refine ⟨fun cls sender dest body good => ⟨failedChecks_frame good, parseHeader_frameBytes cls.code sender dest body⟩, headerGood_iff, rfl,
    fun b => ⟨charLevels_sendChar b, sampleChar_sendChar b⟩, fun bits => ⟨fun glitch => if_pos glitch, fun start => ?_⟩,
    fun f => ⟨length_levels f, List.flatMap_map ..⟩,
    fun cls sender dest body => ⟨headerBits_frameBytes cls sender dest body, drop_two_frameBytes cls sender dest body⟩,
    ⟨rfl, crc16_append⟩, fun sender => ⟨fun _ => rfl, fun _ => rfl, fun _ => rfl, fun _ => rfl, fun _ => rfl⟩, crc16_checkValue⟩
  refine ⟨_, if_neg (by rw [start]; decide), rfl, fun i inside => ?_⟩
  rw [BitVec.getLsbD_extractLsb', decide_eq_true inside, Bool.true_and]

end Sys2Proof.Machine
end

