-- ==== Sys2Proof/Proofs/FailedLoad.lean ====
section
/-!
THEOREM. A load that gives no usable image (O21): the commands, the load checks of R180 and the eleven checks of R181.
-/

namespace Sys2Proof.Machine

open Sys2Proof.Safety

/-! ## The commands -/

/-- The station after a load without a usable image: UNCONFIGURED under the number of the straps, or HALTED without one (R182, R183). -/
theorem noImage_eq (e : Time) (error : ConfigError) (straps : Station) (s : State) : (s.advance e).noImage error straps = { s with
    clock := after e s, loading := false, straps := some straps, lineRate := some .kbit50, line := .busy, error := error
    number := if straps = 0 ∨ straps = 63 then none else some straps
    station := if straps = 0 ∨ straps = 63 then .halted else .unconfigured
    assembly := if straps = 0 ∨ straps = 63 then .empty else .ignoring } := by
  by_cases unusable : straps = 0 ∨ straps = 63
  · have number : usableNumber straps = none := if_pos unusable
    simp only [State.noImage, number, if_pos unusable]
    rfl
  · have number : usableNumber straps = some straps := if_neg unusable
    simp only [State.noImage, number, if_neg unusable]
    rfl

theorem exec_loadFailed {s : State} (loading : s.loading = true) (e : Time) (f : LoadFailure) (straps : Station) :
    exec (.loadFailed e f straps) s = .next ((s.advance e).noImage (loadErrorOf f) straps) :=
  congrArg Host.Outcome.next (if_pos loading)

theorem exec_loadComplete {s : State} (loading : s.loading = true) (e : Time) (memory : List Byte) (straps : Station) (inputs : PinInputs) :
    exec (.loadComplete e memory straps inputs) s = .next ((s.advance e).endLoad memory straps inputs) :=
  congrArg Host.Outcome.next (if_pos loading)

theorem endLoad_failed {memory : List Byte} {f : LoadFailure} (failed : loadFailureOf memory = some f) (straps : Station)
    (inputs : PinInputs) (s : State) : s.endLoad memory straps inputs = s.noImage (loadErrorOf f) straps := by
  rw [State.endLoad, failed]

theorem endLoad_refused {memory : List Byte} (complete : loadFailureOf memory = none) (refused : (parseImage memory).validate ≠ .none)
    (straps : Station) (inputs : PinInputs) (s : State) :
    s.endLoad memory straps inputs = s.noImage (parseImage memory).validate straps := by
  rw [State.endLoad, complete]
  dsimp only
  split
  · next valid => exact absurd valid refused
  · rfl

/-! ## The load checks (R180, R191) -/

/-- The load checks in order, by the number of bytes answered, the length stated, the length that the counts make, and the verdicts on
signature and CRC. -/
def loadLadder (n length counted : Nat) (signature crc : Prop) [Decidable signature] [Decidable crc] : Option LoadFailure :=
  if n < 2 then some .noAnswer
  else if ¬ signature then some .signature
  else if n < 4 then some .noAnswer
  else if length < 50 ∨ 508 < length then some .length
  else if n < 10 then some .noAnswer
  else if length ≠ counted then some .length
  else if n < length then some .noAnswer
  else if ¬ crc then some .imageCrc
  else none

theorem loadLadder_rows (n length counted : Nat) (signature crc : Prop) [Decidable signature] [Decidable crc] :
    let signed := 2 ≤ n ∧ signature
    let inRange := signed ∧ 4 ≤ n ∧ 50 ≤ length ∧ length ≤ 508
    let agrees := inRange ∧ 10 ≤ n ∧ length = counted
    let result := loadLadder n length counted signature crc
    (result = some .noAnswer ↔ n < 2 ∨ (signed ∧ n < 4) ∨ (inRange ∧ n < 10) ∨ (agrees ∧ n < length))
    ∧ (result = some .signature ↔ 2 ≤ n ∧ ¬ signed)
    ∧ (result = some .length ↔ (signed ∧ 4 ≤ n ∧ ¬ inRange) ∨ (inRange ∧ 10 ≤ n ∧ ¬ agrees))
    ∧ (result = some .imageCrc ↔ agrees ∧ length ≤ n ∧ ¬ crc)
    ∧ (result = none ↔ agrees ∧ length ≤ n ∧ crc) := by
  intro signed inRange agrees result
  simp only [result, loadLadder, agrees, inRange, signed]
  split_ifs <;> grind

/-! ## The first check that fails (R181) -/

/-- The code of the first check that fails, NONE where every check passes. -/
def firstFailing : List (ConfigError × Bool) → ConfigError
  | [] => .none
  | (code, bad) :: rest => if bad then code else firstFailing rest

theorem firstFailing_mem (l : List (ConfigError × Bool)) : firstFailing l = .none ∨ firstFailing l ∈ l.map Prod.fst := by
  induction l with
  | nil => exact .inl rfl
  | cons check rest ih =>
    obtain ⟨code, bad⟩ := check
    cases bad with
    | true => exact .inr List.mem_cons_self
    | false => exact ih.imp_right (List.mem_cons_of_mem code)

/-- A check spelled out: the same code, and it fails under the same condition. -/
def Spells (spelled : ConfigError × Prop) (check : ConfigError × Bool) : Prop := spelled.1 = check.1 ∧ (spelled.2 ↔ check.2 = true)

theorem codes_of_spells {spelled : List (ConfigError × Prop)} {l : List (ConfigError × Bool)} (spells : List.Forall₂ Spells spelled l) :
    spelled.map Prod.fst = l.map Prod.fst := by
  induction spells with
  | nil => rfl
  | cons same _ ih => rw [List.map_cons, List.map_cons, same.1, ih]

/-- Where the codes differ, the result is the code of a check exactly where it fails and no earlier one does, and NONE where none fails. -/
theorem firstFailing_iff {spelled : List (ConfigError × Prop)} {l : List (ConfigError × Bool)} (spells : List.Forall₂ Spells spelled l)
    (distinct : (l.map Prod.fst).Nodup) (named : .none ∉ l.map Prod.fst) :
    (∀ (k : Nat) (code : ConfigError) (bad : Prop), spelled[k]? = some (code, bad) →
      (firstFailing l = code ↔ bad ∧ ∀ earlier ∈ spelled.take k, ¬ earlier.2))
    ∧ (firstFailing l = .none ↔ ∀ check ∈ spelled, ¬ check.2) := by
  induction spells with
  | nil => exact ⟨fun k code bad at_k => by simp at at_k, by simp [firstFailing]⟩
  | @cons first check spelled rest same spells ih =>
    obtain ⟨code, bad⟩ := check
    obtain ⟨code', bad'⟩ := first
    obtain ⟨rfl, verdict⟩ : code' = code ∧ (bad' ↔ bad = true) := same
    rw [List.map_cons, List.nodup_cons] at distinct
    rw [List.map_cons, List.mem_cons, not_or] at named
    obtain ⟨rows, none⟩ := ih distinct.2 named.2
    have later : ∀ k c b, spelled[k]? = some (c, b) → code' ≠ c := fun k c b at_k same =>
      distinct.1 (same ▸ codes_of_spells spells ▸ List.mem_map_of_mem (List.mem_of_getElem? at_k))
    cases bad with
    | true =>
      have fails : bad' := verdict.mpr rfl
      have result : firstFailing ((code', true) :: rest) = code' := rfl
      rw [result]
      refine ⟨fun k c b at_k => ?_, ⟨fun same => absurd same.symm named.1, fun pass => absurd fails (pass _ List.mem_cons_self)⟩⟩
      cases k with
      | zero =>
        obtain ⟨rfl, rfl⟩ : code' = c ∧ bad' = b := by simpa using at_k
        simp [fails]
      | succ k =>
        refine ⟨fun same => absurd same (later k c b at_k), fun ⟨_, passed⟩ => ?_⟩
        exact absurd fails (passed _ List.mem_cons_self)
    | false =>
      have passes : ¬ bad' := fun fails => by cases verdict.mp fails
      have result : firstFailing ((code', false) :: rest) = firstFailing rest := rfl
      rw [result]
      refine ⟨fun k c b at_k => ?_, none.trans ?_⟩
      · cases k with
        | zero =>
          obtain ⟨rfl, rfl⟩ : code' = c ∧ bad' = b := by simpa using at_k
          refine ⟨fun same => ?_, fun ⟨fails, _⟩ => absurd fails passes⟩
          rcases firstFailing_mem rest with unnamed | mem
          · exact absurd (unnamed.symm.trans same) named.1
          · exact absurd (same ▸ mem) distinct.1
        | succ k =>
          rw [rows k c b at_k, List.take_succ_cons, List.forall_mem_cons]
          exact and_congr_right fun _ => (and_iff_right passes).symm
      · rw [List.forall_mem_cons]
        exact (and_iff_right passes).symm

/-! ## The eleven checks spelled out (R181, R191) -/

/-- The mode number that the entry of a pin holds, if the image has the pin. -/
def Image.modeNumber (im : Image) (i : Nat) : Option Nat := im.pins[i]?.map ImagePin.mode

theorem pinModeOf_inDigital_iff (k : Nat) : pinModeOf k = .inDigital ↔ k = 1 := by unfold pinModeOf; split <;> simp_all
theorem pinModeOf_inLevel_iff (k : Nat) : pinModeOf k = .inLevel ↔ k = 2 := by unfold pinModeOf; split <;> simp_all
theorem pinModeOf_out_iff (k : Nat) : pinModeOf k = .out ↔ k = 3 := by unfold pinModeOf; split <;> simp_all
theorem pinModeOf_hand_iff (k : Nat) : pinModeOf k = .hand ↔ k = 4 := by unfold pinModeOf; split <;> simp_all

/-- A pin has a mode other than UNUSED exactly where its entry holds a number of that mode. -/
theorem mode_eq_iff (im : Image) (i : Nat) {m : PinMode} {k : Nat} (used : m ≠ .unused) (code : ∀ n, pinModeOf n = m ↔ n = k) :
    im.mode i = m ↔ im.modeNumber i = some k := by
  unfold Image.mode Image.modeNumber
  cases im.pins[i]? with
  | none => simp [used.symm]
  | some p => simp [code]

theorem mode_inDigital_iff (im : Image) (i : Nat) : im.mode i = .inDigital ↔ im.modeNumber i = some 1 :=
  mode_eq_iff im i nofun pinModeOf_inDigital_iff

theorem mode_inLevel_iff (im : Image) (i : Nat) : im.mode i = .inLevel ↔ im.modeNumber i = some 2 :=
  mode_eq_iff im i nofun pinModeOf_inLevel_iff

theorem mode_out_iff (im : Image) (i : Nat) : im.mode i = .out ↔ im.modeNumber i = some 3 :=
  mode_eq_iff im i nofun pinModeOf_out_iff

/-- Two places of a list agree in a field exactly where the field does not differ throughout. -/
theorem not_nodup_map_iff {α : Type} (f : α → Nat) (l : List α) : ¬ (l.map f).Nodup ↔
    ∃ i j : Nat, ∃ a b : α, i < j ∧ l[i]? = some a ∧ l[j]? = some b ∧ f a = f b := by
  rw [List.nodup_iff_getElem?_ne_getElem?]
  push Not
  constructor
  · rintro ⟨i, j, less, inside, same⟩
    rw [List.length_map] at inside
    rw [List.getElem?_map, List.getElem?_map, List.getElem?_eq_getElem (less.trans inside), List.getElem?_eq_getElem inside] at same
    exact ⟨i, j, _, _, less, List.getElem?_eq_getElem _, List.getElem?_eq_getElem _, Option.some.inj same⟩
  · rintro ⟨i, j, a, b, less, at_i, at_j, same⟩
    obtain ⟨inside, -⟩ := List.getElem?_eq_some_iff.mp at_j
    refine ⟨i, j, less, by rwa [List.length_map], ?_⟩
    rw [List.getElem?_map, List.getElem?_map, at_i, at_j, Option.map_some, Option.map_some, same]

theorem fieldRangeBad_iff (im : Image) : im.fieldRangeBad = true ↔
    2 < im.rate ∨ im.periodCode < 1 ∨ 20 < im.periodCode ∨ 62 < im.number ∨ im.pointCount = 0
    ∨ (∃ p ∈ im.pins, 4 < p.mode)
    ∨ (∃ p ∈ im.owned, 16 < p.source ∨ 3 < p.refreshClass ∨ (p.level = true ∧ p.source < 16 ∧ 31 < p.deadband))
    ∨ ∃ b ∈ im.bindings, b.fallback = 3 ∧ b.source ≠ 0 ∧ ∃ p ∈ im.points, p.mirrored = true ∧ p.number = b.source := by
  have uncoded : ∀ b : ImageBinding, (im.usesFallback b && b.fallback == 3) = true ↔
      b.fallback = 3 ∧ b.source ≠ 0 ∧ ∃ p ∈ im.points, p.mirrored = true ∧ p.number = b.source := fun b => by
    rw [Bool.and_eq_true, usesFallback_iff, beq_iff_eq, and_comm]
  simp only [Image.fieldRangeBad, Bool.or_eq_true, List.any_eq_true, uncoded]
  simp only [Bool.and_eq_true, decide_eq_true_eq, beq_iff_eq, ImagePoint.fromPin, or_assoc, and_assoc, Nat.lt_one_iff]

theorem pointNumberBad_iff (im : Image) : im.pointNumberBad = true ↔ ∃ p ∈ im.points, p.number = 0 ∨ 1023 < p.number := by
  simp [Image.pointNumberBad]

theorem duplicatePointBad_iff (im : Image) : im.duplicatePointBad = true ↔ ∃ i j : Nat, ∃ p q : ImagePoint,
    i < j ∧ im.points[i]? = some p ∧ im.points[j]? = some q ∧ p.number = q.number := by
  rw [Image.duplicatePointBad, Bool.not_eq_true', decide_eq_false_iff_not, not_nodup_map_iff]

theorem tooManyPointsBad_iff (im : Image) : im.tooManyPointsBad = true ↔ 32 < im.owned.length ∨ 64 < im.pointCount := by
  rw [Image.tooManyPointsBad, Bool.or_eq_true, decide_eq_true_eq, decide_eq_true_eq]
  rfl

theorem levelPinBad_iff (im : Image) : im.levelPinBad = true ↔ ∃ i : Nat, 8 ≤ i ∧ i ≤ 15 ∧ im.modeNumber i = some 2 := by
  simp only [Image.levelPinBad, List.any_eq_true, List.mem_range, Bool.and_eq_true, decide_eq_true_eq, beq_iff_eq, mode_inLevel_iff]
  exact ⟨fun ⟨i, below, above, level⟩ => ⟨i, above, by omega, level⟩, fun ⟨i, above, below, level⟩ => ⟨i, by omega, above, level⟩⟩

theorem sourcePinBad_iff (im : Image) : im.sourcePinBad = true ↔ ∃ p ∈ im.owned, p.source < 16 ∧
    ((p.level = true ∧ im.modeNumber p.source ≠ some 2)
      ∨ (p.level = false ∧ im.modeNumber p.source ≠ some 1 ∧ im.modeNumber p.source ≠ some 2)) := by
  simp only [Image.sourcePinBad, ImagePoint.fromPin, List.any_eq_true, Bool.and_eq_true, decide_eq_true_eq]
  refine exists_congr fun p => and_congr_right fun _ => and_congr_right fun _ => ?_
  rw [Ne, Ne, ← mode_inDigital_iff, ← mode_inLevel_iff]
  cases p.level <;> simp [and_comm]

theorem noThresholdBad_iff (im : Image) : im.noThresholdBad = true ↔
    ∃ p ∈ im.owned, p.source < 16 ∧ p.level = false ∧ im.modeNumber p.source = some 2 ∧ p.thresholdPresent = false := by
  simp [Image.noThresholdBad, ImagePoint.fromPin, mode_inLevel_iff, and_assoc]

theorem bindingPinBad_iff (im : Image) : im.bindingPinBad = true ↔ (∃ b ∈ im.bindings, im.modeNumber b.pin ≠ some 3) ∨
    ∃ i j : Nat, ∃ b c : ImageBinding, i < j ∧ im.bindings[i]? = some b ∧ im.bindings[j]? = some c ∧ b.pin = c.pin := by
  rw [Image.bindingPinBad, Bool.or_eq_true, Bool.not_eq_true', decide_eq_false_iff_not, not_nodup_map_iff]
  simp [mode_out_iff]

theorem handTargetBad_iff (im : Image) : im.handTargetBad = true ↔ ∃ p ∈ im.pins, p.mode = 4 ∧ im.modeNumber p.target ≠ some 3 := by
  simp [Image.handTargetBad, pinModeOf_hand_iff, mode_out_iff]

theorem bindingSourceBad_iff (im : Image) : im.bindingSourceBad = true ↔
    ∃ b ∈ im.bindings, b.source ≠ 0 ∧ ∀ p ∈ im.points, p.number ≠ b.source := by
  simp [Image.bindingSourceBad]

theorem statusPointsBad_iff (im : Image) : im.statusPointsBad = true ↔ 2 ≤ (im.owned.filter fun p => p.source == 16).length :=
  decide_eq_true_iff

/-- The checks of an image in order, each under its code. -/
def Image.checks (im : Image) : List (ConfigError × Bool) :=
  [(.fieldRange, im.fieldRangeBad), (.pointNumber, im.pointNumberBad), (.duplicatePoint, im.duplicatePointBad),
   (.tooManyPoints, im.tooManyPointsBad), (.levelPin, im.levelPinBad), (.sourcePin, im.sourcePinBad),
   (.noThreshold, im.noThresholdBad), (.bindingPin, im.bindingPinBad), (.handTarget, im.handTargetBad),
   (.bindingSource, im.bindingSourceBad), (.statusPoints, im.statusPointsBad)]

theorem validate_eq (im : Image) : im.validate = firstFailing im.checks := rfl

theorem checks_distinct (im : Image) : (im.checks.map Prod.fst).Nodup ∧ .none ∉ im.checks.map Prod.fst := by
  have codes : im.checks.map Prod.fst = [.fieldRange, .pointNumber, .duplicatePoint, .tooManyPoints, .levelPin, .sourcePin, .noThreshold,
    .bindingPin, .handTarget, .bindingSource, .statusPoints] := rfl
  rw [codes]
  decide

/-! ## The statement -/

theorem take_two_iff {memory : List Byte} (inside : 2 ≤ memory.length) (a b : Byte) :
    memory.take 2 = [a, b] ↔ memory.getD 0 0 = a ∧ memory.getD 1 0 = b := by
  have := take_two_drop (bytes := memory) (k := 0) inside
  rw [List.drop_zero] at this
  rw [this]
  simp

theorem loadFailureOf_eq (memory : List Byte) :
    let byte (i : Nat) : Byte := memory.getD i 0
    let length := 256 * (byte 2).toNat + (byte 3).toNat
    let crc := (crc16 (memory.take (length - 2))).toNat
    loadFailureOf memory = loadLadder memory.length length (44 + 6 * (byte 8).toNat + 5 * (byte 9).toNat)
      (byte 0 = 0xA5 ∧ byte 1 = 0x3C)
      (byte (length - 2) = BitVec.ofNat 8 (crc / 256) ∧ byte (length - 1) = BitVec.ofNat 8 crc) := by
  intro byte length crc
  unfold loadFailureOf loadLadder
  refine ite_congr rfl (fun _ => rfl) fun answered => ?_
  refine ite_congr (propext ?_) (fun _ => rfl) fun _ => ?_
  · rw [bne_iff_ne, Ne, take_two_iff (Nat.le_of_not_lt answered)]
  refine ite_congr rfl (fun _ => rfl) fun _ => ?_
  refine ite_congr (by simp [length, byte]; rfl) (fun _ => rfl) fun inRange => ?_
  refine ite_congr rfl (fun _ => rfl) fun _ => ?_
  refine ite_congr (by simp [length, byte]; rfl) (fun _ => rfl) fun _ => ?_
  refine ite_congr rfl (fun _ => rfl) fun whole => ?_
  refine ite_congr (propext ?_) (fun _ => rfl) fun _ => rfl
  obtain ⟨least, -⟩ := not_or.mp inRange
  have inside : length - 2 + 2 ≤ memory.length := by omega
  have sent : (memory.drop (length - 2)).take 2 = [byte (length - 2), byte (length - 1)] := by
    rw [take_two_drop inside, show length - 2 + 1 = length - 1 by omega]
  have computed : crcBytes (memory.take (length - 2)) = [BitVec.ofNat 8 (crc / 256), BitVec.ofNat 8 crc] := rfl
  show ((memory.drop (length - 2)).take 2 != crcBytes (memory.take (length - 2))) = true ↔ _
  rw [bne_iff_ne, Ne, sent, computed, List.cons.injEq, List.cons.injEq, and_iff_left rfl]

/-- Settles O21: a failed load by its ladder of checks, a refused image by the first of its checks that fails. -/
theorem loadWithoutImage : Obligations.LoadWithoutImage := by
  unfold Obligations.LoadWithoutImage
  intro ended
  have noImage : ∀ e error straps s, (State.advance e s).noImage error straps = ended e straps error s := noImage_eq
  refine ⟨fun e straps s loading => ?_, fun e memory straps inputs f s loading failed => ?_,
    fun e memory straps inputs s loading complete refused => ?_, fun e memory straps inputs f s idle => ⟨?_, ?_⟩,
    fun memory => ?_, fun memory => ?_⟩
  · have run : ∀ f, exec (.loadFailed e f straps) s = .next (ended e straps (loadErrorOf f) s) := fun f => by
      rw [exec_loadFailed loading, noImage]
    exact ⟨run .noAnswer, run .signature, run .length, run .imageCrc⟩
  · rw [exec_loadFailed loading, exec_loadComplete loading, endLoad_failed failed]
  · rw [exec_loadComplete loading, endLoad_refused complete refused, noImage]
  · exact congrArg Host.Outcome.next (if_neg (by rw [show (s.advance e).loading = s.loading from rfl, idle]; decide))
  · exact congrArg Host.Outcome.next (if_neg (by rw [show (s.advance e).loading = s.loading from rfl, idle]; decide))
  · rw [loadFailureOf_eq]
    exact loadLadder_rows _ _ _ _ _
  · intro im mode owned checks
    have spells : List.Forall₂ Spells checks im.checks :=
      .cons ⟨rfl, (fieldRangeBad_iff im).symm⟩ <| .cons ⟨rfl, (pointNumberBad_iff im).symm⟩ <|
      .cons ⟨rfl, (duplicatePointBad_iff im).symm⟩ <| .cons ⟨rfl, (tooManyPointsBad_iff im).symm⟩ <|
      .cons ⟨rfl, (levelPinBad_iff im).symm⟩ <| .cons ⟨rfl, (sourcePinBad_iff im).symm⟩ <|
      .cons ⟨rfl, (noThresholdBad_iff im).symm⟩ <| .cons ⟨rfl, (bindingPinBad_iff im).symm⟩ <|
      .cons ⟨rfl, (handTargetBad_iff im).symm⟩ <| .cons ⟨rfl, (bindingSourceBad_iff im).symm⟩ <|
      .cons ⟨rfl, (statusPointsBad_iff im).symm⟩ .nil
    obtain ⟨distinct, named⟩ := checks_distinct im
    rw [validate_eq]
    exact firstFailing_iff spells distinct named

end Sys2Proof.Machine
end

