-- ==== Sys2Proof/Proofs/Published.lean ====
section
/-!
THEOREM. A publication frame heard (O33), the bits of a record, and the records that are passed over (O34).
-/

namespace Sys2Proof.Machine

open Sys2Proof.Safety

/-! ## Records (section 11.1.1) -/

theorem extractLsb'_eq_bitsOf (b : Byte) (lo w : Nat) : b.extractLsb' lo w = BitVec.ofNat w (bitsOf b lo w) :=
  BitVec.eq_of_toNat_eq (by simp [bitsOf, Nat.shiftRight_eq_div_pow])

/-- The point of a record is in the low ten bits of its first two bytes. -/
theorem ofNat_be16 (b0 b1 : Byte) : BitVec.ofNat 10 (be16 b0 b1) = BitVec.ofNat 10 ((256 * b0.toNat + b1.toNat) % 1024) :=
  BitVec.eq_of_toNat_eq (by simp [be16])

theorem parseRecord_eq (b0 b1 b2 b3 : Byte) :
    parseRecord b0 b1 b2 b3 =
      { point := BitVec.ofNat 10 ((256 * b0.toNat + b1.toNat) % 1024)
        kind := if b2.getLsbD 7 then .level else .binary
        refreshClass := BitVec.ofNat 2 (b2.toNat / 32 % 4)
        count := BitVec.ofNat 4 (b2.toNat % 16)
        value := b3 } := by
  rw [parseRecord, ofNat_be16, extractLsb'_eq_bitsOf, extractLsb'_eq_bitsOf, bitsOf_zero]
  rfl

/-- Each four bytes of a body are one record; bytes left over are none. -/
theorem recordsOf_length : ∀ body : List Byte, (recordsOf body).length = body.length / 4
  | [] => rfl
  | [_] | [_, _] | [_, _, _] => by simp [recordsOf]
  | b0 :: b1 :: b2 :: b3 :: rest => by
    simp only [recordsOf, List.length_cons, recordsOf_length rest]
    omega

/-! ## Publication bodies (R88) -/

theorem publicationOk_iff (body : List Byte) : publicationOk body = true ↔ body.length ∈ [4, 8, 12, 16, 20, 24] := by
  simp only [publicationOk, Bool.and_eq_true, beq_iff_eq, decide_eq_true_iff, List.mem_cons, List.not_mem_nil, or_false]
  omega

theorem takePublication_whole {body : List Byte} (ok : publicationOk body = true) (p : Station) (s : State) :
    s.takePublication p body = (recordsOf body).foldl (State.takeRecord p) s := if_pos ok

theorem takePublication_invalid {body : List Byte} (bad : ¬ publicationOk body = true) (p : Station) (s : State) :
    s.takePublication p body = s.bump .receiveErrors := if_neg bad

/-- A good publication frame of another station is heard, and the Mirror Receiver takes its body, of either class (R78, R88). -/
theorem execPublish_heard {e : Time} {s : State} {p : Station} {body : List Byte} (hears : Hears s p) (ok : bodyOk body = true) :
    exec (.urgentPublish e p body) s = .next ((heardFrom e p s).takePublication p body)
    ∧ exec (.routinePublish e p body) s = .next ((heardFrom e p s).takePublication p body) :=
  ⟨congrArg Host.Outcome.next (arrive_heard (s := s.advance e) hears .urgentPublish Config.everyone body (fun _ => rfl) ok),
    congrArg Host.Outcome.next (arrive_heard (s := s.advance e) hears .routinePublish Config.everyone body (fun _ => rfl) ok)⟩

/-- Settles O33: the length decides whether the body is taken, and the bytes of a record are read field by field. -/
theorem publicationTaken : Obligations.PublicationTaken := by
  refine ⟨⟨rfl, fun b0 b1 b2 b3 rest => by rw [recordsOf, parseRecord_eq]⟩, fun e s p body hears fits => ⟨fun whole => ?_, fun other => ?_⟩⟩
  · have ok := (publicationOk_iff body).mpr whole
    obtain ⟨urgent, routine⟩ := execPublish_heard (e := e) hears fits
    rw [takePublication_whole ok] at urgent routine
    refine ⟨urgent, routine, ?_⟩
    simp only [publicationOk, Bool.and_eq_true, beq_iff_eq] at ok
    rw [recordsOf_length]
    omega
  · have refused := execPublish_heard (e := e) hears fits
    rw [takePublication_invalid (mt (publicationOk_iff body).mp other)] at refused
    exact refused

/-! ## Records that are passed over (R91, R95, R96) -/

theorem takeRecord_absent {s : State} {r : Record} (absent : findPoint r.point.toNat s.points = none) (p : Station) :
    s.takeRecord p r = s := by
  simp [State.takeRecord, absent]

theorem takeRecord_yielded {s : State} {r : Record} {o : Owned} (entry : s.ownedAt r.point.toNat = some o) (yielded : o.sched = .yielded)
    (p : Station) : s.takeRecord p r = s := by
  obtain ⟨q, found, -, -, owned⟩ := ownedAt_entry entry
  simp [State.takeRecord, found, owned?_eq_some.mp owned, yielded]

theorem takeRecord_otherKind {s : State} {r : Record} {q : Point} {m : Mirrored} (found : findPoint r.point.toNat s.points = some q)
    (role : q.role = .mirrored m) (kind : r.kind ≠ q.kind) (p : Station) : s.takeRecord p r = s.bump .conflicts := by
  simp [State.takeRecord, found, role, kind]

/-- Settles O34: the entry of the point, its scheduler state and its kind decide, whoever sends the record. -/
theorem recordPassedOver : Obligations.RecordPassedOver := fun _ p _ =>
  ⟨fun absent => takeRecord_absent absent p, fun _ entry yielded => takeRecord_yielded entry yielded p,
    fun _ _ found role kind => takeRecord_otherKind found role kind p⟩

end Sys2Proof.Machine
end

