-- ==== Sys2Proof/Proofs/Unanswered.lean ====
section
/-!
THEOREM. The expiries of a solicit deadline and of a backoff mark, and the filling of the solicit list (O54).
-/

namespace Sys2Proof.Machine

/-! ## Who may have an entry, and where it is put (R109, R110) -/

theorem addSolicit_added {l : List Solicit} {p : Point} (asks : p.solicitable = true) (new : ∀ y ∈ l, y.point ≠ p.number)
    (room : l.length < 16) : addSolicit l p = l ++ [newSolicit p.number] := by
  rcases addSolicit_cases l p with ⟨-, kept⟩ | ⟨added, -⟩
  · rcases kept asks with listed | full
    · obtain ⟨y, hy, same⟩ := List.mem_map.mp listed
      exact absurd same (new y hy)
    · exact absurd room (Nat.not_lt.mpr full)
  · exact added

theorem addSolicit_kept {l : List Solicit} {p : Point}
    (refused : p.solicitable = false ∨ (∃ y ∈ l, y.point = p.number) ∨ 16 ≤ l.length) : addSolicit l p = l := by
  rcases addSolicit_cases l p with ⟨kept, -⟩ | ⟨-, asks, new, room⟩
  · exact kept
  · rcases refused with settled | ⟨y, hy, same⟩ | full
    · cases asks.symm.trans settled
    · exact absurd (List.mem_map.mpr ⟨y, hy, same⟩) new
    · exact absurd room (Nat.not_lt.mpr full)

theorem fillSolicits_running {s : State} (running : s.station = .running) :
    s.fillSolicits = { s with solicits := s.points.foldl addSolicit s.solicits } := if_pos running

/-! ## The deadline of an entry (R107, R113) -/

theorem Solicit.deadline_eq_some {x : Solicit} {due : Time} : x.deadline = some due ↔ x.state = .sent due ∨ x.state = .covered due := by
  unfold Solicit.deadline
  cases x.state <;> simp

theorem solicitExpired_again {x : Solicit} (more : x.attempts < 3) (s : State) :
    s.solicitExpired x = { s with solicits := s.solicits.map fun y =>
      if y.point = x.point then { y with attempts := x.attempts + 1, state := .waiting false } else y } :=
  if_pos (Nat.succ_lt_succ more)

/-- After the fourth wait without an answer the entry is gone before the list is filled, so its point makes room for another. -/
theorem solicitExpired_last {x : Solicit} {s : State} (last : 3 ≤ x.attempts) (running : s.station = .running) :
    let points := s.points.map fun p =>
      if p.number = x.point then p.mapMirrored (fun m => { m with backoff := some (s.clock + 5000000) }) else p
    s.solicitExpired x = { s with
      counters := { s.counters with solicitsUnanswered := saturatingStep s.counters.solicitsUnanswered }
      points := points
      solicits := points.foldl addSolicit (s.solicits.filter fun y => decide (y.point ≠ x.point)) } := by
  have others : s.solicits.filter (fun y => y.point != x.point) = s.solicits.filter fun y => decide (y.point ≠ x.point) :=
    List.filter_congr fun y _ => by by_cases same : y.point = x.point <;> simp [same]
  have fourth : ¬ x.attempts + 1 < Config.maxAttempts := Nat.not_lt.mpr (Nat.succ_le_succ last)
  rw [State.solicitExpired, if_neg fourth, fillSolicits_running (by exact running), ← others]
  rfl

/-- In RUNNING the deadline that an entry holds ends the wait, at that time. -/
theorem exec_solicitDeadlineExpiry {s : State} {n : Nat} {x : Solicit} {due : Time} (running : s.station = .running)
    (entry : s.solicits.find? (fun y => y.point == n) = some x) (timer : x.deadline = some due) :
    exec (.solicitDeadlineExpiry n) s = .next ((s.advanceTo due).solicitExpired x) := by
  change execSolicitDeadlineExpiry n s = _
  simp [execSolicitDeadlineExpiry, running, entry, timer]

/-! ## The backoff mark (R114) -/

/-- In RUNNING the backoff mark that a point carries is cleared at its time. -/
theorem exec_backoffMarkExpiry {s : State} {n : Nat} {m : Mirrored} {due : Time} (running : s.station = .running)
    (entry : s.mirroredAt n = some m) (mark : m.backoff = some due) : exec (.backoffMarkExpiry n) s =
      .next ((s.advanceTo due).updateMirrored n fun m => { m with backoff := none }).fillSolicits := by
  change execBackoffMarkExpiry n s = _
  simp [execBackoffMarkExpiry, running, entry, mark]

/-- Settles O54: the attempts decide what the end of a wait comes to; the list is filled in RUNNING, where both timers run. -/
theorem solicitAndBackoff : Obligations.SolicitAndBackoff := by
  refine ⟨fun s n x due running entry waits => ?_, fun s n m due running entry mark => ?_, fun l p => ⟨?_, ?_, addSolicit_kept⟩⟩
  · obtain rfl : x.point = n := by simpa using List.find?_some entry
    rw [exec_solicitDeadlineExpiry running entry (Solicit.deadline_eq_some.mpr waits)]
    exact ⟨fun more => congrArg _ (solicitExpired_again more _), fun last => congrArg _ (solicitExpired_last last running)⟩
  · rw [exec_backoffMarkExpiry running entry mark, fillSolicits_running (by exact running)]
    rfl
  · rw [solicitable_iff]
    exact exists_congr fun m => and_congr_left' mirrored?_eq_some
  · exact addSolicit_added

end Sys2Proof.Machine
end

