-- ==== Sys2Proof/Proofs/SameOrigins.lean ====
section
/-!
SUPPORT. What leaves alone all that the marks of the roster and the origins of the overrides rest on: the relation `SameOrigins`, and that
the work on values, points, pins and solicitations, and on frames of this station, stands in it.
-/

namespace Sys2Proof.Machine

open Sys2Proof.Safety

/-! ## The relation -/

/-- The station of a roster entry with its two marks (R135, R136). -/
def Peer.marks (x : Peer) : Station × Bool × Bool := (x.station, x.sourcesPoints, x.holdsOverrides)

/-- The number of an entry with its learned source, if it is a mirrored one that has one. -/
def Point.learned (q : Point) : Nat × Option Station := (q.number, q.mirrored?.bind Mirrored.source)

/-- From `s` to `t` the retained record, the own number, the marks of the roster, the learned sources and the override lists stay. -/
structure SameOrigins (s t : State) : Prop where
  retained : t.retained = s.retained
  number : t.number = s.number
  marks : t.roster.map Peer.marks = s.roster.map Peer.marks
  learned : t.points.map Point.learned = s.points.map Point.learned
  lists : outputLists t = outputLists s

theorem SameOrigins.refl (s : State) : SameOrigins s s := ⟨rfl, rfl, rfl, rfl, rfl⟩

theorem SameOrigins.trans {s t u : State} (h : SameOrigins s t) (k : SameOrigins t u) : SameOrigins s u :=
  ⟨k.retained.trans h.retained, k.number.trans h.number, k.marks.trans h.marks, k.learned.trans h.learned, k.lists.trans h.lists⟩

theorem SameOrigins.fold {α : Type} (f : State → α → State) (turn : ∀ s a, SameOrigins s (f s a)) (l : List α) (s : State) :
    SameOrigins s (l.foldl f s) := foldl_rel SameOrigins .refl .trans f turn l s

theorem learned_of_half {l k : List Point} (half : mirroredHalf k = mirroredHalf l) : k.map Point.learned = l.map Point.learned := by
  have read : ∀ l : List Point, l.map Point.learned = (mirroredHalf l).map fun x => (x.1, x.2.2.bind Mirrored.source) := fun l => by
    simp [mirroredHalf, Point.learned, Function.comp_def]
  rw [read, read, half]

/-- Numbers and learned sources decide which stations source points (R135). -/
theorem namesSource_of_learned {l k : List Point} (same : k.map Point.learned = l.map Point.learned) (p : Station) :
    namesSource p k = namesSource p l := by
  have read : ∀ l : List Point, namesSource p l = (l.map Point.learned).any fun x => x.2 == some p := fun l => by
    rw [namesSource, List.any_map]
    congr 1
    funext q
    cases entry : q.mirrored? <;> simp [Point.learned, entry]
  rw [read, read, same]

theorem numbers_of_learned {l k : List Point} (same : k.map Point.learned = l.map Point.learned) :
    k.map Point.number = l.map Point.number := by
  simpa [Point.learned, Function.comp_def] using congrArg (List.map Prod.fst) same

theorem OwnStep.retained {s t : State} (h : OwnStep s t) : t.retained = s.retained := by
  cases h with
  | other only | books only | outputs only | pins only | touched _ only => rw [only]
  | released | mode | joinUrgent | joinRoutine | promote | setDirty | yielded => rfl

theorem OwnSteps.retained {s t : State} (h : OwnSteps s t) : t.retained = s.retained :=
  chain_keeps (P := fun u => u.retained = s.retained) (fun step kept => step.retained.trans kept) h rfl

theorem SameOrigins.of_own {s t : State} (own : OwnSteps s t) (lists : outputLists t = outputLists s) : SameOrigins s t where
  retained := OwnSteps.retained own
  number := (OwnSteps.sameMirror own).number
  marks := by rw [(OwnSteps.sameMirror own).roster]
  learned := learned_of_half (OwnSteps.sameMirror own).half
  lists := lists

theorem SameOrigins.of_queue {s t : State} (only : OnlyQueue s t) (owned : OnlyOwned s t) : SameOrigins s t where
  retained := by rw [only]
  number := by rw [only]
  marks := by rw [only]
  learned := learned_of_half owned.half
  lists := by rw [only]; rfl

/-! ## Clock, counters, summary, outputs -/

theorem advance_sameOrigins (e : Time) (s : State) : SameOrigins s (s.advance e) := ⟨rfl, rfl, rfl, rfl, rfl⟩
theorem advanceTo_sameOrigins (due : Time) (s : State) : SameOrigins s (s.advanceTo due) := ⟨rfl, rfl, rfl, rfl, rfl⟩
theorem bump_sameOrigins (k : CounterId) (s : State) : SameOrigins s (s.bump k) := ⟨rfl, rfl, rfl, rfl, rfl⟩
theorem endAssembly_sameOrigins (s : State) : SameOrigins s s.endAssembly := ⟨rfl, rfl, rfl, rfl, rfl⟩
theorem discardFrame_sameOrigins (s : State) : SameOrigins s s.discardFrame := ⟨rfl, rfl, rfl, rfl, rfl⟩
theorem queueReply_sameOrigins (r : Reply) (s : State) : SameOrigins s (s.queueReply r) := ⟨rfl, rfl, rfl, rfl, rfl⟩
theorem updatePin_sameOrigins (i : Fin 16) (f : Pin → Pin) (s : State) : SameOrigins s (s.updatePin i f) := ⟨rfl, rfl, rfl, rfl, rfl⟩

theorem report_sameOrigins (c : Condition) (b : Bool) (s : State) : SameOrigins s (s.report c b) :=
  .of_own (report_own c b s) (outputLists_report c b s)
theorem judgeSource_sameOrigins (s : State) : SameOrigins s s.judgeSource := report_sameOrigins _ _ s
theorem judgePeerLost_sameOrigins (s : State) : SameOrigins s s.judgePeerLost := report_sameOrigins _ _ s

theorem evaluateWhere_sameOrigins (pick : Output → Bool) (s : State) : SameOrigins s (s.evaluateWhere pick) :=
  .of_own (evaluateWhere_own pick s) (outputLists_evaluateWhere pick s)
theorem evaluateSource_sameOrigins (n : Nat) (s : State) : SameOrigins s (s.evaluateSource n) := evaluateWhere_sameOrigins _ s
theorem evaluatePin_sameOrigins (i : Fin 16) (s : State) : SameOrigins s (s.evaluatePin i) := evaluateWhere_sameOrigins _ s

theorem changeEvent_sameOrigins (n : Nat) {s : State} (running : s.station = .running) : SameOrigins s (s.changeEvent n) :=
  .of_own (changeEvent_own n running) (by rw [changeEvent_queue]; rfl)

theorem claim_sameOrigins (n : Nat) {s : State} (running : s.station = .running) : SameOrigins s (s.claim n) :=
  .of_own (claim_own n running) (by rw [claim_queue]; rfl)

theorem updateOwned_sameOrigins (n : Nat) (f : Owned → Owned) (s : State) : SameOrigins s (s.updateOwned n f) :=
  ⟨rfl, rfl, rfl, learned_of_half (by rw [updateOwned_points, mirroredHalf_mapOwnedBy]), rfl⟩

/-! ## Pins -/

theorem valueWritten_sameOrigins (n : Nat) (event : Bool) (s : State) : SameOrigins s (s.valueWritten n event) := by
  refine (evaluateSource_sameOrigins n s).trans ?_
  unfold State.valueWritten
  dsimp only
  split
  · next raised => exact changeEvent_sameOrigins n (beq_iff_eq.mp (Bool.and_eq_true_iff.mp raised).2)
  · exact .refl _

theorem binaryTransition_sameOrigins (level : Bool) (s : State) (n : Nat) : SameOrigins s (s.binaryTransition n level) :=
  (updateOwned_sameOrigins n _ s).trans (valueWritten_sameOrigins n true _)

theorem pointReading_sameOrigins (reading : Byte) (s : State) (n : Nat) : SameOrigins s (s.pointReading reading n) := by
  unfold State.pointReading
  split
  · exact .refl s
  · split
    · exact .refl s
    · exact (updateOwned_sameOrigins n _ s).trans (valueWritten_sameOrigins n _ _)
    · split
      · exact .refl s
      · dsimp only
        split
        · exact .refl s
        · exact binaryTransition_sameOrigins _ s n

theorem pinReading_sameOrigins (i : Fin 16) (reading : Byte) (s : State) : SameOrigins s (s.pinReading i reading) := by
  unfold State.pinReading
  split
  · exact (updatePin_sameOrigins i _ s).trans (.fold _ (pointReading_sameOrigins reading) _ _)
  · exact .refl s

/-! ## Mirrored entries and the solicit list -/

/-- A change of a mirrored entry that keeps its learned source. -/
theorem updateMirrored_sameOrigins (n : Nat) (f : Mirrored → Mirrored) (source : ∀ m, (f m).source = m.source) (s : State) :
    SameOrigins s (s.updateMirrored n f) := by
  refine ⟨rfl, rfl, rfl, ?_, rfl⟩
  rw [State.updateMirrored_points, List.map_map]
  refine List.map_congr_left fun q _ => ?_
  by_cases e : q.number = n
  · cases entry : q.mirrored? <;> simp [Point.learned, e, entry, source]
  · simp [e]

theorem fillSolicits_sameOrigins (s : State) : SameOrigins s s.fillSolicits := by
  unfold State.fillSolicits
  split
  · exact ⟨rfl, rfl, rfl, rfl, rfl⟩
  · exact .refl s

theorem solicitPoint_sameOrigins (n : Nat) (s : State) : SameOrigins s (s.solicitPoint n) := by
  rw [solicitPoint_eq]
  exact ⟨rfl, rfl, rfl, rfl, rfl⟩

theorem satisfy_sameOrigins (n : Nat) (s : State) : SameOrigins s (s.satisfy n) := by
  rw [satisfy_only]
  exact ⟨rfl, rfl, rfl, rfl, rfl⟩

theorem countMissed_sameOrigins (stored : Option Count) (carried : Count) (s : State) : SameOrigins s (s.countMissed stored carried) := by
  rw [countMissed_eq]
  exact ⟨rfl, rfl, rfl, rfl, rfl⟩

theorem acceptRecord_sameOrigins (n : Nat) (k : Kind) (m : Mirrored) (r : Record) (s : State) :
    SameOrigins s (s.acceptRecord n k m r) :=
  ((((countMissed_sameOrigins m.count r.count s).trans (updateMirrored_sameOrigins n (Mirrored.accept k s.clock r) (fun _ => rfl) _)).trans
    (judgeSource_sameOrigins _)).trans (satisfy_sameOrigins n _)).trans (evaluateSource_sameOrigins n _)

theorem ownershipConflict_sameOrigins (p : Station) (n : Nat) (s : State) : SameOrigins s (s.ownershipConflict p n) := by
  have reported : SameOrigins s ((s.bump .conflicts).report .conflict true) :=
    (bump_sameOrigins _ s).trans (report_sameOrigins _ _ _)
  refine reported.trans ?_
  unfold State.ownershipConflict
  dsimp only
  split
  · exact .refl _
  · split
    · exact .of_own (OwnStep.yielded n).one rfl
    · split
      · next running => exact claim_sameOrigins n running
      · exact .refl _

theorem takeSolicited_sameOrigins (s : State) (n : Nat) : SameOrigins s (s.takeSolicited n) := by
  unfold State.takeSolicited
  split
  · next running =>
    split
    · exact .refl s
    · split
      · exact claim_sameOrigins n running
      · exact ⟨rfl, rfl, rfl, rfl, rfl⟩
  · exact .refl s

theorem takeSolicit_sameOrigins (body : List Byte) (s : State) : SameOrigins s (s.takeSolicit body) := by
  unfold State.takeSolicit
  split
  · exact .fold _ takeSolicited_sameOrigins _ s
  · exact bump_sameOrigins _ s

theorem solicitExpired_sameOrigins (x : Solicit) (s : State) : SameOrigins s (s.solicitExpired x) := by
  unfold State.solicitExpired
  split
  · exact ⟨rfl, rfl, rfl, rfl, rfl⟩
  · have removed : SameOrigins s ((s.removeSolicit x.point).bump .solicitsUnanswered) := ⟨rfl, rfl, rfl, rfl, rfl⟩
    exact (removed.trans (updateMirrored_sameOrigins x.point
      (fun m => { m with backoff := some (s.clock + Config.backoff) }) (fun _ => rfl) _)).trans (fillSolicits_sameOrigins _)

/-! ## Roster entries, and the points of a source -/

/-- A change of a roster entry that keeps both marks. -/
theorem updatePeer_sameOrigins (p : Station) (f : Peer → Peer) (marks : ∀ x, (f x).marks = x.marks) (s : State) :
    SameOrigins s (s.updatePeer p f) := by
  refine ⟨rfl, rfl, ?_, rfl, rfl⟩
  rw [State.updatePeer_roster, List.map_map]
  refine List.map_congr_left fun x _ => ?_
  by_cases e : x.station = p <;> simp [e, marks]

theorem sourceLost_sameOrigins (s : State) (n : Nat) : SameOrigins s (s.sourceLost n) := by
  unfold State.sourceLost
  split
  · exact .refl s
  · split
    · exact ((updateMirrored_sameOrigins n Mirrored.goStale (fun _ => rfl) s).trans (judgeSource_sameOrigins _)).trans
        (evaluateSource_sameOrigins n _)
    · exact .refl s
    · exact .refl s

theorem sourceRestarted_sameOrigins (s : State) (n : Nat) : SameOrigins s (s.sourceRestarted n) := by
  cases entry : s.mirroredAt n with
  | none => simp only [State.sourceRestarted, entry]; exact .refl s
  | some m =>
    rcases sourceRestarted_cases entry with ⟨-, e⟩ | ⟨-, u, hu, e⟩ <;> rw [e]
    · exact updateMirrored_sameOrigins n Mirrored.goUnknown (fun _ => rfl) s
    · rw [hu]
      refine (((updateMirrored_sameOrigins n _ (fun m => ?_) s).trans (judgeSource_sameOrigins _)).trans
        (evaluateSource_sameOrigins n _)).trans (solicitPoint_sameOrigins n _)
      rw [Mirrored.goUnknown_startOverdue]
      rfl

/-! ## Frames of this station, and the station states -/

theorem enterSilenced_sameOrigins (length : Nat) (s : State) : SameOrigins s (s.enterSilenced length) :=
  SameOrigins.trans (t := { s with
    mode := .silenced, failures := 0, quarantineLength := length, quarantineTimer := some (s.clock + length * Config.second) })
    ⟨rfl, rfl, rfl, rfl, rfl⟩ (report_sameOrigins _ _ _)

theorem enterActive_sameOrigins (s : State) : SameOrigins s s.enterActive :=
  SameOrigins.trans (t := { s with mode := .active, failures := 0, quarantineLength := Config.firstQuarantine })
    ⟨rfl, rfl, rfl, rfl, rfl⟩ (report_sameOrigins _ _ _)

theorem account_sameOrigins (out : TxOutcome) (s : State) : SameOrigins s (s.account out) := by
  unfold State.account
  split
  · split
    · exact ⟨rfl, rfl, rfl, rfl, rfl⟩
    · exact .refl s
    · split
      · exact ⟨rfl, rfl, rfl, rfl, rfl⟩
      · exact enterSilenced_sameOrigins _ s
    · exact enterActive_sameOrigins s
    · exact ⟨rfl, rfl, rfl, rfl, rfl⟩
    · exact enterSilenced_sameOrigins _ s
    · exact .refl s
  · exact .refl s

theorem stuckLine_sameOrigins (s : State) : SameOrigins s s.stuckLine := by
  refine .of_own (stuckLine_own s) ?_
  unfold State.stuckLine
  dsimp only
  split
  · exact outputLists_report _ _ _
  · split <;> exact outputLists_report _ _ _

theorem publicationOutcome_sameOrigins (records : List Record) (complete : Bool) (s : State) :
    SameOrigins s (s.publicationOutcome records complete) :=
  .of_queue (publicationOutcome_queue records complete s) (publicationOutcome_onlyOwned records complete s)

theorem presenceOutcome_sameOrigins (out : TxOutcome) (s : State) : SameOrigins s (s.presenceOutcome out) := by
  cases out <;> exact ⟨rfl, rfl, rfl, rfl, rfl⟩

theorem startFrame_sameOrigins (content : TxContent) (s : State) : SameOrigins s (s.startFrame content) := ⟨rfl, rfl, rfl, rfl, rfl⟩

theorem transmit_sameOrigins (s : State) : SameOrigins s s.transmit := by
  have marked : SameOrigins s s.markTaken := .of_queue rfl (markTaken_onlyOwned s)
  unfold State.transmit
  split
  · exact marked.trans (startFrame_sameOrigins _ _)
  · exact marked.trans (startFrame_sameOrigins _ _)
  · split
    · exact startFrame_sameOrigins _ s
    · exact .refl s
  · exact SameOrigins.trans (t := s.markSolicited) ⟨rfl, rfl, rfl, rfl, rfl⟩ (startFrame_sameOrigins _ _)
  · exact startFrame_sameOrigins _ s
  · exact .refl s
  · exact .refl s
  · exact .refl s

theorem lineIdle_sameOrigins (s : State) : SameOrigins s s.lineIdle :=
  (SameOrigins.trans (s := s) (t := { s with line := .idle, assembly := .empty }) ⟨rfl, rfl, rfl, rfl, rfl⟩
    (report_sameOrigins .line false _)).trans (transmit_sameOrigins _)

theorem enterHalted_sameOrigins (s : State) : SameOrigins s s.enterHalted :=
  ⟨rfl, rfl, rfl, learned_of_half (enterHalted_onlyOwned s).half, rfl⟩

theorem startOverdueTimers_sameOrigins (s : State) : SameOrigins s s.startOverdueTimers := by
  refine ⟨rfl, rfl, rfl, ?_, rfl⟩
  rw [State.startOverdueTimers_points, List.map_map]
  refine List.map_congr_left fun q _ => ?_
  cases entry : q.mirrored? with
  | none => simp [Point.learned, entry]
  | some m => by_cases unknown : m.state = .unknown <;> simp [Point.learned, entry, unknown]

theorem enterRunning_sameOrigins (s : State) : SameOrigins s s.enterRunning := by
  have running : SameOrigins s s.atRunning := ⟨rfl, rfl, rfl, rfl, rfl⟩
  have burst : SameOrigins s.atRunning s.atRunning.startBurst := .of_queue (startBurst_queue _) (startBurst_onlyOwned _)
  have presence : ∀ u : State, SameOrigins u u.beginPresence := fun u => ⟨rfl, rfl, rfl, rfl, rfl⟩
  rw [enterRunning_eq]
  exact ((((running.trans burst).trans (startOverdueTimers_sameOrigins _)).trans (fillSolicits_sameOrigins _)).trans
    (presence _)).trans (evaluateWhere_sameOrigins _ _)

end Sys2Proof.Machine
end

