-- ==== Sys2Proof/Proofs/Origins.lean ====
section
/-!
SUPPORT. The laws of marks and origins while an operation is under way, and what keeps them: trackings, learned sources, override lists.
-/

namespace Sys2Proof.Machine

open Sys2Proof.Safety

/-! ## The laws, with the stations excepted whose marks are to be kept -/

/-- The laws of the roster, its marks and the origins of the overrides. The "sources points" mark of a station of `sourcing`, and the
"holds overrides" mark of one of `holding`, may be wrong until the operation under way has kept it (R135, R152). -/
structure Origins (sourcing holding : Station → Prop) (s : State) : Prop where
  numbers : (s.points.map Point.number).Nodup
  roster : RosterLawful s
  sources : ∀ x ∈ s.roster, ¬ sourcing x.station → x.sourcesPoints = namesSource x.station s.points
  holds : ∀ x ∈ s.roster, ¬ holding x.station → x.holdsOverrides = holdsOverride x.station s.outputs
  outputs : OutputsLawful s

theorem origins_of_lawful {s : State} (h : OriginsLawful s) : Origins noStation noStation s where
  numbers := h.numbers
  roster := h.roster
  sources x hx _ := (h.marks x hx).1
  holds x hx _ := (h.marks x hx).2
  outputs := h.outputs

theorem Origins.lawful {s : State} (h : Origins noStation noStation s) (station : StationLawful s) (transmit : TransmitLawful s) :
    OriginsLawful s where
  station := station
  transmit := transmit
  numbers := h.numbers
  roster := h.roster
  marks x hx := ⟨h.sources x hx id, h.holds x hx id⟩
  outputs := h.outputs

/-- More stations may be excepted. -/
theorem Origins.mono {a a' b b' : Station → Prop} {s : State} (h : Origins a b s) (wider : ∀ q, a q → a' q)
    (wider' : ∀ q, b q → b' q) : Origins a' b' s :=
  { h with
    sources := fun x hx kept => h.sources x hx fun excepted => kept (wider _ excepted)
    holds := fun x hx kept => h.holds x hx fun excepted => kept (wider' _ excepted) }

theorem Origins.holding {a b : Station → Prop} {s : State} (h : Origins a noStation s) : Origins a b s :=
  h.mono (fun _ => id) fun _ => False.elim

/-- A station with an override has a roster entry, or is the hand switch (R145, R152). -/
theorem tracked_of_holdsOverride {s : State} (lawful : OutputsLawful s) {p : Station} (holds : holdsOverride p s.outputs = true)
    (remote : p ≠ 0) : ∃ q ∈ s.roster, q.station = p := by
  obtain ⟨o, ho, held⟩ := List.any_eq_true.mp holds
  obtain ⟨e, he, rfl⟩ := hasOrigin_iff.mp held
  exact (lawful.2 o ho).2 e he remote

/-- Lists and stations decide the law of the outputs. -/
theorem outputsLawful_congr {s t : State} (lists : outputLists t = outputLists s)
    (stations : ∀ q ∈ s.roster, holdsOverride q.station s.outputs = true → ∃ r ∈ t.roster, r.station = q.station)
    (lawful : OutputsLawful s) : OutputsLawful t := by
  obtain ⟨distinct, entries⟩ := lawful
  refine ⟨(pins_of_outputLists lists).symm ▸ distinct, fun o ho => ?_⟩
  have listed : (o.pin, o.binding, o.overrides) ∈ outputLists s := lists ▸ List.mem_map_of_mem ho
  obtain ⟨o', ho', same⟩ := List.mem_map.mp listed
  obtain ⟨-, -, overrides⟩ : o'.pin = o.pin ∧ o'.binding = o.binding ∧ o'.overrides = o.overrides := by simpa using same
  obtain ⟨list, origins⟩ := entries o' ho'
  rw [← overrides]
  refine ⟨list, fun e he remote => ?_⟩
  obtain ⟨q, hq, origin⟩ := origins e he remote
  rw [← origin]
  exact stations q hq (List.any_eq_true.mpr ⟨o', ho', hasOrigin_iff.mpr ⟨e, he, origin.symm⟩⟩)

/-- An entry of a roster with the same marks. -/
theorem peer_of_marks {s t : State} (marks : t.roster.map Peer.marks = s.roster.map Peer.marks) {x : Peer} (hx : x ∈ t.roster) :
    ∃ y ∈ s.roster, y.station = x.station ∧ y.sourcesPoints = x.sourcesPoints ∧ y.holdsOverrides = x.holdsOverrides := by
  have listed : x.marks ∈ s.roster.map Peer.marks := marks ▸ List.mem_map_of_mem hx
  obtain ⟨y, hy, same⟩ := List.mem_map.mp listed
  exact ⟨y, hy, by simpa [Peer.marks] using same⟩

theorem SameOrigins.origins {a b : Station → Prop} {s t : State} (same : SameOrigins s t) (h : Origins a b s) : Origins a b t where
  numbers := numbers_of_learned same.learned ▸ h.numbers
  roster := by
    have stations := congrArg (List.map Prod.fst) same.marks
    rw [List.map_map, List.map_map] at stations
    exact rosterLawful_of_stations h.roster stations same.number
  sources x hx kept := by
    obtain ⟨y, hy, station, sources, -⟩ := peer_of_marks same.marks hx
    rw [← sources, ← station, namesSource_of_learned same.learned]
    exact h.sources y hy (station ▸ kept)
  holds x hx kept := by
    obtain ⟨y, hy, station, -, holds⟩ := peer_of_marks same.marks hx
    rw [← holds, ← station, holdsOverride_congr same.lists]
    exact h.holds y hy (station ▸ kept)
  outputs := outputsLawful_congr same.lists (fun _ hq _ => by
    obtain ⟨y, hy, station, -⟩ := peer_of_marks same.marks.symm hq
    exact ⟨y, hy, station⟩) h.outputs

/-! ## Both marks kept (R99, R136) -/

theorem keepSourcesMark_origins {a b : Station → Prop} {s : State} (p : Station)
    (h : Origins (fun q => q = p ∨ a q) b s) : Origins a b (s.keepSourcesMark p) := by
  refine (judgePeerLost_sameOrigins _).origins
    { numbers := h.numbers
      roster := rosterLawful_updatePeer h.roster p (fun x => { x with sourcesPoints := namesSource p s.points }) fun _ => rfl
      sources := fun x hx kept => ?_
      holds := fun x hx kept => ?_
      outputs := outputsLawful_congr (s := s) rfl (fun q hq _ => ?_) h.outputs }
  · obtain ⟨y, hy, rfl⟩ := List.mem_map.mp hx
    by_cases e : y.station = p
    · simp only [e, if_true]; rfl
    · rw [if_neg e] at kept ⊢
      exact h.sources y hy fun excepted => excepted.elim e kept
  · obtain ⟨y, hy, rfl⟩ := List.mem_map.mp hx
    by_cases e : y.station = p
    · simp only [e, if_true] at kept ⊢
      exact (h.holds y hy (e ▸ kept)).trans (by rw [e]; rfl)
    · rw [if_neg e] at kept ⊢
      exact h.holds y hy kept
  · refine ⟨_, List.mem_map_of_mem hq, ?_⟩
    split <;> rfl

theorem keepHoldsMark_origins {a b : Station → Prop} {s : State} (p : Station)
    (h : Origins a (fun q => q = p ∨ b q) s) : Origins a b (s.keepHoldsMark p) where
  numbers := h.numbers
  roster := rosterLawful_updatePeer h.roster p (fun x => { x with holdsOverrides := holdsOverride p s.outputs }) fun _ => rfl
  sources x hx kept := by
    obtain ⟨y, hy, rfl⟩ := List.mem_map.mp hx
    by_cases e : y.station = p
    · simp only [e, if_true] at kept ⊢
      exact (h.sources y hy (e ▸ kept)).trans (by rw [e]; rfl)
    · rw [if_neg e] at kept ⊢
      exact h.sources y hy kept
  holds x hx kept := by
    obtain ⟨y, hy, rfl⟩ := List.mem_map.mp hx
    by_cases e : y.station = p
    · simp only [e, if_true]; rfl
    · rw [if_neg e] at kept ⊢
      exact h.holds y hy fun excepted => excepted.elim e kept
  outputs := outputsLawful_congr (s := s) rfl (fun q hq _ => by
    refine ⟨_, List.mem_map_of_mem hq, ?_⟩
    split <;> rfl) h.outputs

/-! ## Trackings (R128) -/

theorem ne_zero_of_stationOk {p : Station} (ok : stationOk p = true) : p ≠ 0 := by
  rintro rfl
  cases ok

/-- A station without a roster entry holds no override (R152). -/
theorem holdsOverride_absent {s : State} {p : Station} (lawful : OutputsLawful s) (absent : s.peerAt p = none)
    (ok : stationOk p = true) : holdsOverride p s.outputs = false := by
  rw [Bool.eq_false_iff]
  intro holds
  obtain ⟨q, hq, station⟩ := tracked_of_holdsOverride lawful holds (ne_zero_of_stationOk ok)
  exact peerAt_eq_none.mp absent (station ▸ List.mem_map_of_mem hq)

/-- A roster in which the new entry of a station without one stands beside old entries, each with an override still among them. -/
theorem Origins.joined {a : Station → Prop} {s : State} (h : Origins a noStation s) {p : Station} (absent : s.peerAt p = none)
    (ok : stationOk p = true) {l : List Peer} (roster : RosterLawful { s with roster := l })
    (entries : ∀ x ∈ l, x ∈ s.roster ∨ x = newPeer p s.clock (namesSource p s.points))
    (stations : ∀ q ∈ s.roster, holdsOverride q.station s.outputs = true → ∃ r ∈ l, r.station = q.station) :
    Origins a noStation { s with roster := l } where
  numbers := h.numbers
  roster := roster
  sources x hx kept := by
    rcases entries x hx with old | rfl
    · exact h.sources x old kept
    · rfl
  holds x hx kept := by
    rcases entries x hx with old | rfl
    · exact h.holds x old kept
    · exact (holdsOverride_absent h.outputs absent ok).symm
  outputs := outputsLawful_congr (s := s) rfl stations h.outputs

theorem append_origins {a : Station → Prop} {s : State} (h : Origins a noStation s) {p : Station} (absent : s.peerAt p = none)
    (room : s.roster.length < Config.maxPeers) (ok : stationOk p = true) (other : s.number ≠ some p) :
    Origins a noStation { s with roster := s.roster ++ [newPeer p s.clock (namesSource p s.points)] } :=
  h.joined absent ok (rosterLawful_append h.roster room absent ok other) (fun x hx => by simpa using hx)
    fun q hq _ => ⟨q, List.mem_append_left _ hq, rfl⟩

/-- The entry that gives up its place carries no mark, so its station holds no override. -/
theorem mustTrack_origins {a : Station → Prop} {s : State} (h : Origins a noStation s) {p : Station} (absent : s.peerAt p = none)
    (ok : stationOk p = true) (other : s.number ≠ some p) : Origins a noStation (s.mustTrack p).1 := by
  rcases mustTrack_roster p s with ⟨room, e⟩ | ⟨-, -, e⟩ | ⟨v, -, chosen, e⟩ <;> rw [e]
  · exact append_origins h absent room ok other
  · exact h
  · have evicted := evictionChoice_evicted chosen
    refine (judgePeerLost_sameOrigins _).origins (h.joined absent ok
      (rosterLawful_replace h.roster (x := newPeer p s.clock (namesSource p s.points)) v.station absent ok other) (fun x hx => ?_)
      fun q hq holds => ?_)
    · obtain ⟨y, hy, rfl⟩ := List.mem_map.mp hx
      split
      · exact .inr rfl
      · exact .inl hy
    · have away : q.station ≠ v.station := fun same => by
        rw [same, ← h.holds v evicted.held id] at holds
        exact evicted.unmarked (.inr holds)
      exact ⟨q, List.mem_map.mpr ⟨q, hq, if_neg away⟩, rfl⟩

theorem track_origins {a : Station → Prop} {s : State} (h : Origins a noStation s) {p : Station} (ok : stationOk p = true)
    (other : s.number ≠ some p) : Origins a noStation (s.track p).1 := by
  rcases track_cases p s with ⟨x, -, e⟩ | ⟨absent, -, e⟩ | ⟨-, -, e⟩ <;> rw [e]
  · exact h
  · exact mustTrack_origins h absent ok other
  · exact ((bump_sameOrigins _ s).trans (report_sameOrigins _ _ _)).origins h

/-- After a tracking that succeeded the station has a roster entry. -/
theorem track_tracked {p : Station} {s t : State} (tracked : s.track p = (t, true)) : ∃ q ∈ t.roster, q.station = p := by
  rcases track_cases p s with ⟨x, held, e⟩ | ⟨-, made, e⟩ | ⟨-, -, e⟩ <;> rw [e] at tracked <;> cases tracked
  · exact ⟨x, peerAt_mem held, peerAt_station held⟩
  · rcases mustTrack_roster p s with ⟨-, e⟩ | ⟨-, -, e⟩ | ⟨v, -, chosen, e⟩ <;> rw [e] at made ⊢
    · exact ⟨_, List.mem_append_right _ (List.mem_singleton.mpr rfl), rfl⟩
    · cases made
    · rw [(judgePeerLost_status _).roster]
      exact ⟨_, List.mem_map.mpr ⟨v, (evictionChoice_evicted chosen).held, if_pos rfl⟩, rfl⟩

theorem heard_origins {s : State} (h : Origins noStation noStation s) {p : Station} (ok : stationOk p = true)
    (other : s.number ≠ some p) : Origins noStation noStation (s.heard p) := by
  unfold State.heard
  split
  · split
    · exact ((updatePeer_sameOrigins p (Peer.hear s.clock) (fun _ => rfl) s).trans (judgePeerLost_sameOrigins _)).origins h
    · next absent =>
      split
      · next room => exact append_origins h absent room ok other
      · split
        · exact mustTrack_origins h absent ok other
        · exact h
  · exact h

/-! ## Learned sources (R97 to R99) -/

theorem any_eq_of_mem {α : Type} {l : List α} {f g : α → Bool} (same : ∀ x ∈ l, f x = g x) : l.any f = l.any g := by
  rw [Bool.eq_iff_iff, List.any_eq_true, List.any_eq_true]
  exact exists_congr fun x => and_congr_right fun hx => by rw [same x hx]

/-- A change of one mirrored entry reaches the old and the new learned source only. -/
theorem namesSource_learned {s : State} {n : Nat} {m : Mirrored} (distinct : (s.points.map Point.number).Nodup)
    (entry : s.mirroredAt n = some m) {p q : Station} (new : q ≠ p) (old : m.source ≠ some q) :
    namesSource q (s.updateMirrored n fun m => { m with source := some p }).points = namesSource q s.points := by
  rw [State.updateMirrored_points, namesSource, namesSource, List.any_map]
  refine any_eq_of_mem fun x hx => ?_
  by_cases e : x.number = n
  · have found : x.mirrored? = some m := by rw [← mirroredAt_of_mem distinct hx, e, entry]
    have unlearned : (m.source == some q) = false := beq_eq_false_iff_ne.mpr old
    simp [e, found, unlearned, new.symm]
  · simp [e]

theorem learn_origins {s : State} (h : Origins noStation noStation s) {n : Nat} {m : Mirrored} (entry : s.mirroredAt n = some m)
    {p : Station} (ok : stationOk p = true) (other : s.number ≠ some p) :
    Origins (fun q => m.source = some q) noStation (s.learn n p) := by
  have changed : Origins (fun q => q = p ∨ m.source = some q) noStation (s.updateMirrored n fun m => { m with source := some p }) :=
    { numbers := by rw [updateMirrored_points, numbers_mapMirroredBy]; exact h.numbers
      roster := h.roster
      sources := fun x hx kept => by
        obtain ⟨new, old⟩ := not_or.mp kept
        rw [namesSource_learned h.numbers entry new old]
        exact h.sources x hx id
      holds := h.holds
      outputs := h.outputs }
  exact keepSourcesMark_origins p (track_origins changed ok other)

/-- The mark of the source that a point leaves is kept after the new source is tracked (R99, log 16). -/
theorem switchSource_origins {s : State} (h : Origins noStation noStation s) {n : Nat} {m : Mirrored} (entry : s.mirroredAt n = some m)
    {p old : Station} (source : m.source = some old) (ok : stationOk p = true) (other : s.number ≠ some p) :
    Origins noStation noStation (s.switchSource n p old) :=
  keepSourcesMark_origins old ((learn_origins h entry ok other).mono
    (fun _ excepted => .inl (Option.some.inj (excepted.symm.trans source))) fun _ => id)

/-! ## Override lists (R145 to R152) -/

/-- The list `k` may take the place of `l`: it is lawful, it holds the entries of `l` of every origin but p, and p, if it is new, is the hand
switch or has a roster entry. -/
structure Edits (p : Station) (s : State) (l k : List Override) : Prop where
  lawful : OverridesLawful k
  others : ∀ q, q ≠ p → hasOrigin q k = hasOrigin q l
  origin : hasOrigin p k = true → hasOrigin p l = true ∨ p = 0 ∨ ∃ q ∈ s.roster, q.station = p

/-- The lists of a pin are edited: only the mark of p is to be kept. -/
theorem updateOverrides_origins {a : Station → Prop} {s : State} {i : Fin 16} {f : List Override → List Override} {p : Station}
    (edits : ∀ o ∈ s.outputs, o.pin = i → OverridesLawful o.overrides → Edits p s o.overrides (f o.overrides))
    (h : Origins a (· = p) s) : Origins a (· = p) (s.updateOverrides i f) := by
  obtain ⟨distinct, entries⟩ := h.outputs
  refine { h with holds := fun x hx kept => ?_, outputs := ⟨?_, fun o ho => ?_⟩ }
  · rw [h.holds x hx kept]
    simp only [State.updateOverrides_outputs, holdsOverride, List.any_map]
    refine (any_eq_of_mem fun o ho => ?_).symm
    by_cases at_i : o.pin = i
    · simpa [at_i, hasOrigin] using (edits o ho at_i (entries o ho).1).others x.station kept
    · simp [at_i]
  · rw [State.updateOverrides_outputs, List.map_map]
    refine (congrArg List.Nodup (List.map_congr_left fun o _ => ?_)).mpr distinct
    by_cases at_i : o.pin = i <;> simp [at_i]
  · obtain ⟨q, hq, rfl⟩ := List.mem_map.mp ho
    obtain ⟨lawful, origins⟩ := entries q hq
    by_cases at_i : q.pin = i
    · rw [if_pos at_i]
      have edit := edits q hq at_i lawful
      refine ⟨edit.lawful, fun e he remote => ?_⟩
      have tracked : hasOrigin e.origin q.overrides = true → ∃ r ∈ s.roster, r.station = e.origin := fun held => by
        obtain ⟨e', he', same⟩ := hasOrigin_iff.mp held
        exact same ▸ origins e' he' (same ▸ remote)
      have held : hasOrigin e.origin (f q.overrides) = true := hasOrigin_iff.mpr ⟨e, he, rfl⟩
      by_cases own : e.origin = p
      · rcases edit.origin (own ▸ held) with old | switch | entry
        · exact tracked (own ▸ old)
        · exact absurd (own.trans switch) remote
        · exact own ▸ entry
      · exact tracked ((edit.others e.origin own).symm.trans held)
    · rw [if_neg at_i]
      exact ⟨lawful, origins⟩

/-- An entry leaves a list, the others close up (R145). -/
theorem edits_dropOrigin (p : Station) (s : State) {l : List Override} (lawful : OverridesLawful l) : Edits p s l (dropOrigin p l) where
  lawful := by
    obtain ⟨short, distinct, leases⟩ := lawful
    exact ⟨(length_dropOrigin p l).trans short, distinct.sublist (List.filter_sublist.map _), fun e he => leases e (mem_dropOrigin.mp he).1⟩
  others q away := by
    rw [Bool.eq_iff_iff, hasOrigin_iff, hasOrigin_iff]
    exact ⟨fun ⟨x, hx, e⟩ => ⟨x, (mem_dropOrigin.mp hx).1, e⟩, fun ⟨x, hx, e⟩ => ⟨x, mem_dropOrigin.mpr ⟨hx, e ▸ away⟩, e⟩⟩
  origin held := by
    obtain ⟨x, hx, e⟩ := hasOrigin_iff.mp held
    exact absurd e (mem_dropOrigin.mp hx).2

/-- A new entry of an origin at the head, in place of the one it has on the list (R146, R149). -/
theorem edits_push {s : State} {l : List Override} {x : Override} (lawful : OverridesLawful l)
    (room : (dropOrigin x.origin l).length < Config.maxOverrides) (lease : x.origin = 0 → x.lease = none)
    (tracked : x.origin = 0 ∨ ∃ q ∈ s.roster, q.station = x.origin) : Edits x.origin s l (x :: dropOrigin x.origin l) where
  lawful := by
    obtain ⟨-, distinct, leases⟩ := (edits_dropOrigin x.origin s lawful).lawful
    refine ⟨room, ?_, fun e he => ?_⟩
    · rw [List.map_cons, List.nodup_cons]
      refine ⟨fun listed => ?_, distinct⟩
      obtain ⟨y, hy, same⟩ := List.mem_map.mp listed
      exact (mem_dropOrigin.mp hy).2 same
    · rcases List.mem_cons.mp he with rfl | he
      · exact lease
      · exact leases e he
  others q away := by
    have unequal : (x.origin == q) = false := beq_eq_false_iff_ne.mpr fun e => away e.symm
    rw [← (edits_dropOrigin x.origin s lawful).others q away]
    simp [hasOrigin, unequal]
  origin _ := .inr tracked

/-- The oldest entry is given up (R150). -/
theorem edits_dropLast (s : State) {l : List Override} {x : Override} (lawful : OverridesLawful l) (last : l.getLast? = some x) :
    Edits x.origin s l l.dropLast := by
  obtain ⟨short, distinct, leases⟩ := lawful
  have whole : l = l.dropLast ++ [x] := by rw [List.dropLast_append_getLast? x last]
  refine ⟨⟨?_, distinct.sublist ((List.dropLast_sublist l).map _), fun e he => leases e (List.mem_of_mem_dropLast he)⟩,
    fun q away => ?_, fun held => ?_⟩
  · rw [List.length_dropLast]; omega
  · have unequal : (x.origin == q) = false := beq_eq_false_iff_ne.mpr fun e => away e.symm
    conv_rhs => rw [whole]
    simp [hasOrigin, unequal]
  · obtain ⟨y, hy, origin⟩ := hasOrigin_iff.mp held
    exact .inl (hasOrigin_iff.mpr ⟨y, List.mem_of_mem_dropLast hy, origin⟩)

/-- The lists of a pin are edited, its output is evaluated and the mark of the origin is kept (R144, R152). -/
theorem evaluateOverrides_origins {s : State} {i : Fin 16} {f : List Override → List Override} {p : Station}
    (edits : ∀ o ∈ s.outputs, o.pin = i → OverridesLawful o.overrides → Edits p s o.overrides (f o.overrides))
    (h : Origins noStation (· = p) s) : Origins noStation (· = p) ((s.updateOverrides i f).evaluatePin i) :=
  (evaluatePin_sameOrigins i _).origins (updateOverrides_origins edits h)

theorem keptMark_origins {s : State} {p : Station} (h : Origins noStation (· = p) s) :
    Origins noStation noStation (s.keepHoldsMark p) :=
  keepHoldsMark_origins p (h.mono (fun _ => id) fun _ => .inl)

theorem removeOverride_origins {s : State} (h : Origins noStation noStation s) (i : Fin 16) (p : Station) :
    Origins noStation noStation (s.removeOverride i p) :=
  keptMark_origins (evaluateOverrides_origins (fun _ _ _ => edits_dropOrigin p s) h.holding)

/-- The lists lose the origin one by one; its mark is kept at the end (R151). -/
theorem purge_origins {s : State} (h : Origins noStation noStation s) (p : Station) : Origins noStation noStation (s.purge p) :=
  keptMark_origins (foldl_keeps (Origins noStation (· = p)) (State.purgeOutput p)
    (fun t _ => evaluateOverrides_origins fun _ _ _ => edits_dropOrigin p t) _ _ h.holding)

theorem applyRelease_origins {s : State} (h : Origins noStation noStation s) (p : Station) (i : Fin 16) :
    Origins noStation noStation (s.applyRelease p i).1 := by
  unfold State.applyRelease
  split
  · exact h
  · split
    · exact removeOverride_origins h i p
    · exact h

theorem outputsFit_of_lawful {s : State} (lawful : OutputsLawful s) : OutputsFit s.outputs :=
  ⟨lawful.1, fun o ho => (lawful.2 o ho).1.1⟩

theorem length_dropOrigin_lt {p : Station} {l : List Override} (held : hasOrigin p l = true) : (dropOrigin p l).length < l.length := by
  obtain ⟨x, hx, origin⟩ := hasOrigin_iff.mp held
  exact List.length_filter_lt_length_iff_exists.mpr ⟨x, hx, by simp [origin]⟩

/-- A FORCE of a station with a roster entry replaces the station's entry, or joins a list with room (R146). -/
theorem applyForce_origins {s : State} (h : Origins noStation noStation s) {p : Station} (remote : p ≠ 0)
    (tracked : ∃ q ∈ s.roster, q.station = p) (i : Fin 16) (v : Bool) (lease : Byte) :
    Origins noStation noStation (s.applyForce p i v lease).1 := by
  unfold State.applyForce
  split
  · exact h
  · next o at_i =>
    have pushed : (dropOrigin p o.overrides).length < Config.maxOverrides → Origins noStation noStation
        (((s.updateOverrides i fun l => { origin := p, value := v, lease := leaseExpiry s.clock lease } :: dropOrigin p l).evaluatePin
          i).keepHoldsMark p) := fun room =>
      keptMark_origins (evaluateOverrides_origins (fun q hq pin lawful => edits_push (x := ⟨p, v, leaseExpiry s.clock lease⟩) lawful
        (by rwa [eq_of_outputAt (outputsFit_of_lawful h.outputs) at_i hq pin]) (absurd · remote) (.inr tracked)) h.holding)
    dsimp only
    split
    · exact h
    · split
      · next held =>
        exact pushed ((length_dropOrigin_lt held).trans_le ((outputsFit_of_lawful h.outputs).2 o (List.mem_of_find?_eq_some at_i)))
      · split
        · exact h
        · next room => exact pushed ((length_dropOrigin p _).trans_lt (Nat.lt_of_not_le room))

theorem discardOldest_origins {s : State} (h : Origins noStation noStation s) (i : Fin 16) :
    Origins noStation noStation (s.discardOldest i) := by
  unfold State.discardOldest
  split
  · exact h
  · next o at_i =>
    split
    · exact h
    · next x last =>
      refine ((bump_sameOrigins _ _).trans (report_sameOrigins _ _ _)).origins (keptMark_origins
        (updateOverrides_origins (fun q hq pin lawful => edits_dropLast s lawful ?_) h.holding))
      rw [eq_of_outputAt (outputsFit_of_lawful h.outputs) at_i hq pin, last]

/-- The hand switch has no roster entry, so it leaves every mark as it is (R149). -/
theorem Origins.switched {s : State} (h : Origins noStation (· = 0) s) : Origins noStation noStation s :=
  { h with holds := fun x hx _ => h.holds x hx (ne_zero_of_stationOk (h.roster.2.2 x hx).1) }

/-- The local entry joins a list with room (R149). -/
theorem pressed_origins {s : State} (h : Origins noStation noStation s) {i : Fin 16} (v : Bool)
    (room : ∀ o ∈ s.outputs, o.pin = i → o.overrides.length < Config.maxOverrides)
    (absent : ∀ o ∈ s.outputs, o.pin = i → hasOrigin 0 o.overrides = false) :
    Origins noStation noStation ((s.updateOverrides i ({ origin := 0, value := v, lease := none } :: ·)).evaluatePin i) := by
  refine (evaluateOverrides_origins (fun o ho pin lawful => ?_) h.holding).switched
  have unlisted : dropOrigin 0 o.overrides = o.overrides :=
    List.filter_eq_self.mpr fun x hx => bne_iff_ne.mpr fun origin =>
      Bool.eq_false_iff.mp (absent o ho pin) (hasOrigin_iff.mpr ⟨x, hx, origin⟩)
  have push := edits_push (s := s) (x := ⟨0, v, none⟩) lawful (by rw [unlisted]; exact room o ho pin) (fun _ => rfl) (.inl rfl)
  rwa [unlisted] at push

/-- A discard leaves each list as it was, or without entries of it (R150). -/
theorem discardOldest_sublist (i : Fin 16) (s : State) {q : Output} (hq : q ∈ (s.discardOldest i).outputs) :
    ∃ o ∈ s.outputs, o.pin = q.pin ∧ q.overrides.Sublist o.overrides := by
  unfold State.discardOldest at hq
  split at hq
  · exact ⟨q, hq, rfl, .refl _⟩
  · split at hq
    · exact ⟨q, hq, rfl, .refl _⟩
    · have listed := List.mem_map_of_mem (f := fun o : Output => (o.pin, o.binding, o.overrides)) hq
      rw [← outputLists, outputLists_report] at listed
      obtain ⟨y, hy, same⟩ := List.mem_map.mp listed
      obtain ⟨pin, -, overrides⟩ : y.pin = q.pin ∧ y.binding = q.binding ∧ y.overrides = q.overrides := by simpa using same
      obtain ⟨o, ho, rfl⟩ := List.mem_map.mp hy
      rw [← pin, ← overrides]
      refine ⟨o, ho, ?_⟩
      by_cases at_i : o.pin = i
      · simp only [at_i, if_true]; exact ⟨trivial, List.dropLast_sublist _⟩
      · simp only [at_i, if_false]; exact ⟨trivial, .refl _⟩

theorem handPress_origins {s : State} (h : Origins noStation noStation s) (i : Fin 16) : Origins noStation noStation (s.handPress i) := by
  unfold State.handPress
  split
  · exact h
  · next o at_i =>
    have fit := outputsFit_of_lawful h.outputs
    split
    · exact (evaluateOverrides_origins (fun _ _ _ => edits_dropOrigin 0 s) h.holding).switched
    · next away =>
      have absent := Bool.eq_false_iff.mpr away
      dsimp only
      split
      · next full =>
        refine pressed_origins (discardOldest_origins h i) _ (discardOldest_room at_i full fit).2 fun q hq pin => ?_
        obtain ⟨z, hz, same, fewer⟩ := discardOldest_sublist i s hq
        rw [← eq_of_outputAt fit at_i hz (same.trans pin), Bool.eq_false_iff, ne_eq, hasOrigin_iff] at absent
        rw [Bool.eq_false_iff, ne_eq, hasOrigin_iff]
        exact fun ⟨x, hx, origin⟩ => absent ⟨x, fewer.subset hx, origin⟩
      · next room =>
        exact pressed_origins h _ (fun q hq pin => by rw [eq_of_outputAt fit at_i hq pin]; exact Nat.lt_of_not_le room)
          fun q hq pin => by rw [eq_of_outputAt fit at_i hq pin]; exact absent

end Sys2Proof.Machine
end

