-- ==== Sys2Proof/Proofs/Courses.lean ====
section
/-!
SUPPORT. What one command does to the retained record and to the laws of marks and origins: the relation `KeepsOrigins`, and that every command
restarts the station or keeps both.
-/

namespace Sys2Proof.Machine

open Sys2Proof.Safety

/-! ## The relation -/

/-- From `s` to `t` the retained record and the own number stay, and the laws of marks and origins are kept. -/
structure KeepsOrigins (s t : State) : Prop where
  retained : t.retained = s.retained
  number : t.number = s.number
  origins : Origins noStation noStation s → Origins noStation noStation t

theorem KeepsOrigins.refl (s : State) : KeepsOrigins s s := ⟨rfl, rfl, id⟩

theorem KeepsOrigins.trans {s t u : State} (h : KeepsOrigins s t) (k : KeepsOrigins t u) : KeepsOrigins s u :=
  ⟨k.retained.trans h.retained, k.number.trans h.number, k.origins ∘ h.origins⟩

theorem SameOrigins.keeps {s t : State} (same : SameOrigins s t) : KeepsOrigins s t :=
  ⟨same.retained, same.number, same.origins⟩

theorem KeepsOrigins.of_tables {s t : State} (only : OnlyTables s t)
    (origins : Origins noStation noStation s → Origins noStation noStation t) : KeepsOrigins s t :=
  ⟨by rw [only], by rw [only], origins⟩

/-! ## Records, presence, solicitations (chapters 5 to 7) -/

theorem purge_keeps (p : Station) (s : State) : KeepsOrigins s (s.purge p) := .of_tables (purge_tables p s) fun h => purge_origins h p

theorem heard_keeps {p : Station} {s : State} (ok : stationOk p = true) (other : s.number ≠ some p) : KeepsOrigins s (s.heard p) :=
  .of_tables (heard_tables p s) fun h => heard_origins h ok other

theorem learnFor_keeps {p : Station} {s : State} (ok : stationOk p = true) (other : s.number ≠ some p) {n : Nat} {m : Mirrored}
    (entry : s.mirroredAt n = some m) : KeepsOrigins s (s.learnFor m.source n p) := by
  cases source : m.source with
  | none =>
    refine .of_tables (learn_tables n p s) fun h => (learn_origins h entry ok other).mono (fun q excepted => ?_) fun _ => id
    rw [source] at excepted; cases excepted
  | some old =>
    exact .of_tables ((learn_tables n p s).trans (keepSourcesMark_tables old _)) fun h => switchSource_origins h entry source ok other

theorem takeRecord_keeps {p : Station} {s : State} (ok : stationOk p = true) (other : s.number ≠ some p) (r : Record) :
    KeepsOrigins s (s.takeRecord p r) := by
  rcases takeRecord_cases p s r with e | ⟨o, -, -, e⟩ | ⟨q, m, found, entry, -, e⟩ | e <;> rw [e]
  · exact .refl s
  · exact (ownershipConflict_sameOrigins p _ s).keeps
  · have at_n : s.mirroredAt r.point.toNat = some m := by simp [State.mirroredAt, found, entry]
    have accepted : ∀ {u : State}, KeepsOrigins s u → KeepsOrigins s (u.acceptRecord r.point.toNat q.kind m r) := fun h =>
      h.trans (acceptRecord_sameOrigins ..).keeps
    have learned := learnFor_keeps ok other at_n
    have counted := (bump_sameOrigins .conflicts s).keeps.trans (learnFor_keeps (s := s.bump .conflicts) ok other at_n)
    rcases mirroredRecord_cases p r.point.toNat q.kind m r s with
      ⟨source, e⟩ | ⟨-, e⟩ | ⟨old, source, -, ⟨-, e⟩ | ⟨-, e⟩ | ⟨-, e⟩⟩ <;> rw [e]
    · rw [source] at learned; exact accepted learned
    · exact accepted (.refl s)
    · rw [source] at counted; exact accepted counted
    · rw [source] at learned; exact accepted learned
    · exact (bump_sameOrigins _ s).keeps
  · exact (bump_sameOrigins _ s).keeps

theorem takePublication_keeps {p : Station} (body : List Byte) {s : State} (ok : stationOk p = true) (other : s.number ≠ some p) :
    KeepsOrigins s (s.takePublication p body) := by
  unfold State.takePublication
  split
  · generalize recordsOf body = records
    induction records generalizing s with
    | nil => exact .refl s
    | cons r records ih =>
      have first := takeRecord_keeps ok other r
      exact first.trans (ih (first.number ▸ other))
  · exact (bump_sameOrigins _ s).keeps

/-- The points of a lost station, one by one, then its overrides (R102, R151). -/
theorem peerLost_keeps (p : Station) (s : State) : KeepsOrigins s (s.peerLost p) :=
  (SameOrigins.fold _ sourceLost_sameOrigins _ s).keeps.trans (purge_keeps p _)

/-- The points of a station that has restarted, one by one, then its overrides (R103, R151). -/
theorem peerRestarted_keeps (p : Station) (s : State) : KeepsOrigins s (s.peerRestarted p) :=
  (SameOrigins.fold _ sourceRestarted_sameOrigins _ s).keeps.trans (purge_keeps p _)

theorem takePresence_keeps (p : Station) (body : List Byte) (s : State) : KeepsOrigins s (s.takePresence p body) := by
  unfold State.takePresence
  split
  · split
    · exact (bump_sameOrigins _ s).keeps
    · next c _ =>
      have taken : ∀ t : State, KeepsOrigins t (t.updatePeer p (Peer.takeContent c)) := fun t =>
        (updatePeer_sameOrigins p (Peer.takeContent c) (fun _ => rfl) t).keeps
      unfold State.applyPresence
      split
      · exact .refl s
      · dsimp only
        split
        · exact (peerRestarted_keeps p s).trans (taken _)
        · exact taken s
  · exact .refl s

/-! ## Requests (chapter 9) -/

theorem answer_sameOrigins (p : Station) (tag : Byte) (k : CommandKind) (code : ReplyCode) (s : State) :
    SameOrigins s (s.answer p tag k code) := ⟨rfl, rfl, rfl, rfl, rfl⟩

theorem performCommand_keeps {p : Station} (tag : Byte) (c : Command) {s : State} (ok : stationOk p = true)
    (other : s.number ≠ some p) : KeepsOrigins s (s.performCommand p tag c) := by
  cases c with
  | force i value lease =>
    show KeepsOrigins s (s.force p tag i value lease)
    have asked : KeepsOrigins s (s.track p).1 := .of_tables (track_tables p s) fun h => track_origins h ok other
    unfold State.force
    split
    · next e => rw [e] at asked; exact asked.trans (answer_sameOrigins ..).keeps
    · next t e =>
      rw [e] at asked
      have forced : KeepsOrigins t (t.applyForce p i value lease).1 := .of_tables (applyForce_tables ..) fun h =>
        applyForce_origins h (ne_zero_of_stationOk ok) (track_tracked e) i value lease
      exact (asked.trans forced).trans (answer_sameOrigins ..).keeps
  | release i =>
    have released : KeepsOrigins s (s.applyRelease p i).1 := .of_tables (applyRelease_tables ..) fun h => applyRelease_origins h p i
    exact released.trans (answer_sameOrigins ..).keeps
  | restart =>
    refine SameOrigins.keeps ?_
    show SameOrigins s (s.requestRestart p tag)
    unfold State.requestRestart
    split <;> exact ⟨rfl, rfl, rfl, rfl, rfl⟩
  | clearCounters => exact SameOrigins.keeps ⟨rfl, rfl, rfl, rfl, rfl⟩

theorem takeRequest_keeps (cls : RequestClass) {p : Station} (body : List Byte) {s : State} (ok : stationOk p = true)
    (other : s.number ≠ some p) : KeepsOrigins s (s.takeRequest cls p body) := by
  have queued : ∀ r, KeepsOrigins s (s.queueReply r) := fun r => (queueReply_sameOrigins r s).keeps
  unfold State.takeRequest
  split
  · cases cls with
    | command =>
      show KeepsOrigins s (s.takeCommand p body)
      unfold State.takeCommand
      split
      · exact queued _
      · split
        · exact queued _
        · exact performCommand_keeps _ _ ok other
    | query =>
      show KeepsOrigins s (s.takeQuery p body)
      unfold State.takeQuery
      split <;> exact queued _
  · exact (bump_sameOrigins _ s).keeps

theorem filterRequest_keeps (cls : RequestClass) {p : Station} (d : Station) (body : List Byte) {s : State} (ok : stationOk p = true)
    (other : s.number ≠ some p) : KeepsOrigins s (s.filterRequest cls p d body) := by
  unfold State.filterRequest
  split
  · exact (bump_sameOrigins _ s).keeps
  · split
    · exact takeRequest_keeps cls body ok other
    · exact .refl s

/-- The block of a frame's class keeps the laws (R78). -/
theorem dispatchFrame_keeps (cls : FrameClass) {p : Station} (d : Station) (body : List Byte) {s : State} (ok : stationOk p = true)
    (other : s.number ≠ some p) : KeepsOrigins s (s.dispatchFrame cls p d body) := by
  cases cls with
  | urgentPublish => exact takePublication_keeps body ok other
  | routinePublish => exact takePublication_keeps body ok other
  | solicit => exact (takeSolicit_sameOrigins body s).keeps
  | presence => exact takePresence_keeps p body s
  | reply => exact .refl s
  | command => exact filterRequest_keeps _ d body ok other
  | query => exact filterRequest_keeps _ d body ok other

/-- The arrival of a frame (R75 to R78). -/
theorem arrive_keeps (cls : FrameClass) (e : Time) (p d : Station) (body : List Byte) (s : State) :
    KeepsOrigins s ((s.advance e).arrive cls p d body) := by
  refine (advance_sameOrigins e s).keeps.trans ?_
  generalize s.advance e = s
  unfold State.arrive
  split
  · split
    · next good =>
      have ok : stationOk p = true := by
        simp only [headerGood, Bool.and_eq_true] at good
        obtain ⟨⟨⟨nonzero, notAll⟩, -⟩, -⟩ := good
        simp only [stationOk, nonzero, notAll, Bool.and_self]
      have counted : KeepsOrigins s (s.endAssembly.bump .framesReceived) :=
        ((endAssembly_sameOrigins s).trans (bump_sameOrigins _ _)).keeps
      refine counted.trans ?_
      unfold State.goodFrame
      dsimp only
      split
      · exact (enterHalted_sameOrigins _).keeps
      · next other =>
        have hears := heard_keeps (s := s.endAssembly.bump .framesReceived) ok other
        exact hears.trans (dispatchFrame_keeps cls d body ok (hears.number ▸ other))
    · exact (discardFrame_sameOrigins s).keeps
  · exact .refl s

/-! ## Pins (chapter 2) -/

theorem handPress_keeps (i : Fin 16) (s : State) : KeepsOrigins s (s.handPress i) :=
  .of_tables (handPress_tables i s) fun h => handPress_origins h i

theorem pinTransition_keeps (i : Fin 16) (level : Bool) (s : State) : KeepsOrigins s (s.pinTransition i level) := by
  unfold State.pinTransition
  refine (updatePin_sameOrigins i (fun p => { p with level := some level, candidate := none }) s).keeps.trans ?_
  dsimp only
  split
  · exact .refl _
  · split
    · exact (SameOrigins.fold _ (binaryTransition_sameOrigins level) _ _).keeps
    · split
      · exact handPress_keeps _ _
      · exact .refl _
    · exact .refl _
    · exact .refl _
    · exact .refl _

theorem samplePin_keeps (levels : BitVec 16) (s : State) (i : Fin 16) : KeepsOrigins s (s.samplePin levels i) := by
  unfold State.samplePin
  dsimp only
  split
  · exact .refl s
  · split
    · exact .refl s
    · split
      · exact (updatePin_sameOrigins i _ s).keeps
      · split
        · exact pinTransition_keeps i _ s
        · split
          · exact (updatePin_sameOrigins i _ s).keeps
          · split
            · exact pinTransition_keeps i _ s
            · exact .refl s

/-! ## The end of a load (R180 to R183) -/

/-- Where nothing is held nothing can break the laws (R6, R126, R140). -/
theorem origins_of_fill {s : State} (numbers : (s.points.map Point.number).Nodup) (roster : s.roster = [])
    (pins : (s.outputs.map Output.pin).Nodup) (off : OutputsOff s.outputs) : Origins noStation noStation s where
  numbers := numbers
  roster := ⟨by simp [roster], by simp [roster], fun x hx => by rw [roster] at hx; cases hx⟩
  sources x hx := by rw [roster] at hx; cases hx
  holds x hx := by rw [roster] at hx; cases hx
  outputs := by
    refine ⟨pins, fun o ho => ?_⟩
    obtain ⟨none, -, -⟩ := off o ho
    rw [none]
    exact ⟨⟨Nat.zero_le _, .nil, nofun⟩, nofun⟩

theorem noImage_origins (error : ConfigError) (straps : Station) {s : State} (station : StationLawful s) (loading : s.loading = true) :
    Origins noStation noStation (s.noImage error straps) := by
  obtain ⟨-, ⟨points, -, outputs, roster⟩, -⟩ := loading_empty station loading
  exact origins_of_fill (s := s.noImage error straps) (by simp [State.noImage, State.leaveStarting, points]) roster
    (by simp [State.noImage, State.leaveStarting, outputs]) (by simp [State.noImage, State.leaveStarting, outputs, OutputsOff])

theorem validImage_origins {im : Image} (straps : Station) (inputs : PinInputs) {s : State} (valid : im.validate = .none)
    (station : StationLawful s) (loading : s.loading = true) : Origins noStation noStation (s.validImage im straps inputs) := by
  obtain ⟨-, ⟨-, -, -, roster⟩, -⟩ := loading_empty station loading
  obtain ⟨-, distinct, -⟩ := validPoints valid
  obtain ⟨f, points⟩ := validImage_points im straps inputs s
  have outputs : (s.validImage im straps inputs).outputs = fillOutputs im := by
    unfold State.validImage; dsimp only; split <;> rfl
  refine origins_of_fill ?_ ((validImage_roster im straps inputs s).trans roster) ?_ ?_
  · rw [points]; simpa [Function.comp_def, fillPoint] using distinct
  · rw [outputs]; exact (fillOutputs_fit im).1
  · rw [outputs]; exact outputsOff_fill im

theorem endLoad_origins (memory : List Byte) (straps : Station) (inputs : PinInputs) {s : State} (station : StationLawful s)
    (loading : s.loading = true) : Origins noStation noStation (s.endLoad memory straps inputs) := by
  unfold State.endLoad
  split
  · exact noImage_origins _ straps station loading
  · dsimp only
    split
    · next valid => exact validImage_origins straps inputs valid station loading
    · exact noImage_origins _ straps station loading

theorem endLoad_retained (memory : List Byte) (straps : Station) (inputs : PinInputs) (s : State) :
    (s.endLoad memory straps inputs).retained = s.retained := by
  unfold State.endLoad
  split
  · rfl
  · dsimp only
    split
    · unfold State.validImage; dsimp only; split <;> rfl
    · rfl

/-! ## Every command -/

/-- What one command comes to, for the retained record and the laws of marks and origins. -/
inductive Course (s : State) : State → Prop
  | kept {t : State} (keeps : KeepsOrigins s t) : Course s t
  | loadEnded {t : State} (retained : t.retained = s.retained) (origins : StationLawful s → Origins noStation noStation t) : Course s t
  | restarted {u : State} (cause : Cause) (retained : u.retained = s.retained) : Course s (u.restart cause)

theorem Course.same {s t : State} (same : SameOrigins s t) : Course s t := .kept same.keeps

theorem Course.waited (e : Time) (s : State) : Course s (s.advance e) := .same (advance_sameOrigins e s)

/-- The end of a frame of this station, after which a reply may end a pending restart (R70 to R73, R166). -/
theorem endFrame_course (out : TxOutcome) (e : Time) (s : State) : Course s ((s.advance e).endFrame out) := by
  cases flying : s.inFlight with
  | none => rw [endFrame_idle (s := s.advance e) flying]; exact .waited e s
  | some f =>
    rw [endFrame_flying (s := s.advance e) flying]
    have released : SameOrigins s ((s.advance e).ended out) := ⟨rfl, rfl, rfl, rfl, rfl⟩
    have accounted := released.trans (account_sameOrigins out _)
    generalize ((s.advance e).ended out).account out = u at accounted ⊢
    cases f.content with
    | publication urgent records => exact .same (accounted.trans (publicationOutcome_sameOrigins records _ u))
    | solicit points => exact .same (accounted.trans ⟨rfl, rfl, rfl, rfl, rfl⟩)
    | presence p => exact .same (accounted.trans (presenceOutcome_sameOrigins out u))
    | reply r =>
      cases out with
      | complete =>
        show Course s (u.replyComplete r)
        unfold State.replyComplete
        dsimp only
        split
        · exact .restarted .remote accounted.retained
        · exact .same (accounted.trans ⟨rfl, rfl, rfl, rfl, rfl⟩)
      | lost => exact .same accounted
      | failed => exact .same accounted

/-- Every command takes its course: the inversion of `exec` that the retained record and the laws of marks and origins rest on. -/
theorem exec_course {c : Instr} {s t : State} (run : exec c s = .next t) : Course s t := by
  cases c <;> cases run
  case powerRestart => exact .restarted _ rfl
  case pinRestart e held =>
    split
    · exact .restarted _ rfl
    · exact .waited e s
  case resetRelease e =>
    split
    · exact .waited e s
    · exact .same ⟨rfl, rfl, rfl, rfl, rfl⟩
  case loadComplete e memory straps inputs =>
    split
    · next loading =>
      exact .loadEnded (endLoad_retained memory straps inputs (s.advance e)) fun station =>
        endLoad_origins (s := s.advance e) memory straps inputs (AnySteps.stationLawful (Moves.any (advance_moves e s)) station) loading
    · exact .waited e s
  case loadFailed e failure straps =>
    split
    · next loading =>
      exact .loadEnded rfl fun station =>
        noImage_origins (s := s.advance e) _ straps (AnySteps.stationLawful (Moves.any (advance_moves e s)) station) loading
    · exact .waited e s
  case joinWindowExpiry =>
    split
    · next due _ _ => exact .same ((advanceTo_sameOrigins due s).trans (enterRunning_sameOrigins _))
    · exact .same (.refl s)
  case lineIdleEvent e =>
    split
    · exact .waited e s
    · exact .same ((advance_sameOrigins e s).trans (lineIdle_sameOrigins _))
  case transmissionComplete | contentionLost | transmitFailure => exact endFrame_course ..
  case frameDiscarded e samples =>
    split
    · exact .same ((advance_sameOrigins e s).trans (discardFrame_sameOrigins _))
    · exact .waited e s
  case duplicateDetection e =>
    split
    · exact .same (((advance_sameOrigins e s).trans (bump_sameOrigins _ _)).trans (enterHalted_sameOrigins _))
    · exact .waited e s
  case urgentPublish | routinePublish | solicit | presence | reply | force | release | restart | clearCounters | status | pointGroup
      | peer | output | counters | unknownRequestKind => exact .kept (arrive_keeps ..)
  case stuckLineEpisode e =>
    split
    · exact .same ((advance_sameOrigins e s).trans (stuckLine_sameOrigins _))
    · exact .waited e s
  case transmitGuardTrip e =>
    split
    · exact .waited e s
    · exact .restarted _ rfl
  case debouncedTransition e pin level =>
    split
    · split
      · exact .kept ((advance_sameOrigins e s).keeps.trans (pinTransition_keeps ..))
      · exact .waited e s
    · exact .waited e s
  case levelReading e pin reading =>
    split
    · exact .same ((advance_sameOrigins e s).trans (pinReading_sameOrigins ..))
    · exact .waited e s
  case refreshTimerExpiry n =>
    split
    · split
      · exact .same (.refl s)
      · next due _ =>
        have stopped := (advanceTo_sameOrigins due s).trans (updateOwned_sameOrigins n (fun o => { o with refreshTimer := none }) _)
        dsimp only
        split
        · exact .same (stopped.trans ((updateOwned_sameOrigins n (fun o => { o with sched := .routine }) _).trans ⟨rfl, rfl, rfl, rfl, rfl⟩))
        · exact .same stopped
    · exact .same (.refl s)
  case stalenessDeadlineExpiry n =>
    split
    · split
      · exact .same (.refl s)
      · split
        · exact .same ((((advanceTo_sameOrigins _ s).trans (updateMirrored_sameOrigins n Mirrored.goStale (fun _ => rfl) _)).trans
            (judgeSource_sameOrigins _)).trans (evaluateSource_sameOrigins n _))
        · exact .same (.refl s)
    · exact .same (.refl s)
  case overdueTimerExpiry n =>
    split
    · split
      · exact .same (.refl s)
      · exact .same (((advanceTo_sameOrigins _ s).trans (updateMirrored_sameOrigins n
          (fun m => { m with overdue := true, overdueTimer := none }) (fun _ => rfl) _)).trans (judgeSource_sameOrigins _))
    · exact .same (.refl s)
  case solicitDeadlineExpiry n =>
    split
    · split
      · exact .same ((advanceTo_sameOrigins _ s).trans (solicitExpired_sameOrigins _ _))
      · exact .same (.refl s)
    · exact .same (.refl s)
  case backoffMarkExpiry n =>
    split
    · split
      · exact .same (.refl s)
      · exact .same (((advanceTo_sameOrigins _ s).trans (updateMirrored_sameOrigins n
          (fun m => { m with backoff := none }) (fun _ => rfl) _)).trans (fillSolicits_sameOrigins _))
    · exact .same (.refl s)
  case presenceTimerExpiry =>
    split
    · exact .same ⟨rfl, rfl, rfl, rfl, rfl⟩
    · exact .same (.refl s)
  case silentDeadlineExpiry p =>
    split
    · split
      · exact .same (.refl s)
      · split
        · exact .same ((advanceTo_sameOrigins _ s).trans
            (updatePeer_sameOrigins p (fun x => { x with state := .silent, silentAt := none }) (fun _ => rfl) _))
        · exact .same (.refl s)
    · exact .same (.refl s)
  case lostDeadlineExpiry p =>
    split
    · split
      · exact .same (.refl s)
      · split
        · exact .kept ((((advanceTo_sameOrigins _ s).trans
            (updatePeer_sameOrigins p (fun x => { x with state := .lost, lostAt := none }) (fun _ => rfl) _)).keeps.trans
            (peerLost_keeps p _)).trans (judgePeerLost_sameOrigins _).keeps)
        · exact .same (.refl s)
    · exact .same (.refl s)
  case leaseExpiry i p =>
    split
    · split
      · exact .kept ((advanceTo_sameOrigins _ s).keeps.trans
          (.of_tables (removeOverride_tables i p _) fun h => removeOverride_origins h i p))
      · exact .same (.refl s)
    · exact .same (.refl s)
  case quarantineTimerExpiry =>
    split
    · exact .same ⟨rfl, rfl, rfl, rfl, rfl⟩
    · exact .same (.refl s)
  case recentCommandExpiry p tag =>
    split
    · exact .same ⟨rfl, rfl, rfl, rfl, rfl⟩
    · exact .same (.refl s)
  case restartBoundExpiry =>
    split
    · exact .restarted _ rfl
    · exact .same (.refl s)
  case digitalInputSample e levels =>
    split
    · exact .kept ((advance_sameOrigins e s).keeps.trans (foldl_rel KeepsOrigins .refl .trans _ (samplePin_keeps levels) _ _))
    · exact .waited e s
  case dominantLevelSeen change =>
    split
    · exact .same ⟨rfl, rfl, rfl, rfl, rfl⟩
    · exact .waited _ s

end Sys2Proof.Machine
end

