-- ==== Sys2Proof/Proofs/StepOrigins.lean ====
section
/-!
THEOREM. Every step keeps the override lists lawful and the roster marks right (O7).
-/

namespace Sys2Proof.Machine

open Sys2Proof.Safety

/-- After a restart nothing is held (R126, R140, R176). -/
theorem restart_origins (cause : Cause) (u : State) : Origins noStation noStation (u.restart cause) :=
  origins_of_fill .nil rfl .nil nofun

theorem Course.origins {s t : State} (course : Course s t) (station : StationLawful s) (h : Origins noStation noStation s) :
    Origins noStation noStation t := by
  cases course with
  | kept keeps => exact keeps.origins h
  | loadEnded _ origins => exact origins station
  | restarted cause => exact restart_origins cause _

theorem step_keeps_originsLawful {s t : State} (lawful : OriginsLawful s) (run : step s = .next t) : OriginsLawful t := by
  obtain ⟨station, transmit⟩ := stepKeepsStations s t lawful.station lawful.transmit run
  unfold step at run
  split at run
  · cases run; exact lawful
  · next c rest _ =>
    have queued : SameOrigins s { s with pending := rest } := ⟨rfl, rfl, rfl, rfl, rfl⟩
    exact ((exec_course run).origins lawful.station (queued.origins (origins_of_lawful lawful))).lawful station transmit

theorem namesSource_iff (p : Station) (points : List Point) :
    namesSource p points = true ↔ ∃ q ∈ points, ∃ m, q.role = .mirrored m ∧ m.source = some p := by
  rw [namesSource, List.any_eq_true]
  refine exists_congr fun q => and_congr_right fun _ => ?_
  simp only [← mirrored?_eq_some]
  cases q.mirrored? <;> simp

theorem holdsOverride_iff (p : Station) (outputs : List Output) :
    holdsOverride p outputs = true ↔ ∃ o ∈ outputs, ∃ x ∈ o.overrides, x.origin = p := by
  simp only [holdsOverride, List.any_eq_true, beq_iff_eq]

/-- Settles O7, by the courses of the commands; the station states and the frame on the line are O3's. -/
theorem stepKeepsOrigins : Obligations.StepKeepsOrigins :=
  ⟨fun _ _ => step_keeps_originsLawful, namesSource_iff, holdsOverride_iff⟩

end Sys2Proof.Machine
end

