-- ==== Sys2Proof/Proofs/RetainedRecord.lean ====
section
/-!
THEOREM. The retained record is written at restarts only, by cause (O13).
-/

namespace Sys2Proof.Machine

theorem Course.retained {s t : State} (course : Course s t) : t.retained = s.retained ∨ ∃ cause, t = { State.reset with
    retained := s.retained.afterRestart cause
    supplyAbove := t.supplyAbove, resetHigh := t.resetHigh, loading := t.loading, clock := t.clock, pending := t.pending } := by
  cases course with
  | kept keeps => exact .inl keeps.retained
  | loadEnded retained => exact .inl retained
  | restarted cause retained => exact .inr ⟨cause, by rw [State.restart, retained]⟩

/-- Counting up from 255 the incarnation passes 0 by (R177). -/
theorem nextIncarnation_ne_zero (i : Byte) : nextIncarnation i ≠ 0 := by
  unfold nextIncarnation
  split
  · decide
  · next below =>
    intro wrapped
    exact below (by rw [eq_neg_of_add_eq_zero_left wrapped]; rfl)

/-- The guard restart count stands at 15 (R177). -/
theorem nextGuardCount_eq (g : BitVec 4) : nextGuardCount g = if g = 15 then 15 else g + 1 := by
  unfold nextGuardCount
  split
  · next full => exact full
  · rfl

theorem afterRestart_guard (r : Retained) : r.afterRestart .guard =
    { incarnation := nextIncarnation r.incarnation, cause := .guard
      guardCount := if r.guardCount = 15 then 15 else r.guardCount + 1 } := by
  rw [Retained.afterRestart, nextGuardCount_eq]

theorem afterRestart_incarnation_ne_zero (r : Retained) {cause : Cause} (other : cause ≠ .power) :
    (r.afterRestart cause).incarnation ≠ 0 := by
  cases cause with
  | power => exact absurd rfl other
  | pin | remote | guard => exact nextIncarnation_ne_zero r.incarnation

theorem statusData_retained (s : State) : (s.statusData.drop 2).take 3 =
    [s.retained.cause.code, s.retained.incarnation, s.retained.guardCount.setWidth 8] := rfl

/-- Settles O13, by the courses of the commands; each cause writes the record as R177 says. -/
theorem retainedRecord : Obligations.RetainedRecord := by
  refine ⟨fun _ _ _ run => (exec_course run).retained, fun s => ⟨rfl, rfl, ?_⟩,
    fun r => ⟨rfl, rfl, rfl, afterRestart_guard r, fun _ => afterRestart_incarnation_ne_zero r⟩⟩
  rw [statusData_retained]
  cases s.retained.cause <;> rfl

end Sys2Proof.Machine
end

