-- ==== Sys2Proof/Proofs/DrivenLevels.lean ====
section
/-!
SUPPORT. Which outputs show their evaluated level (R142, R144): the relation `Unsettles`, which says what outputs an operation may leave to be
evaluated, and that the work of every block leaves none.
-/

namespace Sys2Proof.Machine

open Sys2Proof.Safety

/-! ## The level of a point (R141) -/

/-- What an output can see of an entry: its number, and its level at each threshold. -/
def Point.shown (p : Point) : Nat × (Byte → Option Bool) := (p.number, fun threshold => p.level threshold)

/-- Numbers and levels decide the level of every binding (R141). -/
theorem bindingLevel_of_shown {l k : List Point} (same : k.map Point.shown = l.map Point.shown) (b : Binding) :
    b.level k = b.level l := by
  have read : ∀ l : List Point, (findPoint b.source l).bind (Point.level b.threshold)
      = ((l.map Point.shown).find? fun x => x.1 == b.source).bind fun x => x.2 b.threshold := fun l => by
    simp only [List.find?_map, findPoint, Function.comp_def, Point.shown]
    cases l.find? fun p => p.number == b.source <;> rfl
  simp only [Binding.level, read, same]

/-- A change of OWNED fields that keeps the current values shows nothing (R141). -/
theorem shown_mapOwnedBy {g : Point → Owned → Owned} (current : ∀ p o, (g p o).current = o.current) (l : List Point) :
    (mapOwnedBy g l).map Point.shown = l.map Point.shown := by
  rw [mapOwnedBy, List.map_map]
  refine List.map_congr_left fun p _ => ?_
  obtain ⟨n, k, role⟩ := p
  cases role with
  | owned o => simp [Point.mapOwned, Point.shown, Point.level, current]
  | mirrored m => rfl

/-- A change of MIRRORED fields that keeps states and values shows nothing (R141). -/
theorem shown_mapMirroredBy {g : Point → Mirrored → Mirrored} (state : ∀ p m, (g p m).state = m.state)
    (value : ∀ p m, (g p m).value = m.value) (l : List Point) : (mapMirroredBy g l).map Point.shown = l.map Point.shown := by
  rw [mapMirroredBy, List.map_map]
  refine List.map_congr_left fun p _ => ?_
  obtain ⟨n, k, role⟩ := p
  cases role with
  | owned o => rfl
  | mirrored m => simp [Point.mapMirrored, Point.shown, Point.level, state, value]

/-- The point that a binding names decides its level, and the null point gives OFF (R141). -/
theorem bindingLevel_congr {b : Binding} {l k : List Point}
    (same : (findPoint b.source k).bind (Point.level b.threshold) = (findPoint b.source l).bind (Point.level b.threshold)) :
    b.level k = b.level l := by
  rw [Binding.level, Binding.level, same]

theorem evaluate_congr {o : Output} {l k : List Point} (level : o.binding.level k = o.binding.level l) :
    o.evaluate k = o.evaluate l := by
  rw [Output.evaluate, Output.evaluate, level]

/-! ## The relation -/

/-- In RUNNING every output shows what an evaluation would give it now, but those excepted by pin and source. -/
def DrivenBut (ex : Fin 16 → Nat → Prop) (s : State) : Prop :=
  s.station = .running → ∀ o ∈ s.outputs, ¬ ex o.pin o.binding.source → o.evaluate s.points = o

/-- From `s` to `t` only the outputs picked by pin and source may come to need an evaluation. -/
structure Unsettles (pick : Fin 16 → Nat → Prop) (s t : State) : Prop where
  others : ∀ ex, DrivenBut ex s → DrivenBut (fun i n => ex i n ∨ pick i n) t

/-- From `s` to `t` no output comes to need an evaluation. -/
abbrev KeepsDriven : State → State → Prop := Unsettles fun _ _ => False

theorem DrivenBut.mono {ex ex' : Fin 16 → Nat → Prop} {s : State} (h : DrivenBut ex s) (more : ∀ i n, ex i n → ex' i n) :
    DrivenBut ex' s := fun running o ho kept => h running o ho fun e => kept (more _ _ e)

theorem KeepsDriven.unsettles {pick : Fin 16 → Nat → Prop} {s t : State} (h : KeepsDriven s t) : Unsettles pick s t :=
  ⟨fun ex driven => (h.others ex driven).mono fun _ _ e => .inl (e.resolve_right id)⟩

theorem Unsettles.trans {pick : Fin 16 → Nat → Prop} {s t u : State} (h : Unsettles pick s t) (k : Unsettles pick t u) :
    Unsettles pick s u := ⟨fun ex driven => (k.others _ (h.others ex driven)).mono fun _ _ e => e.elim id .inr⟩

theorem KeepsDriven.trans {s t u : State} (h : KeepsDriven s t) (k : KeepsDriven t u) : KeepsDriven s u := Unsettles.trans h k

theorem KeepsDriven.lawful {s t : State} (h : KeepsDriven s t) (lawful : DrivenLawful s) : DrivenLawful t :=
  fun running o ho => h.others (fun _ _ => False) (fun r o ho _ => lawful r o ho) running o ho fun e => e.elim id id

/-- The outputs stay, and but for those picked so do the levels that they are given (R141). -/
theorem Unsettles.of_levels {pick : Fin 16 → Nat → Prop} {s t : State} (station : t.station = s.station) (outputs : t.outputs = s.outputs)
    (levels : ∀ o ∈ s.outputs, ¬ pick o.pin o.binding.source → o.binding.level t.points = o.binding.level s.points) :
    Unsettles pick s t := by
  refine ⟨fun ex driven running o ho kept => ?_⟩
  obtain ⟨kept, unpicked⟩ := not_or.mp kept
  rw [outputs] at ho
  rw [evaluate_congr (levels o ho unpicked)]
  exact driven (station ▸ running) o ho kept

theorem KeepsDriven.of_shown {s t : State} (station : t.station = s.station) (outputs : t.outputs = s.outputs)
    (shown : t.points.map Point.shown = s.points.map Point.shown) : KeepsDriven s t :=
  .of_levels station outputs fun o _ _ => bindingLevel_of_shown shown o.binding

theorem KeepsDriven.of_eq {s t : State} (station : t.station = s.station) (outputs : t.outputs = s.outputs)
    (points : t.points = s.points) : KeepsDriven s t := .of_shown station outputs (by rw [points])

theorem KeepsDriven.refl (s : State) : KeepsDriven s s := .of_eq rfl rfl rfl

/-- Outside RUNNING no output is evaluated (R144). -/
theorem KeepsDriven.of_stopped {s t : State} (stopped : t.station ≠ .running) : KeepsDriven s t :=
  ⟨fun _ _ running => absurd running stopped⟩

theorem KeepsDriven.of_owned {s t : State} (station : t.station = s.station) (outputs : t.outputs = s.outputs)
    (g : Point → Owned → Owned) (points : t.points = mapOwnedBy g s.points) (current : ∀ p o, (g p o).current = o.current) :
    KeepsDriven s t := .of_shown station outputs (by rw [points, shown_mapOwnedBy current])

theorem KeepsDriven.fold {α : Type} (f : State → α → State) (turn : ∀ s a, KeepsDriven s (f s a)) (l : List α) (s : State) :
    KeepsDriven s (l.foldl f s) := foldl_rel KeepsDriven .refl .trans f turn l s

/-- An evaluation settles the outputs that it takes (R144). -/
theorem Unsettles.evaluateWhere {pick rest : Fin 16 → Nat → Prop} {test : Output → Bool} {s t : State} (h : Unsettles pick s t)
    (taken : ∀ o, pick o.pin o.binding.source → test o = true ∨ rest o.pin o.binding.source) :
    Unsettles rest s (t.evaluateWhere test) := by
  refine ⟨fun ex driven running o ho kept => ?_⟩
  have same : (t.evaluateWhere test).points = t.points := by rw [evaluateWhere_only]
  have still : (t.evaluateWhere test).station = t.station := by rw [evaluateWhere_only]
  rw [still] at running
  rw [same]
  rw [State.evaluateWhere, if_pos running] at ho
  obtain ⟨o', ho', rfl⟩ := List.mem_map.mp ho
  by_cases takes : test o' = true
  · rw [if_pos takes]; exact Output.evaluate_evaluate t.points o'
  · rw [if_neg takes] at kept ⊢
    refine h.others ex driven running o' ho' fun excepted => kept (excepted.imp_right fun picked => ?_)
    exact (taken o' picked).resolve_left takes

/-- What leaves the outputs bound to a point to be evaluated is completed by their evaluation (R144). -/
theorem Unsettles.evaluateSource {n : Nat} {s t : State} (h : Unsettles (fun _ k => k = n) s t) : KeepsDriven s (t.evaluateSource n) :=
  h.evaluateWhere fun _ picked => .inl (beq_iff_eq.mpr picked)

/-- What leaves the output of a pin to be evaluated is completed by its evaluation (R144). -/
theorem Unsettles.evaluatePin {i : Fin 16} {s t : State} (h : Unsettles (fun j _ => j = i) s t) : KeepsDriven s (t.evaluatePin i) :=
  h.evaluateWhere fun _ picked => .inl (beq_iff_eq.mpr picked)

/-! ## Clock, counters, roster, replies -/

theorem advance_driven (e : Time) (s : State) : KeepsDriven s (s.advance e) := .of_eq rfl rfl rfl
theorem advanceTo_driven (due : Time) (s : State) : KeepsDriven s (s.advanceTo due) := .of_eq rfl rfl rfl
theorem bump_driven (k : CounterId) (s : State) : KeepsDriven s (s.bump k) := .of_eq rfl rfl rfl
theorem updatePeer_driven (p : Station) (f : Peer → Peer) (s : State) : KeepsDriven s (s.updatePeer p f) := .of_eq rfl rfl rfl
theorem keepHoldsMark_driven (p : Station) (s : State) : KeepsDriven s (s.keepHoldsMark p) := .of_eq rfl rfl rfl
theorem updatePin_driven (i : Fin 16) (f : Pin → Pin) (s : State) : KeepsDriven s (s.updatePin i f) := .of_eq rfl rfl rfl
theorem queueReply_driven (r : Reply) (s : State) : KeepsDriven s (s.queueReply r) := .of_eq rfl rfl rfl
theorem answer_driven (p : Station) (tag : Byte) (k : CommandKind) (code : ReplyCode) (s : State) :
    KeepsDriven s (s.answer p tag k code) := .of_eq rfl rfl rfl

theorem fillSolicits_driven (s : State) : KeepsDriven s s.fillSolicits := by
  unfold State.fillSolicits
  split
  · exact .of_eq rfl rfl rfl
  · exact .refl s

theorem solicitPoint_driven (n : Nat) (s : State) : KeepsDriven s (s.solicitPoint n) := by
  rw [solicitPoint_eq]; exact .of_eq rfl rfl rfl

theorem satisfy_driven (n : Nat) (s : State) : KeepsDriven s (s.satisfy n) := by
  rw [satisfy_only]; exact .of_eq rfl rfl rfl

theorem countMissed_driven (stored : Option Count) (carried : Count) (s : State) : KeepsDriven s (s.countMissed stored carried) := by
  rw [countMissed_eq]; exact .of_eq rfl rfl rfl

/-! ## Entries of the Point Table -/

theorem updateOwned_driven (n : Nat) (f : Owned → Owned) (current : ∀ o, (f o).current = o.current) (s : State) :
    KeepsDriven s (s.updateOwned n f) :=
  .of_owned rfl rfl (atNumber n f) (updateOwned_points n f s) fun p o => by by_cases e : p.number = n <;> simp [atNumber, e, current]

theorem updateMirrored_driven (n : Nat) (f : Mirrored → Mirrored) (state : ∀ m, (f m).state = m.state) (value : ∀ m, (f m).value = m.value)
    (s : State) : KeepsDriven s (s.updateMirrored n f) :=
  .of_shown rfl rfl (by
    rw [updateMirrored_points]
    refine shown_mapMirroredBy (fun p m => ?_) (fun p m => ?_) _ <;> by_cases e : p.number = n <;> simp [atNumber, e, state, value])

/-- A change of the entries of one number reaches the outputs bound to it only (R141). -/
theorem unsettles_of_number {n : Nat} {s t : State} (station : t.station = s.station) (outputs : t.outputs = s.outputs)
    (g : Point → Point) (number : ∀ p, (g p).number = p.number) (others : ∀ p, p.number ≠ n → g p = p)
    (points : t.points = s.points.map g) : Unsettles (fun _ k => k = n) s t := by
  refine .of_levels station outputs fun o _ away => bindingLevel_congr ?_
  rw [points, findPoint_map g number]
  cases found : findPoint o.binding.source s.points with
  | none => rfl
  | some p =>
    have other : p.number ≠ n := by rw [findPoint_number found]; exact away
    rw [Option.map_some, others p other]

theorem updateOwned_unsettles (n : Nat) (f : Owned → Owned) (s : State) : Unsettles (fun _ k => k = n) s (s.updateOwned n f) :=
  unsettles_of_number rfl rfl _ (fun p => by split <;> simp) (fun _ other => if_neg other) rfl

theorem updateMirrored_unsettles (n : Nat) (f : Mirrored → Mirrored) (s : State) :
    Unsettles (fun _ k => k = n) s (s.updateMirrored n f) :=
  unsettles_of_number rfl rfl _ (fun p => by split <;> simp) (fun _ other => if_neg other) rfl

/-- An UNKNOWN entry gives no level before and after its source has restarted (R14, R141). -/
theorem goUnknown_driven {n : Nat} {m : Mirrored} {s : State} (entry : s.mirroredAt n = some m) (unknown : m.state = .unknown) :
    KeepsDriven s (s.updateMirrored n Mirrored.goUnknown) := by
  obtain ⟨p, found, -, number, role⟩ := mirroredAt_entry entry
  rw [mirrored?_eq_some] at role
  refine .of_levels rfl rfl fun o _ _ => bindingLevel_congr ?_
  rw [updateMirrored_points, findPoint_mapMirroredBy]
  by_cases bound : o.binding.source = n
  · rw [bound, found]
    simp [Point.mapMirrored, role, Point.level, unknown, atNumber, number, Mirrored.goUnknown]
  · cases other : findPoint o.binding.source s.points with
    | none => rfl
    | some q =>
      have away : q.number ≠ n := by rw [findPoint_number other]; exact bound
      simp [atNumber, away]

/-! ## The Publication Queue (R39 to R45, R52) -/

theorem joinUrgent_driven (n : Nat) (s : State) : KeepsDriven s (s.joinUrgent n) :=
  (updateOwned_driven n (fun o => { o with sched := .urgent }) (fun _ => rfl) s).trans (.of_eq rfl rfl rfl)

theorem promote_driven (n : Nat) (s : State) : KeepsDriven s (s.promote n) :=
  (updateOwned_driven n (fun o => { o with sched := .urgent }) (fun _ => rfl) s).trans (.of_eq rfl rfl rfl)

theorem joinRoutine_driven (n : Nat) (s : State) : KeepsDriven s (s.joinRoutine n) :=
  (updateOwned_driven n (fun o => { o with sched := .routine }) (fun _ => rfl) s).trans (.of_eq rfl rfl rfl)

theorem setDirty_driven (n : Nat) (s : State) : KeepsDriven s (s.setDirty n) :=
  updateOwned_driven n (fun o => { o with dirty := true }) (fun _ => rfl) s

theorem leaveQueue_driven (n : Nat) (sched : Sched) (s : State) : KeepsDriven s (s.leaveQueue n sched) :=
  (updateOwned_driven n (fun o => { o with sched := sched, inFlight := false, dirty := false }) (fun _ => rfl) s).trans
    (.of_eq rfl rfl rfl)

theorem yieldPoint_driven (n : Nat) (s : State) : KeepsDriven s (s.yieldPoint n) :=
  (leaveQueue_driven n _ s).trans (updateOwned_driven n (fun o => { o with refreshTimer := none }) (fun _ => rfl) _)

theorem stepWithEvent_driven (n : Nat) (s : State) : KeepsDriven s (s.stepWithEvent n) := by
  refine .of_owned rfl rfl (fun p => atNumber n (fun o => if isBinaryFromPin p.kind o then o else { o with count := o.count + 1 }) p)
    (List.map_congr_left fun p _ => ?_) fun p o => ?_
  · by_cases e : p.number = n <;> simp [atNumber, e]
  · unfold atNumber
    split
    · dsimp only; split <;> rfl
    · rfl

theorem changeEvent_driven (n : Nat) (s : State) : KeepsDriven s (s.changeEvent n) := by
  unfold State.changeEvent
  split
  · exact .refl s
  · split
    · exact (joinUrgent_driven n s).trans (stepWithEvent_driven n _)
    · exact (promote_driven n s).trans (stepWithEvent_driven n _)
    · exact ((promote_driven n s).trans (setDirty_driven n _)).trans (stepWithEvent_driven n _)
    · exact (setDirty_driven n s).trans (stepWithEvent_driven n _)
    · exact .refl s
    · exact .refl s
    · exact .refl s

theorem claim_driven (n : Nat) (s : State) : KeepsDriven s (s.claim n) := by
  unfold State.claim
  split
  · exact .refl s
  · split
    · exact joinUrgent_driven n s
    · exact promote_driven n s
    · exact .refl s
    · exact .refl s
    · exact .refl s

theorem complete12_driven (n : Nat) (s : State) : KeepsDriven s (s.complete12 n) :=
  .of_owned rfl rfl _ (complete12_points n s) fun p o => by by_cases e : p.number = n <;> simp [atNumber, e, Owned.completed]

theorem pointCompleted_driven (s : State) (n : Nat) : KeepsDriven s (s.pointCompleted n) := by
  have left := (complete12_driven n s).trans (leaveQueue_driven n .quiet _)
  rcases pointCompleted_cases n s with ⟨e, -⟩ | ⟨o, -, -, ⟨-, e⟩ | ⟨-, e⟩⟩ <;> rw [e]
  · exact .refl s
  · exact left.trans (joinUrgent_driven n _)
  · exact left

theorem publicationOutcome_driven (records : List Record) (complete : Bool) (s : State) :
    KeepsDriven s (s.publicationOutcome records complete) :=
  publicationOutcome_rel KeepsDriven .refl .trans pointCompleted_driven
    (fun s n => updateOwned_driven n (fun o => { o with inFlight := false, dirty := false }) (fun _ => rfl) s) records complete s

theorem markTaken_driven (s : State) : KeepsDriven s s.markTaken :=
  .of_owned rfl rfl _ (markTaken_points s) fun p o => by split <;> rfl

/-! ## The fault summary (R33, R144) -/

theorem statusEvent_unsettles {n : Nat} {l : List Nat} {s t : State} (h : Unsettles (fun _ k => k ∈ n :: l) s t) :
    Unsettles (fun _ k => k ∈ l) s (t.statusEvent n) := by
  have evaluated : Unsettles (fun _ k => k ∈ l) s (t.evaluateSource n) := h.evaluateWhere fun o picked =>
    (List.mem_cons.mp picked).imp_left beq_iff_eq.mpr
  unfold State.statusEvent
  dsimp only
  split
  · exact evaluated.trans (changeEvent_driven n _).unsettles
  · exact evaluated

/-- The outputs of the listed points are evaluated one after another. -/
theorem foldl_statusEvent_driven (l : List Nat) {s t : State} (h : Unsettles (fun _ k => k ∈ l) s t) :
    KeepsDriven s (l.foldl State.statusEvent t) := by
  induction l generalizing t with
  | nil => exact ⟨fun ex driven => (h.others ex driven).mono fun _ _ e => e.imp_right List.not_mem_nil⟩
  | cons n l ih => exact ih (statusEvent_unsettles h)

/-- A change of the summary reaches the outputs of STATUS-sourced points (R33). -/
theorem writeStatus_unsettles (s : State) : Unsettles (fun _ k => k ∈ ownedFrom .status s.points) s s.writeStatus := by
  refine .of_levels rfl rfl fun o _ away => bindingLevel_congr ?_
  rw [writeStatus_points, findPoint_mapOwnedBy]
  cases found : findPoint o.binding.source s.points with
  | none => rfl
  | some p =>
    have other : p.mapOwned (fun x => if x.source = .status then { x with current := statusValue p.kind s.faults } else x)
        = p.mapOwned fun x => x := Point.mapOwned_congr fun x owned => if_neg fun source =>
      away (mem_ownedFrom.mpr ⟨p, findPoint_mem found, findPoint_number found, x, owned, source⟩)
    rw [Option.map_some, other, Point.mapOwned_id]

theorem report_driven (c : Condition) (b : Bool) (s : State) : KeepsDriven s (s.report c b) := by
  unfold State.report
  split
  · exact .refl s
  · have put : KeepsDriven s { s with faults := s.faults.put c b } := .of_eq rfl rfl rfl
    refine put.trans ?_
    unfold State.statusChanged
    split
    · exact foldl_statusEvent_driven _ (writeStatus_unsettles _)
    · exact .refl _

theorem judgeSource_driven (s : State) : KeepsDriven s s.judgeSource := report_driven _ _ s
theorem judgePeerLost_driven (s : State) : KeepsDriven s s.judgePeerLost := report_driven _ _ s

/-! ## Override lists (R145 to R152) -/

theorem updateOverrides_unsettles (i : Fin 16) (f : List Override → List Override) (s : State) :
    Unsettles (fun j _ => j = i) s (s.updateOverrides i f) := by
  refine ⟨fun ex driven running o ho kept => ?_⟩
  obtain ⟨o', ho', rfl⟩ := List.mem_map.mp ho
  by_cases at_i : o'.pin = i
  · rw [if_pos at_i] at kept; exact absurd (.inr at_i) kept
  · rw [if_neg at_i] at kept ⊢; exact driven running o' ho' (not_or.mp kept).1

/-- The lists of a pin change, and its output is evaluated again (R144). -/
theorem evaluateOverrides_driven (i : Fin 16) (f : List Override → List Override) (s : State) :
    KeepsDriven s ((s.updateOverrides i f).evaluatePin i) := (updateOverrides_unsettles i f s).evaluatePin

theorem removeOverride_driven (i : Fin 16) (p : Station) (s : State) : KeepsDriven s (s.removeOverride i p) :=
  (evaluateOverrides_driven i (dropOrigin p) s).trans (keepHoldsMark_driven p _)

theorem purge_driven (p : Station) (s : State) : KeepsDriven s (s.purge p) :=
  (KeepsDriven.fold _ (fun t i => evaluateOverrides_driven i (dropOrigin p) t) _ s).trans (keepHoldsMark_driven p _)

theorem applyForce_driven (p : Station) (i : Fin 16) (v : Bool) (lease : Byte) (s : State) :
    KeepsDriven s (s.applyForce p i v lease).1 := by
  have pushed : ∀ x : Override, KeepsDriven s (((s.updateOverrides i fun l => x :: dropOrigin p l).evaluatePin i).keepHoldsMark p) :=
    fun x => (evaluateOverrides_driven i (fun l => x :: dropOrigin p l) s).trans (keepHoldsMark_driven p _)
  unfold State.applyForce
  split
  · exact .refl s
  · dsimp only
    split
    · exact .refl s
    · split
      · exact pushed _
      · split
        · exact .refl s
        · exact pushed _

theorem applyRelease_driven (p : Station) (i : Fin 16) (s : State) : KeepsDriven s (s.applyRelease p i).1 := by
  unfold State.applyRelease
  split
  · exact .refl s
  · split
    · exact removeOverride_driven i p s
    · exact .refl s

theorem discardOldest_unsettles (i : Fin 16) (s : State) : Unsettles (fun j _ => j = i) s (s.discardOldest i) := by
  unfold State.discardOldest
  split
  · exact (KeepsDriven.refl s).unsettles
  · split
    · exact (KeepsDriven.refl s).unsettles
    · exact (updateOverrides_unsettles i List.dropLast s).trans
        (((keepHoldsMark_driven _ _).trans (bump_driven _ _)).trans (report_driven _ _ _)).unsettles

theorem handPress_driven (i : Fin 16) (s : State) : KeepsDriven s (s.handPress i) := by
  unfold State.handPress
  split
  · exact .refl s
  · split
    · exact evaluateOverrides_driven i _ s
    · dsimp only
      split
      · exact ((discardOldest_unsettles i s).trans (updateOverrides_unsettles i _ _)).evaluatePin
      · exact evaluateOverrides_driven i _ s

/-! ## The roster (R102, R103, R126 to R133) -/

theorem mustTrack_driven (p : Station) (s : State) : KeepsDriven s (s.mustTrack p).1 := by
  have roster : ∀ l, KeepsDriven s { s with roster := l } := fun _ => .of_eq rfl rfl rfl
  rcases mustTrack_roster p s with ⟨-, e⟩ | ⟨-, -, e⟩ | ⟨v, -, -, e⟩ <;> rw [e]
  · exact roster _
  · exact .refl s
  · exact (roster _).trans (judgePeerLost_driven _)

theorem track_driven (p : Station) (s : State) : KeepsDriven s (s.track p).1 := by
  rcases track_cases p s with ⟨x, -, e⟩ | ⟨-, -, e⟩ | ⟨-, -, e⟩ <;> rw [e]
  · exact .refl s
  · exact mustTrack_driven p s
  · exact (bump_driven _ s).trans (report_driven _ _ _)

theorem keepSourcesMark_driven (p : Station) (s : State) : KeepsDriven s (s.keepSourcesMark p) :=
  (updatePeer_driven p _ s).trans (judgePeerLost_driven _)

theorem heard_driven (p : Station) (s : State) : KeepsDriven s (s.heard p) := by
  obtain ⟨roster, b, e⟩ := heard_reports p s
  rw [e]
  exact KeepsDriven.trans (t := { s with roster := roster }) (.of_eq rfl rfl rfl) (report_driven _ _ _)

theorem sourceLost_driven (s : State) (n : Nat) : KeepsDriven s (s.sourceLost n) := by
  unfold State.sourceLost
  split
  · exact .refl s
  · split
    · exact ((updateMirrored_unsettles n _ s).trans (judgeSource_driven _).unsettles).evaluateSource
    · exact .refl s
    · exact .refl s

theorem sourceRestarted_driven (s : State) (n : Nat) : KeepsDriven s (s.sourceRestarted n) := by
  cases entry : s.mirroredAt n with
  | none => simp only [State.sourceRestarted, entry]; exact .refl s
  | some m =>
    rcases sourceRestarted_cases entry with ⟨unknown, e⟩ | ⟨-, u, hu, e⟩ <;> rw [e]
    · exact goUnknown_driven entry unknown
    · rw [hu]
      exact ((updateMirrored_unsettles n _ s).trans (judgeSource_driven _).unsettles).evaluateSource.trans (solicitPoint_driven n _)

theorem peerLost_driven (p : Station) (s : State) : KeepsDriven s (s.peerLost p) :=
  (KeepsDriven.fold _ sourceLost_driven _ s).trans (purge_driven p _)

theorem peerRestarted_driven (p : Station) (s : State) : KeepsDriven s (s.peerRestarted p) :=
  (KeepsDriven.fold _ sourceRestarted_driven _ s).trans (purge_driven p _)

/-! ## Frames of other stations (chapters 5 to 7, 9) -/

theorem acceptRecord_driven (n : Nat) (k : Kind) (m : Mirrored) (r : Record) (s : State) : KeepsDriven s (s.acceptRecord n k m r) :=
  (countMissed_driven m.count r.count s).trans
    (((updateMirrored_unsettles n (Mirrored.accept k s.clock r) _).trans (judgeSource_driven _).unsettles).trans
      (satisfy_driven n _).unsettles).evaluateSource

theorem learn_driven (n : Nat) (p : Station) (s : State) : KeepsDriven s (s.learn n p) :=
  ((updateMirrored_driven n (fun m => { m with source := some p }) (fun _ => rfl) (fun _ => rfl) s).trans (track_driven p _)).trans
    (keepSourcesMark_driven p _)

theorem ownershipConflict_driven (p : Station) (n : Nat) (s : State) : KeepsDriven s (s.ownershipConflict p n) := by
  have reported : KeepsDriven s ((s.bump .conflicts).report .conflict true) := (bump_driven _ s).trans (report_driven _ _ _)
  unfold State.ownershipConflict
  dsimp only
  split
  · exact reported
  · split
    · exact reported.trans (yieldPoint_driven n _)
    · split
      · exact reported.trans (claim_driven n _)
      · exact reported

theorem takeRecord_driven (p : Station) (s : State) (r : Record) : KeepsDriven s (s.takeRecord p r) := by
  rcases takeRecord_cases p s r with e | ⟨o, -, -, e⟩ | ⟨q, m, -, -, -, e⟩ | e <;> rw [e]
  · exact .refl s
  · exact ownershipConflict_driven p _ s
  · rcases mirroredRecord_cases p r.point.toNat q.kind m r s with
      ⟨-, e⟩ | ⟨-, e⟩ | ⟨old, -, -, ⟨-, e⟩ | ⟨-, e⟩ | ⟨-, e⟩⟩ <;> rw [e]
    · exact (learn_driven _ p s).trans (acceptRecord_driven ..)
    · exact acceptRecord_driven ..
    · exact (((bump_driven _ s).trans (learn_driven _ p _)).trans (keepSourcesMark_driven old _)).trans (acceptRecord_driven ..)
    · exact ((learn_driven _ p s).trans (keepSourcesMark_driven old _)).trans (acceptRecord_driven ..)
    · exact bump_driven _ s
  · exact bump_driven _ s

theorem takePublication_driven (p : Station) (body : List Byte) (s : State) : KeepsDriven s (s.takePublication p body) := by
  unfold State.takePublication
  split
  · exact .fold _ (takeRecord_driven p) _ s
  · exact bump_driven _ s

theorem takeSolicited_driven (s : State) (n : Nat) : KeepsDriven s (s.takeSolicited n) := by
  unfold State.takeSolicited
  split
  · split
    · exact .refl s
    · split
      · exact claim_driven n s
      · exact .of_eq rfl rfl rfl
  · exact .refl s

theorem takeSolicit_driven (body : List Byte) (s : State) : KeepsDriven s (s.takeSolicit body) := by
  unfold State.takeSolicit
  split
  · exact .fold _ takeSolicited_driven _ s
  · exact bump_driven _ s

theorem takePresence_driven (p : Station) (body : List Byte) (s : State) : KeepsDriven s (s.takePresence p body) := by
  unfold State.takePresence
  split
  · split
    · exact bump_driven _ s
    · unfold State.applyPresence
      split
      · exact .refl s
      · dsimp only
        split
        · exact (peerRestarted_driven p s).trans (updatePeer_driven p _ _)
        · exact updatePeer_driven p _ s
  · exact .refl s

theorem performCommand_driven (p : Station) (tag : Byte) (c : Command) (s : State) : KeepsDriven s (s.performCommand p tag c) := by
  cases c with
  | force i value lease =>
    show KeepsDriven s (s.force p tag i value lease)
    have tracked := track_driven p s
    unfold State.force
    split
    · next e => rw [e] at tracked; exact tracked.trans (answer_driven ..)
    · next e => rw [e] at tracked; exact (tracked.trans (applyForce_driven ..)).trans (answer_driven ..)
  | release i => exact (applyRelease_driven p i s).trans (answer_driven ..)
  | restart =>
    show KeepsDriven s (s.requestRestart p tag)
    unfold State.requestRestart
    split <;> exact .of_eq rfl rfl rfl
  | clearCounters => exact .of_eq rfl rfl rfl

theorem takeRequest_driven (cls : RequestClass) (p : Station) (body : List Byte) (s : State) : KeepsDriven s (s.takeRequest cls p body) := by
  unfold State.takeRequest
  split
  · split
    · unfold State.takeCommand
      split
      · exact queueReply_driven _ s
      · split
        · exact queueReply_driven _ s
        · exact performCommand_driven ..
    · unfold State.takeQuery
      split <;> exact queueReply_driven _ s
  · exact bump_driven _ s

theorem filterRequest_driven (cls : RequestClass) (p d : Station) (body : List Byte) (s : State) :
    KeepsDriven s (s.filterRequest cls p d body) := by
  unfold State.filterRequest
  split
  · exact bump_driven _ s
  · split
    · exact takeRequest_driven cls p body s
    · exact .refl s

/-- The block of a frame's class leaves no output to be evaluated (R78). -/
theorem dispatchFrame_driven (cls : FrameClass) (p d : Station) (body : List Byte) (s : State) :
    KeepsDriven s (s.dispatchFrame cls p d body) := by
  cases cls with
  | urgentPublish => exact takePublication_driven p body s
  | routinePublish => exact takePublication_driven p body s
  | solicit => exact takeSolicit_driven body s
  | presence => exact takePresence_driven p body s
  | reply => exact .refl s
  | command => exact filterRequest_driven _ p d body s
  | query => exact filterRequest_driven _ p d body s

/-- The arrival of a frame (R75 to R78). -/
theorem arrive_driven (cls : FrameClass) (p d : Station) (body : List Byte) (s : State) : KeepsDriven s (s.arrive cls p d body) := by
  unfold State.arrive
  split
  · split
    · have counted : KeepsDriven s (s.endAssembly.bump .framesReceived) := .of_eq rfl rfl rfl
      unfold State.goodFrame
      dsimp only
      split
      · exact .of_stopped nofun
      · exact (counted.trans (heard_driven p _)).trans (dispatchFrame_driven cls p d body _)
    · exact .of_eq rfl rfl rfl
  · exact .refl s

/-! ## Pins (chapter 2) -/

/-- A value written is complete with the evaluation of the outputs that it feeds (R144). -/
theorem valueWritten_driven {n : Nat} {s t : State} (h : Unsettles (fun _ k => k = n) s t) (event : Bool) :
    KeepsDriven s (t.valueWritten n event) := by
  unfold State.valueWritten
  dsimp only
  split
  · exact h.evaluateSource.trans (changeEvent_driven n _)
  · exact h.evaluateSource

theorem binaryTransition_driven (level : Bool) (s : State) (n : Nat) : KeepsDriven s (s.binaryTransition n level) :=
  valueWritten_driven (updateOwned_unsettles n _ s) true

theorem pointReading_driven (reading : Byte) (s : State) (n : Nat) : KeepsDriven s (s.pointReading reading n) := by
  unfold State.pointReading
  split
  · exact .refl s
  · split
    · exact .refl s
    · exact valueWritten_driven (updateOwned_unsettles n _ s) _
    · split
      · exact .refl s
      · dsimp only
        split
        · exact .refl s
        · exact binaryTransition_driven _ s n

theorem pinReading_driven (i : Fin 16) (reading : Byte) (s : State) : KeepsDriven s (s.pinReading i reading) := by
  unfold State.pinReading
  split
  · exact (updatePin_driven i _ s).trans (.fold _ (pointReading_driven reading) _ _)
  · exact .refl s

theorem pinTransition_driven (i : Fin 16) (level : Bool) (s : State) : KeepsDriven s (s.pinTransition i level) := by
  unfold State.pinTransition
  refine (updatePin_driven i (fun p => { p with level := some level, candidate := none }) s).trans ?_
  dsimp only
  split
  · exact .refl _
  · split
    · exact .fold _ (binaryTransition_driven level) _ _
    · split
      · exact handPress_driven _ _
      · exact .refl _
    · exact .refl _
    · exact .refl _
    · exact .refl _

theorem samplePin_driven (levels : BitVec 16) (s : State) (i : Fin 16) : KeepsDriven s (s.samplePin levels i) := by
  unfold State.samplePin
  dsimp only
  split
  · exact .refl s
  · split
    · exact .refl s
    · split
      · exact updatePin_driven i _ s
      · split
        · exact pinTransition_driven i _ s
        · split
          · exact updatePin_driven i _ s
          · split
            · exact pinTransition_driven i _ s
            · exact .refl s

end Sys2Proof.Machine
end

