-- ==== Sys2Proof/Proofs/StepOutputs.lean ====
section
/-!
THEOREM. Every step leaves every output at its evaluated level, and what that level is (O10).
-/

namespace Sys2Proof.Machine

open Sys2Proof.Safety

/-! ## Frames of this station, and the station states -/

theorem account_driven (out : TxOutcome) (s : State) : KeepsDriven s (s.account out) := by
  have silenced : ∀ length, KeepsDriven s (s.enterSilenced length) := fun length =>
    KeepsDriven.trans (t := { s with
      mode := .silenced, failures := 0, quarantineLength := length, quarantineTimer := some (s.clock + length * Config.second) })
      (.of_eq rfl rfl rfl) (report_driven _ _ _)
  have active : KeepsDriven s s.enterActive :=
    KeepsDriven.trans (t := { s with mode := .active, failures := 0, quarantineLength := Config.firstQuarantine })
      (.of_eq rfl rfl rfl) (report_driven _ _ _)
  unfold State.account
  split
  · split
    · exact .of_eq rfl rfl rfl
    · exact .refl s
    · split
      · exact .of_eq rfl rfl rfl
      · exact silenced _
    · exact active
    · exact .of_eq rfl rfl rfl
    · exact silenced _
    · exact .refl s
  · exact .refl s

theorem restart_driven (cause : Cause) (s u : State) : KeepsDriven s (u.restart cause) := .of_stopped nofun

theorem replyComplete_driven (r : Reply) (s : State) : KeepsDriven s (s.replyComplete r) := by
  unfold State.replyComplete
  dsimp only
  split
  · exact restart_driven _ _ _
  · exact .of_eq rfl rfl rfl

theorem ownerOutcome_driven (content : TxContent) (out : TxOutcome) (s : State) : KeepsDriven s (s.ownerOutcome content out) := by
  cases content with
  | publication urgent records => exact publicationOutcome_driven records _ s
  | solicit points => exact .of_eq rfl rfl rfl
  | presence p => cases out <;> exact .of_eq rfl rfl rfl
  | reply r =>
    cases out with
    | complete => exact replyComplete_driven r s
    | lost => exact .refl s
    | failed => exact .refl s

theorem endFrame_driven (out : TxOutcome) (s : State) : KeepsDriven s (s.endFrame out) := by
  cases flying : s.inFlight with
  | none => rw [endFrame_idle flying]; exact .refl s
  | some f =>
    rw [endFrame_flying flying]
    have ended : KeepsDriven s (s.ended out) := .of_eq rfl rfl rfl
    exact (ended.trans (account_driven out _)).trans (ownerOutcome_driven f.content out _)

theorem transmit_driven (s : State) : KeepsDriven s s.transmit := by
  have started : ∀ (content : TxContent) (u : State), KeepsDriven u (u.startFrame content) := fun _ _ => .of_eq rfl rfl rfl
  have solicited : KeepsDriven s s.markSolicited := .of_eq rfl rfl rfl
  unfold State.transmit
  split
  · exact (markTaken_driven s).trans (started _ _)
  · exact (markTaken_driven s).trans (started _ _)
  · split
    · exact started _ s
    · exact .refl s
  · exact solicited.trans (started _ _)
  · exact started _ s
  · exact .refl s
  · exact .refl s
  · exact .refl s

theorem lineIdle_driven (s : State) : KeepsDriven s s.lineIdle :=
  (KeepsDriven.trans (s := s) (t := { s with line := .idle, assembly := .empty }) (.of_eq rfl rfl rfl)
    (report_driven .line false _)).trans (transmit_driven _)

theorem stuckLine_driven (s : State) : KeepsDriven s s.stuckLine := by
  have reported : ∀ u : State, KeepsDriven s u → KeepsDriven s (u.report .line true) := fun u h => h.trans (report_driven _ _ u)
  unfold State.stuckLine
  dsimp only
  split
  · exact reported _ (.of_eq rfl rfl rfl)
  · split <;> exact reported _ (.of_eq rfl rfl rfl)

/-- At the entry to RUNNING every output is evaluated, whatever it showed (R144, R185). -/
theorem enterRunning_driven (s u : State) : KeepsDriven s u.enterRunning := by
  have anew : Unsettles (fun _ _ => True) s u.atRunning.startBurst.startOverdueTimers.fillSolicits.beginPresence :=
    ⟨fun _ _ _ _ _ kept => absurd (.inr trivial) kept⟩
  rw [enterRunning_eq]
  exact anew.evaluateWhere fun _ _ => .inl rfl

theorem noImage_driven (error : ConfigError) (straps : Station) (s : State) : KeepsDriven s (s.noImage error straps) := by
  refine .of_stopped fun running => ?_
  have : (if (usableNumber straps).isSome then StationState.unconfigured else .halted) = .running := running
  split at this <;> cases this

theorem endLoad_driven (memory : List Byte) (straps : Station) (inputs : PinInputs) (s : State) :
    KeepsDriven s (s.endLoad memory straps inputs) := by
  unfold State.endLoad
  split
  · exact noImage_driven _ _ s
  · dsimp only
    split
    · refine .of_stopped ?_
      unfold State.validImage
      dsimp only
      split <;> nofun
    · exact noImage_driven _ _ s

/-! ## Expiries -/

theorem solicitExpired_driven (x : Solicit) (s : State) : KeepsDriven s (s.solicitExpired x) := by
  have removed : KeepsDriven s ((s.removeSolicit x.point).bump .solicitsUnanswered) := .of_eq rfl rfl rfl
  unfold State.solicitExpired
  split
  · exact .of_eq rfl rfl rfl
  · exact (removed.trans (updateMirrored_driven x.point (fun m => { m with backoff := some (s.clock + Config.backoff) })
      (fun _ => rfl) (fun _ => rfl) _)).trans (fillSolicits_driven _)

theorem refreshTimerExpiry_driven (n : Nat) (due : Time) (o : Owned) (s : State) :
    KeepsDriven s (let t := (s.advanceTo due).updateOwned n fun o => { o with refreshTimer := none }
      if o.sched = .quiet then t.joinRoutine n else t) := by
  have stopped := (advanceTo_driven due s).trans (updateOwned_driven n (fun o => { o with refreshTimer := none }) (fun _ => rfl) _)
  dsimp only
  split
  · exact stopped.trans (joinRoutine_driven n _)
  · exact stopped

theorem stalenessExpiry_driven (n : Nat) (due : Time) (s : State) :
    KeepsDriven s ((((s.advanceTo due).updateMirrored n Mirrored.goStale).judgeSource).evaluateSource n) :=
  (((advanceTo_driven due s).unsettles.trans (updateMirrored_unsettles n Mirrored.goStale _)).trans
    (judgeSource_driven _).unsettles).evaluateSource

/-! ## Every command -/

/-- A command leaves no output to be evaluated: the inversion of `exec` that the law of the outputs rests on. -/
theorem exec_driven {c : Instr} {s t : State} (run : exec c s = .next t) : KeepsDriven s t := by
  have waited : ∀ {u : State} (e : Time), KeepsDriven (s.advance e) u → KeepsDriven s u := fun e => (advance_driven e s).trans
  cases c <;> cases run
  case powerRestart => exact restart_driven ..
  case pinRestart e held =>
    split
    · exact restart_driven ..
    · exact advance_driven e s
  case resetRelease e =>
    split
    · exact advance_driven e s
    · exact .of_eq rfl rfl rfl
  case loadComplete e memory straps inputs =>
    split
    · exact waited e (endLoad_driven ..)
    · exact advance_driven e s
  case loadFailed e failure straps =>
    split
    · exact waited e (noImage_driven ..)
    · exact advance_driven e s
  case joinWindowExpiry =>
    split
    · exact enterRunning_driven s _
    · exact .refl s
  case lineIdleEvent e =>
    split
    · exact advance_driven e s
    · exact waited e (lineIdle_driven _)
  case transmissionComplete e | contentionLost e | transmitFailure e => exact waited e (endFrame_driven ..)
  case frameDiscarded e samples =>
    split
    · exact .of_eq rfl rfl rfl
    · exact advance_driven e s
  case duplicateDetection e =>
    split
    · exact .of_stopped nofun
    · exact advance_driven e s
  case urgentPublish e _ _ | routinePublish e _ _ | solicit e _ _ | presence e _ _ | reply e _ _ _ | force e _ _ _ | release e _ _ _
      | restart e _ _ _ | clearCounters e _ _ _ | status e _ _ _ | pointGroup e _ _ _ | peer e _ _ _ | output e _ _ _
      | counters e _ _ _ | unknownRequestKind e _ _ _ _ => exact waited e (arrive_driven ..)
  case stuckLineEpisode e =>
    split
    · exact waited e (stuckLine_driven _)
    · exact advance_driven e s
  case transmitGuardTrip e =>
    split
    · exact advance_driven e s
    · exact restart_driven ..
  case debouncedTransition e pin level =>
    split
    · split
      · exact waited e (pinTransition_driven ..)
      · exact advance_driven e s
    · exact advance_driven e s
  case levelReading e pin reading =>
    split
    · exact waited e (pinReading_driven ..)
    · exact advance_driven e s
  case refreshTimerExpiry n =>
    split
    · split
      · exact .refl s
      · exact refreshTimerExpiry_driven ..
    · exact .refl s
  case stalenessDeadlineExpiry n =>
    split
    · split
      · exact .refl s
      · split
        · exact stalenessExpiry_driven ..
        · exact .refl s
    · exact .refl s
  case overdueTimerExpiry n =>
    split
    · split
      · exact .refl s
      · next due _ =>
        exact ((advanceTo_driven due s).trans (updateMirrored_driven n (fun m => { m with overdue := true, overdueTimer := none })
          (fun _ => rfl) (fun _ => rfl) _)).trans (judgeSource_driven _)
    · exact .refl s
  case solicitDeadlineExpiry n =>
    split
    · split
      · exact (advanceTo_driven _ s).trans (solicitExpired_driven _ _)
      · exact .refl s
    · exact .refl s
  case backoffMarkExpiry n =>
    split
    · split
      · exact .refl s
      · next due _ =>
        exact ((advanceTo_driven due s).trans (updateMirrored_driven n (fun m => { m with backoff := none })
          (fun _ => rfl) (fun _ => rfl) _)).trans (fillSolicits_driven _)
    · exact .refl s
  case presenceTimerExpiry | quarantineTimerExpiry | recentCommandExpiry =>
    split
    · exact .of_eq rfl rfl rfl
    · exact .refl s
  case silentDeadlineExpiry p =>
    split
    · split
      · exact .refl s
      · split
        · exact (advanceTo_driven _ s).trans (updatePeer_driven p _ _)
        · exact .refl s
    · exact .refl s
  case lostDeadlineExpiry p =>
    split
    · split
      · exact .refl s
      · split
        · exact (((advanceTo_driven _ s).trans (updatePeer_driven p _ _)).trans (peerLost_driven p _)).trans (judgePeerLost_driven _)
        · exact .refl s
    · exact .refl s
  case leaseExpiry i p =>
    split
    · split
      · exact (advanceTo_driven _ s).trans (removeOverride_driven i p _)
      · exact .refl s
    · exact .refl s
  case restartBoundExpiry =>
    split
    · exact restart_driven ..
    · exact .refl s
  case digitalInputSample e levels =>
    split
    · exact waited e (.fold _ (samplePin_driven levels) _ _)
    · exact advance_driven e s
  case dominantLevelSeen change =>
    split
    · exact .of_eq rfl rfl rfl
    · exact advance_driven _ s

theorem step_keeps_drivenLawful {s t : State} (lawful : DrivenLawful s) (run : step s = .next t) : DrivenLawful t := by
  unfold step at run
  split at run
  · cases run; exact lawful
  · next c rest _ =>
    have queued : KeepsDriven s { s with pending := rest } := .of_eq rfl rfl rfl
    exact (queued.trans (exec_driven run)).lawful lawful

/-! ## The level that an evaluation chooses (R141 to R143) -/

/-- The level that a value of an entry gives, the invert of the binding applied (R141). -/
theorem valueLevel_inverted (b : Binding) (k : Kind) (value : Byte) : (valueLevel k b.threshold value != b.invert) =
    ((match k with
      | .binary => value == 1
      | .level => decide (b.threshold.toNat ≤ value.toNat)) != b.invert) := by cases k <;> rfl

theorem bindingLevel_null {b : Binding} (null : b.source = 0) (points : List Point) : b.level points = some false := by
  simp [Binding.level, null]

theorem bindingLevel_entry {b : Binding} {points : List Point} {p : Point} (bound : b.source ≠ 0)
    (found : findPoint b.source points = some p) : b.level points = (p.level b.threshold).map fun l => l != b.invert := by
  simp [Binding.level, bound, found]

theorem pointLevel_owned {p : Point} {w : Owned} (role : p.role = .owned w) (threshold : Byte) :
    p.level threshold = some (valueLevel p.kind threshold w.current) := by simp [Point.level, role]

theorem pointLevel_fresh {p : Point} {m : Mirrored} {v : Byte} (role : p.role = .mirrored m) (fresh : m.state = .fresh)
    (value : m.value = some v) (threshold : Byte) : p.level threshold = some (valueLevel p.kind threshold v) := by
  simp [Point.level, role, fresh, value]

theorem pointLevel_without {p : Point} {m : Mirrored} (role : p.role = .mirrored m) (without : m.state = .unknown ∨ m.state = .stale)
    (threshold : Byte) : p.level threshold = none := by
  rcases without with e | e <;> simp [Point.level, role, e]

/-- A source-derived level is driven and held (R142, R143). -/
theorem evaluate_levels {points : List Point} {o : Output} {b : Bool} (free : o.overrides = []) (level : o.binding.level points = some b) :
    (o.evaluate points).driven = b ∧ (o.evaluate points).held = b := by
  rw [evaluate_of_level free level]; exact ⟨rfl, rfl⟩

/-- Settles O10: no command leaves an output to be evaluated, and the levels are those of R141 to R143, case by case. -/
theorem stepKeepsOutputs : Obligations.StepKeepsOutputs := by
  refine ⟨fun s t => step_keeps_drivenLawful, ?_⟩
  intro points o chosen shown
  refine ⟨evaluate_only points o, fun x rest overrides => ?_, fun free null => evaluate_levels free (bindingLevel_null null points),
    fun free bound p found => ?_⟩
  · have driven : chosen = { o with driven := x.value } := evaluate_of_override overrides
    rw [driven]; exact ⟨rfl, rfl⟩
  · have level := bindingLevel_entry bound found
    refine ⟨fun w role => ?_, fun m v role fresh value => ?_, fun m role without => ?_⟩
    · rw [pointLevel_owned role, Option.map_some, valueLevel_inverted] at level
      exact evaluate_levels free level
    · rw [pointLevel_fresh role fresh value, Option.map_some, valueLevel_inverted] at level
      exact evaluate_levels free level
    · rw [pointLevel_without role without, Option.map_none] at level
      have driven : chosen = { o with driven := o.binding.fallback.level o.held } := evaluate_of_fallback free level
      rw [driven]
      refine ⟨rfl, ?_⟩
      cases o.binding.fallback <;> rfl

end Sys2Proof.Machine
end

