-- ==== Sys2Proof/Proofs/RequestTaken.lean ====
section
/-!
SUPPORT. A request taken in RUNNING (R158 to R163): what the station that has heard it holds, the body of each command and query, and the
answer of a command.
-/

namespace Sys2Proof.Machine

open Sys2Proof.Safety

/-! ## The station that has heard the request -/

theorem hears_of_receives {s : State} {p own : Station} (receives : Receives s) (ok : stationOk p = true) (number : s.number = some own)
    (other : p ≠ own) : Hears s p := ⟨receives, ok, fun e => other (Option.some.inj (e.symm.trans number))⟩

theorem asked_hears {s : State} {p own : Station} (asked : Asked s p own) : Hears s p := by
  obtain ⟨-, receives, number, -, ok, other, -⟩ := asked
  exact hears_of_receives receives ok number other

theorem heardFrom_replies (e : Time) (p : Station) (s : State) : (heardFrom e p s).replies = s.replies := by
  rw [heardFrom_tables]; rfl

theorem heardFrom_recent (e : Time) (p : Station) (s : State) : (heardFrom e p s).recent = s.recent := by
  rw [heardFrom_tables]; rfl

theorem heardFrom_number (e : Time) (p : Station) (s : State) : (heardFrom e p s).number = s.number :=
  (heardFrom_tables e p s).number

theorem heardFrom_clock {s : State} (dispatches : s.station.dispatches = true) (e : Time) (p : Station) :
    (heardFrom e p s).clock = s.clock + e := by
  rw [heardFrom_received dispatches, (heard_tables p _).clock]; rfl

/-- Where the station heard has no entry, the roster is full and nothing else came of the frame than its count (R127, R128). -/
theorem heard_absent {p : Station} {s : State} (live : s.station.live = true) (absent : (s.heard p).peerAt p = none) :
    s.heard p = s ∧ 24 ≤ s.roster.length := by
  cases held : s.peerAt p with
  | some x =>
    rw [heard_held live held, peerAt_congr (judgePeerLost_status _).roster, peerAt_updatePeer p p (Peer.hear s.clock) s fun _ => rfl,
      held] at absent
    cases absent
  | none =>
    by_cases room : s.roster.length < 24
    · rw [heard_room live held room, peerAt_append (p := p) rfl held, if_pos rfl] at absent
      cases absent
    · have full := Nat.le_of_not_lt room
      cases named : namesSource p s.points with
      | false => exact ⟨heard_unnamed live held full named, full⟩
      | true =>
        rw [heard_named live held full named] at absent ⊢
        rcases mustTrack_roster p s with ⟨room', -⟩ | ⟨-, -, e⟩ | ⟨v, -, chosen, e⟩
        · exact absurd room' room
        · rw [e]; exact ⟨rfl, full⟩
        · rw [e, peerAt_congr (judgePeerLost_status _).roster,
            peerAt_replace (p := p) rfl (evictionChoice_evicted chosen).held held, if_pos rfl] at absent
          cases absent

theorem heardFrom_absent {e : Time} {p : Station} {s : State} (live : s.station.live = true)
    (absent : ∀ x ∈ (heardFrom e p s).roster, x.station ≠ p) : (heardFrom e p s).peerAt p = none
      ∧ (heardFrom e p s).points = s.points ∧ 24 ≤ (heardFrom e p s).roster.length := by
  have none := peerAt_none_iff.mpr absent
  refine ⟨none, ?_⟩
  rw [heardFrom_received (dispatches_of_live live)] at none ⊢
  obtain ⟨still, full⟩ := heard_absent (s := s.received e) live none
  rw [still]
  exact ⟨rfl, full⟩

/-! ## The request passes to its class (R158 to R163) -/

/-- A request with room for its reply goes to the steps of its class (R158 to R160). -/
theorem exec_taken {e : Time} {s : State} {p own : Station} (hears : Hears s p) (number : s.number = some own)
    (directed : own ≠ Config.everyone) (room : s.replies.length < 4) (cls : RequestClass) {body : List Byte} (fits : bodyOk body = true)
    (takes : takesRequest s.station cls body = true) : exec (.unknownRequestKind e cls p own body) s
      = .next (match (generalizing := false) cls with
        | .command => (heardFrom e p s).takeCommand p body
        | .query => (heardFrom e p s).takeQuery p body) := by
  have taken : (takesRequest (heardFrom e p s).station cls body
      && decide ((heardFrom e p s).replies.length < Config.maxReplies)) = true := by
    rw [heardFrom_station, heardFrom_replies, takes, Bool.true_and]
    exact decide_eq_true room
  rw [exec_request hears cls own fits, State.filterRequest, if_neg directed, if_pos ((heardFrom_number e p s).trans number)]
  exact congrArg Host.Outcome.next (if_pos taken)

theorem takesRequest_running {s : State} (running : s.station = .running) (cls : RequestClass) (body : List Byte) :
    takesRequest s.station cls body = true := by rw [running]; rfl

/-- A command new to the recent-command table is performed (R163). -/
theorem exec_command {e : Time} {s : State} {p own : Station} (asked : Asked s p own) {body : List Byte} {c : Command} {tag : Byte}
    (fits : bodyOk body = true) (parsed : commandOf body = some c) (tagged : tagOf body = tag)
    (unlisted : findRecent p tag s.recent = none) :
    exec (.unknownRequestKind e .command p own body) s = .next ((heardFrom e p s).performCommand p tag c) := by
  have hears := asked_hears asked
  obtain ⟨running, -, number, directed, -, -, room⟩ := asked
  rw [exec_taken hears number directed room .command fits (takesRequest_running running _ _)]
  simp only [State.takeCommand, parsed, tagged, heardFrom_recent, unlisted]

/-- A query is answered (R169 to R172). -/
theorem exec_query {e : Time} {s : State} {p own : Station} (hears : Hears s p) (number : s.number = some own)
    (directed : own ≠ Config.everyone) (room : s.replies.length < 4) {body : List Byte} (takes : takesRequest s.station .query body = true)
    (fits : bodyOk body = true) {q : Query} (parsed : queryOf body = some q) {tag : Byte} (tagged : tagOf body = tag) {r : Reply}
    (reply : (heardFrom e p s).queryReply p tag q = r) :
    exec (.unknownRequestKind e .query p own body) s = .next { heardFrom e p s with replies := s.replies ++ [r] } := by
  rw [exec_taken hears number directed room .query fits takes]
  simp only [State.takeQuery, parsed, tagged, reply, State.queueReply, heardFrom_replies]

/-! ## The bodies of the requests (R161, section 11.1.3) -/

theorem pinField_ofNat (i : Fin 16) : pinField (BitVec.ofNat 8 i.val) = some i := by
  have value : (BitVec.ofNat 8 i.val).toNat = i.val := by rw [BitVec.toNat_ofNat]; omega
  simp [pinField, value]

theorem commandOf_force (tag : Byte) (i : Fin 16) (v : Bool) (lease : Byte) :
    commandOf [1, tag, BitVec.ofNat 8 i.val, if v then 1 else 0, lease] = some (.force i v lease) := by
  have parsed : parseForce [BitVec.ofNat 8 i.val, if v then 1 else 0, lease] = some (.force i v lease) := by
    cases v <;> simp [parseForce, pinField_ofNat]
  exact parsed

theorem commandOf_release (tag : Byte) (i : Fin 16) : commandOf [2, tag, BitVec.ofNat 8 i.val] = some (.release i) := by
  have parsed : parseRelease [BitVec.ofNat 8 i.val] = some (.release i) := by simp [parseRelease, pinField_ofNat]
  exact parsed

/-! ## The answer of a command (R162, R165, R173) -/

/-- A command that has changed the tables at most is answered with a code, and its outcome recorded. -/
theorem answer_heard {e : Time} {s u : State} {p : Station} (running : s.station = .running) (only : OnlyTables (heardFrom e p s) u)
    (tag : Byte) (k : CommandKind) (code : ReplyCode) : u.answer p tag k code = { u with
      replies := s.replies ++ [{ dest := p, tag := tag, code := code, data := [], restartMark := false }]
      recent := (if s.recent.length < 8 then s.recent else s.recent.drop 1)
        ++ [{ sender := p, tag := tag, kind := k, outcome := code, written := s.clock + e }] } := by
  have replies : u.replies = s.replies := (congrArg State.replies only).trans (heardFrom_replies e p s)
  have recent : u.recent = s.recent := (congrArg State.recent only).trans (heardFrom_recent e p s)
  have clock : u.clock = s.clock + e := only.clock.trans (heardFrom_clock (by rw [running]; rfl) e p)
  rw [← replies, ← recent, ← clock]
  rfl

end Sys2Proof.Machine
end

