-- ==== Sys2Proof/Proofs/OutputCommands.lean ====
section
/-!
THEOREM. FORCE (O40), RELEASE (O41), and the expiries of a lease and of a recent-command entry (O57).
-/

namespace Sys2Proof.Machine

open Sys2Proof.Safety

/-! ## Override lists (R145) -/

theorem dropOrigin_filter (p : Station) (l : List Override) : dropOrigin p l = l.filter fun x => decide (x.origin ≠ p) :=
  List.filter_congr fun x _ => Bool.eq_iff_iff.mpr (by rw [bne_iff_ne, decide_eq_true_iff])

theorem hasOrigin_false {p : Station} {l : List Override} (none : ∀ x ∈ l, x.origin ≠ p) : hasOrigin p l = false := by
  rw [Bool.eq_false_iff, ne_eq, hasOrigin_iff]
  exact fun ⟨x, hx, e⟩ => none x hx e

/-- The outputs once the entry of an origin has left the list of a pin, and the output has been evaluated (R144, R147, R148). -/
def State.released (i : Fin 16) (p : Station) (s : State) : List Output := s.outputs.map fun o =>
  if o.pin = i then Output.evaluate s.points { o with overrides := o.overrides.filter fun x => decide (x.origin ≠ p) } else o

/-- An entry leaves its list, its output is evaluated, and the origin's mark is kept (R144, R147, R148, R152). -/
theorem removeOverride_eq {s : State} (running : s.station = .running) (i : Fin 16) (p : Station) : s.removeOverride i p = { s with
    outputs := s.released i p
    roster := s.roster.map fun x => if x.station = p then { x with holdsOverrides := holdsOverride p (s.released i p) } else x } := by
  rw [State.removeOverride, evaluatePin_updateOverrides running]
  simp only [dropOrigin_filter]
  rfl

/-- A new entry stands at the head of the list of a pin, which drives the output, and the origin is marked (R142, R146, R152). -/
def State.forced (i : Fin 16) (entry : Override) (s : State) : State := { s with
  outputs := s.outputs.map fun o =>
    if o.pin = i then
      { o with overrides := entry :: o.overrides.filter (fun x => decide (x.origin ≠ entry.origin)), driven := entry.value }
    else o
  roster := s.roster.map fun x => if x.station = entry.origin then { x with holdsOverrides := true } else x }

theorem push_eq {s : State} (running : s.station = .running) {i : Fin 16} {o : Output} (at_i : s.outputAt i = some o) (entry : Override) :
    ((s.updateOverrides i fun l => entry :: dropOrigin entry.origin l).evaluatePin i).keepHoldsMark entry.origin
      = s.forced i entry := by
  have driven : ∀ x : Output, { x with overrides := entry :: dropOrigin entry.origin x.overrides }.evaluate s.points
      = { x with
        overrides := entry :: x.overrides.filter (fun y => decide (y.origin ≠ entry.origin)), driven := entry.value } := fun x => by
    rw [evaluate_of_override (e := entry) rfl, dropOrigin_filter]
  have held : holdsOverride entry.origin (s.forced i entry).outputs = true := by
    have pin : o.pin = i := by simpa using List.find?_some at_i
    refine (holdsOverride_iff _ _).mpr ⟨_, List.mem_map_of_mem (List.mem_of_find?_eq_some at_i), entry, ?_, rfl⟩
    rw [if_pos pin]
    exact List.mem_cons_self
  rw [evaluatePin_updateOverrides running]
  simp only [driven]
  unfold State.forced at held ⊢
  simp only [State.keepHoldsMark, held]

/-! ## FORCE (R146) -/

theorem leaseExpiry_eq (now : Time) (lease : Byte) :
    leaseExpiry now lease = if lease = 0 then none else some (now + lease.toNat * 1000000) := rfl

/-- The table of R146. -/
theorem applyForce_cases {s : State} (running : s.station = .running) (p : Station) (i : Fin 16) (v : Bool) (lease : Byte) :
    (s.outputAt i = none → s.applyForce p i v lease = (s, .noOutput))
    ∧ ∀ o, s.outputAt i = some o →
      let pushed := s.forced i { origin := p, value := v, lease := leaseExpiry s.clock lease }
      (o.binding.overridable = false → s.applyForce p i v lease = (s, .denied))
      ∧ (o.binding.overridable = true → (∃ x ∈ o.overrides, x.origin = p) → s.applyForce p i v lease = (pushed, .replaced))
      ∧ (o.binding.overridable = true → (∀ x ∈ o.overrides, x.origin ≠ p) → 4 ≤ o.overrides.length →
          s.applyForce p i v lease = (s, .full))
      ∧ (o.binding.overridable = true → (∀ x ∈ o.overrides, x.origin ≠ p) → o.overrides.length < 4 →
          s.applyForce p i v lease = (pushed, .accepted)) := by
  refine ⟨fun none => by simp only [State.applyForce, none], fun o at_i => ?_⟩
  have push := push_eq running at_i { origin := p, value := v, lease := leaseExpiry s.clock lease }
  simp only [State.applyForce, at_i, push]
  refine ⟨fun fixed => by simp [fixed], fun free held => ?_, fun free none full => ?_, fun free none room => ?_⟩
  · simp [free, hasOrigin_iff.mpr held]
  · simp [free, hasOrigin_false none, Config.maxOverrides, full]
  · simp [free, hasOrigin_false none, Config.maxOverrides, Nat.not_le.mpr room]

/-- Where the sender has an entry, or is given one, the Output Unit answers (R164, R165). -/
theorem force_tracked {s u : State} {p : Station} (tracked : s.track p = (u, true)) (tag : Byte) (i : Fin 16) (v : Bool) (lease : Byte) :
    s.force p tag i v lease = (u.applyForce p i v lease).1.answer p tag .force (u.applyForce p i v lease).2 := by
  simp only [State.force, tracked]

/-- Where the sender has no entry and is given none, the roster has no room (R164, R128). -/
theorem force_untracked {s u : State} {p : Station} (untracked : s.track p = (u, false)) (tag : Byte) (i : Fin 16) (v : Bool)
    (lease : Byte) : s.force p tag i v lease = u.answer p tag .force .noRoom := by
  simp only [State.force, untracked]

theorem exec_force {e : Time} {s : State} {p own : Station} {tag : Byte} (asked : Asked s p own)
    (unlisted : findRecent p tag s.recent = none) (i : Fin 16) (v : Bool) (lease : Byte) :
    exec (.force e p own [tag, BitVec.ofNat 8 i.val, if v then 1 else 0, lease]) s
      = .next ((heardFrom e p s).force p tag i v lease) :=
  exec_command asked rfl (commandOf_force tag i v lease) rfl unlisted

/-! ## The roster check (R164, R128) -/

theorem track_held {s : State} {p : Station} (held : ∃ x ∈ s.roster, x.station = p) : s.track p = (s, true) := by
  obtain ⟨x, member, same⟩ := held
  rcases track_cases p s with ⟨-, -, e⟩ | ⟨absent, -⟩ | ⟨absent, -⟩
  · exact e
  · exact absurd same (peerAt_none_iff.mp absent x member)
  · exact absurd same (peerAt_none_iff.mp absent x member)

/-- On a full roster a station that has no entry is given the place of an evicted one. -/
theorem track_evicts {s : State} {p : Station} (absent : s.peerAt p = none) (full : 24 ≤ s.roster.length)
    (evictable : ∃ x ∈ s.roster, x.state ≠ .present ∧ ¬ Kept x) :
    ∃ v, Evicted s.roster v ∧ s.track p = (State.judgePeerLost { s with
      roster := s.roster.map fun x => if x.station = v.station then createdPeer p s.clock (namesSource p s.points) else x }, true) := by
  rcases mustTrack_roster p s with ⟨room, -⟩ | ⟨-, chosen, -⟩ | ⟨v, -, chosen, e⟩
  · exact absurd room (Nat.not_lt.mpr full)
  · obtain ⟨x, held, away, unkept⟩ := evictable
    exact ((evictionChoice_none s.roster).mp chosen x held).elim (absurd · away) (absurd · unkept)
  · exact ⟨v, evictionChoice_evicted chosen, by simp only [State.track, absent, e, newPeer_eq]⟩

/-- On a full roster that gives up no entry the overflow is counted and reported. -/
theorem track_overflows {s : State} {p : Station} (absent : s.peerAt p = none) (full : 24 ≤ s.roster.length)
    (kept : ∀ x ∈ s.roster, x.state = .present ∨ Kept x) :
    s.track p = ((s.bump .rosterOverflows).report .overflow true, false) := by
  rcases mustTrack_roster p s with ⟨room, -⟩ | ⟨-, -, e⟩ | ⟨v, -, chosen, -⟩
  · exact absurd room (Nat.not_lt.mpr full)
  · simp only [State.track, absent, e]
  · rw [(evictionChoice_none s.roster).mpr kept] at chosen
    cases chosen

/-- Settles O40: the roster check on the roster that the frame heard has left, then the table of R146 on the station tracked. -/
theorem force : Obligations.Force := by
  intro e s p own tag lease i v asked unlisted h c answered entry pushed
  have running : s.station = .running := asked.1
  have live : s.station.live = true := live_of_running running
  have run : exec c s = .next (h.force p tag i v lease) := exec_force asked unlisted i v lease
  have answer : ∀ {u : State}, OnlyTables h u → ∀ code, u.answer p tag .force code = answered code u := fun only code =>
    answer_heard running only tag .force code
  refine ⟨track_held, fun none evictable => ?_, fun none kept => ?_, fun u tracked => ?_⟩
  · obtain ⟨absent, points, full⟩ := heardFrom_absent live none
    obtain ⟨w, evicted, tracked⟩ := track_evicts absent full evictable
    refine ⟨_, w, tracked, evicted, ?_⟩
    have clock : h.clock = s.clock + e := heardFrom_clock (dispatches_of_live live) e p
    obtain ⟨roster, faults⟩ := judgePeerLost_judged { h with
      roster := h.roster.map fun x => if x.station = w.station then createdPeer p h.clock (namesSource p h.points) else x }
    refine ⟨?_, faults, outputLists_report _ _ _, ?_, fun distinct => ?_⟩
    · rw [roster, clock, points]
    · rw [roster]; exact judgePeerLost_status _
    · rw [roster, judgePeerLost_faults]
      exact report_eq (points ▸ distinct) _ _
  · obtain ⟨absent, points, full⟩ := heardFrom_absent live none
    have tracked := track_overflows absent full kept
    have reported := report_status .overflow true (h.bump .rosterOverflows)
    have only : OnlyTables h ((h.bump .rosterOverflows).report .overflow true) := (bump_tables _ h).trans reported.tables
    refine ⟨_, run.trans (congrArg Host.Outcome.next ((force_untracked tracked tag i v lease).trans (answer only .noRoom))), rfl, rfl,
      reported.counters, report_faults _ _ _, reported.roster, outputLists_report _ _ _, ?_, fun distinct => ?_⟩
    · rw [reported]; rfl
    · show answered .noRoom ((h.bump .rosterOverflows).report .overflow true) = answered .noRoom (summaryTaken _ { h with
        counters := ((h.bump .rosterOverflows).report .overflow true).counters })
      rw [reported.counters]
      exact congrArg (answered .noRoom) (report_eq (s := h.bump .rosterOverflows) (points ▸ distinct) .overflow true)
  · have only : OnlyTables h u := by
      have := track_tables p h
      rwa [tracked] at this
    have station : u.station = .running := (only.station.trans (heardFrom_station e p s)).trans running
    have clock : u.clock = s.clock + e := only.clock.trans (heardFrom_clock (dispatches_of_live live) e p)
    obtain ⟨without, table⟩ := applyForce_cases station p i v lease
    have answers : ∀ {t : State} {code : ReplyCode}, u.applyForce p i v lease = (t, code) → exec c s = .next (answered code t) := by
      intro t code applied
      have taken := only.trans (applyForce_tables p i v lease u)
      rw [run, force_tracked tracked, applied, answer (by rwa [applied] at taken)]
    have entries : u.forced i { origin := p, value := v, lease := leaseExpiry u.clock lease } = pushed u := by
      rw [clock, leaseExpiry_eq]
      rfl
    refine ⟨fun none => answers (without none), fun o at_i => ?_⟩
    obtain ⟨denied, replaced, full, accepted⟩ := table o at_i
    rw [entries] at replaced accepted
    exact ⟨fun fixed => answers (denied fixed), fun free held => answers (replaced free held),
      fun free unheld long => answers (full free unheld long), fun free unheld room => answers (accepted free unheld room)⟩

/-! ## RELEASE (R147) -/

theorem exec_release {e : Time} {s : State} {p own : Station} {tag : Byte} (asked : Asked s p own)
    (unlisted : findRecent p tag s.recent = none) (i : Fin 16) :
    exec (.release e p own [tag, BitVec.ofNat 8 i.val]) s = .next ((heardFrom e p s).release p tag i) :=
  exec_command asked rfl (commandOf_release tag i) rfl unlisted

/-- Settles O41, by the table of R147. -/
theorem release : Obligations.Release := by
  intro e s p own tag i asked unlisted h c answered outputs
  have running : s.station = .running := asked.1
  have station : h.station = .running := (heardFrom_station e p s).trans running
  have answers : ∀ {t : State} {code : ReplyCode}, h.applyRelease p i = (t, code) → exec c s = .next (answered code t) := by
    intro t code applied
    have only := applyRelease_tables p i h
    have released : h.release p tag i = t.answer p tag .release code := by simp only [State.release, applied]
    rw [exec_release asked unlisted i, released, answer_heard running (by rwa [applied] at only)]
  refine ⟨fun none => answers (by simp only [State.applyRelease, none]), fun o at_i => ⟨fun none => answers ?_, fun held => ?_⟩⟩
  · simp [State.applyRelease, at_i, hasOrigin_false none]
  · have applied : h.applyRelease p i = (h.removeOverride i p, .released) := by
      simp [State.applyRelease, at_i, hasOrigin_iff.mpr held]
    rw [removeOverride_eq station] at applied
    exact answers applied

/-! ## Expiries (R148, R162) -/

/-- Settles O57: the entry named is the one whose timer runs, and it alone leaves. -/
theorem leaseAndRecent : Obligations.LeaseAndRecent := by
  refine ⟨?_, fun s p tag x running found => ?_⟩
  · intro s i p o x due running at_i found leased outputs
    have run : exec (.leaseExpiry i p) s = .next ((s.advanceTo due).removeOverride i p) := by
      show execLeaseExpiry i p s = _
      simp [execLeaseExpiry, running, at_i, found, leased]
    rw [run, removeOverride_eq (s := s.advanceTo due) running]
    rfl
  · have keeps : ∀ y : Recent, (!(y.sender == p && y.tag == tag)) = decide (¬ (y.sender = p ∧ y.tag = tag)) := fun y => by
      rw [Bool.eq_iff_iff]; simp
    show execRecentCommandExpiry p tag s = _
    unfold execRecentCommandExpiry
    split
    · next y _ found' =>
      cases found'.symm.trans found
      simp only [keeps]
      rfl
    · next none => exact absurd found (none x running)

end Sys2Proof.Machine
end

