-- ==== Sys2Proof/Proofs/QueryAnswers.lean ====
section
/-!
THEOREM. The five queries (O44): each byte of the data of a reply by its bits, and the exchange itself.
-/

namespace Sys2Proof.Machine

open Sys2Proof.Safety

/-! ## Bytes made of fields -/

theorem bitAt_eq (i : Nat) (b : Bool) : bitAt i b = BitVec.ofNat 8 (2 ^ i * b.toNat) := by
  apply BitVec.eq_of_toNat_eq
  cases b <;> simp [bitAt, BitVec.toNat_twoPow]

theorem ofNat_shiftLeft (m i : Nat) : BitVec.ofNat 8 m <<< i = BitVec.ofNat 8 (2 ^ i * m) := by
  apply BitVec.eq_of_toNat_eq
  simp [Nat.shiftLeft_eq, Nat.mul_comm]

/-- Bits above those of a smaller number join it by addition. -/
theorem ofNat_or_above {n i : Nat} (below : n < 2 ^ i) (m : Nat) :
    BitVec.ofNat 8 n ||| BitVec.ofNat 8 (2 ^ i * m) = BitVec.ofNat 8 (n + 2 ^ i * m) := by
  rw [Nat.add_comm, Nat.two_pow_add_eq_or_of_lt below, Nat.or_comm, BitVec.ofNat_or]

/-- The fault summary by its bits (section 11.1.2). -/
theorem FaultSummary.byte_eq (f : FaultSummary) : f.byte = BitVec.ofNat 8 (f.config.toNat + 2 * f.duplicate.toNat
    + 4 * f.silenced.toNat + 8 * f.conflict.toNat + 16 * f.source.toNat + 32 * f.peerLost.toNat + 64 * f.line.toNat
    + 128 * f.overflow.toNat) := by
  have b0 := f.config.toNat_le
  have b1 := f.duplicate.toNat_le
  have b2 := f.silenced.toNat_le
  have b3 := f.conflict.toNat_le
  have b4 := f.source.toNat_le
  have b5 := f.peerLost.toNat_le
  have b6 := f.line.toNat_le
  simp only [FaultSummary.byte, bitAt_eq]
  rw [ofNat_or_above (by omega), ofNat_or_above (by omega), ofNat_or_above (by omega), ofNat_or_above (by omega),
    ofNat_or_above (by omega), ofNat_or_above (by omega), ofNat_or_above (by omega)]
  congr 1
  omega

/-! ## STATUS (R169) -/

theorem heardFrom_mirroredHalf (e : Time) (p : Station) (s : State) :
    mirroredHalf (heardFrom e p s).points = mirroredHalf s.points := by
  obtain ⟨roster, b, reported⟩ := heard_reports p (((s.advance e).endAssembly).bump .framesReceived)
  rw [heardFrom, reported]
  exact (OwnSteps.sameMirror (report_own .peerLost b _)).half

/-- The MIRRORED half decides which entries are OWNED, for an entry is the one or the other. -/
theorem entryCounts_of_half {l k : List Point} (half : mirroredHalf k = mirroredHalf l) :
    (k.filter fun p => p.owned?.isSome).length = (l.filter fun p => p.owned?.isSome).length
    ∧ (k.filter fun p => p.mirrored?.isSome).length = (l.filter fun p => p.mirrored?.isSome).length := by
  have mirrored : ∀ l : List Point, (l.filter fun p => p.mirrored?.isSome).length = (mirroredHalf l).countP fun x => x.2.2.isSome :=
    fun l => by rw [mirroredHalf, List.countP_map, List.countP_eq_length_filter]; rfl
  have owned : ∀ l : List Point, (l.filter fun p => p.owned?.isSome).length = (mirroredHalf l).countP fun x => x.2.2.isNone :=
    fun l => by
      have either : ∀ p : Point, p.owned?.isSome = p.mirrored?.isNone := fun p => by
        cases role : p.role <;> simp [Point.owned?, Point.mirrored?, role]
      rw [mirroredHalf, List.countP_map, ← List.countP_eq_length_filter]
      simp only [either, Function.comp_def]
  rw [mirrored, mirrored, owned, owned, half]
  exact ⟨rfl, rfl⟩

/-- A frame heard reaches the summary alone of what STATUS reports. -/
theorem statusData_heardFrom (e : Time) (p : Station) (s : State) : (heardFrom e p s).statusData =
    [s.station.code, s.mode.code, s.retained.cause.code, s.retained.incarnation, s.retained.guardCount.setWidth 8,
     (heardFrom e p s).faults.byte, s.error.code, BitVec.ofNat 8 s.ownedCount, BitVec.ofNat 8 s.mirroredCount] := by
  have tables := heardFrom_tables e p s
  have mode : (heardFrom e p s).mode = s.mode := by rw [tables]; rfl
  have retained : (heardFrom e p s).retained = s.retained := by rw [tables]; rfl
  have error : (heardFrom e p s).error = s.error := by rw [tables]; rfl
  obtain ⟨owned, mirrored⟩ := entryCounts_of_half (heardFrom_mirroredHalf e p s)
  rw [State.statusData, heardFrom_station, mode, retained, error, State.ownedCount, State.mirroredCount, owned, mirrored]
  rfl

/-! ## PEER (R171) -/

/-- A time is reported in whole units of 100 ms, rounded down or up (log 19). -/
theorem ageUnits_cases (elapsed : Time) : ageUnits elapsed = min 255 (elapsed / 100000)
    ∨ (elapsed % 100000 ≠ 0 ∧ ageUnits elapsed = min 255 (elapsed / 100000 + 1)) := by
  have unit : 100 * Config.millisecond = 100000 := rfl
  simp only [ageUnits, unit]
  split
  · next up =>
    rw [Bool.and_eq_true, bne_iff_ne] at up
    exact .inr ⟨up.1, rfl⟩
  · exact .inl rfl

theorem PeerState.code_toNat (st : PeerState) : st.code.toNat = match st with
    | .present => 0
    | .silent => 1
    | .lost => 2 := by cases st <;> rfl

/-- The flags of a roster entry by their bits. -/
theorem peerFlags_eq (x : Peer) : bitAt 0 true ||| bitAt 1 x.bootSeen ||| bitAt 2 x.sourcesPoints ||| bitAt 3 x.holdsOverrides
      ||| bitAt 4 x.content.isSome ||| (x.state.code <<< 5)
    = BitVec.ofNat 8 (1 + 2 * x.bootSeen.toNat + 4 * x.sourcesPoints.toNat + 8 * x.holdsOverrides.toNat + 16 * x.content.isSome.toNat
      + 32 * x.state.code.toNat) := by
  have b1 := x.bootSeen.toNat_le
  have b2 := x.sourcesPoints.toNat_le
  have b3 := x.holdsOverrides.toNat_le
  have b4 := x.content.isSome.toNat_le
  have code : x.state.code = BitVec.ofNat 8 x.state.code.toNat := by simp
  rw [code, ofNat_shiftLeft, ← code]
  simp only [bitAt_eq, Bool.toNat_true]
  rw [ofNat_or_above (by omega), ofNat_or_above (by omega), ofNat_or_above (by omega), ofNat_or_above (by omega),
    ofNat_or_above (by omega)]
  norm_num

/-! ## OUTPUT (R157) -/

theorem SourceCondition.code_le (c : SourceCondition) : c.code.toNat ≤ 4 := by cases c <;> decide

/-- The head of an OUTPUT report by its bits. -/
theorem outputHead_eq (c : SourceCondition) (o : Output) :
    bitAt 0 o.driven ||| (c.code <<< 1) ||| (BitVec.ofNat 8 o.overrides.length <<< 4)
      = BitVec.ofNat 8 (o.driven.toNat + 2 * c.code.toNat + 16 * o.overrides.length) := by
  have b0 := o.driven.toNat_le
  have b1 := c.code_le
  have code : c.code = BitVec.ofNat 8 c.code.toNat := by simp
  rw [code, ofNat_shiftLeft, ofNat_shiftLeft, ← code, bitAt_eq, ofNat_or_above (by omega), ofNat_or_above (by omega)]
  congr 1
  omega

/-- An override entry of an OUTPUT report by its bits (R145). -/
theorem overrideBytes_eq (now : Time) (x : Override) : overrideBytes now x =
    [BitVec.ofNat 8 (x.origin.toNat + 64 * x.value.toNat + 128 * x.lease.isSome.toNat),
     match x.lease with
      | none => 0
      | some due => BitVec.ofNat 8 (max 1 (min 255 ((due - now + 999999) / 1000000)))] := by
  have b0 : x.origin.toNat < 64 := x.origin.isLt
  have b1 := x.value.toNat_le
  have head : x.origin.setWidth 8 ||| bitAt 6 x.value ||| bitAt 7 x.lease.isSome
      = BitVec.ofNat 8 (x.origin.toNat + 64 * x.value.toNat + 128 * x.lease.isSome.toNat) := by
    rw [← BitVec.ofNat_toNat, bitAt_eq, bitAt_eq, ofNat_or_above (by omega), ofNat_or_above (by omega)]
    norm_num
  rw [overrideBytes, head]
  cases x.lease <;> rfl

/-! ## POINT GROUP (R170) -/

theorem Sched.code_toNat (sched : Sched) : sched.code.toNat = match sched with
    | .quiet => 0
    | .routine => 1
    | .urgent => 2
    | .yielded => 3 := by cases sched <;> rfl

theorem MirrorState.code_toNat (st : MirrorState) : st.code.toNat = match st with
    | .unknown => 0
    | .fresh => 1
    | .stale => 2 := by cases st <;> rfl

/-- The slot of an OWNED entry by its bits. -/
theorem slotBytes_owned {i : Nat} (index : i < 16) {p : Point} {o : Owned} (role : p.role = .owned o) : slotBytes i (some p) =
    [BitVec.ofNat 8 (i + 16 + 64 * o.sched.code.toNat), BitVec.ofNat 8 (o.count.toNat + 16 + 32), o.current] := by
  have b0 : o.count.toNat < 16 := o.count.isLt
  have code : o.sched.code = BitVec.ofNat 8 o.sched.code.toNat := by simp
  simp only [slotBytes, role]
  rw [code, ofNat_shiftLeft, ← code]
  simp only [← BitVec.ofNat_toNat, bitAt_eq, Bool.toNat_true]
  rw [ofNat_or_above (by omega), ofNat_or_above (by omega), ofNat_or_above (by omega), ofNat_or_above (by omega)]
  norm_num

/-- The slot of a MIRRORED entry by its bits. -/
theorem slotBytes_mirrored {i : Nat} (index : i < 16) {p : Point} {m : Mirrored} (role : p.role = .mirrored m) : slotBytes i (some p) =
    [BitVec.ofNat 8 (i + 16 + 32 + 64 * m.state.code.toNat),
     BitVec.ofNat 8 ((m.count.getD 0).toNat + 16 * m.count.isSome.toNat + 32 * m.value.isSome.toNat + 64 * m.old.toNat),
     m.value.getD 0] := by
  have b0 : (m.count.getD 0).toNat < 16 := (m.count.getD 0).isLt
  have b1 := m.count.isSome.toNat_le
  have b2 := m.value.isSome.toNat_le
  have code : m.state.code = BitVec.ofNat 8 m.state.code.toNat := by simp
  simp only [slotBytes, role]
  rw [code, ofNat_shiftLeft, ← code]
  simp only [← BitVec.ofNat_toNat, bitAt_eq, Bool.toNat_true]
  rw [ofNat_or_above (by omega), ofNat_or_above (by omega), ofNat_or_above (by omega), ofNat_or_above (by omega),
    ofNat_or_above (by omega), ofNat_or_above (by omega)]
  norm_num

/-! ## The bodies of the queries (R161) -/

theorem queryOf_peer {q : Station} (ok : stationOk q = true) (tag : Byte) : queryOf [3, tag, q.setWidth 8] = some (.peer q) := by
  obtain ⟨low, high⟩ := (stationOk_iff q).mp ok
  have value : (q.setWidth 8).toNat = q.toNat := by simp; omega
  have back : (q.setWidth 8).setWidth 6 = q := by
    apply BitVec.eq_of_toNat_eq
    rw [BitVec.toNat_setWidth, value]
    omega
  have parsed : parsePeer [q.setWidth 8] = some (.peer q) := by simp [parsePeer, value, low, high, back]
  exact parsed

theorem queryOf_output (tag : Byte) (i : Fin 16) : queryOf [4, tag, BitVec.ofNat 8 i.val] = some (.output i) := by
  have parsed : parseOutput [BitVec.ofNat 8 i.val] = some (.output i) := by simp [parseOutput, pinField_ofNat]
  exact parsed

theorem queryOf_pointGroup {g n : Nat} (group : g ≤ 63) (positive : 1 ≤ n) (few : n ≤ 7) (tag : Byte) (i : Fin 16) :
    queryOf [2, tag, BitVec.ofNat 8 g, BitVec.ofNat 8 i.val, BitVec.ofNat 8 n] = some (.pointGroup g i n) := by
  have groupValue : (BitVec.ofNat 8 g).toNat = g := by rw [BitVec.toNat_ofNat]; omega
  have countValue : (BitVec.ofNat 8 n).toNat = n := by rw [BitVec.toNat_ofNat]; omega
  have parsed : parsePointGroup [BitVec.ofNat 8 g, BitVec.ofNat 8 i.val, BitVec.ofNat 8 n] = some (.pointGroup g i n) := by
    simp [parsePointGroup, groupValue, countValue, group, positive, few, pinField_ofNat]
  exact parsed

/-! ## The exchange -/

/-- The condition of an output's source is the one that its entry shows (R157). -/
theorem sourceCondition_code (o : Output) (s : State) : (s.sourceCondition o).code.toNat =
    if o.binding.source = 0 then 0
    else match (findPoint o.binding.source s.points).map Point.role with
      | some (.owned _) => 1
      | some (.mirrored m) =>
        match m.state with
        | .fresh => 2
        | .stale => 3
        | .unknown => 4
      | none => 4 := by
  unfold State.sourceCondition
  split
  · rfl
  · generalize (findPoint o.binding.source s.points).map Point.role = role
    match role with
    | none => rfl
    | some (.owned _) => rfl
    | some (.mirrored m) =>
      obtain ⟨state, _⟩ := m
      cases state <;> rfl

theorem outputAt_pin {s : State} {i : Fin 16} {o : Output} (at_i : s.outputAt i = some o) : o.pin = i := by
  simpa using List.find?_some at_i

/-- Settles O44: each query is answered from the station that has heard the frame, byte by byte. -/
theorem queries : Obligations.Queries := by
  intro e s p own tag h told status pair k bits peer condition output slot
  have stated : h.statusData = status s.station.code := by
    rw [statusData_heardFrom, FaultSummary.byte_eq]
    rfl
  refine ⟨fun asked => ?_, fun unconfigured receives number directed ok other room => ?_⟩
  · have hears := asked_hears asked
    obtain ⟨running, -, number, directed, -, -, room⟩ := asked
    have clock : h.clock = s.clock + e := heardFrom_clock (by rw [running]; rfl) e p
    have answer : ∀ {body : List Byte} {q : Query} {r : Reply}, bodyOk body = true → queryOf body = some q → tagOf body = tag →
        h.queryReply p tag q = r →
        exec (.unknownRequestKind e .query p own body) s = .next { h with replies := s.replies ++ [r] } :=
      fun fits parsed tagged => exec_query hears number directed room (takesRequest_running running _ _) fits parsed tagged
    refine ⟨answer rfl rfl rfl ?_, answer rfl rfl rfl rfl, answer rfl rfl rfl rfl, fun q ok absent => ?_, fun q x ok held => ?_,
      fun i none => ?_, fun i o at_i => ?_, fun g n i group positive few => ?_⟩
    · have code : s.station.code = 4 := by rw [running]; rfl
      rw [State.queryReply, stated, code]
      rfl
    · exact answer rfl (queryOf_peer ok tag) rfl (by rw [State.queryReply, absent]; rfl)
    · refine ⟨_, ageUnits_cases _, answer rfl (queryOf_peer ok tag) rfl ?_⟩
      rw [State.queryReply, held, peerBytes, peerFlags_eq, PeerState.code_toNat, clock]
      rfl
    · exact answer rfl (queryOf_output tag i) rfl (by rw [State.queryReply, State.outputReply, none]; rfl)
    · refine answer rfl (queryOf_output tag i) rfl ?_
      have bytes : outputBytes h.clock (h.sourceCondition o) o = output i o := by
        rw [outputBytes, outputHead_eq, sourceCondition_code, outputAt_pin at_i, clock,
          funext (overrideBytes_eq (s.clock + e))] <;> rfl
      rw [State.queryReply, State.outputReply, at_i, ← bytes]
      rfl
    · refine answer rfl (queryOf_pointGroup group positive few tag i) rfl ?_
      have slots : ∀ (index : Nat) (x : Option Point), index < 16 → slotBytes index x = slot index x := by
        intro index x small
        cases x with
        | none => rfl
        | some q =>
          cases role : q.role with
          | owned o =>
            rw [slotBytes_owned small role, Sched.code_toNat]
            simp only [slot, Option.map_some, role] <;> rfl
          | mirrored m =>
            rw [slotBytes_mirrored small role, MirrorState.code_toNat]
            simp only [slot, Option.map_some, role] <;> rfl
      have index : ∀ j, (i.val + j) % 16 < 16 := fun j => Nat.mod_lt _ (by decide)
      simp only [State.queryReply, State.groupData, slots _ _ (index _)]
      rfl
  · have code : s.station.code = 1 := by rw [unconfigured]; rfl
    refine exec_query (hears_of_receives receives ok number other) number directed room (by rw [unconfigured]; rfl) rfl
      (q := .status) rfl rfl ?_
    rw [State.queryReply, stated, code]
    rfl

end Sys2Proof.Machine
end

