-- ==== Sys2Proof/Proofs/Counting.lean ====
section
/-!
SUPPORT. What each operation does to the diagnostic counters (R175): it leaves them alone, or it counts. The one exception is CLEAR COUNTERS
(R168).
-/

namespace Sys2Proof.Machine

/-! ## Operations that leave the counters alone -/

theorem foldl_counters {α : Type} {f : State → α → State} (turn : ∀ s a, (f s a).counters = s.counters) (l : List α) (s : State) :
    (l.foldl f s).counters = s.counters :=
  foldl_rel (fun s t => t.counters = s.counters) (fun _ => rfl) (fun h k => k.trans h) f turn l s

@[simp] theorem report_counters (c : Condition) (b : Bool) (s : State) : (s.report c b).counters = s.counters :=
  (report_status c b s).counters
@[simp] theorem judgeSource_counters (s : State) : s.judgeSource.counters = s.counters := report_counters _ _ s
@[simp] theorem judgePeerLost_counters (s : State) : s.judgePeerLost.counters = s.counters := report_counters _ _ s
@[simp] theorem evaluateSource_counters (n : Nat) (s : State) : (s.evaluateSource n).counters = s.counters :=
  (evaluateSource_status n s).counters
@[simp] theorem evaluatePin_counters (i : Fin 16) (s : State) : (s.evaluatePin i).counters = s.counters := (evaluatePin_status i s).counters
@[simp] theorem changeEvent_counters (n : Nat) (s : State) : (s.changeEvent n).counters = s.counters :=
  (changeEvent_queue n s).status.counters
@[simp] theorem claim_counters (n : Nat) (s : State) : (s.claim n).counters = s.counters := (claim_queue n s).status.counters

@[simp] theorem fillSolicits_counters (s : State) : s.fillSolicits.counters = s.counters := by
  unfold State.fillSolicits; split <;> rfl

@[simp] theorem satisfy_counters (n : Nat) (s : State) : (s.satisfy n).counters = s.counters := by rw [satisfy_only]

@[simp] theorem solicitPoint_counters (n : Nat) (s : State) : (s.solicitPoint n).counters = s.counters := by rw [solicitPoint_eq]

@[simp] theorem removeOverride_counters (i : Fin 16) (p : Station) (s : State) : (s.removeOverride i p).counters = s.counters := by
  simp [State.removeOverride]

@[simp] theorem purge_counters (p : Station) (s : State) : (s.purge p).counters = s.counters :=
  foldl_counters (f := State.purgeOutput p) (fun t i => evaluatePin_counters i (t.updateOverrides i (dropOrigin p))) _ s

@[simp] theorem applyRelease_counters (p : Station) (i : Fin 16) (s : State) : (s.applyRelease p i).1.counters = s.counters := by
  unfold State.applyRelease
  split
  · rfl
  · split
    · exact removeOverride_counters i p s
    · rfl

@[simp] theorem applyForce_counters (p : Station) (i : Fin 16) (v : Bool) (lease : Byte) (s : State) :
    (s.applyForce p i v lease).1.counters = s.counters := by
  have pushed : ∀ f, (((s.updateOverrides i f).evaluatePin i).keepHoldsMark p).counters = s.counters := fun f => evaluatePin_counters i _
  unfold State.applyForce
  split
  · rfl
  · dsimp only
    split
    · rfl
    · split
      · exact pushed _
      · split
        · rfl
        · exact pushed _

@[simp] theorem mustTrack_counters (p : Station) (s : State) : (s.mustTrack p).1.counters = s.counters := by
  rcases mustTrack_roster p s with ⟨-, e⟩ | ⟨-, -, e⟩ | ⟨v, -, -, e⟩ <;> rw [e]
  exact judgePeerLost_counters _

@[simp] theorem heard_counters (p : Station) (s : State) : (s.heard p).counters = s.counters := by
  obtain ⟨roster, b, e⟩ := heard_reports p s
  rw [e, report_counters]

@[simp] theorem sourceLost_counters (s : State) (n : Nat) : (s.sourceLost n).counters = s.counters := by
  unfold State.sourceLost
  split
  · rfl
  · split
    · simp
    · rfl
    · rfl

@[simp] theorem sourceRestarted_counters (s : State) (n : Nat) : (s.sourceRestarted n).counters = s.counters := by
  unfold State.sourceRestarted
  split
  · rfl
  · split <;> simp

@[simp] theorem peerLost_counters (p : Station) (s : State) : (s.peerLost p).counters = s.counters :=
  (purge_counters p _).trans (foldl_counters sourceLost_counters _ s)

@[simp] theorem peerRestarted_counters (p : Station) (s : State) : (s.peerRestarted p).counters = s.counters :=
  (purge_counters p _).trans (foldl_counters sourceRestarted_counters _ s)

@[simp] theorem applyPresence_counters (p : Station) (c : PresenceContent) (s : State) : (s.applyPresence p c).counters = s.counters := by
  unfold State.applyPresence
  split
  · rfl
  · dsimp only
    split <;> simp

@[simp] theorem valueWritten_counters (n : Nat) (event : Bool) (s : State) : (s.valueWritten n event).counters = s.counters := by
  unfold State.valueWritten
  dsimp only
  split <;> simp

@[simp] theorem binaryTransition_counters (level : Bool) (s : State) (n : Nat) : (s.binaryTransition n level).counters = s.counters :=
  valueWritten_counters n true _

@[simp] theorem pointReading_counters (reading : Byte) (s : State) (n : Nat) : (s.pointReading reading n).counters = s.counters := by
  unfold State.pointReading
  split
  · rfl
  · split
    · rfl
    · exact valueWritten_counters n _ _
    · split
      · rfl
      · dsimp only
        split
        · rfl
        · exact binaryTransition_counters _ s n

@[simp] theorem pinReading_counters (i : Fin 16) (reading : Byte) (s : State) : (s.pinReading i reading).counters = s.counters := by
  unfold State.pinReading
  split
  · exact foldl_counters (pointReading_counters reading) _ _
  · rfl

@[simp] theorem account_counters (out : TxOutcome) (s : State) : (s.account out).counters = s.counters := by rw [account_only]

@[simp] theorem transmit_counters (s : State) : s.transmit.counters = s.counters := by
  rcases transmit_frame s with e | ⟨_, _, _, -, -, e⟩ <;> rw [e]
  rfl

@[simp] theorem enterRunning_counters (s : State) : s.enterRunning.counters = s.counters := by
  have evaluated : ∀ u : State, (u.evaluateWhere fun _ => true).counters = u.counters := fun u => (evaluateWhere_status _ u).counters
  rw [enterRunning_eq, evaluated]
  exact (fillSolicits_counters _).trans (startBurst_queue s.atRunning).status.counters

@[simp] theorem endLoad_counters (memory : List Byte) (straps : Station) (inputs : PinInputs) (s : State) :
    (s.endLoad memory straps inputs).counters = s.counters := by
  unfold State.endLoad
  split
  · rfl
  · dsimp only
    split
    · unfold State.validImage; dsimp only; split <;> rfl
    · rfl

/-! ## Counting (R175) -/

/-- From `s` to `t` the counters change by counts alone, each an increase of one of them by 1 (R175). -/
def Counts (s t : State) : Prop := ∃ counted : List CounterId, t.counters = counted.foldl Counters.bump s.counters

theorem Counts.still {s t : State} (same : t.counters = s.counters) : Counts s t := ⟨[], same⟩

theorem Counts.refl (s : State) : Counts s s := .still rfl

theorem Counts.once {s t : State} (k : CounterId) (counted : t.counters = s.counters.bump k) : Counts s t := ⟨[k], counted⟩

theorem Counts.trans {s t u : State} (h : Counts s t) (k : Counts t u) : Counts s u := by
  obtain ⟨first, ht⟩ := h
  obtain ⟨rest, hu⟩ := k
  exact ⟨first ++ rest, by rw [List.foldl_append, ← ht, hu]⟩

/-- What leaves the counters alone may follow. -/
theorem Counts.untouched {s t u : State} (h : Counts s t) (same : u.counters = t.counters) : Counts s u := h.trans (.still same)

theorem Counts.fold {α : Type} {f : State → α → State} (turn : ∀ s a, Counts s (f s a)) (l : List α) (s : State) :
    Counts s (l.foldl f s) := foldl_rel Counts .refl .trans f turn l s

theorem bump_counts (k : CounterId) (s : State) : Counts s (s.bump k) := .once k rfl

/-! ## Frames of other stations (chapters 4 to 7) -/

theorem discardFrame_counts (s : State) : Counts s s.discardFrame := .once .receiveErrors rfl

theorem countMissed_counts (stored : Option Count) (carried : Count) (s : State) : Counts s (s.countMissed stored carried) := by
  unfold State.countMissed
  split
  · exact .refl s
  · split
    · exact bump_counts _ s
    · exact .refl s

theorem acceptRecord_counts (n : Nat) (k : Kind) (m : Mirrored) (r : Record) (s : State) : Counts s (s.acceptRecord n k m r) :=
  (countMissed_counts m.count r.count s).untouched (by simp [State.acceptRecord])

theorem track_counts (p : Station) (s : State) : Counts s (s.track p).1 := by
  rcases track_cases p s with ⟨x, -, e⟩ | ⟨-, -, e⟩ | ⟨-, -, e⟩ <;> rw [e]
  · exact .refl s
  · exact .still (mustTrack_counters p s)
  · exact (bump_counts _ s).untouched (report_counters _ _ _)

theorem learn_counts (n : Nat) (p : Station) (s : State) : Counts s (s.learn n p) :=
  (track_counts p (s.updateMirrored n fun m => { m with source := some p })).untouched (keepSourcesMark_counters p _)

theorem switchSource_counts (n : Nat) (p old : Station) (s : State) : Counts s (s.switchSource n p old) :=
  (learn_counts n p s).untouched (keepSourcesMark_counters old _)

theorem ownershipConflict_counts (p : Station) (n : Nat) (s : State) : Counts s (s.ownershipConflict p n) := by
  have reported : Counts s ((s.bump .conflicts).report .conflict true) := (bump_counts _ s).untouched (report_counters _ _ _)
  unfold State.ownershipConflict
  dsimp only
  split
  · exact reported
  · split
    · exact reported
    · split
      · exact reported.untouched (claim_counters n _)
      · exact reported

theorem mirroredRecord_counts (p : Station) (n : Nat) (k : Kind) (m : Mirrored) (r : Record) (s : State) :
    Counts s (s.mirroredRecord p n k m r) := by
  rcases mirroredRecord_cases p n k m r s with ⟨-, e⟩ | ⟨-, e⟩ | ⟨old, -, -, ⟨-, e⟩ | ⟨-, e⟩ | ⟨-, e⟩⟩ <;> rw [e]
  · exact (learn_counts n p s).trans (acceptRecord_counts ..)
  · exact acceptRecord_counts ..
  · exact ((bump_counts _ s).trans (switchSource_counts n p old _)).trans (acceptRecord_counts ..)
  · exact (switchSource_counts n p old s).trans (acceptRecord_counts ..)
  · exact bump_counts _ s

theorem takeRecord_counts (p : Station) (s : State) (r : Record) : Counts s (s.takeRecord p r) := by
  rcases takeRecord_cases p s r with e | ⟨o, -, -, e⟩ | ⟨q, m, -, -, -, e⟩ | e <;> rw [e]
  · exact .refl s
  · exact ownershipConflict_counts p _ s
  · exact mirroredRecord_counts ..
  · exact bump_counts _ s

theorem takePublication_counts (p : Station) (body : List Byte) (s : State) : Counts s (s.takePublication p body) := by
  unfold State.takePublication
  split
  · exact .fold (takeRecord_counts p) _ s
  · exact bump_counts _ s

theorem takeSolicited_counters (s : State) (n : Nat) : (s.takeSolicited n).counters = s.counters := by
  unfold State.takeSolicited
  split
  · split
    · rfl
    · split
      · exact claim_counters n s
      · rfl
  · rfl

theorem takeSolicit_counts (body : List Byte) (s : State) : Counts s (s.takeSolicit body) := by
  unfold State.takeSolicit
  split
  · exact .still (foldl_counters takeSolicited_counters _ s)
  · exact bump_counts _ s

theorem takePresence_counts (p : Station) (body : List Byte) (s : State) : Counts s (s.takePresence p body) := by
  unfold State.takePresence
  split
  · split
    · exact bump_counts _ s
    · exact .still (applyPresence_counters p _ s)
  · exact .refl s

/-! ## Requests (chapter 9) -/

/-- A body of another kind than CLEAR COUNTERS clears no counter (R161, R168). -/
theorem commandOf_kept {kind : Byte} (other : kind ≠ 4) (rest : List Byte) : commandOf (kind :: rest) ≠ some .clearCounters := by
  cases rest with
  | nil => nofun
  | cons tag fields =>
    show parseCommand kind fields ≠ _
    have force : parseForce fields ≠ some .clearCounters := by
      unfold parseForce
      split
      · split
        · simp
        · nofun
      · nofun
    have release : parseRelease fields ≠ some .clearCounters := by
      unfold parseRelease
      split
      · simp
      · nofun
    have restart : parseBare Command.restart fields ≠ some .clearCounters := by
      unfold parseBare
      split <;> nofun
    unfold parseCommand
    split
    · exact force
    · split
      · exact release
      · split
        · exact restart
        · nofun

theorem performCommand_counts (p : Station) (tag : Byte) {c : Command} (kept : c ≠ .clearCounters) (s : State) :
    Counts s (s.performCommand p tag c) := by
  cases c with
  | force i value lease =>
    show Counts s (s.force p tag i value lease)
    have asked := track_counts p s
    unfold State.force
    split
    · next e => rw [e] at asked; exact asked.untouched rfl
    · next e => rw [e] at asked; exact asked.untouched (applyForce_counters ..)
  | release i => exact .still (applyRelease_counters p i s)
  | restart =>
    refine .still ?_
    show (s.requestRestart p tag).counters = _
    unfold State.requestRestart
    split <;> rfl
  | clearCounters => exact absurd rfl kept

theorem takeCommand_counts (p : Station) {body : List Byte} (kept : commandOf body ≠ some .clearCounters) (s : State) :
    Counts s (s.takeCommand p body) := by
  unfold State.takeCommand
  split
  · exact .still rfl
  · next c parsed =>
    split
    · exact .still rfl
    · exact performCommand_counts p _ (fun e => kept (e ▸ parsed)) s

theorem takeQuery_counters (p : Station) (body : List Byte) (s : State) : (s.takeQuery p body).counters = s.counters := by
  unfold State.takeQuery
  split <;> rfl

theorem filterRequest_counts {cls : RequestClass} (p d : Station) {body : List Byte}
    (kept : cls = .command → commandOf body ≠ some .clearCounters) (s : State) : Counts s (s.filterRequest cls p d body) := by
  unfold State.filterRequest
  split
  · exact bump_counts _ s
  · split
    · unfold State.takeRequest
      split
      · cases cls with
        | command => exact takeCommand_counts p (kept rfl) s
        | query => exact .still (takeQuery_counters p body s)
      · exact bump_counts _ s
    · exact .refl s

/-- The block of a frame's class counts, where the frame is no CLEAR COUNTERS (R78). -/
theorem dispatchFrame_counts {cls : FrameClass} (p d : Station) {body : List Byte}
    (kept : cls = .command → commandOf body ≠ some .clearCounters) (s : State) : Counts s (s.dispatchFrame cls p d body) := by
  cases cls with
  | urgentPublish => exact takePublication_counts p body s
  | routinePublish => exact takePublication_counts p body s
  | solicit => exact takeSolicit_counts body s
  | presence => exact takePresence_counts p body s
  | reply => exact .refl s
  | command => exact filterRequest_counts p d (fun _ => kept rfl) s
  | query => exact filterRequest_counts (cls := .query) p d nofun s

/-- The arrival of a frame counts, where the frame is no CLEAR COUNTERS (R75 to R78). -/
theorem arrive_counts {cls : FrameClass} (p d : Station) {body : List Byte}
    (kept : cls = .command → commandOf body ≠ some .clearCounters) (s : State) : Counts s (s.arrive cls p d body) := by
  unfold State.arrive
  split
  · split
    · have received : Counts s (s.endAssembly.bump .framesReceived) := .once .framesReceived rfl
      unfold State.goodFrame
      dsimp only
      split
      · exact received.untouched rfl
      · exact (received.untouched (heard_counters p _)).trans (dispatchFrame_counts p d kept _)
    · exact discardFrame_counts s
  · exact .refl s

/-! ## Pins (chapter 2) -/

theorem discardOldest_counts (i : Fin 16) (s : State) : Counts s (s.discardOldest i) := by
  unfold State.discardOldest
  split
  · exact .refl s
  · split
    · exact .refl s
    · exact .once .overrideDiscards (report_counters _ _ _)

theorem handPress_counts (i : Fin 16) (s : State) : Counts s (s.handPress i) := by
  unfold State.handPress
  split
  · exact .refl s
  · split
    · exact .still (evaluatePin_counters i _)
    · dsimp only
      split
      · exact (discardOldest_counts i s).untouched (evaluatePin_counters i _)
      · exact .still (evaluatePin_counters i _)

theorem pinTransition_counts (i : Fin 16) (level : Bool) (s : State) : Counts s (s.pinTransition i level) := by
  have transited : Counts s (s.updatePin i fun p => { p with level := some level, candidate := none }) := .still rfl
  unfold State.pinTransition
  dsimp only
  split
  · exact transited
  · split
    · exact transited.untouched (foldl_counters (binaryTransition_counters level) _ _)
    · split
      · exact transited.trans (handPress_counts _ _)
      · exact transited
    · exact transited
    · exact transited
    · exact transited

theorem samplePin_counts (levels : BitVec 16) (s : State) (i : Fin 16) : Counts s (s.samplePin levels i) := by
  unfold State.samplePin
  dsimp only
  split
  · exact .refl s
  · split
    · exact .refl s
    · split
      · exact .still rfl
      · split
        · exact pinTransition_counts i _ s
        · split
          · exact .still rfl
          · split
            · exact pinTransition_counts i _ s
            · exact .refl s

/-! ## The line (chapter 4) and the deadlines of solicitations (R113) -/

theorem stuckLine_counts (s : State) : Counts s s.stuckLine := by
  unfold State.stuckLine
  dsimp only
  split
  · exact .still (report_counters _ _ _)
  · split
    · exact Counts.untouched (t := (s.bump .receiveErrors).bump .stuckLineEpisodes) ((bump_counts _ s).trans (bump_counts _ _))
        (report_counters _ _ _)
    · exact .once .stuckLineEpisodes (report_counters _ _ _)

/-- The owner of a frame counts nothing; a REPLY may end in the REMOTE restart (R73, R166). -/
theorem ownerOutcome_counters (content : TxContent) (out : TxOutcome) {s : State}
    (started : (s.ownerOutcome content out).station ≠ .starting) :
    (s.ownerOutcome content out).counters = s.counters := by
  cases content with
  | publication urgent records => exact (publicationOutcome_queue records _ s).status.counters
  | solicit points => rfl
  | presence p => cases out <;> rfl
  | reply r =>
    cases out with
    | complete =>
      change (s.replyComplete r).station ≠ _ at started
      show (s.replyComplete r).counters = _
      unfold State.replyComplete at started ⊢
      dsimp only at started ⊢
      split
      · next restarts => rw [if_pos restarts] at started; exact absurd rfl started
      · rfl
    | lost => rfl
    | failed => rfl

theorem endFrame_counts (out : TxOutcome) {s : State} (started : (s.endFrame out).station ≠ .starting) : Counts s (s.endFrame out) := by
  cases flying : s.inFlight with
  | none => rw [endFrame_idle flying]; exact .refl s
  | some f =>
    rw [endFrame_flying flying] at started ⊢
    have ended : Counts s (s.ended out) := .once out.counter rfl
    exact (ended.untouched (account_counters out _)).untouched (ownerOutcome_counters f.content out started)

theorem solicitExpired_counts (x : Solicit) (s : State) : Counts s (s.solicitExpired x) := by
  unfold State.solicitExpired
  split
  · exact .still rfl
  · exact .once .solicitsUnanswered (fillSolicits_counters _)

end Sys2Proof.Machine
end

