-- ==== Sys2Proof/Proofs/CountersRise.lean ====
section
/-!
THEOREM. No counter falls but at a restart or a CLEAR COUNTERS (O16).
-/

namespace Sys2Proof.Machine

/-! ## Every command -/

/-- Every command after which the station is not STARTING counts, a request that can carry a CLEAR COUNTERS apart. -/
theorem exec_counts {c : Instr} {s t : State} (run : exec c s = .next t) (started : t.station ≠ .starting)
    (cleared : ∀ e p d rest, c ≠ .clearCounters e p d rest) (unknown : ∀ e k p d body, c ≠ .unknownRequestKind e k p d body) :
    Counts s t := by
  have waited : ∀ {u : State} (e : Time), Counts (s.advance e) u → Counts s u := fun e => (Counts.still rfl).trans
  have idle : ∀ e, Counts s (s.advance e) := fun e => .still rfl
  cases c <;> cases run
  case powerRestart => exact absurd rfl started
  case pinRestart e held =>
    split at started
    · exact absurd rfl started
    · next h => rw [if_neg h]; exact idle e
  case resetRelease e => exact .still (by split <;> rfl)
  case loadComplete e memory straps inputs =>
    split
    · exact .still (endLoad_counters ..)
    · exact idle e
  case loadFailed e failure straps => exact .still (by split <;> rfl)
  case joinWindowExpiry =>
    split
    · exact .still (enterRunning_counters _)
    · exact .refl s
  case lineIdleEvent e =>
    split
    · exact idle e
    · exact .still ((transmit_counters _).trans (report_counters _ _ _))
  case transmissionComplete e | contentionLost e | transmitFailure e => exact waited e (endFrame_counts _ started)
  case frameDiscarded e samples =>
    split
    · exact waited e (discardFrame_counts _)
    · exact idle e
  case duplicateDetection e =>
    split
    · exact .once .framesReceived rfl
    · exact idle e
  case urgentPublish e p _ | routinePublish e p _ | solicit e p _ | presence e p _ =>
    exact waited e (arrive_counts p _ (by nofun) _)
  case reply e p d _ | status e p d _ | pointGroup e p d _ | peer e p d _ | output e p d _ | counters e p d _ =>
    exact waited e (arrive_counts p d (by nofun) _)
  case force e p d rest | release e p d rest | restart e p d rest =>
    exact waited e (arrive_counts p d (fun _ => commandOf_kept (by decide) rest) _)
  case clearCounters e p d rest => exact absurd rfl (cleared e p d rest)
  case unknownRequestKind e k p d body => exact absurd rfl (unknown e k p d body)
  case stuckLineEpisode e =>
    split
    · exact waited e (stuckLine_counts _)
    · exact idle e
  case transmitGuardTrip e =>
    split at started
    · next halted => rw [if_pos halted]; exact idle e
    · exact absurd rfl started
  case debouncedTransition e pin level =>
    split
    · split
      · exact waited e (pinTransition_counts ..)
      · exact idle e
    · exact idle e
  case levelReading e pin reading =>
    split
    · exact .still (pinReading_counters ..)
    · exact idle e
  case refreshTimerExpiry n =>
    split
    · split
      · exact .refl s
      · exact .still (by dsimp only; split <;> rfl)
    · exact .refl s
  case stalenessDeadlineExpiry n =>
    split
    · split
      · exact .refl s
      · split
        · exact .still (by simp)
        · exact .refl s
    · exact .refl s
  case overdueTimerExpiry n =>
    split
    · split
      · exact .refl s
      · exact .still (judgeSource_counters _)
    · exact .refl s
  case solicitDeadlineExpiry n =>
    split
    · split
      · exact Counts.trans (.still rfl) (solicitExpired_counts _ _)
      · exact .refl s
    · exact .refl s
  case backoffMarkExpiry n =>
    split
    · split
      · exact .refl s
      · exact .still (fillSolicits_counters _)
    · exact .refl s
  case presenceTimerExpiry => exact .still (by split <;> rfl)
  case silentDeadlineExpiry p =>
    split
    · split
      · exact .refl s
      · exact .still (by split <;> rfl)
    · exact .refl s
  case lostDeadlineExpiry p =>
    split
    · split
      · exact .refl s
      · split
        · exact .still (by simp)
        · exact .refl s
    · exact .refl s
  case leaseExpiry i p =>
    split
    · split
      · exact .still (removeOverride_counters i p _)
      · exact .refl s
    · exact .refl s
  case quarantineTimerExpiry => exact .still (by split <;> rfl)
  case recentCommandExpiry p tag => exact .still (by split <;> rfl)
  case restartBoundExpiry =>
    split at started
    · exact absurd rfl started
    · exact .refl s
  case digitalInputSample e levels =>
    split
    · exact waited e (.fold (samplePin_counts levels) _ _)
    · exact idle e
  case dominantLevelSeen change => exact .still (by split <;> rfl)

/-! ## Counts and values (R175) -/

/-- A count steps its own counter of the list, whose order is that of the names, and leaves the others. -/
theorem bump_list (k : CounterId) (c : Counters) : (c.bump k).list = c.list.modify k.ctorIdx saturatingStep := by cases k <;> rfl

/-- No counter falls at a count. -/
theorem le_bump (k : CounterId) (c : Counters) (i : Nat) : c.list.getD i 0 ≤ (c.bump k).list.getD i 0 := by
  rw [bump_list, List.getD_eq_getElem?_getD, List.getD_eq_getElem?_getD, List.getElem?_modify]
  cases c.list[i]? with
  | none => exact BitVec.le_refl _
  | some x =>
    by_cases here : k.ctorIdx = i
    · simpa [here] using le_saturatingStep x
    · simp [here]

/-- No counter falls at counts one after another. -/
theorem le_counted (l : List CounterId) (c : Counters) (i : Nat) : c.list.getD i 0 ≤ (l.foldl Counters.bump c).list.getD i 0 := by
  induction l generalizing c with
  | nil => exact BitVec.le_refl _
  | cons k l ih => exact BitVec.le_trans (le_bump k c i) (ih _)

theorem Counts.le {s t : State} (counts : Counts s t) (i : Nat) : s.counters.list.getD i 0 ≤ t.counters.list.getD i 0 := by
  obtain ⟨l, counted⟩ := counts
  exact counted ▸ le_counted l s.counters i

/-- An increase by 1 that stops at 65535. -/
theorem saturatingStep_toNat (x : Counter) : (saturatingStep x).toNat = min 65535 (x.toNat + 1) := by
  have bound := x.isLt
  unfold saturatingStep
  split
  · next full => rw [full]; rfl
  · next below =>
    have : x.toNat ≠ 65535 := fun full => below (BitVec.eq_of_toNat_eq full)
    have one : (1 : Counter).toNat = 1 := rfl
    rw [BitVec.toNat_add, one]
    omega

/-- Settles O16: every other command changes the counters by counts alone, and no counter falls at a count. -/
theorem countersNeverFall : Obligations.CountersNeverFall :=
  ⟨fun _ _ _ run started cleared unknown i _ => (exec_counts run started cleared unknown).le i, fun _ => rfl, saturatingStep_toNat⟩

end Sys2Proof.Machine
end

