-- ==== Sys2Proof/Proofs/CommandAnswers.lean ====
section
/-!
THEOREM. RESTART and CLEAR COUNTERS (O42), and repeated commands (O43).
-/

namespace Sys2Proof.Machine

open Sys2Proof.Safety

theorem heardFrom_header (e : Time) (p : Station) (s : State) : (heardFrom e p s).header = s.header := (heardFrom_tables e p s).header

theorem heardFrom_pendingRestart (e : Time) (p : Station) (s : State) : (heardFrom e p s).pendingRestart = s.pendingRestart := by
  rw [heardFrom_tables]; rfl

/-! ## RESTART and CLEAR COUNTERS (R166 to R168) -/

theorem remoteRestartPermitted_of_header {s : State} {x : Header} (header : s.header = some x) :
    s.remoteRestartPermitted = x.remoteRestart := by rw [State.remoteRestartPermitted, header]

/-- A RESTART accepted: a reply with the restart mark, the outcome recorded, and a pending restart that keeps its bound (R166, R167). -/
theorem requestRestart_heard {e : Time} {s : State} {p : Station} (running : s.station = .running)
    (permitted : (heardFrom e p s).remoteRestartPermitted = true) (tag : Byte) :
    (heardFrom e p s).requestRestart p tag = { heardFrom e p s with
      replies := s.replies ++ [{ dest := p, tag := tag, code := .accepted, data := [], restartMark := true }]
      recent := (if s.recent.length < 8 then s.recent else s.recent.drop 1)
        ++ [{ sender := p, tag := tag, kind := .restart, outcome := .accepted, written := s.clock + e }]
      pendingRestart := some (s.pendingRestart.getD (s.clock + e + 100000)) } := by
  rw [← heardFrom_replies e p s, ← heardFrom_recent e p s, ← heardFrom_pendingRestart e p s,
    ← heardFrom_clock (by rw [running]; rfl) e p]
  exact if_pos permitted

/-- A RESTART denied: it is answered and recorded (R166). -/
theorem requestRestart_denied {s : State} (forbidden : s.remoteRestartPermitted = false) (p : Station) (tag : Byte) :
    s.requestRestart p tag = s.answer p tag .restart .denied := if_neg (Bool.eq_false_iff.mp forbidden)

/-- Settles O42: the station that has heard the frame holds header, pending restart, replies and table as before it. -/
theorem restartAndClear : Obligations.RestartAndClear := by
  intro e s p own tag asked unlisted h answered
  have running : s.station = .running := asked.1
  have restart : exec (.restart e p own [tag]) s = .next (h.requestRestart p tag) :=
    exec_command (c := .restart) asked rfl rfl rfl unlisted
  have clear : exec (.clearCounters e p own [tag]) s = .next (h.clearCounters p tag) :=
    exec_command (c := .clearCounters) asked rfl rfl rfl unlisted
  have permission : ∀ x, s.header = some x → h.remoteRestartPermitted = x.remoteRestart := fun x header =>
    remoteRestartPermitted_of_header ((heardFrom_header e p s).trans header)
  refine ⟨fun x header permitted => ?_, fun x header forbidden => ?_, ?_⟩
  · rw [restart, requestRestart_heard running ((permission x header).trans permitted)]
    cases s.pendingRestart <;> rfl
  · rw [restart, requestRestart_denied ((permission x header).trans forbidden), answer_heard running (.refl h)]
  · rw [clear, State.clearCounters, answer_heard (u := { h with counters := Counters.zero }) running rfl]

/-! ## Repeated commands (R163) -/

/-- Sender and tag alone decide which entry of the table a command finds. -/
theorem findRecent_some {p : Station} {tag : Byte} {l : List Recent} {x : Recent} (found : findRecent p tag l = some x) :
    x ∈ l ∧ x.sender = p ∧ x.tag = tag := by
  have same := List.find?_some found
  rw [Bool.and_eq_true, beq_iff_eq, beq_iff_eq] at same
  exact ⟨List.mem_of_find?_eq_some found, same⟩

theorem findRecent_none_iff (p : Station) (tag : Byte) (l : List Recent) :
    findRecent p tag l = none ↔ ∀ x ∈ l, x.sender ≠ p ∨ x.tag ≠ tag := by
  simp only [findRecent, List.find?_eq_none, Bool.and_eq_true, beq_iff_eq, not_and_or]

/-- A command found in the recent-command table is answered from there. -/
theorem exec_repeated {e : Time} {s : State} {p own : Station} (asked : Asked s p own) {body : List Byte} {c : Command} {tag : Byte}
    (fits : bodyOk body = true) (parsed : commandOf body = some c) (tagged : tagOf body = tag) {x : Recent}
    (listed : findRecent p tag s.recent = some x) :
    exec (.unknownRequestKind e .command p own body) s = .next ((heardFrom e p s).queueReply (replayOf p tag x)) := by
  have hears := asked_hears asked
  obtain ⟨running, -, number, directed, -, -, room⟩ := asked
  rw [exec_taken hears number directed room .command fits (takesRequest_running running _ _)]
  simp only [State.takeCommand, parsed, tagged, heardFrom_recent, listed]

theorem replayOf_eq (p : Station) (tag : Byte) (x : Recent) : replayOf p tag x =
    { dest := p, tag := tag, code := x.outcome, data := []
      restartMark := decide (x.kind = .restart ∧ x.outcome = .accepted) } := by
  rw [replayOf, Bool.decide_and]
  rfl

/-- Settles O43: each body is one of its kind, and the entry found answers it. -/
theorem commandRepeated : Obligations.CommandRepeated := by
  refine ⟨fun p tag l => ⟨fun x => findRecent_some, findRecent_none_iff p tag l⟩, ?_⟩
  intro e s p own tag x asked listed h replayed
  have queued : h.queueReply (replayOf p tag x) = replayed := by
    rw [State.queueReply, heardFrom_replies, replayOf_eq]
  have replays : ∀ {body : List Byte} {c : Command}, bodyOk body = true → commandOf body = some c → tagOf body = tag →
      exec (.unknownRequestKind e .command p own body) s = .next replayed := fun fits parsed tagged =>
    queued ▸ exec_repeated asked fits parsed tagged listed
  exact ⟨fun i v lease => replays rfl (commandOf_force tag i v lease) rfl, fun i => replays rfl (commandOf_release tag i) rfl,
    replays rfl rfl rfl, replays rfl rfl rfl⟩

end Sys2Proof.Machine
end

