-- ==== Sys2Proof/Proofs/BadRequests.lean ====
section
/-!
THEOREM. Bodies that fail their kind, and exactly the bodies that stand (O45).
-/

namespace Sys2Proof.Machine

open Sys2Proof.Safety

/-! ## The fields of each kind (R161) -/

theorem pinField_ne_none {b : Byte} : pinField b ≠ none ↔ b.toNat ≤ 15 := by
  unfold pinField
  split
  · next low => exact ⟨fun _ => Nat.le_of_lt_succ low, fun _ => nofun⟩
  · next high => exact ⟨fun stands => absurd rfl stands, fun low => absurd (Nat.lt_succ_of_le low) high⟩

theorem parseBare_ne_none {α : Type} (a : α) (fields : List Byte) : parseBare a fields ≠ none ↔ fields = [] := by
  cases fields <;> simp [parseBare]

theorem parseForce_ne_none (fields : List Byte) :
    parseForce fields ≠ none ↔ ∃ i v lease : Byte, fields = [i, v, lease] ∧ i.toNat ≤ 15 ∧ v.toNat ≤ 1 := by
  unfold parseForce
  split
  · next i v lease => simp [← pinField_ne_none, and_comm]
  · next other => exact ⟨fun stands => absurd rfl stands, fun ⟨i, v, lease, three, _⟩ => absurd three (other i v lease)⟩

theorem parseRelease_ne_none (fields : List Byte) : parseRelease fields ≠ none ↔ ∃ i : Byte, fields = [i] ∧ i.toNat ≤ 15 := by
  unfold parseRelease
  split
  · next i => simp [← pinField_ne_none]
  · next other => exact ⟨fun stands => absurd rfl stands, fun ⟨i, one, _⟩ => absurd one (other i)⟩

theorem parsePointGroup_ne_none (fields : List Byte) : parsePointGroup fields ≠ none ↔
    ∃ g i n : Byte, fields = [g, i, n] ∧ g.toNat ≤ 63 ∧ i.toNat ≤ 15 ∧ 1 ≤ n.toNat ∧ n.toNat ≤ 7 := by
  unfold parsePointGroup
  split
  · next g i n => simp [← pinField_ne_none, and_assoc, and_comm, and_left_comm]
  · next other => exact ⟨fun stands => absurd rfl stands, fun ⟨g, i, n, three, _⟩ => absurd three (other g i n)⟩

theorem parsePeer_ne_none (fields : List Byte) :
    parsePeer fields ≠ none ↔ ∃ q : Byte, fields = [q] ∧ 1 ≤ q.toNat ∧ q.toNat ≤ 62 := by
  unfold parsePeer
  split
  · next q => simp
  · next other => exact ⟨fun stands => absurd rfl stands, fun ⟨q, one, _⟩ => absurd one (other q)⟩

theorem parseOutput_ne_none (fields : List Byte) : parseOutput fields ≠ none ↔ ∃ i : Byte, fields = [i] ∧ i.toNat ≤ 15 := by
  unfold parseOutput
  split
  · next i => simp [← pinField_ne_none]
  · next other => exact ⟨fun stands => absurd rfl stands, fun ⟨i, one, _⟩ => absurd one (other i)⟩

theorem parseCounters_ne_none (fields : List Byte) :
    parseCounters fields ≠ none ↔ ∃ page : Byte, fields = [page] ∧ page.toNat ≤ 1 := by
  unfold parseCounters
  split
  · next page => simp
  · next other => exact ⟨fun stands => absurd rfl stands, fun ⟨page, one, _⟩ => absurd one (other page)⟩

/-! ## The bodies that stand (R161, section 11.1.3) -/

theorem parseCommand_ne_none (kind : Byte) (fields : List Byte) : parseCommand kind fields ≠ none ↔
    kind = 1 ∧ parseForce fields ≠ none ∨ kind = 2 ∧ parseRelease fields ≠ none ∨ (kind = 3 ∨ kind = 4) ∧ fields = [] := by
  unfold parseCommand
  split
  · next e => subst e; simp
  · split
    · next e => subst e; simp
    · split
      · next e => subst e; simp [parseBare_ne_none]
      · split
        · next e => subst e; simp [parseBare_ne_none]
        · simp_all

theorem parseQuery_ne_none (kind : Byte) (fields : List Byte) : parseQuery kind fields ≠ none ↔
    kind = 1 ∧ fields = [] ∨ kind = 2 ∧ parsePointGroup fields ≠ none ∨ kind = 3 ∧ parsePeer fields ≠ none
    ∨ kind = 4 ∧ parseOutput fields ≠ none ∨ kind = 5 ∧ parseCounters fields ≠ none := by
  unfold parseQuery
  split
  · next e => subst e; simp [parseBare_ne_none]
  · split
    · next e => subst e; simp
    · split
      · next e => subst e; simp
      · split
        · next e => subst e; simp
        · split
          · next e => subst e; simp
          · simp_all

/-- The command bodies that stand, each at the length of its kind with its fields in range. -/
theorem commandOf_ne_none (body : List Byte) : commandOf body ≠ none ↔ ∃ tag : Byte,
    (∃ i v lease : Byte, body = [1, tag, i, v, lease] ∧ i.toNat ≤ 15 ∧ v.toNat ≤ 1)
    ∨ (∃ i : Byte, body = [2, tag, i] ∧ i.toNat ≤ 15)
    ∨ body = [3, tag] ∨ body = [4, tag] := by
  match body with
  | [] => simp [commandOf]
  | [kind] => simp [commandOf]
  | kind :: tag :: fields =>
    rw [commandOf, parseCommand_ne_none, parseForce_ne_none, parseRelease_ne_none]
    constructor
    · rintro (⟨rfl, i, v, lease, rfl, ranges⟩ | ⟨rfl, i, rfl, range⟩ | ⟨rfl | rfl, rfl⟩)
      · exact ⟨tag, .inl ⟨i, v, lease, rfl, ranges⟩⟩
      · exact ⟨tag, .inr (.inl ⟨i, rfl, range⟩)⟩
      · exact ⟨tag, .inr (.inr (.inl rfl))⟩
      · exact ⟨tag, .inr (.inr (.inr rfl))⟩
    · rintro ⟨tag', ⟨i, v, lease, same, ranges⟩ | ⟨i, same, range⟩ | same | same⟩ <;> cases same
      · exact .inl ⟨rfl, i, v, lease, rfl, ranges⟩
      · exact .inr (.inl ⟨rfl, i, rfl, range⟩)
      · exact .inr (.inr ⟨.inl rfl, rfl⟩)
      · exact .inr (.inr ⟨.inr rfl, rfl⟩)

/-- The query bodies that stand, each at the length of its kind with its fields in range. -/
theorem queryOf_ne_none (body : List Byte) : queryOf body ≠ none ↔ ∃ tag : Byte,
    body = [1, tag]
    ∨ (∃ g i n : Byte, body = [2, tag, g, i, n] ∧ g.toNat ≤ 63 ∧ i.toNat ≤ 15 ∧ 1 ≤ n.toNat ∧ n.toNat ≤ 7)
    ∨ (∃ q : Byte, body = [3, tag, q] ∧ 1 ≤ q.toNat ∧ q.toNat ≤ 62)
    ∨ (∃ i : Byte, body = [4, tag, i] ∧ i.toNat ≤ 15)
    ∨ ∃ page : Byte, body = [5, tag, page] ∧ page.toNat ≤ 1 := by
  match body with
  | [] => simp [queryOf]
  | [kind] => simp [queryOf]
  | kind :: tag :: fields =>
    rw [queryOf, parseQuery_ne_none, parsePointGroup_ne_none, parsePeer_ne_none, parseOutput_ne_none, parseCounters_ne_none]
    constructor
    · rintro (⟨rfl, rfl⟩ | ⟨rfl, g, i, n, rfl, ranges⟩ | ⟨rfl, q, rfl, range⟩ | ⟨rfl, i, rfl, range⟩ | ⟨rfl, page, rfl, range⟩)
      · exact ⟨tag, .inl rfl⟩
      · exact ⟨tag, .inr (.inl ⟨g, i, n, rfl, ranges⟩)⟩
      · exact ⟨tag, .inr (.inr (.inl ⟨q, rfl, range⟩))⟩
      · exact ⟨tag, .inr (.inr (.inr (.inl ⟨i, rfl, range⟩)))⟩
      · exact ⟨tag, .inr (.inr (.inr (.inr ⟨page, rfl, range⟩)))⟩
    · rintro ⟨tag', same | ⟨g, i, n, same, ranges⟩ | ⟨q, same, range⟩ | ⟨i, same, range⟩ | ⟨page, same, range⟩⟩ <;> cases same
      · exact .inl ⟨rfl, rfl⟩
      · exact .inr (.inl ⟨rfl, g, i, n, rfl, ranges⟩)
      · exact .inr (.inr (.inl ⟨rfl, q, rfl, range⟩))
      · exact .inr (.inr (.inr (.inl ⟨rfl, i, rfl, range⟩)))
      · exact .inr (.inr (.inr (.inr ⟨rfl, page, rfl, range⟩)))

/-- A STATUS body holds its kind and a tag, and nothing else. -/
theorem queryOf_status_eq_none {rest : List Byte} (length : rest.length ≠ 1) : queryOf (1 :: rest) = none := by
  by_contra stands
  obtain ⟨_, same | ⟨_, _, _, same, -⟩ | ⟨_, same, -⟩ | ⟨_, same, -⟩ | ⟨_, same, -⟩⟩ := (queryOf_ne_none _).mp stands <;>
    cases same
  exact length rfl

/-! ## The refusal (R161) -/

/-- The tag of a body, 0 where it is too short to hold one. -/
theorem tagOf_eq (body : List Byte) : tagOf body = body.getD 1 0 := List.getD_eq_getElem?_getD.symm

theorem badRequest_heard (e : Time) (p : Station) (body : List Byte) (s : State) :
    (heardFrom e p s).queueReply (plainReply p (tagOf body) .badRequest) = { heardFrom e p s with
      replies := s.replies ++ [{ dest := p, tag := body.getD 1 0, code := .badRequest, data := [], restartMark := false }] } := by
  rw [State.queueReply, heardFrom_replies, tagOf_eq]
  rfl

/-- A command body that fails its kind is answered so, and nothing else comes of it. -/
theorem takeCommand_bad {body : List Byte} (bad : commandOf body = none) (p : Station) (s : State) :
    s.takeCommand p body = s.queueReply (plainReply p (tagOf body) .badRequest) := by rw [State.takeCommand, bad]

/-- A query body that fails its kind is answered so, and nothing else comes of it. -/
theorem takeQuery_bad {body : List Byte} (bad : queryOf body = none) (p : Station) (s : State) :
    s.takeQuery p body = s.queueReply (plainReply p (tagOf body) .badRequest) := by rw [State.takeQuery, bad]

/-- Settles O45: the body is judged after the frame has been heard, and the bodies that stand are those of the tables of section 11.1.3. -/
theorem badRequest : Obligations.BadRequest := by
  refine ⟨fun e s p own rest unconfigured receives number directed ok other room short length => ?_,
    fun e s p own body asked fits => ?_⟩
  · have fits : bodyOk (1 :: rest) = true := (bodyOk_iff _).mpr (Nat.succ_le_succ short)
    show exec (.unknownRequestKind e .query p own (1 :: rest)) s = _
    rw [exec_taken (hears_of_receives receives ok number other) number directed room .query fits (by rw [unconfigured]; rfl)]
    simp only [takeQuery_bad (queryOf_status_eq_none length), badRequest_heard]
    rfl
  · have hears := asked_hears asked
    obtain ⟨running, -, number, directed, -, -, room⟩ := asked
    refine ⟨fun bad => ?_, fun bad => ?_, commandOf_ne_none body, queryOf_ne_none body⟩
    · rw [exec_taken hears number directed room .command fits (takesRequest_running running _ _)]
      simp only [takeCommand_bad bad, badRequest_heard]
    · rw [exec_taken hears number directed room .query fits (takesRequest_running running _ _)]
      simp only [takeQuery_bad bad, badRequest_heard]

end Sys2Proof.Machine
end

