-- ==== Sys2Proof/Proofs/Halted.lean ====
section
/-!
THEOREM. HALTED keeps what it holds, and only a restart of POWER or PIN leaves it (O14).
-/

namespace Sys2Proof.Machine

open Sys2Proof.Safety

/-! ## What stays in HALTED -/

/-- From `s` to `t` all stays but the line state, the receive assembly, the RESET level and the LINE condition (R187). -/
def Frozen (s t : State) : Prop :=
  t = { s with line := t.line, assembly := t.assembly, resetHigh := t.resetHigh, faults := s.faults.put .line t.faults.line }

/-- The line and its condition may follow (R86, R187). -/
theorem Frozen.lineFollows (s : State) (line : LineState) (assembly : Assembly) (b : Bool) :
    Frozen s { s with line := line, assembly := assembly, faults := s.faults.put .line b } := rfl

/-- The pin and the line may move while LINE stands. -/
theorem Frozen.levels (s : State) (line : LineState) (assembly : Assembly) (resetHigh : Bool) :
    Frozen s { s with line := line, assembly := assembly, resetHigh := resetHigh } := by
  have kept : s.faults.put .line s.faults.line = s.faults := FaultSummary.put_get s.faults .line
  simp only [Frozen, kept]

theorem Frozen.refl (s : State) : Frozen s s := .levels s s.line s.assembly s.resetHigh

theorem Frozen.of_eq {s t : State} (same : t = s) : Frozen s t := same ▸ .refl t

/-! ## The blocks in HALTED -/

section
variable {s : State} (halted : s.station = .halted)
include halted

theorem dead_of_halted : s.station.live = false := by rw [halted]; rfl

/-- The clock stands (log 5). -/
theorem advance_halted (e : Time) : s.advance e = s := by rw [State.advance, if_pos halted]

/-- Nothing is assembled (R67). -/
theorem assembles_halted : s.assembles = false := by simp [State.assembles, halted, StationState.dispatches]

theorem arrive_halted (cls : FrameClass) (e : Time) (p d : Station) (body : List Byte) : (s.advance e).arrive cls p d body = s := by
  rw [advance_halted halted, arrive_unheard fun receives => ?_]
  rw [← assembles_iff, assembles_halted halted] at receives
  cases receives

theorem endFrame_halted (idle : s.inFlight = none) (out : TxOutcome) (e : Time) : (s.advance e).endFrame out = s := by
  rw [advance_halted halted, endFrame_idle idle]

/-- The line-idle event ends an episode, and the selector chooses nothing (R80, R86). -/
theorem lineIdle_frozen : Frozen s s.lineIdle := by
  have cleared : s.lineCleared = { s with line := .idle, assembly := .empty, faults := s.faults.put .line false } :=
    report_dead (s := { s with line := .idle, assembly := .empty }) (dead_of_halted halted) .line false
  have silent : s.lineCleared.choice = none := by simp [State.choice, cleared, halted]
  show Frozen s s.lineCleared.transmit
  rw [transmit_none silent, cleared]
  exact .lineFollows s _ _ _

theorem stuckLine_frozen : Frozen s s.stuckLine := by
  rw [State.stuckLine, if_pos halted, report_dead (by exact dead_of_halted halted)]
  exact .lineFollows s _ _ _

end

/-! ## Every command in HALTED -/

/-- What a command in HALTED comes to: a restart of POWER or PIN, or nothing but what the pin and the line show (R178, R187). -/
theorem exec_halted {c : Instr} {s t : State} (halted : s.station = .halted) (unloaded : s.loading = false) (idle : s.inFlight = none)
    (run : exec c s = .next t) :
    (t.station = .starting ∧ ((∃ e up high, c = .powerRestart e up high) ∨ ∃ e held, c = .pinRestart e held)) ∨ Frozen s t := by
  have still : ∀ e, s.advance e = s := advance_halted halted
  have dead : s.station.live = false := dead_of_halted halted
  have deaf : s.assembles = false := assembles_halted halted
  cases c <;> cases run
  case powerRestart e up high => exact .inl ⟨rfl, .inl ⟨e, up, high, rfl⟩⟩
  case pinRestart e held =>
    split
    · exact .inl ⟨rfl, .inr ⟨e, held, rfl⟩⟩
    · exact .inr (.of_eq (still e))
  all_goals right
  case resetRelease e =>
    have begins : (s.loading || (s.station == .starting && s.supplyAbove)) = s.loading := by simp [halted]
    rw [still]
    split
    · exact .refl s
    · rw [begins]
      exact .levels s _ _ true
  case loadComplete | loadFailed => simp [still, unloaded, Frozen.refl]
  case lineIdleEvent e =>
    rw [still]
    split
    · exact .refl s
    · exact lineIdle_frozen halted
  case transmissionComplete | contentionLost | transmitFailure => exact .of_eq (endFrame_halted halted idle _ _)
  case urgentPublish | routinePublish | solicit | presence | reply | force | release | restart | clearCounters | status | pointGroup
      | peer | output | counters | unknownRequestKind => exact .of_eq (arrive_halted halted ..)
  case frameDiscarded | duplicateDetection => simp [still, deaf, Frozen.refl]
  case stuckLineEpisode e =>
    rw [still]
    split
    · exact stuckLine_frozen halted
    · exact .refl s
  case transmitGuardTrip e => simp [still, halted, Frozen.refl]
  case dominantLevelSeen change =>
    rw [still]
    split
    · exact .levels s _ _ _
    · exact .refl s
  case debouncedTransition e pin level =>
    rw [still]
    split
    · simp [dead, Frozen.refl]
    · exact .refl s
  case levelReading | digitalInputSample => simp [still, dead, Frozen.refl]
  case stalenessDeadlineExpiry | silentDeadlineExpiry | lostDeadlineExpiry => simp [dead, Frozen.refl]
  case joinWindowExpiry | refreshTimerExpiry | overdueTimerExpiry | solicitDeadlineExpiry | backoffMarkExpiry | presenceTimerExpiry
      | leaseExpiry | quarantineTimerExpiry | recentCommandExpiry | restartBoundExpiry =>
    simp only [halted]
    exact .refl s

/-- Settles O14, by what each block does in HALTED. -/
theorem haltedIsFrozen : Obligations.HaltedIsFrozen :=
  fun _ _ _ halted unloaded idle run => exec_halted halted unloaded idle run

end Sys2Proof.Machine
end

