-- ==== Sys2Proof/Proofs/Restart.lean ====
section
/-!
THEOREM. The restarts of each cause (O18), and the RESET pin (O19).
-/

namespace Sys2Proof.Machine

open Sys2Proof.Safety

/-! ## Restarts of the other causes -/

theorem exec_transmitGuardTrip {s : State} (active : s.station ≠ .halted) (e : Time) :
    exec (.transmitGuardTrip e) s = .next ((s.advance e).restart .guard) := congrArg Host.Outcome.next (if_neg active)

theorem exec_restartBoundExpiry {s : State} {due : Time} (running : s.station = .running) (pending : s.pendingRestart = some due) :
    exec .restartBoundExpiry s = .next ((s.advanceTo due).restart .remote) := by
  change execRestartBoundExpiry s = _
  simp [execRestartBoundExpiry, running, pending]

/-- Settles O18: each command is a restart of its cause at its time. -/
theorem restartsOfOtherCauses : Obligations.RestartsOfOtherCauses := by
  refine ⟨fun e up high s => rfl, fun e s active => ?_, fun e s halted => ?_, fun s due running pending => ?_⟩
  · have clock : (s.advance e).clock = s.clock + e := if_neg active
    rw [exec_transmitGuardTrip active, State.restart, clock, State.advance_retained, afterRestart_guard]
    rfl
  · rw [show exec (.transmitGuardTrip e) s = .next (s.advance e) from congrArg Host.Outcome.next (if_pos halted), advance_halted halted]
  · rw [exec_restartBoundExpiry running pending]
    rfl

/-! ## The RESET pin -/

/-- RESET, high before, held low for 10 µs is an assertion (R176). -/
theorem asserted_iff {s : State} {held : Time} :
    (s.resetHigh && decide (Config.resetHold ≤ held)) = true ↔ s.resetHigh = true ∧ 10 ≤ held := by
  rw [Bool.and_eq_true, decide_eq_true_iff]
  rfl

theorem exec_pinRestart_asserted {s : State} {held : Time} (high : s.resetHigh = true) (hold : 10 ≤ held) (e : Time) :
    exec (.pinRestart e held) s = .next (State.restart .pin { s.advance e with resetHigh := false }) :=
  congrArg Host.Outcome.next (if_pos (asserted_iff.mpr ⟨high, hold⟩))

theorem exec_pinRestart_ignored {s : State} {held : Time} (ignored : s.resetHigh = false ∨ held < 10) (e : Time) :
    exec (.pinRestart e held) s = .next (s.advance e) := by
  refine congrArg Host.Outcome.next (if_neg fun asserted => ?_)
  obtain ⟨high, hold⟩ := asserted_iff.mp asserted
  rcases ignored with low | short
  · cases high.symm.trans low
  · exact Nat.not_lt.mpr hold short

/-- Settles O19: the assertion is a restart with RESET low, so its load waits for the release. -/
theorem resetPin : Obligations.ResetPin := by
  refine ⟨fun e held s high hold => ?_, fun e held s ignored => exec_pinRestart_ignored ignored e, fun e s low => ?_, fun e s high => ?_⟩
  · have waits : (s.supplyAbove && false) = false := Bool.and_false _
    rw [exec_pinRestart_asserted high hold, State.restart]
    dsimp only
    rw [State.advance_supplyAbove, waits]
    rfl
  · exact congrArg Host.Outcome.next (if_neg (by simp [low]))
  · exact congrArg Host.Outcome.next (if_pos high)

end Sys2Proof.Machine
end

