-- ==== Sys2Proof/Proofs/EntryToRunning.lean ====
section
/-!
THEOREM. The expiry of the join window: the entry to RUNNING (O22).
-/

namespace Sys2Proof.Machine

open Sys2Proof.Safety

/-! ## The START burst (R58) -/

/-- Points that join the urgent tail one after another stand there in that order. -/
theorem foldl_joinUrgent (l : List Nat) (s : State) : l.foldl (fun s n => s.joinUrgent n) s = { s with
    points := s.points.map fun p => if p.number ∈ l then p.mapOwned (fun o => { o with sched := .urgent }) else p
    urgent := s.urgent ++ l } := by
  induction l generalizing s with
  | nil => simp
  | cons n l ih =>
    have points : ((s.joinUrgent n).points.map fun p =>
        if p.number ∈ l then p.mapOwned (fun o => { o with sched := .urgent }) else p) = s.points.map fun p =>
          if p.number ∈ n :: l then p.mapOwned (fun o => { o with sched := .urgent }) else p := by
      simp only [State.joinUrgent, State.updateOwned, List.map_map]
      refine List.map_congr_left fun p _ => ?_
      by_cases first : p.number = n <;> by_cases later : p.number ∈ l <;> simp [first, later, Point.mapOwned_mapOwned]
    rw [List.foldl_cons, ih, points]
    simp [State.joinUrgent, State.updateOwned]

/-- The number under which an entry joins the START burst: that of an OWNED one that is not YIELDED (R58). -/
def Point.burstNumber (p : Point) : Option Nat :=
  match p.role with
  | .owned o => if o.sched = .yielded then none else some p.number
  | .mirrored _ => none

theorem startPoints_eq (l : List Point) : startPoints l = l.filterMap Point.burstNumber := by
  rw [startPoints, ← List.filterMap_eq_map, ← List.filterMap_eq_filter, List.filterMap_filterMap]
  refine List.filterMap_congr fun p _ => ?_
  obtain ⟨n, k, role⟩ := p
  cases role with
  | mirrored m => rfl
  | owned o => by_cases yielded : o.sched = .yielded <;> simp [Option.guard, Point.owned?, Point.burstNumber, yielded]

theorem Point.burstNumber_eq_some {p : Point} {n : Nat} :
    p.burstNumber = some n ↔ p.number = n ∧ ∃ o, p.role = .owned o ∧ o.sched ≠ .yielded := by
  obtain ⟨k, kind, role⟩ := p
  cases role with
  | mirrored m => simp [Point.burstNumber]
  | owned o => by_cases yielded : o.sched = .yielded <;> simp [Point.burstNumber, yielded]

/-- In a table of distinct numbers an entry's number joins exactly when the entry is OWNED and not YIELDED. -/
theorem number_mem_startPoints {l : List Point} (distinct : (l.map Point.number).Nodup) {p : Point} (hp : p ∈ l) :
    p.number ∈ startPoints l ↔ ∃ o, p.role = .owned o ∧ o.sched ≠ .yielded := by
  simp only [startPoints_eq, List.mem_filterMap, Point.burstNumber_eq_some]
  constructor
  · rintro ⟨q, hq, number, joins⟩
    rwa [← List.inj_on_of_nodup_map distinct hq hp number]
  · exact fun joins => ⟨p, hp, rfl, joins⟩

/-! ## The entries at the entry to RUNNING (R21, R58) -/

/-- An entry at the entry to RUNNING: an OWNED one that is not YIELDED is URGENT, an UNKNOWN one has its overdue timer. -/
def Point.entered (due : Time) (p : Point) : Point :=
  match p.role with
  | .owned o => if o.sched = .yielded then p else { p with role := .owned { o with sched := .urgent } }
  | .mirrored m => if m.state = .unknown then { p with role := .mirrored { m with overdueTimer := some due } } else p

theorem Point.entered_number (due : Time) (p : Point) : (p.entered due).number = p.number := by
  unfold Point.entered
  split <;> split <;> rfl

/-- The overdue timer leaves open whether a point may have a solicit entry (R109). -/
theorem Point.entered_solicitable (due : Time) (p : Point) : (p.entered due).solicitable = p.solicitable := by
  obtain ⟨n, k, role⟩ := p
  cases role with
  | owned o => by_cases yielded : o.sched = .yielded <;> simp [Point.entered, Point.solicitable, Point.mirrored?, yielded]
  | mirrored m => by_cases unknown : m.state = .unknown <;> simp [Point.entered, Point.solicitable, Point.mirrored?, unknown]

/-- The START burst and the start of the overdue timers, entry by entry. -/
theorem burst_timed_points {s : State} (distinct : (s.points.map Point.number).Nodup) (due : Time) :
    ((s.points.map fun p => if p.number ∈ startPoints s.points then p.mapOwned (fun o => { o with sched := .urgent }) else p).map
      (Point.mapMirrored fun m => if m.state = .unknown then { m with overdueTimer := some due } else m))
      = s.points.map (Point.entered due) := by
  rw [List.map_map]
  refine List.map_congr_left fun p hp => ?_
  have joins := number_mem_startPoints distinct hp
  obtain ⟨n, k, role⟩ := p
  cases role with
  | owned o =>
    have joins : n ∈ startPoints s.points ↔ o.sched ≠ .yielded := by simpa using joins
    by_cases yielded : o.sched = .yielded <;> simp [Point.entered, Point.mapOwned, Point.mapMirrored, joins, yielded]
  | mirrored m =>
    have apart : n ∉ startPoints s.points := by simpa using joins
    by_cases unknown : m.state = .unknown <;> simp [Point.entered, Point.mapMirrored, apart, unknown]

/-! ## The solicit list (R109, R110) -/

/-- A list that holds none of the points is filled with the solicitable ones while there is room, in Point Table order. -/
theorem foldl_addSolicit (points : List Point) (l : List Solicit) (distinct : (points.map Point.number).Nodup)
    (new : ∀ p ∈ points, ∀ y ∈ l, y.point ≠ p.number) : points.foldl addSolicit l =
      l ++ ((points.filter Point.solicitable).take (16 - l.length)).map fun p => newSolicit p.number := by
  induction points generalizing l with
  | nil => simp
  | cons p points ih =>
    obtain ⟨apart, distinct⟩ := List.nodup_cons.mp distinct
    have later : ∀ q ∈ points, ∀ y ∈ l, y.point ≠ q.number := fun q hq => new q (List.mem_cons_of_mem _ hq)
    rw [List.foldl_cons]
    by_cases asks : p.solicitable = true
    · rw [List.filter_cons_of_pos asks]
      by_cases room : l.length < 16
      · obtain ⟨k, left⟩ : ∃ k, 16 - l.length = k + 1 := ⟨15 - l.length, by omega⟩
        have rest : 16 - (l ++ [newSolicit p.number]).length = k := by simp; omega
        rw [addSolicit_added asks (new p List.mem_cons_self) room, ih _ distinct fun q hq y hy => ?_, rest, left]
        · simp
        · rcases List.mem_append.mp hy with hy | hy
          · exact later q hq y hy
          · rw [List.mem_singleton.mp hy]
            exact fun same => apart (List.mem_map.mpr ⟨q, hq, same.symm⟩)
      · have full : 16 - l.length = 0 := by omega
        rw [addSolicit_kept (.inr (.inr (Nat.not_lt.mp room))), ih l distinct later, full]
        simp
    · rw [List.filter_cons_of_neg asks, addSolicit_kept (.inl (Bool.eq_false_iff.mpr asks)), ih l distinct later]

/-- An empty list is filled after the START burst as before it. -/
theorem foldl_addSolicit_entered (due : Time) {l : List Point} (distinct : (l.map Point.number).Nodup) :
    (l.map (Point.entered due)).foldl addSolicit [] = ((l.filter Point.solicitable).take 16).map fun p => newSolicit p.number := by
  have numbers : (l.map (Point.entered due)).map Point.number = l.map Point.number := by
    simp [Function.comp_def, Point.entered_number]
  have asking : (l.map (Point.entered due)).filter Point.solicitable = (l.filter Point.solicitable).map (Point.entered due) := by
    simp [List.filter_map, Function.comp_def, Point.entered_solicitable]
  rw [foldl_addSolicit _ [] (numbers ▸ distinct) (by simp), asking]
  simp [List.map_take, Function.comp_def, Point.entered_number]

/-! ## The entry as a whole (R185) -/

theorem burst_timed {s : State} (distinct : (s.points.map Point.number).Nodup) : s.atRunning.startBurst.startOverdueTimers =
    { s.atRunning with
      points := s.points.map (Point.entered (s.clock + s.joinLength)), urgent := s.urgent ++ startPoints s.points } := by
  rw [State.startBurst, foldl_joinUrgent, State.startOverdueTimers]
  exact congrArg (fun l => { s.atRunning with points := l, urgent := s.urgent ++ startPoints s.points })
    (burst_timed_points distinct (s.clock + s.joinLength))

theorem evaluateWhere_all {s : State} (running : s.station = .running) :
    s.evaluateWhere (fun _ => true) = { s with outputs := s.outputs.map (Output.evaluate s.points) } := by
  rw [State.evaluateWhere, if_pos running]
  rfl

/-- The station that has entered RUNNING, as a whole. -/
theorem enterRunning_whole {s : State} (distinct : (s.points.map Point.number).Nodup) (empty : s.solicits = []) :
    let points := s.points.map (Point.entered (s.clock + s.joinLength))
    s.enterRunning = { s with
      station := .running, joinTimer := none, points := points, urgent := s.urgent ++ startPoints s.points
      solicits := ((s.points.filter Point.solicitable).take 16).map fun p => newSolicit p.number
      outputs := s.outputs.map (Output.evaluate points), presencePending := true
      presenceTimer := some (s.clock + s.period), bootCount := 0 } := by
  have asked := foldl_addSolicit_entered (s.clock + s.joinLength) distinct
  rw [← empty] at asked
  rw [enterRunning_eq, burst_timed distinct, fillSolicits_running (by rfl), evaluateWhere_all (by rfl), ← asked]
  rfl

/-! ## The join window (R121, R185) -/

theorem exec_joinWindowExpiry {s : State} {due : Time} (joining : s.station = .joining) (timer : s.joinTimer = some due) :
    exec .joinWindowExpiry s = .next (s.advanceTo due).enterRunning := by
  change execJoinWindowExpiry s = _
  simp [execJoinWindowExpiry, joining, timer]

theorem period_eq {s : State} {h : Header} (header : s.header = some h) : s.period = h.periodCode.toNat * 100000 := by
  rw [State.period, header]
  rfl

/-- Settles O22: the window ends at its time, and each block takes up its part. -/
theorem joinWindowExpiry : Obligations.JoinWindowExpiry := by
  refine ⟨fun s h => period_eq, fun s due joining timer distinct empty => ?_⟩
  rw [exec_joinWindowExpiry joining timer, enterRunning_whole (s := s.advanceTo due) distinct empty]
  refine ⟨_, rfl, rfl, rfl, rfl, ?_, rfl, rfl⟩
  exact congrArg _ (startPoints_eq s.points)

end Sys2Proof.Machine
end

