-- ==== Sys2Proof/Proofs/ValidLoad.lean ====
section
/-!
THEOREM. The load of a valid image (O20): the tables that it fills, the state that it leads to, and the layout of the image.
-/

namespace Sys2Proof.Machine

open Sys2Proof.Safety

/-! ## What a valid image says (R181, R191) -/

/-- What the fill takes from the layout and the checks of an image: every code that is used has a meaning, and a pin has one binding. -/
structure ImageFits (im : Image) : Prop where
  pins : im.pins.length = 16
  debounce : ∀ p ∈ im.pins, p.debounce < 4
  target : ∀ p ∈ im.pins, pinModeOf p.mode = .hand → p.target < 16
  rate : im.rate ≤ 2
  period : im.periodCode ≤ 20
  refreshClass : ∀ p ∈ im.points, p.mirrored = false → p.refreshClass ≤ 3
  digital : ∀ p ∈ im.points, p.mirrored = false → p.source < 16 → im.mode p.source = .inDigital → p.level = false
  bindings : (im.bindings.map ImageBinding.pin).Nodup
  fallback : ∀ b ∈ im.bindings, (∃ p ∈ im.points, p.mirrored = true ∧ p.number = b.source) → b.fallback ≤ 2

/-- No check of a valid image fails. -/
theorem checks_pass {im : Image} (valid : im.validate = .none) : ∀ check ∈ im.checks, check.2 = false := by
  have spells : List.Forall₂ Spells (im.checks.map fun check => (check.1, check.2 = true)) im.checks :=
    List.forall₂_map_left_iff.mpr (List.forall₂_same.mpr fun _ _ => ⟨rfl, .rfl⟩)
  obtain ⟨distinct, named⟩ := checks_distinct im
  have none := (firstFailing_iff spells distinct named).2.mp (validate_eq im ▸ valid)
  exact fun check listed => Bool.eq_false_iff.mpr (none _ (List.mem_map_of_mem listed))

theorem mem_owned {im : Image} {p : ImagePoint} (listed : p ∈ im.points) (owned : p.mirrored = false) : p ∈ im.owned :=
  List.mem_filter.mpr ⟨listed, by simp [owned]⟩

/-- A pin in a mode that is used is one of the pins of the image. -/
theorem lt_of_modeNumber {im : Image} {i k : Nat} (mode : im.modeNumber i = some k) : i < im.pins.length := by
  obtain ⟨p, entry, -⟩ := Option.map_eq_some_iff.mp mode
  exact (List.getElem?_eq_some_iff.mp entry).1

theorem imageFits {memory : List Byte} (valid : (parseImage memory).validate = .none) : ImageFits (parseImage memory) := by
  have pins : (parseImage memory).pins.length = 16 := by simp [parseImage]
  have debounce : ∀ p ∈ (parseImage memory).pins, p.debounce < 4 := by
    simp only [parseImage, List.forall_mem_map]
    exact fun i _ => Nat.mod_lt _ (by decide)
  have codes : ∀ b ∈ (parseImage memory).bindings, b.fallback < 4 := by
    simp only [parseImage, List.forall_mem_map]
    exact fun i _ => Nat.mod_lt _ (by decide)
  generalize parseImage memory = im at valid pins debounce codes ⊢
  have pass := checks_pass valid
  simp only [Image.checks, List.forall_mem_cons, ← Bool.not_eq_true] at pass
  obtain ⟨fieldRange, -, -, -, -, sourcePin, -, bindingPin, handTarget, -⟩ := pass
  rw [fieldRangeBad_iff] at fieldRange
  push Not at fieldRange
  obtain ⟨rate, -, period, -, -, -, owned, fallback⟩ := fieldRange
  rw [sourcePinBad_iff] at sourcePin
  rw [Image.bindingPinBad, Bool.or_eq_true, not_or, Bool.not_eq_true', decide_eq_false_iff_not, not_not] at bindingPin
  rw [handTargetBad_iff] at handTarget
  push Not at handTarget
  refine ⟨pins, debounce, fun p listed hand => ?_, rate, period, fun p listed mirrored => ?_,
    fun p listed mirrored small digital => ?_, bindingPin.2, fun b listed ⟨p, held, mirrored, number⟩ => ?_⟩
  · rw [← pins]
    exact lt_of_modeNumber (handTarget p listed ((pinModeOf_hand_iff _).mp hand))
  · exact (owned p (mem_owned listed mirrored)).2.1
  · rw [mode_inDigital_iff] at digital
    refine Bool.eq_false_iff.mpr fun level => sourcePin ⟨p, mem_owned listed mirrored, small, .inl ⟨level, ?_⟩⟩
    rw [digital]
    decide
  · have nonzero : b.source ≠ 0 := number ▸ (Nat.ne_of_gt ((validPoints valid).1 p held).1)
    have := codes b listed
    by_contra uncoded
    exact fallback b listed (by omega) nonzero p held mirrored number

/-! ## The codes of section 11.2 -/

theorem debounceOf_eq {code : Nat} (small : code < 4) : debounceOf code = [0, 5, 20, 50].getD code 0 := by
  interval_cases code <;> rfl

theorem rateOf_eq {code : Nat} (small : code ≤ 2) : [LineRate.kbit50, .kbit100, .kbit200][code]? = some (rateOf code) := by
  interval_cases code <;> rfl

theorem fallbackOf_eq (pin : Nat) {code : Nat} (small : code ≤ 2) :
    some (fallbackOf pin code) = [Fallback.hold, .off, .on][code]? := by
  interval_cases code <;> rfl

theorem sourceOf_eq_pin {code : Nat} {i : Fin 16} (same : code = i.val) : sourceOf code = .pin i := by
  rw [same, sourceOf, if_pos i.isLt, Fin.ofNat_val_eq_self]

/-! ## The tables at the fill (R6 to R9, R13, R22, R24, R139) -/

section
variable {im : Image} (inputs : PinInputs) (f : FaultSummary) {p : ImagePoint}

theorem fillPoint_role_mirrored (mirrored : p.mirrored = true) : (fillPoint im inputs f p).role = .mirrored fillMirrored :=
  if_pos mirrored

theorem fillPoint_role_owned (mirrored : p.mirrored = false) :
    (fillPoint im inputs f p).role = .owned (fillOwned im inputs f p) :=
  if_neg (by simp [mirrored])

theorem fillOwned_source : (fillOwned im inputs f p).source = sourceOf p.source := rfl

theorem fillOwned_current : (fillOwned im inputs f p).current = fillValue im inputs f p := rfl

theorem fillOwned_deadband : (fillOwned im inputs f p).deadband =
    if p.level = true ∧ p.source < 16 then some (BitVec.ofNat 8 p.deadband) else none := by
  simp [fillOwned, ImagePoint.fromPin]

theorem fillOwned_threshold : (fillOwned im inputs f p).threshold =
    if p.level = false ∧ p.source < 16 ∧ im.mode p.source = .inLevel then some p.threshold else none := by
  simp [fillOwned, ImagePoint.fromPin, and_assoc]

/-- The STATUS-sourced point takes its value from the summary (R8, R33). -/
theorem fillValue_status (source : p.source = 16) : fillValue im inputs f p = statusValue (kindOfBit p.level) f := by
  have other : p.fromPin = false := by simp [ImagePoint.fromPin, source]
  cases level : p.level <;> simp [fillValue, other, level, kindOfBit, statusValue]

/-- A level point takes the conversion (R24). -/
theorem fillValue_level (small : p.source < 16) (level : p.level = true) :
    fillValue im inputs f p = analogReading inputs p.source := by
  simp [fillValue, ImagePoint.fromPin, small, level]

/-- A binary point of a level pin takes the conversion against its threshold (R24). -/
theorem fillValue_threshold (small : p.source < 16) (binary : p.level = false) (mode : im.mode p.source = .inLevel) :
    fillValue im inputs f p = if p.threshold ≤ analogReading inputs p.source then 1 else 0 := by
  simp [fillValue, ImagePoint.fromPin, small, binary, mode, bitAt_zero]

/-- A point of a digital pin takes the level (R24). -/
theorem fillValue_digital (small : p.source < 16) (binary : p.level = false) (mode : im.mode p.source = .inDigital) :
    fillValue im inputs f p = if inputs.digital.getLsbD p.source then 1 else 0 := by
  simp [fillValue, ImagePoint.fromPin, small, binary, mode, bitAt_zero]

end

theorem getElem?_fillPins (im : Image) (inputs : PinInputs) (i : Nat) :
    (fillPins im inputs)[i]? = im.pins[i]?.map (fillPin inputs i) := by
  simp [fillPins, List.getElem?_zipIdx, Function.comp_def]

theorem mode_of_entry {im : Image} {i : Nat} {p : ImagePin} (entry : im.pins[i]? = some p) : im.mode i = pinModeOf p.mode := by
  rw [Image.mode, entry]

theorem fillPin_level (inputs : PinInputs) (i : Nat) {p : ImagePin} (mode : pinModeOf p.mode = .inDigital ∨ pinModeOf p.mode = .hand) :
    (fillPin inputs i p).level = some (inputs.digital.getLsbD i) := by
  rcases mode with mode | mode <;> simp [fillPin, mode]

theorem fillPin_reading (inputs : PinInputs) (i : Nat) {p : ImagePin} (mode : pinModeOf p.mode = .inLevel) :
    (fillPin inputs i p).reading = some (analogReading inputs i) := by
  simp [fillPin, mode]

theorem fillBinding_of_mem {im : Image} (distinct : (im.bindings.map ImageBinding.pin).Nodup) {b : ImageBinding}
    (listed : b ∈ im.bindings) : fillBinding im b.pin =
      { source := b.source, threshold := b.threshold, invert := b.invert, fallback := fallbackOf b.pin b.fallback,
        overridable := b.overridable } := by
  have found : im.bindings.find? (fun c => c.pin == b.pin) = some b := by
    cases search : im.bindings.find? (fun c => c.pin == b.pin) with
    | none => exact absurd (beq_self_eq_true b.pin) (List.find?_eq_none.mp search b listed)
    | some c =>
      have same : c.pin = b.pin := beq_iff_eq.mp (List.find?_some search :)
      rw [List.inj_on_of_nodup_map distinct (List.mem_of_find?_eq_some search) listed same]
  rw [fillBinding, found]

theorem fillBinding_of_unbound {im : Image} {i : Nat} (unbound : ∀ b ∈ im.bindings, b.pin ≠ i) :
    fillBinding im i = { source := 0, threshold := 0, invert := false, fallback := .off, overridable := false } := by
  rw [fillBinding, List.find?_eq_none.mpr fun b listed => by simpa using unbound b listed]

theorem fillOutputs_pins (im : Image) :
    (fillOutputs im).map Output.pin = (List.finRange 16).filter (fun i => decide (im.mode i.val = .out)) := by
  simp only [fillOutputs, List.map_map, Function.comp_def, List.map_id']
  exact List.filter_congr fun i _ => rfl

theorem binding_of_mem_fillOutputs {im : Image} {o : Output} (listed : o ∈ fillOutputs im) : o.binding = fillBinding im o.pin.val := by
  obtain ⟨i, -, rfl⟩ := List.mem_map.mp listed
  rfl

/-! ## The state after the load (R182, R183, R185) -/

theorem joinLength_fill {im : Image} (fits : ImageFits im) {s : State} (header : s.header = some (fillHeader im)) :
    s.joinLength = max 1000000 (2 * (im.periodCode * 100000)) := by
  have code : (fillHeader im).periodCode.toNat = im.periodCode :=
    Nat.mod_eq_of_lt (Nat.lt_of_le_of_lt fits.period (by decide))
  rw [State.joinLength, period_eq header, code]
  rfl

/-- A valid image makes of the state `s` of a load the state `t`. -/
structure Loaded (e : Time) (im : Image) (straps : Station) (inputs : PinInputs) (s t : State) : Prop where
  only : t = { s with
    clock := s.clock + e, station := t.station, loading := false, straps := some straps, number := t.number
    lineRate := t.lineRate, line := .busy, assembly := t.assembly, joinTimer := t.joinTimer, points := t.points
    pins := t.pins, outputs := t.outputs, header := t.header, error := .none, faults := t.faults }
  number : t.number = chooseNumber im straps
  joining : t.number.isSome → t.station = .joining ∧ t.faults = { s.faults with config := false } ∧ t.assembly = .ignoring
    ∧ t.joinTimer = some (s.clock + e + max 1000000 (2 * (im.periodCode * 100000)))
  halted : t.number = none → t.station = .halted ∧ t.faults = s.faults ∧ t.assembly = .empty ∧ t.joinTimer = s.joinTimer
  points : t.points = im.points.map (fillPoint im inputs t.faults)
  pins : t.pins = fillPins im inputs
  outputs : t.outputs = fillOutputs im
  lineRate : t.lineRate = some (rateOf im.rate)
  header : t.header = some (fillHeader im)

theorem loaded_validImage {im : Image} (fits : ImageFits im) (e : Time) (straps : Station) (inputs : PinInputs) {s : State}
    (starting : s.station = .starting) : Loaded e im straps inputs s ((s.advance e).validImage im straps inputs) := by
  have clock : (s.advance e).clock = s.clock + e := if_neg (by rw [starting]; decide)
  cases chosen : chooseNumber im straps with
  | none =>
    have run : (s.advance e).validImage im straps inputs
        = ((s.advance e).fill im inputs).leaveStarting straps none (rateOf im.rate) .halted := by
      rw [State.validImage, chosen]
    rw [run]
    exact ⟨by rw [← clock]; rfl, chosen.symm, nofun, fun _ => ⟨rfl, rfl, rfl, rfl⟩, rfl, rfl, rfl, rfl, rfl⟩
  | some p =>
    have run : (s.advance e).validImage im straps inputs =
        let filled := State.fill im inputs { s.advance e with faults := s.faults.put .config false }
        { filled.leaveStarting straps (some p) (rateOf im.rate) .joining with
          joinTimer := some (s.clock + e + max 1000000 (2 * (im.periodCode * 100000))) } := by
      rw [State.validImage, chosen, ← clock, ← joinLength_fill fits (s := State.fill im inputs
        { s.advance e with faults := s.faults.put .config false }) rfl]
      rfl
    rw [run]
    exact ⟨by rw [← clock]; rfl, chosen.symm, fun _ => ⟨rfl, rfl, rfl, rfl⟩, nofun, rfl, rfl, rfl, rfl, rfl⟩

theorem endLoad_valid {memory : List Byte} (complete : loadFailureOf memory = none) (valid : (parseImage memory).validate = .none)
    (straps : Station) (inputs : PinInputs) (s : State) :
    s.endLoad memory straps inputs = s.validImage (parseImage memory) straps inputs := by
  rw [State.endLoad, complete]
  dsimp only
  rw [valid]

/-! ## The layout (R191) -/

theorem byteAt_eq (memory : List Byte) (a : Nat) : byteAt memory a = memory.getD a 0 := (List.getD_eq_getElem?_getD ..).symm

theorem imagePin_eq (memory : List Byte) (a : Nat) : imagePin memory a =
    { mode := (memory.getD a 0).toNat % 8, debounce := (memory.getD a 0).toNat / 8 % 4, pullUp := (memory.getD a 0).getLsbD 5
      target := (memory.getD (a + 1) 0).toNat } := by
  simp only [imagePin, byteAt_eq, bitsOf_zero]
  rfl

theorem imagePoint_eq (memory : List Byte) (a : Nat) : imagePoint memory a =
    { number := 256 * (memory.getD a 0).toNat + (memory.getD (a + 1) 0).toNat
      mirrored := (memory.getD (a + 2) 0).getLsbD 7, level := (memory.getD (a + 2) 0).getLsbD 6
      thresholdPresent := (memory.getD (a + 2) 0).getLsbD 5, source := (memory.getD (a + 2) 0).toNat % 32
      refreshClass := (memory.getD (a + 3) 0).toNat, deadband := (memory.getD (a + 4) 0).toNat
      threshold := memory.getD (a + 5) 0 } := by
  simp only [imagePoint, byteAt_eq, bitsOf_zero]
  rfl

theorem imageBinding_eq (memory : List Byte) (a : Nat) : imageBinding memory a =
    { pin := (memory.getD a 0).toNat, source := 256 * (memory.getD (a + 1) 0).toNat + (memory.getD (a + 2) 0).toNat
      threshold := memory.getD (a + 3) 0, invert := (memory.getD (a + 4) 0).getLsbD 0
      overridable := (memory.getD (a + 4) 0).getLsbD 1, fallback := (memory.getD (a + 4) 0).toNat / 4 % 4 } := by
  simp only [imageBinding, byteAt_eq]
  rfl

theorem parseImage_eq (memory : List Byte) : parseImage memory =
    let num (i : Nat) : Nat := (memory.getD i 0).toNat
    { number := num 4, rate := num 5, periodCode := num 6, remoteRestart := (memory.getD 7 0).getLsbD 0, pointCount := num 8
      pins := (List.range 16).map fun i => imagePin memory (10 + 2 * i)
      points := (List.range (num 8)).map fun i => imagePoint memory (42 + 6 * i)
      bindings := (List.range (num 9)).map fun i => imageBinding memory (42 + 6 * num 8 + 5 * i) } := by
  simp only [parseImage, byteAt_eq]

/-! ## The statement -/

/-- Settles O20: the state after the load by `loaded_validImage`, each table by the lemma on its entries at the fill, the layout field by
field. -/
theorem loadCompleteValid : Obligations.LoadCompleteValid := by
  unfold Obligations.LoadCompleteValid
  refine ⟨fun e memory straps inputs s loading starting complete valid => ?_, fun memory => ?_⟩
  · intro im
    have fits : ImageFits im := imageFits valid
    have run : exec (.loadComplete e memory straps inputs) s = .next ((s.advance e).validImage im straps inputs) := by
      rw [exec_loadComplete loading, endLoad_valid complete valid]
    obtain ⟨only, number, joining, halted, points, pins, outputs, lineRate, header⟩ := loaded_validImage fits e straps inputs starting
    have off : OutputsOff _ := outputs ▸ outputsOff_fill im
    have binding := fun o listed => binding_of_mem_fillOutputs (im := im) (o := o) (outputs ▸ listed)
    refine ⟨_, run, only, number, joining, halted, ?_, fun i q p at_i entry => ?_, ?_, fun i p ip at_i entry => ?_, ?_,
      fun o listed => ?_, _, rateOf_eq fits.rate, lineRate, header⟩
    · rw [points, List.length_map]
    · rw [points, List.getElem?_map, entry] at at_i
      obtain rfl := Option.some.inj at_i
      have held := List.mem_of_getElem? entry
      refine ⟨rfl, rfl, fillPoint_role_mirrored _ _, fun owned => ⟨_, fillPoint_role_owned _ _ owned, ?_⟩⟩
      refine ⟨Nat.mod_eq_of_lt (Nat.lt_succ_of_le (fits.refreshClass p held owned)), rfl, rfl, rfl, rfl, rfl, rfl, rfl,
        fillOwned_deadband _ _, fillOwned_threshold _ _, fun status => ⟨?_, fillValue_status _ _ status⟩, fun pin source => ?_⟩
      · rw [fillOwned_source, status]
        rfl
      · have small : p.source < 16 := source ▸ pin.isLt
        rw [fillOwned_source, fillOwned_current, sourceOf_eq_pin source, ← source]
        exact ⟨rfl, fun mode => fillValue_digital _ _ small (fits.digital p held owned small mode) mode,
          fillValue_level _ _ small, fillValue_threshold _ _ small⟩
    · rw [pins, fillPins, List.length_map, List.length_zipIdx, fits.pins]
    · rw [pins, getElem?_fillPins, entry] at at_i
      obtain rfl := Option.some.inj at_i
      have held := List.mem_of_getElem? entry
      exact ⟨(mode_of_entry entry).symm, debounceOf_eq (fits.debounce ip held), rfl, rfl,
        fun hand => Nat.mod_eq_of_lt (fits.target ip held hand), fillPin_level inputs i, fillPin_reading inputs i⟩
    · rw [outputs, fillOutputs_pins]
    · obtain ⟨overrides, driven, held⟩ := off o listed
      refine ⟨driven, held, overrides, fun b bound pin => ?_, fun unbound => ?_⟩
      · rw [binding o listed, ← pin, fillBinding_of_mem fits.bindings bound]
        exact ⟨rfl, rfl, rfl, rfl, fallbackOf_eq _, fits.fallback b bound⟩
      · rw [binding o listed, fillBinding_of_unbound unbound]
  · simp only [parseImage_eq, imagePin_eq, imagePoint_eq, imageBinding_eq, and_self]

end Sys2Proof.Machine
end

