-- ==== Sys2Proof/Proofs/StepFront.lean ====
section
/-!
THEOREM. A step is the command at the front of the queue (O1), by the two forms of a list.
-/

namespace Sys2Proof.Machine

theorem step_of_front (c : Instr) (rest : List Instr) (s : State) :
    step { s with pending := c :: rest } = exec c { s with pending := rest } := rfl

theorem step_of_empty {s : State} (empty : s.pending = []) : step s = .next s := by
  rw [step, empty]

/-- Settles O1: the queue is a command and a rest, or it is empty. -/
theorem stepRunsFront : Obligations.StepRunsFront :=
  ⟨step_of_front, fun _ empty => step_of_empty empty⟩

end Sys2Proof.Machine
end

