-- ==== Sys2Proof/Proofs/BodyLayout.lean ====
section
/-!
THEOREM. The bodies that this station lays out read back (O59): each byte made of fields is a number, whose digits are the fields.
-/

namespace Sys2Proof.Machine

/-! ## Bytes of fields -/

/-- A bit of a byte is the binary digit of its number. -/
theorem getLsbD_of_digit {i n : Nat} {b : Bool} (inside : i < 8) (digit : n / 2 ^ i % 2 = b.toNat) :
    (BitVec.ofNat 8 n).getLsbD i = b := by
  rw [BitVec.getLsbD_ofNat, decide_eq_true inside, Bool.true_and, Nat.testBit_eq_decide_div_mod_eq, digit]
  cases b <;> rfl

/-- A number of two bytes reads back. -/
theorem be16_halves {n : Nat} (fits : n < 65536) : be16 (BitVec.ofNat 8 (n / 256)) (BitVec.ofNat 8 n) = n := by
  simp only [be16, BitVec.toNat_ofNat]
  omega

/-! ## Records (section 11.1.1) -/

theorem Kind.bit_toNat (k : Kind) : 128 * k.bit.toNat = if k = .level then 128 else 0 := by cases k <;> rfl

theorem kindOfBit_bit (k : Kind) : kindOfBit k.bit = k := by cases k <;> rfl

/-- The kind, refresh class and count of a record in one number. -/
def Record.fields (r : Record) : Nat := r.count.toNat + 32 * r.refreshClass.toNat + 128 * r.kind.bit.toNat

theorem Record.bytes_eq (r : Record) : r.bytes =
    [BitVec.ofNat 8 (r.point.toNat / 256), BitVec.ofNat 8 r.point.toNat, BitVec.ofNat 8 r.fields, r.value] := by
  have count := r.count.isLt
  have cls := r.refreshClass.isLt
  have third : bitAt 7 r.kind.bit ||| (r.refreshClass.setWidth 8 <<< 5) ||| r.count.setWidth 8 = BitVec.ofNat 8 r.fields := by
    rw [← BitVec.ofNat_toNat, ← BitVec.ofNat_toNat, bitAt_eq, ofNat_shiftLeft, BitVec.or_comm,
      BitVec.or_comm (BitVec.ofNat 8 (2 ^ 7 * _)), ← BitVec.or_assoc, ofNat_or_above (by omega), ofNat_or_above (by omega)]
    rfl
  rw [Record.bytes, third]
  rfl

theorem parseRecord_fields (r : Record) : parseRecord (BitVec.ofNat 8 (r.point.toNat / 256)) (BitVec.ofNat 8 r.point.toNat)
    (BitVec.ofNat 8 r.fields) r.value = r := by
  have count := r.count.isLt
  have cls := r.refreshClass.isLt
  have level := r.kind.bit.toNat_le
  have kind : (BitVec.ofNat 8 r.fields).getLsbD 7 = r.kind.bit :=
    getLsbD_of_digit (by decide) (by rw [Record.fields]; omega)
  have point : BitVec.ofNat 10 (be16 (BitVec.ofNat 8 (r.point.toNat / 256)) (BitVec.ofNat 8 r.point.toNat)) = r.point := by
    rw [be16_halves (by have := r.point.isLt; omega), BitVec.ofNat_toNat, BitVec.setWidth_eq]
  have cls_back : (BitVec.ofNat 8 r.fields).extractLsb' 5 2 = r.refreshClass := BitVec.eq_of_toNat_eq (by
    rw [BitVec.extractLsb'_toNat, Nat.shiftRight_eq_div_pow, BitVec.toNat_ofNat, Record.fields]; omega)
  have count_back : (BitVec.ofNat 8 r.fields).extractLsb' 0 4 = r.count := BitVec.eq_of_toNat_eq (by
    rw [BitVec.extractLsb'_toNat, Nat.shiftRight_zero, BitVec.toNat_ofNat, Record.fields]; omega)
  rw [parseRecord, point, kind, kindOfBit_bit, cls_back, count_back]

/-- Records read back one by one. -/
theorem recordsOf_bytes (records : List Record) : recordsOf (records.flatMap Record.bytes) = records := by
  induction records with
  | nil => rfl
  | cons r rest ih =>
    rw [List.flatMap_cons, Record.bytes_eq]
    exact congrArg₂ List.cons (parseRecord_fields r) ih

/-! ## Listed points (section 11.1.1) -/

/-- Listed points read back one by one, each from the low ten bits of its two bytes. -/
theorem solicitedOf_bytes (points : List Nat) (small : ∀ n ∈ points, n ≤ 1023) : solicitedOf (points.flatMap be16Bytes) = points := by
  induction points with
  | nil => rfl
  | cons n rest ih =>
    obtain ⟨head, tail⟩ := List.forall_mem_cons.mp small
    change be16 (BitVec.ofNat 8 (n / 256)) (BitVec.ofNat 8 n) % 1024 :: solicitedOf (rest.flatMap be16Bytes) = n :: rest
    rw [be16_halves (by omega), Nat.mod_eq_of_lt (by omega), ih tail]

/-! ## Presence content (section 11.1.2) -/

theorem causeOf_code (c : Cause) : causeOf c.code = c := by cases c <;> rfl

/-- The period code and both flags of a presence body in one number. -/
def PresenceContent.fields (p : PresenceContent) : Nat := p.periodCode.toNat + 64 * p.probing.toNat + 128 * p.boot.toNat

theorem PresenceContent.bytes_eq (p : PresenceContent) :
    p.bytes = [BitVec.ofNat 8 p.fields, p.cause.code, p.incarnation, p.faults] := by
  have period := p.periodCode.isLt
  have probing := p.probing.toNat_le
  rw [PresenceContent.bytes, ← BitVec.ofNat_toNat, bitAt_eq, bitAt_eq, ofNat_or_above (by omega), ofNat_or_above (by omega)]
  rfl

theorem parsePresence_bytes (p : PresenceContent) (low : 1 ≤ p.periodCode.toNat) (high : p.periodCode.toNat ≤ 20) :
    parsePresence p.bytes = some p := by
  have probing := p.probing.toNat_le
  have flagged := p.boot.toNat_le
  have code : (BitVec.ofNat 8 p.fields).toNat % 32 = p.periodCode.toNat := by
    rw [BitVec.toNat_ofNat, PresenceContent.fields]
    omega
  have period : (BitVec.ofNat 8 p.fields).extractLsb' 0 5 = p.periodCode := BitVec.eq_of_toNat_eq (by
    rw [BitVec.extractLsb'_toNat, Nat.shiftRight_zero, code])
  have boot : (BitVec.ofNat 8 p.fields).getLsbD 7 = p.boot :=
    getLsbD_of_digit (by decide) (by rw [PresenceContent.fields]; omega)
  have flag : (BitVec.ofNat 8 p.fields).getLsbD 6 = p.probing :=
    getLsbD_of_digit (by decide) (by rw [PresenceContent.fields]; omega)
  rw [PresenceContent.bytes_eq, parsePresence_four, if_pos (code ▸ ⟨low, high⟩), period, boot, flag, causeOf_code]

/-! ## The statement -/

/-- Settles O59: each body by its fields, and a byte of flags as the sum of its bits. -/
theorem bodiesReadBack : Obligations.BodiesReadBack := by
  refine ⟨recordsOf_bytes, solicitedOf_bytes, parsePresence_bytes, fun r => ?_, fun p => ?_, fun _ => rfl, fun r => ?_,
    FaultSummary.byte_eq⟩
  · rw [Record.bytes_eq, Record.fields, Kind.bit_toNat]
  · rw [PresenceContent.bytes_eq]
    cases p.cause <;> rfl
  · rw [Reply.body]
    cases r.code <;> rfl

end Sys2Proof.Machine
end
